-- ==== Sys2Proof/Word.lean ====
section
/-! DEFINITION. The widths of this hardware (spec/00_scope.md R8, spec/10_state.md R20). -/

namespace Sys2Proof

/-- A 32-bit value: XLEN, a virtual or physical address, a CSR entry (R8). -/
abbrev Word := BitVec 32

/-- A byte, the unit of memory (R80). -/
abbrev Byte := BitVec 8

/-- A 16-bit fetch parcel (R93). -/
abbrev Half := BitVec 16

/-- A 64-bit value: a floating-point register, `cycle`, `mtime`, the widest port access (R8, R84). -/
abbrev DWord := BitVec 64

/-- A register number of either file, `x0`-`x31` or `f0`-`f31` (R21, R25). -/
abbrev Reg := BitVec 5

/-- A 3-bit "prime" register field of a compressed instruction (R150). -/
abbrev PrimeReg := BitVec 3

/-- A CSR number (R31). -/
abbrev CsrNum := BitVec 12

end Sys2Proof
end

