-- ==== Sys2Proof/Config.lean ====
section
/-! DEFINITION. What an implementation fixes (the parameters of spec/00_scope.md R9 and the device list of
spec/20_memory.md R88) and the values the spec leaves to the environment (spec/70_reset_and_hazards.md R522). -/

namespace Sys2Proof

/-- The kinds of memory device the spec names (R83). `other` stands for the host FIFO and for any device whose
insides the spec does not give (R5, R89). -/
inductive DeviceKind where
  | ram
  | rom
  | clint
  | debugPrint
  | other
deriving DecidableEq, Repr

/-- One memory device: "declares a base address and length" (R82), each a `u32` (R83). -/
structure Device where
  base : Word
  size : Word
  kind : DeviceKind
deriving DecidableEq, Repr

/-- The parameters of R9, each under the spec's name in camel case, and the device list of R88. `CLINT_BASE` is
the base of the device of kind `clint`. `TIME_BASE` has no field: no rule depends on it (R9; log entry 4). -/
structure Config where
  /-- `NUM_HARTS`, at least 1. -/
  numHarts : Nat
  /-- `RESET_PC`, even. -/
  resetPc : Word
  /-- `IRQ_CHECK_PERIOD`, at least 1. -/
  irqCheckPeriod : Nat
  /-- `HAS_FLD_FSD`. -/
  hasFldFsd : Bool
  /-- `TLB_FLUSH_ON_SATP_WRITE`. -/
  tlbFlushOnSatpWrite : Bool
  /-- `VECTOR_EXCEPTIONS`. -/
  vectorExceptions : Bool
  /-- `EBREAK_TRAPS`. -/
  ebreakTraps : Bool
  /-- `BREAK_HINT_WORD`, a word or none. -/
  breakHintWord : Option Word
  /-- `FRM_WIRED`. -/
  frmWired : Bool
  /-- `MISA_VALUE`. -/
  misaValue : Word
  /-- The Physical Memory Space's devices, in the collection's order (R82, R88). -/
  devices : List Device
deriving DecidableEq, Repr

/-- A configuration with the defaults of R9, given its reset pc and CLINT base. The device list is the
platform of R88 and R502: ROM at the reset pc, 8 MiB of RAM at `0x8000_0000`, the 64 KiB CLINT window. The
64 KiB of ROM, `NUM_HARTS = 1` and `IRQ_CHECK_PERIOD = 1` are DESIGN CHOICE (log entries 1, 2 and 3), and so is leaving out
the debug-print device and the component FIFO, whose addresses R88 does not give (log entries 12 and 23). -/
def Config.platform (resetPc clintBase : Word) : Config where
  numHarts := 1
  resetPc := resetPc
  irqCheckPeriod := 1
  hasFldFsd := true
  tlbFlushOnSatpWrite := false
  vectorExceptions := false
  ebreakTraps := false
  breakHintWord := some 0x00102033#32
  frmWired := true
  misaValue := 0x40143125#32
  devices :=
    [ { base := resetPc, size := 0x10000#32, kind := .rom }
    , { base := 0x80000000#32, size := 0x800000#32, kind := .ram }
    , { base := clintBase, size := 0x10000#32, kind := .clint } ]

/-- The configuration of `State.reset`: the defaults of R9 (`RESET_PC = 0x2000_0000`,
`CLINT_BASE = 0x0200_0000`). -/
def Config.default : Config := Config.platform 0x20000000#32 0x02000000#32

/-- A word of the SLT row: the words among which R142, R163 and R267 place the Break hint. -/
def Config.isSltWord (w : Word) : Bool :=
  w.extractLsb' 0 7 == 0x33#7 && w.extractLsb' 12 3 == 2#3 && w.extractLsb' 25 7 == 0#7

/-- Two devices claim no common address (R82: "Device ranges must not overlap"). -/
def Device.disjoint (d e : Device) : Bool :=
  decide (d.base.toNat + d.size.toNat ≤ e.base.toNat) || decide (e.base.toNat + e.size.toNat ≤ d.base.toNat)

/-- No two devices of the list overlap; U4 lets a model refuse other lists (log entry 22). -/
def Config.noOverlap : List Device → Bool
  | [] => true
  | d :: ds => ds.all (Device.disjoint d) && Config.noOverlap ds

/-- The ranges R9 gives for the parameters, R163's placing of the Break hint over the SLT row, and R82's
non-overlapping devices. -/
def Config.wf (c : Config) : Bool :=
  decide (1 ≤ c.numHarts) && decide (1 ≤ c.irqCheckPeriod) && !c.resetPc.getLsbD 0 &&
    (match c.breakHintWord with
     | none => true
     | some w => Config.isSltWord w) &&
    Config.noOverlap c.devices

/-! The free values: one draw from the environment for each number of `State.draws` (R522; log entry 5). -/

/-- The wall clock at the given draw. The model takes the later of it and the clock's last value: "non-decreasing"
(R51, R462). -/
opaque Config.freeMtime : Nat → DWord

/-- The machine external interrupt line at the given draw (R463). -/
opaque Config.freeMeip : Nat → Bool

/-- Whether an optional interrupt check happens at the given boundary (R471). -/
opaque Config.freeCheck : Nat → Bool

/-- Which running hart takes the next step (R119). -/
opaque Config.freeHart : Nat → Nat

/-- What a device whose insides the spec does not give answers to a read (R89, U13). -/
opaque Config.freeReply : Nat → DWord

end Sys2Proof
end

