-- ==== Sys2Proof/Machine/State.lean ====
section
/-! DEFINITION. The state of the VM and its harts (spec/10_state.md R20-R69), the reasons a step can stop, and
the state after reset (R75). -/

namespace Sys2Proof.Machine

/-- The privilege modes, also the levels traps are taken to (R28, R458). -/
inductive Priv where
  | u
  | s
  | m
deriving DecidableEq, Repr

/-- The access types of `translate` (R95). -/
inductive AccessKind where
  | r
  | w
  | x
deriving DecidableEq, Repr

/-- One entry of the translation cache (R65). -/
structure TlbEntry where
  valid : Bool
  vpage : BitVec 20
  ppage : BitVec 20
deriving DecidableEq, Repr

/-- The three entries of one privilege mode (R65). -/
structure TlbRow where
  r : TlbEntry
  w : TlbEntry
  x : TlbEntry
deriving DecidableEq, Repr

/-- The nine entries, one per privilege mode and access type (R65). -/
structure Tlb where
  u : TlbRow
  s : TlbRow
  m : TlbRow
deriving DecidableEq, Repr

/-- The trap registers of one level: `xtvec`, `xscratch`, `xepc`, `xcause`, `xtval` (R45-R49). -/
structure TrapRegs where
  tvec : Word
  scratch : Word
  epc : Word
  cause : Word
  tval : Word
deriving DecidableEq, Repr

/-- One hart (R20). `sstatus`, `ustatus`, `sie`, `uie`, `sip`, `uip`, `fflags`, `frm` and the counter CSRs are views
of these fields, computed in Machine/Csr.lean. -/
structure Hart where
  /-- The hart's index in the VM, read as `mhartid` (R38). -/
  hartid : Nat
  /-- `x[0]` to `x[31]` (R21); `x[0]` is read through `State.readX`, which answers 0. -/
  x : Vector Word 32
  /-- `f[0]` to `f[31]`, 64 bits each (R25). -/
  f : Vector DWord 32
  /-- The address of the instruction being executed, and between steps of the next one (R23). -/
  pc : Word
  /-- R28. -/
  priv : Priv
  /-- R29. -/
  cycle : DWord
  /-- R30. -/
  mtimecmp : DWord
  /-- The stored fields of `mstatus`; `SD` is computed on reading (R34). -/
  mstatus : Word
  /-- R41. -/
  mie : Word
  /-- The software-written bits of `mip` (R42). -/
  mipSw : Word
  /-- R39. -/
  medeleg : Word
  mideleg : Word
  /-- R40. -/
  sedeleg : Word
  sideleg : Word
  /-- `mtvec`, `mscratch`, `mepc`, `mcause`, `mtval`. -/
  mtrap : TrapRegs
  /-- `stvec`, `sscratch`, `sepc`, `scause`, `stval`. -/
  strap : TrapRegs
  /-- `utvec`, `uscratch`, `uepc`, `ucause`, `utval`. -/
  utrap : TrapRegs
  /-- R52. -/
  mcounteren : Word
  scounteren : Word
  /-- R50. -/
  satp : Word
  /-- Bits 7:0 of `fcsr`; the others read 0 (R60). -/
  fcsr : BitVec 8
  /-- The CSR numbers without a function: number and value, numbers rising, no value 0 (R31). -/
  csrs : List (Nat × Word)
  /-- R65. -/
  tlb : Tlb
  /-- Set by Break, cleared by the host (R67, R266). -/
  halted : Bool
  /-- Instruction steps since the last interrupt check (R67, R471). -/
  sinceCheck : Nat
  /-- This hart's software-interrupt-pending bit, held in the CLINT (R68, R461). -/
  msip : Bool
  /-- This hart's external interrupt line as last sampled (R11, R463). -/
  meip : Bool
deriving DecidableEq, Repr

/-- RAM and ROM contents: address and byte, addresses rising, no byte equal to `Memory.unlisted` (R82, R502). -/
abbrev Memory := List Host.Cell

/-- What a byte no entry lists reads as: fresh RAM reads as zero (R502). For a ROM whose image is not given the zero is
DESIGN CHOICE (log entry 7). -/
def Memory.unlisted : Byte := 0#8

/-- What reached a device whose insides the spec does not give (R5, R89; log entry 13). -/
inductive IoEvent where
  /-- `n` bytes read at physical address `pa`, answered by `v`. -/
  | read (pa : Word) (n : Nat) (v : DWord)
  /-- The low `n` bytes of `v` written at physical address `pa`. -/
  | write (pa : Word) (n : Nat) (v : DWord)
  /-- The debug-print device emitted a character (R89). -/
  | printed (c : Byte)
deriving DecidableEq, Repr

/-- The VM: its harts and what they share (R20, R68). -/
structure State where
  /-- The parameters of R9; no step changes them (log entry 21). -/
  cfg : Config
  /-- The hart that took the last step; an instruction's meaning acts on it. -/
  hart : Hart
  /-- The other harts (R480). -/
  others : List Hart
  /-- The contents of RAM and ROM. -/
  mem : Memory
  /-- The VM's wall clock (R68, R462). -/
  mtime : DWord
  /-- Whether an AMO holds the VM-wide lock (R66, R110). -/
  amoLock : Bool
  /-- Newest first; the model's own record (log entry 13). -/
  io : List IoEvent
  /-- How many free values have been drawn; the model's own counter (log entry 5). -/
  draws : Nat
deriving DecidableEq, Repr

/-- Why the VM stops. -/
inductive Fault where
  /-- Raised by `step` when every hart is halted: "While `halted = 1` the hart takes no step of any kind" (R266).
  Safe: the hardware takes no step either until the host resumes a hart (log entry 11). -/
  | stopped
deriving DecidableEq, Repr

/-- Why the model gives an instruction no meaning. -/
inductive Refusal where
  /-- Raised by `exec` alone, in the arm of an instruction that has no meaning yet. Safe. No arm raises it now. -/
  | notModelled (mnemonic : String)
deriving DecidableEq, Repr

/-- An invalid translation-cache entry; its pages are DESIGN CHOICE (log entry 6). -/
def TlbEntry.empty : TlbEntry := { valid := false, vpage := 0#20, ppage := 0#20 }

def TlbRow.empty : TlbRow := { r := .empty, w := .empty, x := .empty }

def Tlb.empty : Tlb := { u := .empty, s := .empty, m := .empty }

def TrapRegs.zero : TrapRegs := { tvec := 0#32, scratch := 0#32, epc := 0#32, cause := 0#32, tval := 0#32 }

/-- Hart `i` after reset: the table of R75. The line `meip` is DESIGN CHOICE (log entry 6). -/
def Hart.reset (cfg : Config) (i : Nat) : Hart where
  hartid := i
  x := Vector.replicate 32 0#32
  f := Vector.replicate 32 0#64
  pc := cfg.resetPc
  priv := .m
  cycle := 0#64
  mtimecmp := 0#64
  mstatus := 0#32
  mie := 0#32
  mipSw := 0#32
  medeleg := 0#32
  mideleg := 0#32
  sedeleg := 0#32
  sideleg := 0#32
  mtrap := .zero
  strap := .zero
  utrap := .zero
  mcounteren := 0#32
  scounteren := 0#32
  satp := 0#32
  fcsr := 0#8
  csrs := []
  tlb := .empty
  halted := false
  sinceCheck := 0
  msip := false
  meip := false

/-- The harts numbered `i` to `i + n - 1` after reset. -/
def Hart.resetFrom (cfg : Config) (i : Nat) : Nat → List Hart
  | 0 => []
  | n + 1 => Hart.reset cfg i :: Hart.resetFrom cfg (i + 1) n

/-- The VM after reset under a configuration (R75, R480, R500). `mtime`, `draws` and `io` are DESIGN CHOICE (log
entries 5, 6 and 13), and so are a ROM's zero bytes (log entry 7). -/
def State.resetWith (cfg : Config) : State where
  cfg := cfg
  hart := Hart.reset cfg 0
  others := Hart.resetFrom cfg 1 (cfg.numHarts - 1)
  mem := []
  mtime := 0#64
  amoLock := false
  io := []
  draws := 0

/-- The VM right after reset, with the default parameters (R9, R75). -/
def State.reset : State := State.resetWith Config.default

end Sys2Proof.Machine
end

