-- ==== Sys2Proof/Machine/Cause.lean ====
section
/-! DEFINITION. The causes of traps and their codes (spec/60_exceptions.md R440, R460), and the privilege levels as
numbers (spec/00_scope.md R8). -/

namespace Sys2Proof.Machine

/-- The exceptions of R440 that something raises; codes 0, 4 and 6 are never raised. -/
inductive Exception where
  | instructionAccessFault
  | illegalInstruction
  | breakpoint
  | loadAccessFault
  | storeAmoAccessFault
  | envCallFromU
  | envCallFromS
  | envCallFromM
  | instructionPageFault
  | loadPageFault
  | storeAmoPageFault
deriving DecidableEq, Repr

/-- The nine interrupt sources of R460. -/
inductive Interrupt where
  | userSoftware
  | supervisorSoftware
  | machineSoftware
  | userTimer
  | supervisorTimer
  | machineTimer
  | userExternal
  | supervisorExternal
  | machineExternal
deriving DecidableEq, Repr

/-- What a trap is taken for (R69, R450). -/
inductive Cause where
  | exception (e : Exception)
  | interrupt (i : Interrupt)
deriving DecidableEq, Repr

/-- The codes of R440. -/
def Exception.code : Exception → Nat
  | .instructionAccessFault => 1
  | .illegalInstruction => 2
  | .breakpoint => 3
  | .loadAccessFault => 5
  | .storeAmoAccessFault => 7
  | .envCallFromU => 8
  | .envCallFromS => 9
  | .envCallFromM => 11
  | .instructionPageFault => 12
  | .loadPageFault => 13
  | .storeAmoPageFault => 15

/-- The codes of R460, also the bit positions in `mip`, `mie`, `mideleg` and `sideleg`. -/
def Interrupt.code : Interrupt → Nat
  | .userSoftware => 0
  | .supervisorSoftware => 1
  | .machineSoftware => 3
  | .userTimer => 4
  | .supervisorTimer => 5
  | .machineTimer => 7
  | .userExternal => 8
  | .supervisorExternal => 9
  | .machineExternal => 11

/-- The code of R452, without the interrupt bit. -/
def Cause.code : Cause → Nat
  | .exception e => e.code
  | .interrupt i => i.code

/-- `intr` of R450. -/
def Cause.isInterrupt : Cause → Bool
  | .exception _ => false
  | .interrupt _ => true

/-- The word written to `xcause`: `(intr << 31) | code` (R48, R452). -/
def Cause.word (c : Cause) : Word :=
  (if c.isInterrupt then 0x80000000#32 else 0#32) ||| BitVec.ofNat 32 c.code

/-- The order of the search of R470. -/
def Interrupt.searchOrder : List Interrupt :=
  [.machineExternal, .machineSoftware, .machineTimer,
   .supervisorExternal, .supervisorSoftware, .supervisorTimer,
   .userExternal, .userSoftware, .userTimer]

/-- U = 0, S = 1, M = 3 (R8). -/
def Priv.level : Priv → Nat
  | .u => 0
  | .s => 1
  | .m => 3

/-- The two bits of `MPP` (R34). -/
def Priv.toBits : Priv → BitVec 2
  | .u => 0#2
  | .s => 1#2
  | .m => 3#2

/-- The mode of `MPP`. The value 2 is never held (R34); it is read as U, as a write of it is (log entry 15). -/
def Priv.ofBits (b : BitVec 2) : Priv :=
  match b.toNat with
  | 1 => .s
  | 3 => .m
  | _ => .u

/-- The higher of two levels (R451, last line). -/
def Priv.max (a b : Priv) : Priv := if a.level < b.level then b else a

/-- `PageFault(acc, va)` of R103. -/
def AccessKind.pageFault : AccessKind → Exception
  | .r => .loadPageFault
  | .w => .storeAmoPageFault
  | .x => .instructionPageFault

/-- The access fault of an access's kind (R86). -/
def AccessKind.accessFault : AccessKind → Exception
  | .r => .loadAccessFault
  | .w => .storeAmoAccessFault
  | .x => .instructionAccessFault

end Sys2Proof.Machine
end

