-- ==== Sys2Proof/Syntax.lean ====
section
/-! DEFINITION. The instructions: one constructor for each row of spec/opcode_table.json. Register numbers and
immediates are the encoded fields; the value of an immediate is computed in Machine/Operands.lean. -/

namespace Sys2Proof

/-- The values of an OP-FP `rm` field that are not reserved (spec/47_f_float.md R342). -/
inductive Rm where
  | rne
  | rtz
  | rdn
  | rup
  | rmm
  | dyn
deriving DecidableEq, Repr

/-- The 127 instructions. Branch and jump offsets are held without their fixed zero bit 0 (R136, R138, R151), the
scaled compressed offsets without their fixed low zeros (R151). -/
inductive Instr where
  -- LUI, AUIPC, control transfer (R171, R172, R222-R229)
  | lui (rd : Reg) (imm20 : BitVec 20)
  | auipc (rd : Reg) (imm20 : BitVec 20)
  | jal (rd : Reg) (off : BitVec 20)
  | jalr (rd rs1 : Reg) (imm : BitVec 12)
  | beq (rs1 rs2 : Reg) (off : BitVec 12)
  | bne (rs1 rs2 : Reg) (off : BitVec 12)
  | blt (rs1 rs2 : Reg) (off : BitVec 12)
  | bge (rs1 rs2 : Reg) (off : BitVec 12)
  | bltu (rs1 rs2 : Reg) (off : BitVec 12)
  | bgeu (rs1 rs2 : Reg) (off : BitVec 12)
  -- integer loads and stores (R242-R249)
  | lb (rd rs1 : Reg) (imm : BitVec 12)
  | lh (rd rs1 : Reg) (imm : BitVec 12)
  | lw (rd rs1 : Reg) (imm : BitVec 12)
  | lbu (rd rs1 : Reg) (imm : BitVec 12)
  | lhu (rd rs1 : Reg) (imm : BitVec 12)
  | sb (rs1 rs2 : Reg) (imm : BitVec 12)
  | sh (rs1 rs2 : Reg) (imm : BitVec 12)
  | sw (rs1 rs2 : Reg) (imm : BitVec 12)
  -- OP-IMM (R173-R181)
  | addi (rd rs1 : Reg) (imm : BitVec 12)
  | slti (rd rs1 : Reg) (imm : BitVec 12)
  | sltiu (rd rs1 : Reg) (imm : BitVec 12)
  | xori (rd rs1 : Reg) (imm : BitVec 12)
  | ori (rd rs1 : Reg) (imm : BitVec 12)
  | andi (rd rs1 : Reg) (imm : BitVec 12)
  | slli (rd rs1 : Reg) (shamt : BitVec 5)
  | srli (rd rs1 : Reg) (shamt : BitVec 5)
  | srai (rd rs1 : Reg) (shamt : BitVec 5)
  -- OP (R182-R191) and the Break hint (R267)
  | add (rd rs1 rs2 : Reg)
  | sub (rd rs1 rs2 : Reg)
  | sll (rd rs1 rs2 : Reg)
  | slt (rd rs1 rs2 : Reg)
  | sltu (rd rs1 rs2 : Reg)
  | xor (rd rs1 rs2 : Reg)
  | srl (rd rs1 rs2 : Reg)
  | sra (rd rs1 rs2 : Reg)
  | or (rd rs1 rs2 : Reg)
  | and (rd rs1 rs2 : Reg)
  | breakHint
  -- M (R301-R308)
  | mul (rd rs1 rs2 : Reg)
  | mulh (rd rs1 rs2 : Reg)
  | mulhsu (rd rs1 rs2 : Reg)
  | mulhu (rd rs1 rs2 : Reg)
  | div (rd rs1 rs2 : Reg)
  | divu (rd rs1 rs2 : Reg)
  | rem (rd rs1 rs2 : Reg)
  | remu (rd rs1 rs2 : Reg)
  -- MISC-MEM and SYSTEM (R260-R268, R283-R288); the ignored fields of the fences are kept so that no bit is lost
  | fence (fm pred succ : BitVec 4) (rs1 rd : Reg)
  | fenceI (imm : BitVec 12) (rs1 rd : Reg)
  | ecall
  | ebreak
  | uret
  | sret
  | mret
  | csrrw (rd rs1 : Reg) (csr : CsrNum)
  | csrrs (rd rs1 : Reg) (csr : CsrNum)
  | csrrc (rd rs1 : Reg) (csr : CsrNum)
  | csrrwi (rd : Reg) (uimm : BitVec 5) (csr : CsrNum)
  | csrrsi (rd : Reg) (uimm : BitVec 5) (csr : CsrNum)
  | csrrci (rd : Reg) (uimm : BitVec 5) (csr : CsrNum)
  -- A subset (R322-R330)
  | amoswapW (rd rs1 rs2 : Reg) (aq rl : Bool)
  | amoaddW (rd rs1 rs2 : Reg) (aq rl : Bool)
  | amoxorW (rd rs1 rs2 : Reg) (aq rl : Bool)
  | amoandW (rd rs1 rs2 : Reg) (aq rl : Bool)
  | amoorW (rd rs1 rs2 : Reg) (aq rl : Bool)
  | amominW (rd rs1 rs2 : Reg) (aq rl : Bool)
  | amomaxW (rd rs1 rs2 : Reg) (aq rl : Bool)
  | amominuW (rd rs1 rs2 : Reg) (aq rl : Bool)
  | amomaxuW (rd rs1 rs2 : Reg) (aq rl : Bool)
  -- F subset, FLD and FSD (R346-R369)
  | flw (frd rs1 : Reg) (imm : BitVec 12)
  | fsw (rs1 frs2 : Reg) (imm : BitVec 12)
  | fld (frd rs1 : Reg) (imm : BitVec 12)
  | fsd (rs1 frs2 : Reg) (imm : BitVec 12)
  | faddS (frd frs1 frs2 : Reg) (rm : Rm)
  | fsubS (frd frs1 frs2 : Reg) (rm : Rm)
  | fmulS (frd frs1 frs2 : Reg) (rm : Rm)
  | fdivS (frd frs1 frs2 : Reg) (rm : Rm)
  | fsqrtS (frd frs1 : Reg) (rm : Rm)
  | fsgnjS (frd frs1 frs2 : Reg)
  | fsgnjnS (frd frs1 frs2 : Reg)
  | fsgnjxS (frd frs1 frs2 : Reg)
  | fminS (frd frs1 frs2 : Reg)
  | fmaxS (frd frs1 frs2 : Reg)
  | fcvtWS (rd frs1 : Reg) (rm : Rm)
  | fcvtWuS (rd frs1 : Reg) (rm : Rm)
  | fmvXW (rd frs1 : Reg)
  | fclassS (rd frs1 : Reg)
  | feqS (rd frs1 frs2 : Reg)
  | fltS (rd frs1 frs2 : Reg)
  | fleS (rd frs1 frs2 : Reg)
  | fcvtSW (frd rs1 : Reg) (rm : Rm)
  | fcvtSWu (frd rs1 : Reg) (rm : Rm)
  | fmvWX (frd rs1 : Reg)
  -- C, quadrant 0 (R392-R398)
  | cAddi4spn (rd' : PrimeReg) (nzuimm : BitVec 8)
  | cFld (frd' rs1' : PrimeReg) (uimm : BitVec 5)
  | cLw (rd' rs1' : PrimeReg) (uimm : BitVec 5)
  | cFlw (frd' rs1' : PrimeReg) (uimm : BitVec 5)
  | cFsd (rs1' frs2' : PrimeReg) (uimm : BitVec 5)
  | cSw (rs1' rs2' : PrimeReg) (uimm : BitVec 5)
  | cFsw (rs1' frs2' : PrimeReg) (uimm : BitVec 5)
  -- C, quadrant 1 (R400-R415)
  | cNop (imm : BitVec 6)
  | cAddi (rd : Reg) (imm : BitVec 6)
  | cJal (off : BitVec 11)
  | cLi (rd : Reg) (imm : BitVec 6)
  | cAddi16sp (imm : BitVec 6)
  | cLui (rd : Reg) (imm : BitVec 6)
  | cSrli (rd' : PrimeReg) (shamt : BitVec 5)
  | cSrai (rd' : PrimeReg) (shamt : BitVec 5)
  | cAndi (rd' : PrimeReg) (imm : BitVec 6)
  | cSub (rd' rs2' : PrimeReg)
  | cXor (rd' rs2' : PrimeReg)
  | cOr (rd' rs2' : PrimeReg)
  | cAnd (rd' rs2' : PrimeReg)
  | cJ (off : BitVec 11)
  | cBeqz (rs1' : PrimeReg) (off : BitVec 8)
  | cBnez (rs1' : PrimeReg) (off : BitVec 8)
  -- C, quadrant 2 (R420-R431)
  | cSlli (rd : Reg) (shamt : BitVec 5)
  | cFldsp (frd : Reg) (uimm : BitVec 6)
  | cLwsp (rd : Reg) (uimm : BitVec 6)
  | cFlwsp (frd : Reg) (uimm : BitVec 6)
  | cJr (rs1 : Reg)
  | cMv (rd rs2 : Reg)
  | cEbreak
  | cJalr (rs1 : Reg)
  | cAdd (rd rs2 : Reg)
  | cFsdsp (frs2 : Reg) (uimm : BitVec 6)
  | cSwsp (rs2 : Reg) (uimm : BitVec 6)
  | cFswsp (frs2 : Reg) (uimm : BitVec 6)
deriving DecidableEq, Repr

end Sys2Proof
end

