-- ==== Sys2Proof/Machine/Flags.lean ====
section
/-! DEFINITION. The status fields: `mstatus` and its views, the interrupt-pending word, `fcsr` and the rounding mode.
No instruction of this hardware sets a condition code, and `fflags` changes only by a CSR write
(spec/10_state.md R61). -/

namespace Sys2Proof.Machine

/-- `w` with bit `i` set to `b`. -/
def setBit (w : Word) (i : Nat) (b : Bool) : Word :=
  if b then w ||| (1#32 <<< i) else w &&& ~~~(1#32 <<< i)

/-- `(old & ~mask) | (v & mask)`, the masked write of R34 to R36, R43 and R44. -/
def maskedWrite (mask old v : Word) : Word := (old &&& ~~~mask) ||| (v &&& mask)

/-! ## mstatus (R34) -/

/-- MPP, bits 12:11. -/
def mppField (w : Word) : BitVec 2 := w.extractLsb' 11 2

/-- `w` with MPP set to `p`. -/
def setMpp (w : Word) (p : BitVec 2) : Word := maskedWrite 0x1800#32 w (p.setWidth 32 <<< 11)

/-- Where xIE stands: UIE 0, SIE 1, MIE 3. -/
def Priv.iePos : Priv → Nat
  | .u => 0
  | .s => 1
  | .m => 3

/-- Where xPIE stands: UPIE 4, SPIE 5, MPIE 7. -/
def Priv.piePos : Priv → Nat
  | .u => 4
  | .s => 5
  | .m => 7

/-- xIE of a level. -/
def Hart.xie (h : Hart) (l : Priv) : Bool := h.mstatus.getLsbD l.iePos

/-- SUM, bit 18. -/
def Hart.sum (h : Hart) : Bool := h.mstatus.getLsbD 18

/-- The write mask of `mstatus`. -/
def mstatusMask : Word := 0x007E79BB#32

/-- MPP = 0b10 is stored as 0b00. -/
def legalizeMpp (w : Word) : Word := if mppField w = 2#2 then setMpp w 0#2 else w

/-- A CSR write of `v` to `mstatus`. -/
def mstatusWrite (old v : Word) : Word := legalizeMpp (maskedWrite mstatusMask old v)

/-- What a CSR read of `mstatus` returns: the stored fields, and SD set when FS = 0b11. -/
def mstatusRead (w : Word) : Word := if w.extractLsb' 13 2 = 3#2 then w ||| 0x80000000#32 else w

/-- The view `sstatus` (R35). -/
def sstatusRead (w : Word) : Word := mstatusRead w &&& 0x800DE133#32
def sstatusWrite (old v : Word) : Word := maskedWrite 0x000C6133#32 old v

/-- The view `ustatus` (R36). -/
def ustatusRead (w : Word) : Word := mstatusRead w &&& 0x00000011#32
def ustatusWrite (old v : Word) : Word := maskedWrite 0x00000011#32 old v

/-- `mstatus` after trap entry to `tgt` from mode `p` (R452): xPIE from xIE, xIE cleared, the previous mode kept. -/
def mstatusOnEntry (tgt p : Priv) (w : Word) : Word :=
  let w1 := setBit (setBit w tgt.piePos (w.getLsbD tgt.iePos)) tgt.iePos false
  match tgt with
  | .m => setMpp w1 p.toBits
  | .s => setBit w1 8 (p == .s)
  | .u => w1

/-- `mstatus` after a return from level `l` (R455): xIE from xPIE, xPIE set, xPP to U. -/
def mstatusOnReturn (l : Priv) (w : Word) : Word :=
  let w1 := setBit (setBit w l.iePos (w.getLsbD l.piePos)) l.piePos true
  match l with
  | .m => setMpp w1 0#2
  | .s => setBit w1 8 false
  | .u => w1

/-- The mode a return from level `l` restores (R455). -/
def returnPriv (l : Priv) (w : Word) : Priv :=
  match l with
  | .m => Priv.ofBits (mppField w)
  | .s => if w.getLsbD 8 then .s else .u
  | .u => .u

/-! ## Interrupt pending (R42) -/

/-- `mip.MTIP`: `mtime >= mtimecmp`, unsigned. -/
def State.mtip (s : State) : Bool := decide (s.hart.mtimecmp.toNat ≤ s.mtime.toNat)

/-- The read value of `mip`, assembled. -/
def State.mip (s : State) : Word :=
  (s.hart.mipSw &&& 0x333#32) ||| ((BitVec.ofBool s.hart.msip).setWidth 32 <<< 3) |||
    ((BitVec.ofBool s.mtip).setWidth 32 <<< 7) ||| ((BitVec.ofBool s.hart.meip).setWidth 32 <<< 11)

/-- One source's bit of `mip` (R460). -/
def State.pending (s : State) : Interrupt → Bool
  | .machineSoftware => s.hart.msip
  | .machineTimer => s.mtip
  | .machineExternal => s.hart.meip
  | i => s.hart.mipSw.getLsbD i.code

/-! ## fcsr (R60-R62) and the rounding mode (spec/47_f_float.md R342) -/

/-- `fflags`, `fcsr[4:0]`. -/
def fflagsOf (c : BitVec 8) : BitVec 5 := c.extractLsb' 0 5

/-- `frm`, `fcsr[7:5]`. -/
def frmOf (c : BitVec 8) : BitVec 3 := c.extractLsb' 5 3

/-- The five rounding modes. -/
inductive RoundingMode where
  | rne
  | rtz
  | rdn
  | rup
  | rmm
deriving DecidableEq, Repr

/-- The mode a value of `frm` selects; 101, 110 and 111 select none (R342). -/
def RoundingMode.ofFrm (b : BitVec 3) : Option RoundingMode :=
  match b.toNat with
  | 0 => some .rne
  | 1 => some .rtz
  | 2 => some .rdn
  | 3 => some .rup
  | 4 => some .rmm
  | _ => none

/-- The effective mode of an `rm` field, or none: the instruction is illegal (R342). -/
def State.roundingMode (s : State) : Rm → Option RoundingMode
  | .rne => some .rne
  | .rtz => some .rtz
  | .rdn => some .rdn
  | .rup => some .rup
  | .rmm => some .rmm
  | .dyn => if s.cfg.frmWired then RoundingMode.ofFrm (frmOf s.hart.fcsr) else some .rne

end Sys2Proof.Machine
end

