-- ==== Sys2Proof/Machine/Ops.lean ====
section
/-! DEFINITION. The named operations over registers and memory, the draws from the environment, taking a trap, the
return from one, and Break. -/

namespace Sys2Proof.Machine

/-! ## Sparse tables in canonical form: keys rising, no entry equal to the value an absent key has -/

/-- The value at key `k`, `d` when no entry lists it. -/
def sparseGet {β : Type} (d : β) (k : Nat) : List (Nat × β) → β
  | [] => d
  | (k', v) :: t => if k' = k then v else sparseGet d k t

/-- The table with `v` at key `k`. -/
def sparseSet {β : Type} [DecidableEq β] (d : β) (k : Nat) (v : β) : List (Nat × β) → List (Nat × β)
  | [] => if v = d then [] else [(k, v)]
  | (k', v') :: t =>
    if k < k' then (if v = d then (k', v') :: t else (k, v) :: (k', v') :: t)
    else if k = k' then (if v = d then t else (k, v) :: t)
    else (k', v') :: sparseSet d k v t

/-- The canonical form. -/
def sparseWf {β : Type} [DecidableEq β] (d : β) : List (Nat × β) → Bool
  | [] => true
  | (k, v) :: t => decide (v ≠ d) && t.all (fun e => decide (k < e.1)) && sparseWf d t

/-! ## Memory bytes (R81, R82) -/

/-- The byte at a physical address. -/
def Memory.read (m : Memory) (a : Word) : Byte := sparseGet Memory.unlisted a.toNat m

/-- The memory with byte `b` at a physical address. -/
def Memory.write (m : Memory) (a : Word) (b : Byte) : Memory := sparseSet Memory.unlisted a.toNat b m

/-- The canonical form, every address below 2^32. -/
def Memory.wf (m : Memory) : Bool := sparseWf Memory.unlisted m && m.all (fun c => decide (c.1 < 2 ^ 32))

/-- The `n`-byte little-endian value at `a`, zero-extended (R81). -/
def Memory.readN (m : Memory) (a : Word) : Nat → DWord
  | 0 => 0#64
  | n + 1 => (Memory.readN m (a + 1#32) n <<< 8) ||| (m.read a).setWidth 64

/-- The memory with the low `n` bytes of `v` at `a`, little-endian (R81). -/
def Memory.writeN (m : Memory) (a : Word) : Nat → DWord → Memory
  | 0, _ => m
  | n + 1, v => Memory.writeN (m.write a (v.setWidth 8)) (a + 1#32) n (v >>> 8)

/-! ## Registers -/

/-- `x[i]`; `x[0]` is 0 (R21). -/
def State.readX (s : State) (r : Reg) : Word := if r = 0#5 then 0#32 else s.hart.x[r.toNat]'r.isLt

/-- `x[i] <- v`, discarded when `i = 0` (R21). -/
def State.setX (s : State) (r : Reg) (v : Word) : State :=
  if r = 0#5 then s else { s with hart := { s.hart with x := s.hart.x.set r.toNat v r.isLt } }

/-- `f[i]` (R25). -/
def State.readF (s : State) (r : Reg) : DWord := s.hart.f[r.toNat]'r.isLt

/-- `f[i] <- v64` (R25). -/
def State.setF (s : State) (r : Reg) (v : DWord) : State :=
  { s with hart := { s.hart with f := s.hart.f.set r.toNat v r.isLt } }

/-- `f32(i)`, the low word, the upper half not inspected (R27). -/
def State.f32 (s : State) (r : Reg) : Word := (s.readF r).setWidth 32

/-- NaN-boxing (R26). -/
def box (v : Word) : DWord := 0xFFFFFFFF#32 ++ v

/-- `pc <- v`. -/
def State.setPc (s : State) (v : Word) : State := { s with hart := { s.hart with pc := v } }

/-- `pc <- pc + ilen`, modulo 2^32 (R23, R24). -/
def State.advance (s : State) (ilen : Word) : State := s.setPc (s.hart.pc + ilen)

/-- The trap registers of a level. -/
def Hart.trapRegs (h : Hart) : Priv → TrapRegs
  | .m => h.mtrap
  | .s => h.strap
  | .u => h.utrap

def Hart.setTrapRegs (h : Hart) (l : Priv) (t : TrapRegs) : Hart :=
  match l with
  | .m => { h with mtrap := t }
  | .s => { h with strap := t }
  | .u => { h with utrap := t }

/-! ## Draws from the environment (R522; log entries 5 and 10) -/

/-- The wall clock advances to a drawn time, never backward (R51, R462). -/
def State.advanceClock (s : State) : State :=
  { s with
    mtime := if s.mtime.toNat ≤ (Config.freeMtime s.draws).toNat then Config.freeMtime s.draws else s.mtime
    draws := s.draws + 1 }

/-- The external interrupt line is sampled (R463). -/
def State.sampleLines (s : State) : State :=
  { s with
    hart := { s.hart with meip := Config.freeMeip s.draws }
    draws := s.draws + 1 }

/-- The environment moves before a hart looks at it. -/
def State.environment (s : State) : State := s.advanceClock.sampleLines

/-! ## Memory accesses that may raise -/

/-- A memory access's result: a value, or an exception with its trap value; either way the state it leaves, which
differs from the one before only in translation-cache fills and in what devices did (R442). -/
inductive Access (α : Type) where
  | ok (v : α) (s : State)
  | raise (e : Exception) (tval : Word) (s : State)
deriving Repr

/-! ## Taking a trap (spec/60_exceptions.md R450-R453) -/

/-- The level the delegation registers give a cause (R451). -/
def Hart.delegatedLevel (h : Hart) (c : Cause) : Priv :=
  let dm := if c.isInterrupt then h.mideleg else h.medeleg
  let ds := if c.isInterrupt then h.sideleg else h.sedeleg
  if !dm.getLsbD c.code then .m else if !ds.getLsbD c.code then .s else .u

/-- The target level of a trap: an exception is never handled below the mode that raised it (R451). -/
def Hart.trapTarget (h : Hart) (c : Cause) : Priv :=
  if c.isInterrupt then h.delegatedLevel c else Priv.max (h.delegatedLevel c) h.priv

/-- The handler's address (R452). -/
def trapVector (cfg : Config) (tvec : Word) (c : Cause) : Word :=
  let base := tvec &&& 0xFFFFFFFC#32
  if tvec.extractLsb' 0 2 = 1#2 ∧ (c.isInterrupt || cfg.vectorExceptions) = true then
    base + BitVec.ofNat 32 (4 * c.code)
  else base

/-- The state written on entry to level `tgt` (R452). -/
def Hart.enterTrap (cfg : Config) (tgt : Priv) (c : Cause) (epc tval : Word) (h : Hart) : Hart :=
  let t := h.trapRegs tgt
  let h1 := h.setTrapRegs tgt { t with epc := epc &&& 0xFFFFFFFE#32, cause := c.word, tval := tval }
  { h1 with
    mstatus := mstatusOnEntry tgt h.priv h.mstatus
    priv := tgt
    pc := trapVector cfg t.tvec c }

/-- `TakeTrap(intr, code, epc, tval)`, the one trap-entry procedure (R450). -/
def takeTrap (c : Cause) (epc tval : Word) (s : State) : State :=
  { s with hart := s.hart.enterTrap s.cfg (s.hart.trapTarget c) c epc tval }

/-- `raise E(tval)`: `epc` is the address of the raising instruction (R13, R450). -/
def raise (e : Exception) (tval : Word) (s : State) : State := takeTrap (.exception e) s.hart.pc tval s

/-! ## The return from a trap (R455) and Break (spec/43_fence_system.md R266) -/

/-- `Return(L)` on one hart. -/
def Hart.leaveTrap (l : Priv) (h : Hart) : Hart :=
  { h with
    mstatus := mstatusOnReturn l h.mstatus
    pc := (h.trapRegs l).epc
    priv := returnPriv l h.mstatus }

/-- `Return(L)`, run by MRET, SRET and URET after their privilege checks. -/
def trapReturn (l : Priv) (s : State) : State := { s with hart := s.hart.leaveTrap l }

/-- `Break`: nothing but `halted` changes (R266). -/
def haltHart (s : State) : State := { s with hart := { s.hart with halted := true } }

/-! ## Outcomes shared by the meanings -/

/-- What a meaning answers: always a next state, since every exception is taken (R442). -/
abbrev Result := Host.Outcome State Fault Refusal

/-- A value for `x[rd]`, then the next instruction. -/
def intResult (rd : Reg) (v : Word) (ilen : Word) (s : State) : Result := .next ((s.setX rd v).advance ilen)

/-- A single-precision value for `f[rd]`, boxed (R26), then the next instruction. -/
def fpResult (rd : Reg) (v : Word) (ilen : Word) (s : State) : Result :=
  .next ((s.setF rd (box v)).advance ilen)

/-- The exception IllegalInstruction with the instruction's bits (R441). -/
def illegal (bits : Word) (s : State) : Result := .next (raise .illegalInstruction bits s)

end Sys2Proof.Machine
end

