-- ==== Sys2Proof/Machine/Bus.lean ====
section
/-! DEFINITION. The physical port (spec/20_memory.md R82-R89) and the CLINT register block
(spec/60_exceptions.md R461, R462). -/

namespace Sys2Proof.Machine

/-! ## Routing (R82, R84) -/

/-- `start <= pa < start + length`. -/
def claims (pa : Word) (d : Device) : Bool :=
  decide (d.base.toNat ≤ pa.toNat) && decide (pa.toNat < d.base.toNat + d.size.toNat)

/-- The device that answers an access of `n` bytes at `pa`: the first whose range contains `pa`, if all the bytes lie
in that range and below 2^32 (R84). -/
def claim (devices : List Device) (pa : Word) (n : Nat) : Option Device :=
  match devices.find? (claims pa) with
  | none => none
  | some d => if pa.toNat + n ≤ d.base.toNat + d.size.toNat ∧ pa.toNat + n ≤ 2 ^ 32 then some d else none

/-! ## The CLINT (R461, R462) -/

/-- The CLINT's 32-bit registers. -/
inductive ClintReg where
  | msip (i : Nat)
  | mtimecmpLo (i : Nat)
  | mtimecmpHi (i : Nat)
  | mtimeLo
  | mtimeHi
deriving DecidableEq, Repr

/-- The register at an offset of the window, by the layout of R462. Every other offset has none: the model
answers it `no_device`, as R462 allows (log entry 14). -/
def clintReg (numHarts off : Nat) : Option ClintReg :=
  if off % 4 ≠ 0 then none
  else if off = 0xBFF8 then some .mtimeLo
  else if off = 0xBFFC then some .mtimeHi
  else if off < 0x4000 then
    if off / 4 < numHarts then some (.msip (off / 4)) else none
  else if off < 0xBFF8 then
    if (off - 0x4000) / 8 < numHarts then
      if off % 8 = 0 then some (.mtimecmpLo ((off - 0x4000) / 8)) else some (.mtimecmpHi ((off - 0x4000) / 8))
    else none
  else none

/-- The hart with an index. -/
def State.hartAt (s : State) (i : Nat) : Hart :=
  if s.hart.hartid = i then s.hart else (s.others.find? (fun h => h.hartid == i)).getD s.hart

/-- The hart with an index, changed. -/
def State.modifyHart (s : State) (i : Nat) (f : Hart → Hart) : State :=
  if s.hart.hartid = i then { s with hart := f s.hart }
  else { s with others := s.others.map (fun h => if h.hartid = i then f h else h) }

def lowWord (v : DWord) : Word := v.extractLsb' 0 32
def highWord (v : DWord) : Word := v.extractLsb' 32 32

/-- `v` with one half replaced. -/
def setLowWord (v : DWord) (w : Word) : DWord := highWord v ++ w
def setHighWord (v : DWord) (w : Word) : DWord := w ++ lowWord v

/-- A CLINT register's value. -/
def clintGet (s : State) : ClintReg → Word
  | .msip i => (BitVec.ofBool (s.hartAt i).msip).setWidth 32
  | .mtimecmpLo i => lowWord (s.hartAt i).mtimecmp
  | .mtimecmpHi i => highWord (s.hartAt i).mtimecmp
  | .mtimeLo => lowWord s.mtime
  | .mtimeHi => highWord s.mtime

/-- A CLINT register written; a write of one word leaves the other half (R462). -/
def clintSet (s : State) (v : Word) : ClintReg → State
  | .msip i => s.modifyHart i (fun h => { h with msip := v.getLsbD 0 })
  | .mtimecmpLo i => s.modifyHart i (fun h => { h with mtimecmp := setLowWord h.mtimecmp v })
  | .mtimecmpHi i => s.modifyHart i (fun h => { h with mtimecmp := setHighWord h.mtimecmp v })
  | .mtimeLo => { s with mtime := setLowWord s.mtime v }
  | .mtimeHi => { s with mtime := setHighWord s.mtime v }

/-- A read of the CLINT: 4 bytes, or 8 as two 4-byte reads, the low word first (R87, R462, R521). After each 4-byte read
the clock moves on, so no two reads of one instruction share a sample of `mtime` (R522; log entry 10). -/
def clintRead (off n : Nat) (s : State) : Option (DWord × State) :=
  match n with
  | 4 => match clintReg s.cfg.numHarts off with
    | some r => some ((clintGet s r).setWidth 64, s.advanceClock)
    | none => none
  | 8 => match clintReg s.cfg.numHarts off, clintReg s.cfg.numHarts (off + 4) with
    | some lo, some hi => some (clintGet s.advanceClock hi ++ clintGet s lo, s.advanceClock.advanceClock)
    | _, _ => none
  | _ => none

/-- A write of the CLINT: 4 bytes, or 8 as two 4-byte writes, the low word first (R87, R462). -/
def clintWrite (off n : Nat) (v : DWord) (s : State) : Option State :=
  match n with
  | 4 => match clintReg s.cfg.numHarts off with
    | some r => some (clintSet s (lowWord v) r)
    | none => none
  | 8 => match clintReg s.cfg.numHarts off, clintReg s.cfg.numHarts (off + 4) with
    | some lo, some hi => some (clintSet (clintSet s (lowWord v) lo) (highWord v) hi)
    | _, _ => none
  | _ => none

/-! ## Devices whose insides the spec does not give (R89, U13; log entries 12 and 13) -/

/-- The low `8n` bits of a value. -/
def lowBytes (n : Nat) (v : DWord) : DWord := v &&& BitVec.ofNat 64 (2 ^ (8 * n) - 1)

/-- A read: the device answers a value the model does not know; the read is recorded. -/
def deviceRead (pa : Word) (n : Nat) (s : State) : DWord × State :=
  let v := lowBytes n (Config.freeReply s.draws)
  (v, { s with io := .read pa n v :: s.io, draws := s.draws + 1 })

/-- A write of a device of unknown insides is recorded. -/
def deviceWrite (pa : Word) (n : Nat) (v : DWord) (s : State) : State :=
  { s with io := .write pa n (lowBytes n v) :: s.io }

/-- A write of the debug-print device emits the character of its low byte (R89). -/
def printChar (v : DWord) (s : State) : State := { s with io := .printed (v.setWidth 8) :: s.io }

/-! ## The port -/

/-- `PhysRead(pa, n)`: the little-endian value and the state the read leaves, or none: `no_device` (R84). -/
def physRead (pa : Word) (n : Nat) (s : State) : Option (DWord × State) :=
  match claim s.cfg.devices pa n with
  | none => none
  | some d => match d.kind with
    | .ram => some (s.mem.readN pa n, s)
    | .rom => some (s.mem.readN pa n, s)
    | .clint => clintRead (pa.toNat - d.base.toNat) n s
    | .debugPrint => some (deviceRead pa n s)
    | .other => some (deviceRead pa n s)

/-- `PhysWrite(pa, n, v)`: the state the write leaves, or none: `no_device`. "A ROM replies `ok` and discards the
value" (R85). -/
def physWrite (pa : Word) (n : Nat) (v : DWord) (s : State) : Option State :=
  match claim s.cfg.devices pa n with
  | none => none
  | some d => match d.kind with
    | .ram => some { s with mem := s.mem.writeN pa n v }
    | .rom => some s
    | .clint => clintWrite (pa.toNat - d.base.toNat) n v s
    | .debugPrint => some (printChar v s)
    | .other => some (deviceWrite pa n v s)

end Sys2Proof.Machine
end

