-- ==== Sys2Proof/Machine/Mmu.lean ====
section
/-! DEFINITION. Address translation and the access primitives (spec/20_memory.md R90-R106): the translation cache, the
Sv32 walk, `MemRead`, `MemWrite` and `Fetch16`. -/

namespace Sys2Proof.Machine

/-! ## The translation cache (R65, R96, R102) -/

def TlbRow.get (t : TlbRow) : AccessKind → TlbEntry
  | .r => t.r
  | .w => t.w
  | .x => t.x

def TlbRow.put (t : TlbRow) (a : AccessKind) (e : TlbEntry) : TlbRow :=
  match a with
  | .r => { t with r := e }
  | .w => { t with w := e }
  | .x => { t with x := e }

/-- `tlb[p]`. -/
def Tlb.row (t : Tlb) : Priv → TlbRow
  | .u => t.u
  | .s => t.s
  | .m => t.m

/-- `tlb[p][a]`. -/
def Tlb.get (t : Tlb) (p : Priv) (a : AccessKind) : TlbEntry := (t.row p).get a

/-- The cache with `tlb[p][a]` replaced. -/
def Tlb.put (t : Tlb) (p : Priv) (a : AccessKind) (e : TlbEntry) : Tlb :=
  match p with
  | .u => { t with u := t.u.put a e }
  | .s => { t with s := t.s.put a e }
  | .m => { t with m := t.m.put a e }

def TlbEntry.invalid (e : TlbEntry) : TlbEntry := { e with valid := false }

def TlbRow.flush (t : TlbRow) : TlbRow := { r := t.r.invalid, w := t.w.invalid, x := t.x.invalid }

/-- `valid = 0` in all nine entries (R104). -/
def Tlb.flush (t : Tlb) : Tlb := { u := t.u.flush, s := t.s.flush, m := t.m.flush }

/-- The page number of an address, `a[31:12]`. -/
def pageOf (a : Word) : BitVec 20 := a.extractLsb' 12 20

/-- The entry hits: the remembered page is the address's (R96). -/
def TlbEntry.hits (e : TlbEntry) (va : Word) : Bool := e.valid && e.vpage == pageOf va

/-- `{ppage, va[11:0]}` (R96). -/
def TlbEntry.physical (e : TlbEntry) (va : Word) : Word := e.ppage ++ va.extractLsb' 0 12

/-- The cache filled with a translation of the current mode's (R102). -/
def fillTlb (acc : AccessKind) (va pa : Word) (s : State) : State :=
  { s with
    hart := { s.hart with
      tlb := s.hart.tlb.put s.hart.priv acc { valid := true, vpage := pageOf va, ppage := pageOf pa } } }

/-! ## Page-table entries (R98-R101) -/

def pteValid (pte : Word) : Bool := pte.getLsbD 0

/-- X, W, R all zero: "a branch node" (R97). -/
def pteIsPointer (pte : Word) : Bool := pte.extractLsb' 1 3 == 0#3

/-- `(PPN << 12) mod 2^32` of an entry (R99). -/
def pteBase (pte : Word) : Word := pte.extractLsb' 10 20 ++ 0#12

/-- PPN0 (R98). -/
def ptePpn0 (pte : Word) : BitVec 10 := pte.extractLsb' 10 10

/-- The access bit an access needs (R100 a). -/
def pteAllows (pte : Word) : AccessKind → Bool
  | .r => pte.getLsbD 1
  | .w => pte.getLsbD 2
  | .x => pte.getLsbD 3

/-- The user and supervisor rule (R100 b). -/
def pteModeAllows (pte : Word) (p : Priv) (sum : Bool) (acc : AccessKind) : Bool :=
  match p with
  | .u => pte.getLsbD 4
  | .s => !pte.getLsbD 4 || (sum && acc != .x)
  | .m => true

/-- Both checks of R100. -/
def ptePermits (pte : Word) (h : Hart) (acc : AccessKind) : Bool :=
  pteAllows pte acc && pteModeAllows pte h.priv h.sum acc

/-- The address of the root table, `(satp.PPN << 12) mod 2^32` (R50, R99). -/
def rootTable (satp : Word) : Word := satp.extractLsb' 0 20 ++ 0#12

/-- The address of the entry for a 10-bit page number in the table at `a` (R97). -/
def pteAddr (a : Word) (vpn : BitVec 10) : Word := a + (vpn ++ 0#2 : BitVec 12).setWidth 32

def vpn1 (va : Word) : BitVec 10 := va.extractLsb' 22 10
def vpn0 (va : Word) : BitVec 10 := va.extractLsb' 12 10

/-- The physical address of a level-0 leaf and of a superpage (R101). -/
def leafAddr (pte va : Word) : Word := pte.extractLsb' 10 20 ++ va.extractLsb' 0 12
def superpageAddr (pte va : Word) : Word := pte.extractLsb' 20 10 ++ va.extractLsb' 0 22

/-! ## Translation (R95-R97) -/

/-- Steps 5 and 6 of the walk and the cache fill (R100-R102). -/
def walkLeaf (acc : AccessKind) (va pte pa : Word) (s : State) : Access Word :=
  if ptePermits pte s.hart acc then .ok pa (fillTlb acc va pa s) else .raise acc.pageFault va s

/-- The walk from the level-0 table (R97). -/
def walkLevel0 (acc : AccessKind) (va a : Word) (s : State) : Access Word :=
  match physRead (pteAddr a (vpn0 va)) 4 s with
  | none => .raise acc.accessFault va s
  | some (v, s1) =>
    let pte := v.setWidth 32
    if !pteValid pte then .raise acc.pageFault va s1
    else walkLeaf acc va pte (leafAddr pte va) s1

/-- The two-level walk (R97). -/
def walk (acc : AccessKind) (va : Word) (s : State) : Access Word :=
  match physRead (pteAddr (rootTable s.hart.satp) (vpn1 va)) 4 s with
  | none => .raise acc.accessFault va s
  | some (v, s1) =>
    let pte := v.setWidth 32
    if !pteValid pte then .raise acc.pageFault va s1
    else if pteIsPointer pte then walkLevel0 acc va (pteBase pte) s1
    else if ptePpn0 pte != 0#10 then .raise acc.pageFault va s1
    else walkLeaf acc va pte (superpageAddr pte va) s1

/-- Paging is on: the mode is not M and `satp.MODE = 1` (R95, C5). -/
def Hart.translates (h : Hart) : Bool := h.priv != .m && h.satp.getLsbD 31

/-- `Translate(va, acc)` (R95). -/
def translate (acc : AccessKind) (va : Word) (s : State) : Access Word :=
  if !s.hart.translates then .ok va s
  else
    let e := s.hart.tlb.get s.hart.priv acc
    if e.hits va then .ok (e.physical va) s else walk acc va s

/-! ## The access primitives (R90-R92) -/

/-- One translation, then one port read. -/
def readVia (acc : AccessKind) (va : Word) (n : Nat) (s : State) : Access DWord :=
  match translate acc va s with
  | .raise e t s1 => .raise e t s1
  | .ok pa s1 => match physRead pa n s1 with
    | none => .raise acc.accessFault va s1
    | some (v, s2) => .ok v s2

/-- `MemRead(va, n)` (R90). -/
def memRead (va : Word) (n : Nat) (s : State) : Access DWord := readVia .r va n s

/-- `MemWrite(va, n, v)` (R91). -/
def memWrite (va : Word) (n : Nat) (v : DWord) (s : State) : Access Unit :=
  match translate .w va s with
  | .raise e t s1 => .raise e t s1
  | .ok pa s1 => match physWrite pa n v s1 with
    | none => .raise .storeAmoAccessFault va s1
    | some s2 => .ok () s2

/-- `Fetch16(va)` (R92). -/
def fetch16 (va : Word) (s : State) : Access Half :=
  match readVia .x va 2 s with
  | .raise e t s1 => .raise e t s1
  | .ok v s1 => .ok (v.setWidth 16) s1

end Sys2Proof.Machine
end

