-- ==== Sys2Proof/Machine/Operands.lean ====
section
/-! DEFINITION. Operand forms: the values of the immediates (spec/30_encoding.md R133-R139, R151), the prime
registers (R150) and the one addressing mode (spec/42_load_store.md R240, R250). -/

namespace Sys2Proof.Machine

/-- `imm_I` and `imm_S` (R134, R135). -/
def imm12 (imm : BitVec 12) : Word := imm.signExtend 32

/-- `imm_B` from its bits 12:1 (R136). -/
def immB (off : BitVec 12) : Word := (off ++ 0#1 : BitVec 13).signExtend 32

/-- `imm_U` (R137). -/
def immU (imm20 : BitVec 20) : Word := imm20 ++ 0#12

/-- `imm_J` from its bits 20:1 (R138). -/
def immJ (off : BitVec 20) : Word := (off ++ 0#1 : BitVec 21).signExtend 32

/-- `uimm` of the CSR immediate forms (R139). -/
def csrUimm (uimm : BitVec 5) : Word := uimm.setWidth 32

/-- `nzuimm_4spn` from its bits 9:2 (R151). -/
def imm4spn (nzuimm : BitVec 8) : Word := (nzuimm ++ 0#2 : BitVec 10).setWidth 32

/-- `uimm_w` from its bits 6:2 (R151). -/
def uimmW (uimm : BitVec 5) : Word := (uimm ++ 0#2 : BitVec 7).setWidth 32

/-- `uimm_d` from its bits 7:3 (R151). -/
def uimmD (uimm : BitVec 5) : Word := (uimm ++ 0#3 : BitVec 8).setWidth 32

/-- `imm_ci` (R151). -/
def immCi (imm : BitVec 6) : Word := imm.signExtend 32

/-- `imm_lui` (R151). -/
def immCLui (imm : BitVec 6) : Word := (imm ++ 0#12 : BitVec 18).signExtend 32

/-- `imm_16sp` from its bits 9:4 (R151). -/
def imm16sp (imm : BitVec 6) : Word := (imm ++ 0#4 : BitVec 10).signExtend 32

/-- `imm_cj` from its bits 11:1 (R151). -/
def immCj (off : BitVec 11) : Word := (off ++ 0#1 : BitVec 12).signExtend 32

/-- `imm_cb` from its bits 8:1 (R151). -/
def immCb (off : BitVec 8) : Word := (off ++ 0#1 : BitVec 9).signExtend 32

/-- `uimm_lwsp` and `uimm_swsp` from their bits 7:2 (R151). -/
def uimmWsp (uimm : BitVec 6) : Word := (uimm ++ 0#2 : BitVec 8).setWidth 32

/-- `uimm_ldsp` and `uimm_sdsp` from their bits 8:3 (R151). -/
def uimmDsp (uimm : BitVec 6) : Word := (uimm ++ 0#3 : BitVec 9).setWidth 32

/-- A prime field `r'` names register `8 + r'` (R150). -/
def prime (r' : PrimeReg) : Reg := 1#2 ++ r'

/-- The link register and the stack pointer of the compressed forms (R22). -/
def ra : Reg := 1#5
def sp : Reg := 2#5

/-- The effective address `x[rs1] + imm`, modulo 2^32 (R240). -/
def State.ea (s : State) (rs1 : Reg) (imm : Word) : Word := s.readX rs1 + imm

/-- The instruction lengths (R13). -/
def ilen32 : Word := 4#32
def ilen16 : Word := 2#32

end Sys2Proof.Machine
end

