-- ==== Sys2Proof/Machine/LoadStore.lean ====
section
/-! DEFINITION. The shared loads and stores, and the integer ones (spec/42_load_store.md R240-R249). -/

namespace Sys2Proof.Machine

/-! ## Shared operations: one access, then the register, then `pc`; a raise changes no register and no memory -/

/-- A load of `n` bytes into `x[rd]`; with `rd = x0` the access is made all the same (R241). -/
def loadX (rd : Reg) (va : Word) (n : Nat) (ext : DWord → Word) (ilen : Word) (s : State) : Result :=
  match memRead va n s with
  | .ok v s1 => intResult rd (ext v) ilen s1
  | .raise e t s1 => .next (raise e t s1)

/-- A load of `n` bytes into `f[rd]`. -/
def loadF (rd : Reg) (va : Word) (n : Nat) (ext : DWord → DWord) (ilen : Word) (s : State) : Result :=
  match memRead va n s with
  | .ok v s1 => .next ((s1.setF rd (ext v)).advance ilen)
  | .raise e t s1 => .next (raise e t s1)

/-- A store of the low `n` bytes of `v`. -/
def storeN (va : Word) (n : Nat) (v : DWord) (ilen : Word) (s : State) : Result :=
  match memWrite va n v s with
  | .ok _ s1 => .next (s1.advance ilen)
  | .raise e t s1 => .next (raise e t s1)

/-- `sext_8`, `sext_16`, `zext` of a memory value. -/
def sext8 (v : DWord) : Word := (v.setWidth 8).signExtend 32
def sext16 (v : DWord) : Word := (v.setWidth 16).signExtend 32
def zext8 (v : DWord) : Word := (v.setWidth 8).setWidth 32
def zext16 (v : DWord) : Word := (v.setWidth 16).setWidth 32
def word32 (v : DWord) : Word := v.setWidth 32

/-- A 4-byte memory value boxed (R346). -/
def boxLoaded (v : DWord) : DWord := box (word32 v)

/-! ## Integer loads and stores -/

def execLb (rd rs1 : Reg) (imm : BitVec 12) (s : State) : Result :=
  loadX rd (s.ea rs1 (imm12 imm)) 1 sext8 ilen32 s

def execLh (rd rs1 : Reg) (imm : BitVec 12) (s : State) : Result :=
  loadX rd (s.ea rs1 (imm12 imm)) 2 sext16 ilen32 s

def execLw (rd rs1 : Reg) (imm : BitVec 12) (s : State) : Result :=
  loadX rd (s.ea rs1 (imm12 imm)) 4 word32 ilen32 s

def execLbu (rd rs1 : Reg) (imm : BitVec 12) (s : State) : Result :=
  loadX rd (s.ea rs1 (imm12 imm)) 1 zext8 ilen32 s

def execLhu (rd rs1 : Reg) (imm : BitVec 12) (s : State) : Result :=
  loadX rd (s.ea rs1 (imm12 imm)) 2 zext16 ilen32 s

def execSb (rs1 rs2 : Reg) (imm : BitVec 12) (s : State) : Result :=
  storeN (s.ea rs1 (imm12 imm)) 1 ((s.readX rs2).setWidth 64) ilen32 s

def execSh (rs1 rs2 : Reg) (imm : BitVec 12) (s : State) : Result :=
  storeN (s.ea rs1 (imm12 imm)) 2 ((s.readX rs2).setWidth 64) ilen32 s

def execSw (rs1 rs2 : Reg) (imm : BitVec 12) (s : State) : Result :=
  storeN (s.ea rs1 (imm12 imm)) 4 ((s.readX rs2).setWidth 64) ilen32 s

end Sys2Proof.Machine
end

