-- ==== Sys2Proof/Machine/Atomic.lean ====
section
/-! DEFINITION. The atomic memory operations (spec/46_a_atomics.md R320-R330). `aq` and `rl` have no effect (R320). -/

namespace Sys2Proof.Machine

/-- The AMO's access: one translation as a write, then the read and the write at the same address (R321). -/
def amoAccess (op : Word → Word → Word) (va src : Word) (s : State) : Access Word :=
  match translate .w va s with
  | .raise e t s1 => .raise e t s1
  | .ok pa s1 => match physRead pa 4 s1 with
    | none => .raise .storeAmoAccessFault va s1
    | some (v, s2) => match physWrite pa 4 ((op (word32 v) src).setWidth 64) s2 with
      | none => .raise .storeAmoAccessFault va s2
      | some s3 => .ok (word32 v) s3

def State.lockAmo (s : State) : State := { s with amoLock := true }
def State.unlockAmo (s : State) : State := { s with amoLock := false }

/-- The AMO procedure: the lock is released on every path (R321, R110; log entry 16). -/
def amo (op : Word → Word → Word) (rd rs1 rs2 : Reg) (s : State) : Result :=
  match amoAccess op (s.readX rs1) (s.readX rs2) s.lockAmo with
  | .ok t s1 => intResult rd t ilen32 s1.unlockAmo
  | .raise e t s1 => .next (raise e t s1.unlockAmo)

/-- The functions of R322 to R330: the memory word, then the source. -/
def amoSwapOp (_t s : Word) : Word := s
def amoAddOp (t s : Word) : Word := t + s
def amoXorOp (t s : Word) : Word := t ^^^ s
def amoAndOp (t s : Word) : Word := t &&& s
def amoOrOp (t s : Word) : Word := t ||| s
def amoMinOp (t s : Word) : Word := if t.toInt < s.toInt then t else s
def amoMaxOp (t s : Word) : Word := if s.toInt < t.toInt then t else s
def amoMinuOp (t s : Word) : Word := if t.toNat < s.toNat then t else s
def amoMaxuOp (t s : Word) : Word := if s.toNat < t.toNat then t else s

def execAmoswapW (rd rs1 rs2 : Reg) (_aq _rl : Bool) (s : State) : Result := amo amoSwapOp rd rs1 rs2 s
def execAmoaddW (rd rs1 rs2 : Reg) (_aq _rl : Bool) (s : State) : Result := amo amoAddOp rd rs1 rs2 s
def execAmoxorW (rd rs1 rs2 : Reg) (_aq _rl : Bool) (s : State) : Result := amo amoXorOp rd rs1 rs2 s
def execAmoandW (rd rs1 rs2 : Reg) (_aq _rl : Bool) (s : State) : Result := amo amoAndOp rd rs1 rs2 s
def execAmoorW (rd rs1 rs2 : Reg) (_aq _rl : Bool) (s : State) : Result := amo amoOrOp rd rs1 rs2 s
def execAmominW (rd rs1 rs2 : Reg) (_aq _rl : Bool) (s : State) : Result := amo amoMinOp rd rs1 rs2 s
def execAmomaxW (rd rs1 rs2 : Reg) (_aq _rl : Bool) (s : State) : Result := amo amoMaxOp rd rs1 rs2 s
def execAmominuW (rd rs1 rs2 : Reg) (_aq _rl : Bool) (s : State) : Result := amo amoMinuOp rd rs1 rs2 s
def execAmomaxuW (rd rs1 rs2 : Reg) (_aq _rl : Bool) (s : State) : Result := amo amoMaxuOp rd rs1 rs2 s

end Sys2Proof.Machine
end

