-- ==== Sys2Proof/Machine/Alu.lean ====
section
/-! DEFINITION. LUI, AUIPC, OP-IMM and OP (spec/40_integer_alu.md R170-R191). -/

namespace Sys2Proof.Machine

/-- A condition as a register value. -/
def boolWord (b : Bool) : Word := if b then 1#32 else 0#32

/-- The amount of a register shift, `x[rs2] & 0x1F` (R184, R195). -/
def shiftAmount (v : Word) : Nat := (v.extractLsb' 0 5).toNat

def execLui (rd : Reg) (imm20 : BitVec 20) (s : State) : Result := intResult rd (immU imm20) ilen32 s

def execAuipc (rd : Reg) (imm20 : BitVec 20) (s : State) : Result :=
  intResult rd (s.hart.pc + immU imm20) ilen32 s

/-! ## OP-IMM (R173-R181) -/

def execAddi (rd rs1 : Reg) (imm : BitVec 12) (s : State) : Result :=
  intResult rd (s.readX rs1 + imm12 imm) ilen32 s

def execSlti (rd rs1 : Reg) (imm : BitVec 12) (s : State) : Result :=
  intResult rd (boolWord ((s.readX rs1).slt (imm12 imm))) ilen32 s

def execSltiu (rd rs1 : Reg) (imm : BitVec 12) (s : State) : Result :=
  intResult rd (boolWord ((s.readX rs1).ult (imm12 imm))) ilen32 s

def execXori (rd rs1 : Reg) (imm : BitVec 12) (s : State) : Result :=
  intResult rd (s.readX rs1 ^^^ imm12 imm) ilen32 s

def execOri (rd rs1 : Reg) (imm : BitVec 12) (s : State) : Result :=
  intResult rd (s.readX rs1 ||| imm12 imm) ilen32 s

def execAndi (rd rs1 : Reg) (imm : BitVec 12) (s : State) : Result :=
  intResult rd (s.readX rs1 &&& imm12 imm) ilen32 s

def execSlli (rd rs1 : Reg) (shamt : BitVec 5) (s : State) : Result :=
  intResult rd (s.readX rs1 <<< shamt.toNat) ilen32 s

def execSrli (rd rs1 : Reg) (shamt : BitVec 5) (s : State) : Result :=
  intResult rd (s.readX rs1 >>> shamt.toNat) ilen32 s

def execSrai (rd rs1 : Reg) (shamt : BitVec 5) (s : State) : Result :=
  intResult rd ((s.readX rs1).sshiftRight shamt.toNat) ilen32 s

/-! ## OP (R182-R191) -/

def execAdd (rd rs1 rs2 : Reg) (s : State) : Result :=
  intResult rd (s.readX rs1 + s.readX rs2) ilen32 s

def execSub (rd rs1 rs2 : Reg) (s : State) : Result :=
  intResult rd (s.readX rs1 - s.readX rs2) ilen32 s

def execSll (rd rs1 rs2 : Reg) (s : State) : Result :=
  intResult rd (s.readX rs1 <<< shiftAmount (s.readX rs2)) ilen32 s

def execSlt (rd rs1 rs2 : Reg) (s : State) : Result :=
  intResult rd (boolWord ((s.readX rs1).slt (s.readX rs2))) ilen32 s

def execSltu (rd rs1 rs2 : Reg) (s : State) : Result :=
  intResult rd (boolWord ((s.readX rs1).ult (s.readX rs2))) ilen32 s

def execXor (rd rs1 rs2 : Reg) (s : State) : Result :=
  intResult rd (s.readX rs1 ^^^ s.readX rs2) ilen32 s

def execSrl (rd rs1 rs2 : Reg) (s : State) : Result :=
  intResult rd (s.readX rs1 >>> shiftAmount (s.readX rs2)) ilen32 s

def execSra (rd rs1 rs2 : Reg) (s : State) : Result :=
  intResult rd ((s.readX rs1).sshiftRight (shiftAmount (s.readX rs2))) ilen32 s

def execOr (rd rs1 rs2 : Reg) (s : State) : Result :=
  intResult rd (s.readX rs1 ||| s.readX rs2) ilen32 s

def execAnd (rd rs1 rs2 : Reg) (s : State) : Result :=
  intResult rd (s.readX rs1 &&& s.readX rs2) ilen32 s

end Sys2Proof.Machine
end

