-- ==== Sys2Proof/Machine/Control.lean ====
section
/-! DEFINITION. Control transfer (spec/41_control_transfer.md R220-R230): no delay slot, no annulment. -/

namespace Sys2Proof.Machine

/-- `x[rd] <- pc + ilen; pc <- target`, the target computed before by the caller from the old registers (R222, R223). -/
def jumpAndLink (rd : Reg) (target : Word) (ilen : Word) (s : State) : Result :=
  .next ((s.setX rd (s.hart.pc + ilen)).setPc target)

/-- `if taken then pc <- pc + off else pc <- pc + ilen` (R224). -/
def branchTo (taken : Bool) (off : Word) (ilen : Word) (s : State) : Result :=
  .next (if taken then s.setPc (s.hart.pc + off) else s.advance ilen)

/-- A register jump's target: bit 0 of the sum is cleared (R223). -/
def evenTarget (v : Word) : Word := v &&& 0xFFFFFFFE#32

def execJal (rd : Reg) (off : BitVec 20) (s : State) : Result :=
  jumpAndLink rd (s.hart.pc + immJ off) ilen32 s

def execJalr (rd rs1 : Reg) (imm : BitVec 12) (s : State) : Result :=
  jumpAndLink rd (evenTarget (s.readX rs1 + imm12 imm)) ilen32 s

def execBeq (rs1 rs2 : Reg) (off : BitVec 12) (s : State) : Result :=
  branchTo (s.readX rs1 == s.readX rs2) (immB off) ilen32 s

def execBne (rs1 rs2 : Reg) (off : BitVec 12) (s : State) : Result :=
  branchTo (s.readX rs1 != s.readX rs2) (immB off) ilen32 s

def execBlt (rs1 rs2 : Reg) (off : BitVec 12) (s : State) : Result :=
  branchTo ((s.readX rs1).slt (s.readX rs2)) (immB off) ilen32 s

def execBge (rs1 rs2 : Reg) (off : BitVec 12) (s : State) : Result :=
  branchTo (!(s.readX rs1).slt (s.readX rs2)) (immB off) ilen32 s

def execBltu (rs1 rs2 : Reg) (off : BitVec 12) (s : State) : Result :=
  branchTo ((s.readX rs1).ult (s.readX rs2)) (immB off) ilen32 s

def execBgeu (rs1 rs2 : Reg) (off : BitVec 12) (s : State) : Result :=
  branchTo (!(s.readX rs1).ult (s.readX rs2)) (immB off) ilen32 s

end Sys2Proof.Machine
end

