-- ==== Sys2Proof/WellFormed.lean ====
section
/-! DEFINITION. Which terms of `Instr` are instructions of the hardware under a configuration: the `constraints`
and `param` columns of spec/opcode_table.json (spec/30_encoding.md R152, R163). -/

namespace Sys2Proof

/-- The word an SLT term is encoded as (R132, R142); the Break hint takes its place when they are equal. -/
def sltWord (rd rs1 rs2 : Reg) : Word :=
  (0#7 ++ rs2 ++ rs1 ++ 2#3 ++ rd ++ 0x33#7 : BitVec 32)

/-- The constraints of R152 and R163 on an instruction's fields, and the parameters its row depends on. -/
def Instr.wellFormed (cfg : Config) : Instr → Bool
  | .slt rd rs1 rs2 => decide (cfg.breakHintWord ≠ some (sltWord rd rs1 rs2))
  | .breakHint => match cfg.breakHintWord with
    | none => false
    | some w => Config.isSltWord w
  | .fld _ _ _ => cfg.hasFldFsd
  | .fsd _ _ _ => cfg.hasFldFsd
  | .cFld _ _ _ => cfg.hasFldFsd
  | .cFsd _ _ _ => cfg.hasFldFsd
  | .cFldsp _ _ => cfg.hasFldFsd
  | .cFsdsp _ _ => cfg.hasFldFsd
  | .cAddi4spn _ nzuimm => nzuimm != 0#8
  | .cAddi rd _ => rd != 0#5
  | .cAddi16sp imm => imm != 0#6
  | .cLui rd imm => rd != 2#5 && imm != 0#6
  | .cLwsp rd _ => rd != 0#5
  | .cJr rs1 => rs1 != 0#5
  | .cMv _ rs2 => rs2 != 0#5
  | .cJalr rs1 => rs1 != 0#5
  | .cAdd _ rs2 => rs2 != 0#5
  | .lui .. => true | .auipc .. => true | .jal .. => true | .jalr .. => true | .beq .. => true
  | .bne .. => true | .blt .. => true | .bge .. => true | .bltu .. => true | .bgeu .. => true | .lb .. => true
  | .lh .. => true | .lw .. => true | .lbu .. => true | .lhu .. => true | .sb .. => true | .sh .. => true
  | .sw .. => true | .addi .. => true | .slti .. => true | .sltiu .. => true | .xori .. => true
  | .ori .. => true | .andi .. => true | .slli .. => true | .srli .. => true | .srai .. => true
  | .add .. => true | .sub .. => true | .sll .. => true | .sltu .. => true | .xor .. => true | .srl .. => true
  | .sra .. => true | .or .. => true | .and .. => true | .mul .. => true | .mulh .. => true
  | .mulhsu .. => true | .mulhu .. => true | .div .. => true | .divu .. => true | .rem .. => true
  | .remu .. => true | .fence .. => true | .fenceI .. => true | .ecall .. => true | .ebreak .. => true
  | .uret .. => true | .sret .. => true | .mret .. => true | .csrrw .. => true | .csrrs .. => true
  | .csrrc .. => true | .csrrwi .. => true | .csrrsi .. => true | .csrrci .. => true | .amoswapW .. => true
  | .amoaddW .. => true | .amoxorW .. => true | .amoandW .. => true | .amoorW .. => true | .amominW .. => true
  | .amomaxW .. => true | .amominuW .. => true | .amomaxuW .. => true | .flw .. => true | .fsw .. => true
  | .faddS .. => true | .fsubS .. => true | .fmulS .. => true | .fdivS .. => true | .fsqrtS .. => true
  | .fsgnjS .. => true | .fsgnjnS .. => true | .fsgnjxS .. => true | .fminS .. => true | .fmaxS .. => true
  | .fcvtWS .. => true | .fcvtWuS .. => true | .fmvXW .. => true | .fclassS .. => true | .feqS .. => true
  | .fltS .. => true | .fleS .. => true | .fcvtSW .. => true | .fcvtSWu .. => true | .fmvWX .. => true
  | .cLw .. => true | .cFlw .. => true | .cSw .. => true | .cFsw .. => true | .cNop .. => true
  | .cJal .. => true | .cLi .. => true | .cSrli .. => true | .cSrai .. => true | .cAndi .. => true
  | .cSub .. => true | .cXor .. => true | .cOr .. => true | .cAnd .. => true | .cJ .. => true
  | .cBeqz .. => true | .cBnez .. => true | .cSlli .. => true | .cFlwsp .. => true | .cEbreak .. => true
  | .cSwsp .. => true | .cFswsp .. => true

end Sys2Proof
end

