-- ==== Sys2Proof/Decode.lean ====
section
/-! DEFINITION. The decoder, total on any bytes, and the encoder, both written from spec/30_encoding.md
(R130-R152) and spec/opcode_table.json. -/

namespace Sys2Proof

/-- An instruction as fetched: one 16-bit parcel or two (R93, R130). -/
inductive RawInstr where
  | half (h : Half)
  | word (w : Word)
deriving DecidableEq, Repr

/-- Why bytes are no instruction: too few of them, or a word the tables give to none (R155). -/
inductive DecodeError where
  | truncated
  | illegal (r : RawInstr)
deriving DecidableEq, Repr

/-- `v[lo+len-1:lo]` (R12). -/
def bits {n : Nat} (v : BitVec n) (lo len : Nat) : BitVec len := v.extractLsb' lo len

/-- A 5-bit field as a word's high or low part is read as a register number (R131). -/
def fieldRd (w : Word) : Reg := bits w 7 5
def fieldRs1 (w : Word) : Reg := bits w 15 5
def fieldRs2 (w : Word) : Reg := bits w 20 5
def fieldFunct3 (w : Word) : BitVec 3 := bits w 12 3
def fieldFunct7 (w : Word) : BitVec 7 := bits w 25 7
def fieldOpcode (w : Word) : BitVec 7 := bits w 0 7

/-- The I-immediate field (R134), also the `csr` and `funct12` fields (R131). -/
def fieldImmI (w : Word) : BitVec 12 := bits w 20 12

/-- The S-immediate field (R135). -/
def fieldImmS (w : Word) : BitVec 12 := bits w 25 7 ++ bits w 7 5

/-- The B-immediate field, bits 12:1 (R136). -/
def fieldImmB (w : Word) : BitVec 12 := bits w 31 1 ++ bits w 7 1 ++ bits w 25 6 ++ bits w 8 4

/-- The U-immediate field, bits 31:12 (R137). -/
def fieldImmU (w : Word) : BitVec 20 := bits w 12 20

/-- The J-immediate field, bits 20:1 (R138). -/
def fieldImmJ (w : Word) : BitVec 20 := bits w 31 1 ++ bits w 12 8 ++ bits w 20 1 ++ bits w 21 10

/-- The `rm` field of an OP-FP instruction; 101 and 110 are reserved (R147, R342). -/
def Rm.ofBits (b : BitVec 3) : Option Rm :=
  match b.toNat with
  | 0 => some .rne
  | 1 => some .rtz
  | 2 => some .rdn
  | 3 => some .rup
  | 4 => some .rmm
  | 7 => some .dyn
  | _ => none

/-- The encoding of R342. -/
def Rm.toBits : Rm → BitVec 3
  | .rne => 0#3
  | .rtz => 1#3
  | .rdn => 2#3
  | .rup => 3#3
  | .rmm => 4#3
  | .dyn => 7#3

/-! ## 32-bit words -/

/-- LOAD by funct3 (R143). -/
def decodeLoad (w : Word) : Option Instr :=
  match (fieldFunct3 w).toNat with
  | 0 => some (.lb (fieldRd w) (fieldRs1 w) (fieldImmI w))
  | 1 => some (.lh (fieldRd w) (fieldRs1 w) (fieldImmI w))
  | 2 => some (.lw (fieldRd w) (fieldRs1 w) (fieldImmI w))
  | 4 => some (.lbu (fieldRd w) (fieldRs1 w) (fieldImmI w))
  | 5 => some (.lhu (fieldRd w) (fieldRs1 w) (fieldImmI w))
  | _ => none

/-- LOAD-FP by funct3 (R146). -/
def decodeLoadFp (cfg : Config) (w : Word) : Option Instr :=
  match (fieldFunct3 w).toNat with
  | 2 => some (.flw (fieldRd w) (fieldRs1 w) (fieldImmI w))
  | 3 => if cfg.hasFldFsd then some (.fld (fieldRd w) (fieldRs1 w) (fieldImmI w)) else none
  | _ => none

/-- MISC-MEM by funct3 (R144); every other field is ignored, and kept. -/
def decodeMiscMem (w : Word) : Option Instr :=
  match (fieldFunct3 w).toNat with
  | 0 => some (.fence (bits w 28 4) (bits w 24 4) (bits w 20 4) (fieldRs1 w) (fieldRd w))
  | 1 => some (.fenceI (fieldImmI w) (fieldRs1 w) (fieldRd w))
  | _ => none

/-- OP-IMM by funct3, the shifts by `w[31:25]` too (R141). -/
def decodeOpImm (w : Word) : Option Instr :=
  match (fieldFunct3 w).toNat with
  | 0 => some (.addi (fieldRd w) (fieldRs1 w) (fieldImmI w))
  | 1 => match (fieldFunct7 w).toNat with
    | 0x00 => some (.slli (fieldRd w) (fieldRs1 w) (fieldRs2 w))
    | _ => none
  | 2 => some (.slti (fieldRd w) (fieldRs1 w) (fieldImmI w))
  | 3 => some (.sltiu (fieldRd w) (fieldRs1 w) (fieldImmI w))
  | 4 => some (.xori (fieldRd w) (fieldRs1 w) (fieldImmI w))
  | 5 => match (fieldFunct7 w).toNat with
    | 0x00 => some (.srli (fieldRd w) (fieldRs1 w) (fieldRs2 w))
    | 0x20 => some (.srai (fieldRd w) (fieldRs1 w) (fieldRs2 w))
    | _ => none
  | 6 => some (.ori (fieldRd w) (fieldRs1 w) (fieldImmI w))
  | 7 => some (.andi (fieldRd w) (fieldRs1 w) (fieldImmI w))
  | _ => none

/-- STORE by funct3 (R143). -/
def decodeStore (w : Word) : Option Instr :=
  match (fieldFunct3 w).toNat with
  | 0 => some (.sb (fieldRs1 w) (fieldRs2 w) (fieldImmS w))
  | 1 => some (.sh (fieldRs1 w) (fieldRs2 w) (fieldImmS w))
  | 2 => some (.sw (fieldRs1 w) (fieldRs2 w) (fieldImmS w))
  | _ => none

/-- STORE-FP by funct3 (R146). -/
def decodeStoreFp (cfg : Config) (w : Word) : Option Instr :=
  match (fieldFunct3 w).toNat with
  | 2 => some (.fsw (fieldRs1 w) (fieldRs2 w) (fieldImmS w))
  | 3 => if cfg.hasFldFsd then some (.fsd (fieldRs1 w) (fieldRs2 w) (fieldImmS w)) else none
  | _ => none

/-- AMO by funct3 and funct5 (R148). -/
def decodeAmo (w : Word) : Option Instr :=
  let aq := w.getLsbD 26
  let rl := w.getLsbD 25
  match (fieldFunct3 w).toNat with
  | 2 => match (bits w 27 5).toNat with
    | 0x01 => some (.amoswapW (fieldRd w) (fieldRs1 w) (fieldRs2 w) aq rl)
    | 0x00 => some (.amoaddW (fieldRd w) (fieldRs1 w) (fieldRs2 w) aq rl)
    | 0x04 => some (.amoxorW (fieldRd w) (fieldRs1 w) (fieldRs2 w) aq rl)
    | 0x0C => some (.amoandW (fieldRd w) (fieldRs1 w) (fieldRs2 w) aq rl)
    | 0x08 => some (.amoorW (fieldRd w) (fieldRs1 w) (fieldRs2 w) aq rl)
    | 0x10 => some (.amominW (fieldRd w) (fieldRs1 w) (fieldRs2 w) aq rl)
    | 0x14 => some (.amomaxW (fieldRd w) (fieldRs1 w) (fieldRs2 w) aq rl)
    | 0x18 => some (.amominuW (fieldRd w) (fieldRs1 w) (fieldRs2 w) aq rl)
    | 0x1C => some (.amomaxuW (fieldRd w) (fieldRs1 w) (fieldRs2 w) aq rl)
    | _ => none
  | _ => none

/-- OP by funct7 and funct3 (R142), the Break hint apart. -/
def decodeOp (w : Word) : Option Instr :=
  match (fieldFunct7 w).toNat with
  | 0x00 => match (fieldFunct3 w).toNat with
    | 0 => some (.add (fieldRd w) (fieldRs1 w) (fieldRs2 w))
    | 1 => some (.sll (fieldRd w) (fieldRs1 w) (fieldRs2 w))
    | 2 => some (.slt (fieldRd w) (fieldRs1 w) (fieldRs2 w))
    | 3 => some (.sltu (fieldRd w) (fieldRs1 w) (fieldRs2 w))
    | 4 => some (.xor (fieldRd w) (fieldRs1 w) (fieldRs2 w))
    | 5 => some (.srl (fieldRd w) (fieldRs1 w) (fieldRs2 w))
    | 6 => some (.or (fieldRd w) (fieldRs1 w) (fieldRs2 w))
    | 7 => some (.and (fieldRd w) (fieldRs1 w) (fieldRs2 w))
    | _ => none
  | 0x20 => match (fieldFunct3 w).toNat with
    | 0 => some (.sub (fieldRd w) (fieldRs1 w) (fieldRs2 w))
    | 5 => some (.sra (fieldRd w) (fieldRs1 w) (fieldRs2 w))
    | _ => none
  | 0x01 => match (fieldFunct3 w).toNat with
    | 0 => some (.mul (fieldRd w) (fieldRs1 w) (fieldRs2 w))
    | 1 => some (.mulh (fieldRd w) (fieldRs1 w) (fieldRs2 w))
    | 2 => some (.mulhsu (fieldRd w) (fieldRs1 w) (fieldRs2 w))
    | 3 => some (.mulhu (fieldRd w) (fieldRs1 w) (fieldRs2 w))
    | 4 => some (.div (fieldRd w) (fieldRs1 w) (fieldRs2 w))
    | 5 => some (.divu (fieldRd w) (fieldRs1 w) (fieldRs2 w))
    | 6 => some (.rem (fieldRd w) (fieldRs1 w) (fieldRs2 w))
    | 7 => some (.remu (fieldRd w) (fieldRs1 w) (fieldRs2 w))
    | _ => none
  | _ => none

/-- OP-FP by funct7, `rs2` field and `rm` field (R147). -/
def decodeOpFp (w : Word) : Option Instr :=
  match (fieldFunct7 w).toNat with
  | 0x00 => (Rm.ofBits (fieldFunct3 w)).map (.faddS (fieldRd w) (fieldRs1 w) (fieldRs2 w))
  | 0x04 => (Rm.ofBits (fieldFunct3 w)).map (.fsubS (fieldRd w) (fieldRs1 w) (fieldRs2 w))
  | 0x08 => (Rm.ofBits (fieldFunct3 w)).map (.fmulS (fieldRd w) (fieldRs1 w) (fieldRs2 w))
  | 0x0C => (Rm.ofBits (fieldFunct3 w)).map (.fdivS (fieldRd w) (fieldRs1 w) (fieldRs2 w))
  | 0x2C => match (fieldRs2 w).toNat with
    | 0 => (Rm.ofBits (fieldFunct3 w)).map (.fsqrtS (fieldRd w) (fieldRs1 w))
    | _ => none
  | 0x10 => match (fieldFunct3 w).toNat with
    | 0 => some (.fsgnjS (fieldRd w) (fieldRs1 w) (fieldRs2 w))
    | 1 => some (.fsgnjnS (fieldRd w) (fieldRs1 w) (fieldRs2 w))
    | 2 => some (.fsgnjxS (fieldRd w) (fieldRs1 w) (fieldRs2 w))
    | _ => none
  | 0x14 => match (fieldFunct3 w).toNat with
    | 0 => some (.fminS (fieldRd w) (fieldRs1 w) (fieldRs2 w))
    | 1 => some (.fmaxS (fieldRd w) (fieldRs1 w) (fieldRs2 w))
    | _ => none
  | 0x60 => match (fieldRs2 w).toNat with
    | 0 => (Rm.ofBits (fieldFunct3 w)).map (.fcvtWS (fieldRd w) (fieldRs1 w))
    | 1 => (Rm.ofBits (fieldFunct3 w)).map (.fcvtWuS (fieldRd w) (fieldRs1 w))
    | _ => none
  | 0x70 => match (fieldRs2 w).toNat with
    | 0 => match (fieldFunct3 w).toNat with
      | 0 => some (.fmvXW (fieldRd w) (fieldRs1 w))
      | 1 => some (.fclassS (fieldRd w) (fieldRs1 w))
      | _ => none
    | _ => none
  | 0x50 => match (fieldFunct3 w).toNat with
    | 2 => some (.feqS (fieldRd w) (fieldRs1 w) (fieldRs2 w))
    | 1 => some (.fltS (fieldRd w) (fieldRs1 w) (fieldRs2 w))
    | 0 => some (.fleS (fieldRd w) (fieldRs1 w) (fieldRs2 w))
    | _ => none
  | 0x68 => match (fieldRs2 w).toNat with
    | 0 => (Rm.ofBits (fieldFunct3 w)).map (.fcvtSW (fieldRd w) (fieldRs1 w))
    | 1 => (Rm.ofBits (fieldFunct3 w)).map (.fcvtSWu (fieldRd w) (fieldRs1 w))
    | _ => none
  | 0x78 => match (fieldRs2 w).toNat with
    | 0 => match (fieldFunct3 w).toNat with
      | 0 => some (.fmvWX (fieldRd w) (fieldRs1 w))
      | _ => none
    | _ => none
  | _ => none

/-- BRANCH by funct3 (R143). -/
def decodeBranch (w : Word) : Option Instr :=
  match (fieldFunct3 w).toNat with
  | 0 => some (.beq (fieldRs1 w) (fieldRs2 w) (fieldImmB w))
  | 1 => some (.bne (fieldRs1 w) (fieldRs2 w) (fieldImmB w))
  | 4 => some (.blt (fieldRs1 w) (fieldRs2 w) (fieldImmB w))
  | 5 => some (.bge (fieldRs1 w) (fieldRs2 w) (fieldImmB w))
  | 6 => some (.bltu (fieldRs1 w) (fieldRs2 w) (fieldImmB w))
  | 7 => some (.bgeu (fieldRs1 w) (fieldRs2 w) (fieldImmB w))
  | _ => none

/-- The SYSTEM words with funct3 = 000, `rd = 0` and `rs1 = 0`, by funct12 (R145). -/
def decodePriv (w : Word) : Option Instr :=
  match (fieldRd w).toNat, (fieldRs1 w).toNat, (fieldImmI w).toNat with
  | 0, 0, 0x000 => some .ecall
  | 0, 0, 0x001 => some .ebreak
  | 0, 0, 0x002 => some .uret
  | 0, 0, 0x102 => some .sret
  | 0, 0, 0x302 => some .mret
  | _, _, _ => none

/-- SYSTEM by funct3 (R145). -/
def decodeSystem (w : Word) : Option Instr :=
  match (fieldFunct3 w).toNat with
  | 0 => decodePriv w
  | 1 => some (.csrrw (fieldRd w) (fieldRs1 w) (fieldImmI w))
  | 2 => some (.csrrs (fieldRd w) (fieldRs1 w) (fieldImmI w))
  | 3 => some (.csrrc (fieldRd w) (fieldRs1 w) (fieldImmI w))
  | 5 => some (.csrrwi (fieldRd w) (fieldRs1 w) (fieldImmI w))
  | 6 => some (.csrrsi (fieldRd w) (fieldRs1 w) (fieldImmI w))
  | 7 => some (.csrrci (fieldRd w) (fieldRs1 w) (fieldImmI w))
  | _ => none

/-- The major opcodes (R140); a word equal to `BREAK_HINT_WORD` is the Break hint before all else (R142, R163). -/
def decode32 (cfg : Config) (w : Word) : Option Instr :=
  if cfg.breakHintWord = some w then some .breakHint else
  match (fieldOpcode w).toNat with
  | 0x03 => decodeLoad w
  | 0x07 => decodeLoadFp cfg w
  | 0x0F => decodeMiscMem w
  | 0x13 => decodeOpImm w
  | 0x17 => some (.auipc (fieldRd w) (fieldImmU w))
  | 0x23 => decodeStore w
  | 0x27 => decodeStoreFp cfg w
  | 0x2F => decodeAmo w
  | 0x33 => decodeOp w
  | 0x37 => some (.lui (fieldRd w) (fieldImmU w))
  | 0x53 => decodeOpFp w
  | 0x63 => decodeBranch w
  | 0x67 => match (fieldFunct3 w).toNat with
    | 0 => some (.jalr (fieldRd w) (fieldRs1 w) (fieldImmI w))
    | _ => none
  | 0x6F => some (.jal (fieldRd w) (fieldImmJ w))
  | 0x73 => decodeSystem w
  | _ => none

/-! ## 16-bit words (R149-R152) -/

/-- The prime fields: `rd'` or `rs2'` in `h[4:2]`, `rs1'` or `rd'` in `h[9:7]` (R149, R150). -/
def cFieldLo (h : Half) : PrimeReg := bits h 2 3
def cFieldHi (h : Half) : PrimeReg := bits h 7 3

/-- The full register fields `h[11:7]` and `h[6:2]` (R149). -/
def cFieldRd (h : Half) : Reg := bits h 7 5
def cFieldRs2 (h : Half) : Reg := bits h 2 5

/-- The compressed immediates of R151, without the zero bits appended below them. -/
def cImm4spn (h : Half) : BitVec 8 := bits h 7 4 ++ bits h 11 2 ++ bits h 5 1 ++ bits h 6 1
def cUimmW (h : Half) : BitVec 5 := bits h 5 1 ++ bits h 10 3 ++ bits h 6 1
def cUimmD (h : Half) : BitVec 5 := bits h 5 2 ++ bits h 10 3
def cImmCi (h : Half) : BitVec 6 := bits h 12 1 ++ bits h 2 5
def cImm16sp (h : Half) : BitVec 6 := bits h 12 1 ++ bits h 3 2 ++ bits h 5 1 ++ bits h 2 1 ++ bits h 6 1
def cImmCj (h : Half) : BitVec 11 :=
  bits h 12 1 ++ bits h 8 1 ++ bits h 9 2 ++ bits h 6 1 ++ bits h 7 1 ++ bits h 2 1 ++ bits h 11 1 ++ bits h 3 3
def cImmCb (h : Half) : BitVec 8 := bits h 12 1 ++ bits h 5 2 ++ bits h 2 1 ++ bits h 10 2 ++ bits h 3 2
def cUimmLwsp (h : Half) : BitVec 6 := bits h 2 2 ++ bits h 12 1 ++ bits h 4 3
def cUimmLdsp (h : Half) : BitVec 6 := bits h 2 3 ++ bits h 12 1 ++ bits h 5 2
def cUimmSwsp (h : Half) : BitVec 6 := bits h 7 2 ++ bits h 9 4
def cUimmSdsp (h : Half) : BitVec 6 := bits h 7 3 ++ bits h 10 3

/-- `some i` where a field is allowed, else no instruction. -/
def guardInstr (ok : Bool) (i : Instr) : Option Instr := if ok then some i else none

/-- Quadrant 0 by funct3 (R152). -/
def decodeQ0 (cfg : Config) (h : Half) : Option Instr :=
  match (bits h 13 3).toNat with
  | 0 => guardInstr (cImm4spn h != 0#8) (.cAddi4spn (cFieldLo h) (cImm4spn h))
  | 1 => guardInstr cfg.hasFldFsd (.cFld (cFieldLo h) (cFieldHi h) (cUimmD h))
  | 2 => some (.cLw (cFieldLo h) (cFieldHi h) (cUimmW h))
  | 3 => some (.cFlw (cFieldLo h) (cFieldHi h) (cUimmW h))
  | 5 => guardInstr cfg.hasFldFsd (.cFsd (cFieldHi h) (cFieldLo h) (cUimmD h))
  | 6 => some (.cSw (cFieldHi h) (cFieldLo h) (cUimmW h))
  | 7 => some (.cFsw (cFieldHi h) (cFieldLo h) (cUimmW h))
  | _ => none

/-- Quadrant 1, funct3 100, by `h[11:10]`, `h[12]` and `h[6:5]` (R152). -/
def decodeQ1Alu (h : Half) : Option Instr :=
  match (bits h 10 2).toNat with
  | 0 => guardInstr (bits h 12 1 == 0#1) (.cSrli (cFieldHi h) (cFieldRs2 h))
  | 1 => guardInstr (bits h 12 1 == 0#1) (.cSrai (cFieldHi h) (cFieldRs2 h))
  | 2 => some (.cAndi (cFieldHi h) (cImmCi h))
  | _ => if bits h 12 1 == 0#1 then
      match (bits h 5 2).toNat with
      | 0 => some (.cSub (cFieldHi h) (cFieldLo h))
      | 1 => some (.cXor (cFieldHi h) (cFieldLo h))
      | 2 => some (.cOr (cFieldHi h) (cFieldLo h))
      | _ => some (.cAnd (cFieldHi h) (cFieldLo h))
    else none

/-- Quadrant 1 by funct3 (R152). -/
def decodeQ1 (h : Half) : Option Instr :=
  match (bits h 13 3).toNat with
  | 0 => if cFieldRd h == 0#5 then some (.cNop (cImmCi h)) else some (.cAddi (cFieldRd h) (cImmCi h))
  | 1 => some (.cJal (cImmCj h))
  | 2 => some (.cLi (cFieldRd h) (cImmCi h))
  | 3 => if cFieldRd h == 2#5 then guardInstr (cImm16sp h != 0#6) (.cAddi16sp (cImm16sp h))
    else guardInstr (cImmCi h != 0#6) (.cLui (cFieldRd h) (cImmCi h))
  | 4 => decodeQ1Alu h
  | 5 => some (.cJ (cImmCj h))
  | 6 => some (.cBeqz (cFieldHi h) (cImmCb h))
  | 7 => some (.cBnez (cFieldHi h) (cImmCb h))
  | _ => none

/-- Quadrant 2, funct3 100, by `h[12]`, `h[6:2]` and `h[11:7]` (R152). -/
def decodeQ2Cr (h : Half) : Option Instr :=
  if bits h 12 1 == 0#1 then
    if cFieldRs2 h == 0#5 then guardInstr (cFieldRd h != 0#5) (.cJr (cFieldRd h))
    else some (.cMv (cFieldRd h) (cFieldRs2 h))
  else if cFieldRs2 h == 0#5 then
    if cFieldRd h == 0#5 then some .cEbreak else some (.cJalr (cFieldRd h))
  else some (.cAdd (cFieldRd h) (cFieldRs2 h))

/-- Quadrant 2 by funct3 (R152). -/
def decodeQ2 (cfg : Config) (h : Half) : Option Instr :=
  match (bits h 13 3).toNat with
  | 0 => guardInstr (bits h 12 1 == 0#1) (.cSlli (cFieldRd h) (cFieldRs2 h))
  | 1 => guardInstr cfg.hasFldFsd (.cFldsp (cFieldRd h) (cUimmLdsp h))
  | 2 => guardInstr (cFieldRd h != 0#5) (.cLwsp (cFieldRd h) (cUimmLwsp h))
  | 3 => some (.cFlwsp (cFieldRd h) (cUimmLwsp h))
  | 4 => decodeQ2Cr h
  | 5 => guardInstr cfg.hasFldFsd (.cFsdsp (cFieldRs2 h) (cUimmSdsp h))
  | 6 => some (.cSwsp (cFieldRs2 h) (cUimmSwsp h))
  | 7 => some (.cFswsp (cFieldRs2 h) (cUimmSwsp h))
  | _ => none

/-- A 16-bit word by quadrant (R149); quadrant 11 is no compressed instruction. -/
def decode16 (cfg : Config) (h : Half) : Option Instr :=
  match (bits h 0 2).toNat with
  | 0 => decodeQ0 cfg h
  | 1 => decodeQ1 h
  | 2 => decodeQ2 cfg h
  | _ => none

/-- The instruction of a fetched word, or none: the word is illegal (R155). -/
def decodeRaw (cfg : Config) : RawInstr → Option Instr
  | .half h => decode16 cfg h
  | .word w => decode32 cfg w

/-- The length of an instruction is decided by the two low bits of its first parcel (R130). -/
def isShort (h : Half) : Bool := bits h 0 2 != 3#2

/-- The first instruction of a byte sequence, lowest address first, and the bytes after it (R81, R93, R130). -/
def decode (cfg : Config) : List Byte → Except DecodeError (Instr × List Byte)
  | b0 :: b1 :: rest =>
    let h : Half := b1 ++ b0
    if isShort h then
      match decode16 cfg h with
      | some i => .ok (i, rest)
      | none => .error (.illegal (.half h))
    else
      match rest with
      | b2 :: b3 :: rest' =>
        let w : Word := b3 ++ b2 ++ b1 ++ b0
        match decode32 cfg w with
        | some i => .ok (i, rest')
        | none => .error (.illegal (.word w))
      | _ => .error .truncated
  | _ => .error .truncated

/-! ## The encoder -/

/-- The formats of R132. -/
def encR (funct7 : BitVec 7) (rs2 rs1 : Reg) (funct3 : BitVec 3) (rd : Reg) (opcode : BitVec 7) : Word :=
  funct7 ++ rs2 ++ rs1 ++ funct3 ++ rd ++ opcode

def encI (imm : BitVec 12) (rs1 : Reg) (funct3 : BitVec 3) (rd : Reg) (opcode : BitVec 7) : Word :=
  imm ++ rs1 ++ funct3 ++ rd ++ opcode

def encS (imm : BitVec 12) (rs2 rs1 : Reg) (funct3 : BitVec 3) (opcode : BitVec 7) : Word :=
  bits imm 5 7 ++ rs2 ++ rs1 ++ funct3 ++ bits imm 0 5 ++ opcode

def encB (off : BitVec 12) (rs2 rs1 : Reg) (funct3 : BitVec 3) : Word :=
  bits off 11 1 ++ bits off 4 6 ++ rs2 ++ rs1 ++ funct3 ++ bits off 0 4 ++ bits off 10 1 ++ 0x63#7

def encU (imm20 : BitVec 20) (rd : Reg) (opcode : BitVec 7) : Word :=
  imm20 ++ rd ++ opcode

def encJ (off : BitVec 20) (rd : Reg) : Word :=
  bits off 19 1 ++ bits off 0 10 ++ bits off 10 1 ++ bits off 11 8 ++ rd ++ 0x6F#7

/-- The AMO format: funct7 split into funct5, `aq` and `rl` (R132, R148). -/
def encAmo (funct5 : BitVec 5) (aq rl : Bool) (rs2 rs1 rd : Reg) : Word :=
  funct5 ++ BitVec.ofBool aq ++ BitVec.ofBool rl ++ rs2 ++ rs1 ++ 2#3 ++ rd ++ 0x2F#7

/-- The compressed formats of R149 and R151. -/
def encCiw (nzuimm : BitVec 8) (rd' : PrimeReg) : Half :=
  0#3 ++ bits nzuimm 2 2 ++ bits nzuimm 4 4 ++ bits nzuimm 0 1 ++ bits nzuimm 1 1 ++ rd' ++ 0#2

def encClW (funct3 : BitVec 3) (uimm : BitVec 5) (hi lo : PrimeReg) : Half :=
  funct3 ++ bits uimm 1 3 ++ hi ++ bits uimm 0 1 ++ bits uimm 4 1 ++ lo ++ 0#2

def encClD (funct3 : BitVec 3) (uimm : BitVec 5) (hi lo : PrimeReg) : Half :=
  funct3 ++ bits uimm 0 3 ++ hi ++ bits uimm 3 2 ++ lo ++ 0#2

def encCi (funct3 : BitVec 3) (imm : BitVec 6) (rd : Reg) (op : BitVec 2) : Half :=
  funct3 ++ bits imm 5 1 ++ rd ++ bits imm 0 5 ++ op

def encC16sp (imm : BitVec 6) : Half :=
  3#3 ++ bits imm 5 1 ++ 2#5 ++ bits imm 0 1 ++ bits imm 2 1 ++ bits imm 3 2 ++ bits imm 1 1 ++ 1#2

def encCj (funct3 : BitVec 3) (off : BitVec 11) : Half :=
  funct3 ++ bits off 10 1 ++ bits off 3 1 ++ bits off 7 2 ++ bits off 9 1 ++ bits off 5 1 ++ bits off 6 1 ++
    bits off 0 3 ++ bits off 4 1 ++ 1#2

def encCb (funct3 : BitVec 3) (off : BitVec 8) (rs1' : PrimeReg) : Half :=
  funct3 ++ bits off 7 1 ++ bits off 2 2 ++ rs1' ++ bits off 5 2 ++ bits off 0 2 ++ bits off 4 1 ++ 1#2

def encCbAlu (bit12 : BitVec 1) (funct2 : BitVec 2) (rd' : PrimeReg) (low : BitVec 5) : Half :=
  4#3 ++ bit12 ++ funct2 ++ rd' ++ low ++ 1#2

def encCa (funct2 : BitVec 2) (rd' rs2' : PrimeReg) : Half :=
  0x23#6 ++ rd' ++ funct2 ++ rs2' ++ 1#2

def encCLwsp (funct3 : BitVec 3) (uimm : BitVec 6) (rd : Reg) : Half :=
  funct3 ++ bits uimm 3 1 ++ rd ++ bits uimm 0 3 ++ bits uimm 4 2 ++ 2#2

def encCLdsp (uimm : BitVec 6) (rd : Reg) : Half :=
  1#3 ++ bits uimm 2 1 ++ rd ++ bits uimm 0 2 ++ bits uimm 3 3 ++ 2#2

def encCSwsp (funct3 : BitVec 3) (uimm : BitVec 6) (rs2 : Reg) : Half :=
  funct3 ++ bits uimm 0 4 ++ bits uimm 4 2 ++ rs2 ++ 2#2

def encCSdsp (uimm : BitVec 6) (rs2 : Reg) : Half :=
  5#3 ++ bits uimm 0 3 ++ bits uimm 3 3 ++ rs2 ++ 2#2

def encCr (funct4 : BitVec 4) (rd rs2 : Reg) : Half :=
  funct4 ++ rd ++ rs2 ++ 2#2

/-- The word of a well-formed instruction (R132-R152); the Break hint's is the parameter's (R267). -/
def encode (cfg : Config) : Instr → RawInstr
  | .lui rd imm => .word (encU imm rd 0x37#7)
  | .auipc rd imm => .word (encU imm rd 0x17#7)
  | .jal rd off => .word (encJ off rd)
  | .jalr rd rs1 imm => .word (encI imm rs1 0#3 rd 0x67#7)
  | .beq rs1 rs2 off => .word (encB off rs2 rs1 0#3)
  | .bne rs1 rs2 off => .word (encB off rs2 rs1 1#3)
  | .blt rs1 rs2 off => .word (encB off rs2 rs1 4#3)
  | .bge rs1 rs2 off => .word (encB off rs2 rs1 5#3)
  | .bltu rs1 rs2 off => .word (encB off rs2 rs1 6#3)
  | .bgeu rs1 rs2 off => .word (encB off rs2 rs1 7#3)
  | .lb rd rs1 imm => .word (encI imm rs1 0#3 rd 0x03#7)
  | .lh rd rs1 imm => .word (encI imm rs1 1#3 rd 0x03#7)
  | .lw rd rs1 imm => .word (encI imm rs1 2#3 rd 0x03#7)
  | .lbu rd rs1 imm => .word (encI imm rs1 4#3 rd 0x03#7)
  | .lhu rd rs1 imm => .word (encI imm rs1 5#3 rd 0x03#7)
  | .sb rs1 rs2 imm => .word (encS imm rs2 rs1 0#3 0x23#7)
  | .sh rs1 rs2 imm => .word (encS imm rs2 rs1 1#3 0x23#7)
  | .sw rs1 rs2 imm => .word (encS imm rs2 rs1 2#3 0x23#7)
  | .addi rd rs1 imm => .word (encI imm rs1 0#3 rd 0x13#7)
  | .slti rd rs1 imm => .word (encI imm rs1 2#3 rd 0x13#7)
  | .sltiu rd rs1 imm => .word (encI imm rs1 3#3 rd 0x13#7)
  | .xori rd rs1 imm => .word (encI imm rs1 4#3 rd 0x13#7)
  | .ori rd rs1 imm => .word (encI imm rs1 6#3 rd 0x13#7)
  | .andi rd rs1 imm => .word (encI imm rs1 7#3 rd 0x13#7)
  | .slli rd rs1 shamt => .word (encR 0x00#7 shamt rs1 1#3 rd 0x13#7)
  | .srli rd rs1 shamt => .word (encR 0x00#7 shamt rs1 5#3 rd 0x13#7)
  | .srai rd rs1 shamt => .word (encR 0x20#7 shamt rs1 5#3 rd 0x13#7)
  | .add rd rs1 rs2 => .word (encR 0x00#7 rs2 rs1 0#3 rd 0x33#7)
  | .sub rd rs1 rs2 => .word (encR 0x20#7 rs2 rs1 0#3 rd 0x33#7)
  | .sll rd rs1 rs2 => .word (encR 0x00#7 rs2 rs1 1#3 rd 0x33#7)
  | .slt rd rs1 rs2 => .word (encR 0x00#7 rs2 rs1 2#3 rd 0x33#7)
  | .sltu rd rs1 rs2 => .word (encR 0x00#7 rs2 rs1 3#3 rd 0x33#7)
  | .xor rd rs1 rs2 => .word (encR 0x00#7 rs2 rs1 4#3 rd 0x33#7)
  | .srl rd rs1 rs2 => .word (encR 0x00#7 rs2 rs1 5#3 rd 0x33#7)
  | .sra rd rs1 rs2 => .word (encR 0x20#7 rs2 rs1 5#3 rd 0x33#7)
  | .or rd rs1 rs2 => .word (encR 0x00#7 rs2 rs1 6#3 rd 0x33#7)
  | .and rd rs1 rs2 => .word (encR 0x00#7 rs2 rs1 7#3 rd 0x33#7)
  | .breakHint => .word (cfg.breakHintWord.getD 0x00102033#32)
  | .mul rd rs1 rs2 => .word (encR 0x01#7 rs2 rs1 0#3 rd 0x33#7)
  | .mulh rd rs1 rs2 => .word (encR 0x01#7 rs2 rs1 1#3 rd 0x33#7)
  | .mulhsu rd rs1 rs2 => .word (encR 0x01#7 rs2 rs1 2#3 rd 0x33#7)
  | .mulhu rd rs1 rs2 => .word (encR 0x01#7 rs2 rs1 3#3 rd 0x33#7)
  | .div rd rs1 rs2 => .word (encR 0x01#7 rs2 rs1 4#3 rd 0x33#7)
  | .divu rd rs1 rs2 => .word (encR 0x01#7 rs2 rs1 5#3 rd 0x33#7)
  | .rem rd rs1 rs2 => .word (encR 0x01#7 rs2 rs1 6#3 rd 0x33#7)
  | .remu rd rs1 rs2 => .word (encR 0x01#7 rs2 rs1 7#3 rd 0x33#7)
  | .fence fm pred succ rs1 rd => .word (encI (fm ++ pred ++ succ) rs1 0#3 rd 0x0F#7)
  | .fenceI imm rs1 rd => .word (encI imm rs1 1#3 rd 0x0F#7)
  | .ecall => .word (encI 0x000#12 0#5 0#3 0#5 0x73#7)
  | .ebreak => .word (encI 0x001#12 0#5 0#3 0#5 0x73#7)
  | .uret => .word (encI 0x002#12 0#5 0#3 0#5 0x73#7)
  | .sret => .word (encI 0x102#12 0#5 0#3 0#5 0x73#7)
  | .mret => .word (encI 0x302#12 0#5 0#3 0#5 0x73#7)
  | .csrrw rd rs1 csr => .word (encI csr rs1 1#3 rd 0x73#7)
  | .csrrs rd rs1 csr => .word (encI csr rs1 2#3 rd 0x73#7)
  | .csrrc rd rs1 csr => .word (encI csr rs1 3#3 rd 0x73#7)
  | .csrrwi rd uimm csr => .word (encI csr uimm 5#3 rd 0x73#7)
  | .csrrsi rd uimm csr => .word (encI csr uimm 6#3 rd 0x73#7)
  | .csrrci rd uimm csr => .word (encI csr uimm 7#3 rd 0x73#7)
  | .amoswapW rd rs1 rs2 aq rl => .word (encAmo 0x01#5 aq rl rs2 rs1 rd)
  | .amoaddW rd rs1 rs2 aq rl => .word (encAmo 0x00#5 aq rl rs2 rs1 rd)
  | .amoxorW rd rs1 rs2 aq rl => .word (encAmo 0x04#5 aq rl rs2 rs1 rd)
  | .amoandW rd rs1 rs2 aq rl => .word (encAmo 0x0C#5 aq rl rs2 rs1 rd)
  | .amoorW rd rs1 rs2 aq rl => .word (encAmo 0x08#5 aq rl rs2 rs1 rd)
  | .amominW rd rs1 rs2 aq rl => .word (encAmo 0x10#5 aq rl rs2 rs1 rd)
  | .amomaxW rd rs1 rs2 aq rl => .word (encAmo 0x14#5 aq rl rs2 rs1 rd)
  | .amominuW rd rs1 rs2 aq rl => .word (encAmo 0x18#5 aq rl rs2 rs1 rd)
  | .amomaxuW rd rs1 rs2 aq rl => .word (encAmo 0x1C#5 aq rl rs2 rs1 rd)
  | .flw rd rs1 imm => .word (encI imm rs1 2#3 rd 0x07#7)
  | .fsw rs1 rs2 imm => .word (encS imm rs2 rs1 2#3 0x27#7)
  | .fld rd rs1 imm => .word (encI imm rs1 3#3 rd 0x07#7)
  | .fsd rs1 rs2 imm => .word (encS imm rs2 rs1 3#3 0x27#7)
  | .faddS rd rs1 rs2 rm => .word (encR 0x00#7 rs2 rs1 rm.toBits rd 0x53#7)
  | .fsubS rd rs1 rs2 rm => .word (encR 0x04#7 rs2 rs1 rm.toBits rd 0x53#7)
  | .fmulS rd rs1 rs2 rm => .word (encR 0x08#7 rs2 rs1 rm.toBits rd 0x53#7)
  | .fdivS rd rs1 rs2 rm => .word (encR 0x0C#7 rs2 rs1 rm.toBits rd 0x53#7)
  | .fsqrtS rd rs1 rm => .word (encR 0x2C#7 0#5 rs1 rm.toBits rd 0x53#7)
  | .fsgnjS rd rs1 rs2 => .word (encR 0x10#7 rs2 rs1 0#3 rd 0x53#7)
  | .fsgnjnS rd rs1 rs2 => .word (encR 0x10#7 rs2 rs1 1#3 rd 0x53#7)
  | .fsgnjxS rd rs1 rs2 => .word (encR 0x10#7 rs2 rs1 2#3 rd 0x53#7)
  | .fminS rd rs1 rs2 => .word (encR 0x14#7 rs2 rs1 0#3 rd 0x53#7)
  | .fmaxS rd rs1 rs2 => .word (encR 0x14#7 rs2 rs1 1#3 rd 0x53#7)
  | .fcvtWS rd rs1 rm => .word (encR 0x60#7 0#5 rs1 rm.toBits rd 0x53#7)
  | .fcvtWuS rd rs1 rm => .word (encR 0x60#7 1#5 rs1 rm.toBits rd 0x53#7)
  | .fmvXW rd rs1 => .word (encR 0x70#7 0#5 rs1 0#3 rd 0x53#7)
  | .fclassS rd rs1 => .word (encR 0x70#7 0#5 rs1 1#3 rd 0x53#7)
  | .feqS rd rs1 rs2 => .word (encR 0x50#7 rs2 rs1 2#3 rd 0x53#7)
  | .fltS rd rs1 rs2 => .word (encR 0x50#7 rs2 rs1 1#3 rd 0x53#7)
  | .fleS rd rs1 rs2 => .word (encR 0x50#7 rs2 rs1 0#3 rd 0x53#7)
  | .fcvtSW rd rs1 rm => .word (encR 0x68#7 0#5 rs1 rm.toBits rd 0x53#7)
  | .fcvtSWu rd rs1 rm => .word (encR 0x68#7 1#5 rs1 rm.toBits rd 0x53#7)
  | .fmvWX rd rs1 => .word (encR 0x78#7 0#5 rs1 0#3 rd 0x53#7)
  | .cAddi4spn rd' nzuimm => .half (encCiw nzuimm rd')
  | .cFld rd' rs1' uimm => .half (encClD 1#3 uimm rs1' rd')
  | .cLw rd' rs1' uimm => .half (encClW 2#3 uimm rs1' rd')
  | .cFlw rd' rs1' uimm => .half (encClW 3#3 uimm rs1' rd')
  | .cFsd rs1' rs2' uimm => .half (encClD 5#3 uimm rs1' rs2')
  | .cSw rs1' rs2' uimm => .half (encClW 6#3 uimm rs1' rs2')
  | .cFsw rs1' rs2' uimm => .half (encClW 7#3 uimm rs1' rs2')
  | .cNop imm => .half (encCi 0#3 imm 0#5 1#2)
  | .cAddi rd imm => .half (encCi 0#3 imm rd 1#2)
  | .cJal off => .half (encCj 1#3 off)
  | .cLi rd imm => .half (encCi 2#3 imm rd 1#2)
  | .cAddi16sp imm => .half (encC16sp imm)
  | .cLui rd imm => .half (encCi 3#3 imm rd 1#2)
  | .cSrli rd' shamt => .half (encCbAlu 0#1 0#2 rd' shamt)
  | .cSrai rd' shamt => .half (encCbAlu 0#1 1#2 rd' shamt)
  | .cAndi rd' imm => .half (encCbAlu (bits imm 5 1) 2#2 rd' (bits imm 0 5))
  | .cSub rd' rs2' => .half (encCa 0#2 rd' rs2')
  | .cXor rd' rs2' => .half (encCa 1#2 rd' rs2')
  | .cOr rd' rs2' => .half (encCa 2#2 rd' rs2')
  | .cAnd rd' rs2' => .half (encCa 3#2 rd' rs2')
  | .cJ off => .half (encCj 5#3 off)
  | .cBeqz rs1' off => .half (encCb 6#3 off rs1')
  | .cBnez rs1' off => .half (encCb 7#3 off rs1')
  | .cSlli rd shamt => .half (encCi 0#3 (0#1 ++ shamt) rd 2#2)
  | .cFldsp rd uimm => .half (encCLdsp uimm rd)
  | .cLwsp rd uimm => .half (encCLwsp 2#3 uimm rd)
  | .cFlwsp rd uimm => .half (encCLwsp 3#3 uimm rd)
  | .cJr rs1 => .half (encCr 8#4 rs1 0#5)
  | .cMv rd rs2 => .half (encCr 8#4 rd rs2)
  | .cEbreak => .half (encCr 9#4 0#5 0#5)
  | .cJalr rs1 => .half (encCr 9#4 rs1 0#5)
  | .cAdd rd rs2 => .half (encCr 9#4 rd rs2)
  | .cFsdsp rs2 uimm => .half (encCSdsp uimm rs2)
  | .cSwsp rs2 uimm => .half (encCSwsp 6#3 uimm rs2)
  | .cFswsp rs2 uimm => .half (encCSwsp 7#3 uimm rs2)

/-- A fetched word's bytes, lowest address first (R81). -/
def RawInstr.bytes : RawInstr → List Byte
  | .half h => [bits h 0 8, bits h 8 8]
  | .word w => [bits w 0 8, bits w 8 8, bits w 16 8, bits w 24 8]

/-- The bytes of a well-formed instruction, lowest address first. -/
def encodeBytes (cfg : Config) (i : Instr) : List Byte := (encode cfg i).bytes

/-- A fetched word as the trap value of IllegalInstruction: the 32 bits, or `zext_16(h)` (R441). -/
def RawInstr.trapValue : RawInstr → Word
  | .half h => h.setWidth 32
  | .word w => w

/-- The instruction the decoder reads, under the default parameters, from the word `w` of `nbits` bits, bit 0 the
least significant bit of the first parcel; the bytes above `nbits` are zero. -/
def decodeTableWord (nbits w : Nat) : Option Instr :=
  let v : Word := BitVec.ofNat 32 (w % 2 ^ nbits)
  match decode Config.default (RawInstr.bytes (.word v)) with
  | .ok (i, _) => some i
  | .error _ => none

end Sys2Proof
end

