-- ==== Sys2Proof/Machine/System.lean ====
section
/-! DEFINITION. The fences, environment call, breakpoint, Break hint and trap returns
(spec/43_fence_system.md R260-R268). -/

namespace Sys2Proof.Machine

/-- An instruction's own bits, the trap value of its IllegalInstruction (R441). -/
def State.bitsOf (s : State) (i : Instr) : Word := (encode s.cfg i).trapValue

/-- FENCE is a no-op; its fields are ignored (R260). -/
def execFence (_fm _pred _succ : BitVec 4) (_rs1 _rd : Reg) (s : State) : Result := .next (s.advance ilen32)

/-- FENCE.I is a no-op; its fields are ignored (R261). -/
def execFenceI (_imm : BitVec 12) (_rs1 _rd : Reg) (s : State) : Result := .next (s.advance ilen32)

/-- The environment call of a mode (R262). -/
def envCall : Priv → Exception
  | .u => .envCallFromU
  | .s => .envCallFromS
  | .m => .envCallFromM

/-- ECALL (R262). -/
def execEcall (s : State) : Result := .next (raise (envCall s.hart.priv) 0#32 s)

/-- `Break`, or the breakpoint exception when `EBREAK_TRAPS` (R263). -/
def breakpoint (s : State) : Result :=
  .next (if s.cfg.ebreakTraps then raise .breakpoint s.hart.pc s else haltHart s)

/-- EBREAK (R263). -/
def execEbreak (s : State) : Result := breakpoint s

/-- The Break hint: `Break`, whatever `EBREAK_TRAPS` says (R267). -/
def execBreakHint (s : State) : Result := .next (haltHart s)

/-- MRET needs M (R264). -/
def execMret (s : State) : Result :=
  if s.hart.priv = .m then .next (trapReturn .m s) else illegal (s.bitsOf .mret) s

/-- SRET needs S or M (R265). -/
def execSret (s : State) : Result :=
  if s.hart.priv = .u then illegal (s.bitsOf .sret) s else .next (trapReturn .s s)

/-- URET is legal in every mode (R268). -/
def execUret (s : State) : Result := .next (trapReturn .u s)

end Sys2Proof.Machine
end

