-- ==== Sys2Proof/Machine/Compressed.lean ====
section
/-! DEFINITION. The compressed instructions (spec/48_c_compressed.md R390-R431): the shared operations of the 32-bit
instructions with `ilen = 2`. -/

namespace Sys2Proof.Machine

/-! ## Quadrant 0 -/

def execCAddi4spn (rd' : PrimeReg) (nzuimm : BitVec 8) (s : State) : Result :=
  intResult (prime rd') (s.readX sp + imm4spn nzuimm) ilen16 s

/-- Without `HAS_FLD_FSD` the 64-bit forms are illegal (R393). -/
def execCFld (frd' rs1' : PrimeReg) (uimm : BitVec 5) (s : State) : Result :=
  if s.cfg.hasFldFsd then loadF (prime frd') (s.ea (prime rs1') (uimmD uimm)) 8 id ilen16 s
  else illegal (s.bitsOf (.cFld frd' rs1' uimm)) s

def execCLw (rd' rs1' : PrimeReg) (uimm : BitVec 5) (s : State) : Result :=
  loadX (prime rd') (s.ea (prime rs1') (uimmW uimm)) 4 word32 ilen16 s

def execCFlw (frd' rs1' : PrimeReg) (uimm : BitVec 5) (s : State) : Result :=
  loadF (prime frd') (s.ea (prime rs1') (uimmW uimm)) 4 boxLoaded ilen16 s

def execCFsd (rs1' frs2' : PrimeReg) (uimm : BitVec 5) (s : State) : Result :=
  if s.cfg.hasFldFsd then storeN (s.ea (prime rs1') (uimmD uimm)) 8 (s.readF (prime frs2')) ilen16 s
  else illegal (s.bitsOf (.cFsd rs1' frs2' uimm)) s

def execCSw (rs1' rs2' : PrimeReg) (uimm : BitVec 5) (s : State) : Result :=
  storeN (s.ea (prime rs1') (uimmW uimm)) 4 ((s.readX (prime rs2')).setWidth 64) ilen16 s

def execCFsw (rs1' frs2' : PrimeReg) (uimm : BitVec 5) (s : State) : Result :=
  storeN (s.ea (prime rs1') (uimmW uimm)) 4 ((s.f32 (prime frs2')).setWidth 64) ilen16 s

/-! ## Quadrant 1 -/

/-- Nothing but `pc`, whatever the immediate (R400). -/
def execCNop (_imm : BitVec 6) (s : State) : Result := .next (s.advance ilen16)

def execCAddi (rd : Reg) (imm : BitVec 6) (s : State) : Result :=
  intResult rd (s.readX rd + immCi imm) ilen16 s

def execCJal (off : BitVec 11) (s : State) : Result := jumpAndLink ra (s.hart.pc + immCj off) ilen16 s

def execCLi (rd : Reg) (imm : BitVec 6) (s : State) : Result := intResult rd (immCi imm) ilen16 s

def execCAddi16sp (imm : BitVec 6) (s : State) : Result :=
  intResult sp (s.readX sp + imm16sp imm) ilen16 s

def execCLui (rd : Reg) (imm : BitVec 6) (s : State) : Result := intResult rd (immCLui imm) ilen16 s

def execCSrli (rd' : PrimeReg) (shamt : BitVec 5) (s : State) : Result :=
  intResult (prime rd') (s.readX (prime rd') >>> shamt.toNat) ilen16 s

def execCSrai (rd' : PrimeReg) (shamt : BitVec 5) (s : State) : Result :=
  intResult (prime rd') ((s.readX (prime rd')).sshiftRight shamt.toNat) ilen16 s

def execCAndi (rd' : PrimeReg) (imm : BitVec 6) (s : State) : Result :=
  intResult (prime rd') (s.readX (prime rd') &&& immCi imm) ilen16 s

def execCSub (rd' rs2' : PrimeReg) (s : State) : Result :=
  intResult (prime rd') (s.readX (prime rd') - s.readX (prime rs2')) ilen16 s

def execCXor (rd' rs2' : PrimeReg) (s : State) : Result :=
  intResult (prime rd') (s.readX (prime rd') ^^^ s.readX (prime rs2')) ilen16 s

def execCOr (rd' rs2' : PrimeReg) (s : State) : Result :=
  intResult (prime rd') (s.readX (prime rd') ||| s.readX (prime rs2')) ilen16 s

def execCAnd (rd' rs2' : PrimeReg) (s : State) : Result :=
  intResult (prime rd') (s.readX (prime rd') &&& s.readX (prime rs2')) ilen16 s

def execCJ (off : BitVec 11) (s : State) : Result := branchTo true (immCj off) ilen16 s

def execCBeqz (rs1' : PrimeReg) (off : BitVec 8) (s : State) : Result :=
  branchTo (s.readX (prime rs1') == 0#32) (immCb off) ilen16 s

def execCBnez (rs1' : PrimeReg) (off : BitVec 8) (s : State) : Result :=
  branchTo (s.readX (prime rs1') != 0#32) (immCb off) ilen16 s

/-! ## Quadrant 2 -/

def execCSlli (rd : Reg) (shamt : BitVec 5) (s : State) : Result :=
  intResult rd (s.readX rd <<< shamt.toNat) ilen16 s

def execCFldsp (frd : Reg) (uimm : BitVec 6) (s : State) : Result :=
  if s.cfg.hasFldFsd then loadF frd (s.ea sp (uimmDsp uimm)) 8 id ilen16 s
  else illegal (s.bitsOf (.cFldsp frd uimm)) s

def execCLwsp (rd : Reg) (uimm : BitVec 6) (s : State) : Result :=
  loadX rd (s.ea sp (uimmWsp uimm)) 4 word32 ilen16 s

def execCFlwsp (frd : Reg) (uimm : BitVec 6) (s : State) : Result :=
  loadF frd (s.ea sp (uimmWsp uimm)) 4 boxLoaded ilen16 s

/-- `jalr x0, 0(rs1)` (R424). -/
def execCJr (rs1 : Reg) (s : State) : Result := jumpAndLink 0#5 (evenTarget (s.readX rs1)) ilen16 s

def execCMv (rd rs2 : Reg) (s : State) : Result := intResult rd (s.readX rs2) ilen16 s

/-- Exactly EBREAK (R431). -/
def execCEbreak (s : State) : Result := breakpoint s

def execCJalr (rs1 : Reg) (s : State) : Result := jumpAndLink ra (evenTarget (s.readX rs1)) ilen16 s

def execCAdd (rd rs2 : Reg) (s : State) : Result := intResult rd (s.readX rd + s.readX rs2) ilen16 s

def execCFsdsp (frs2 : Reg) (uimm : BitVec 6) (s : State) : Result :=
  if s.cfg.hasFldFsd then storeN (s.ea sp (uimmDsp uimm)) 8 (s.readF frs2) ilen16 s
  else illegal (s.bitsOf (.cFsdsp frs2 uimm)) s

def execCSwsp (rs2 : Reg) (uimm : BitVec 6) (s : State) : Result :=
  storeN (s.ea sp (uimmWsp uimm)) 4 ((s.readX rs2).setWidth 64) ilen16 s

def execCFswsp (frs2 : Reg) (uimm : BitVec 6) (s : State) : Result :=
  storeN (s.ea sp (uimmWsp uimm)) 4 ((s.f32 frs2).setWidth 64) ilen16 s

end Sys2Proof.Machine
end

