-- ==== Sys2Proof/Machine/Float.lean ====
section
/-! DEFINITION. Binary32 arithmetic (spec/47_f_float.md R341-R345, R350-R369). Magnitudes are computed as exact
integers and rounded once (R343); quotients and square roots, which need not be finite, stand in by `inexact`. -/

namespace Sys2Proof.Machine

/-! ## Values (R341) -/

/-- A binary32 value: `fin neg m e` is `(-1)^neg * m * 2^e`. -/
inductive F32 where
  | nan
  | inf (neg : Bool)
  | fin (neg : Bool) (m : Nat) (e : Int)
deriving DecidableEq, Repr

def f32Sign (w : Word) : Bool := w.getLsbD 31
def f32Exp (w : Word) : Nat := (w.extractLsb' 23 8).toNat
def f32Frac (w : Word) : Nat := (w.extractLsb' 0 23).toNat

/-- The value of a word, by the table of R341. -/
def F32.ofWord (w : Word) : F32 :=
  if f32Exp w = 255 then (if f32Frac w = 0 then .inf (f32Sign w) else .nan)
  else if f32Exp w = 0 then .fin (f32Sign w) (f32Frac w) (-149)
  else .fin (f32Sign w) (2 ^ 23 + f32Frac w) (Int.ofNat (f32Exp w) - 150)

def canonicalNan : Word := 0x7FC00000#32

/-- The word with a sign and a magnitude (bits 30:0). -/
def f32Word (neg : Bool) (mag : Nat) : Word := BitVec.ofBool neg ++ BitVec.ofNat 31 mag

def f32Inf (neg : Bool) : Word := f32Word neg 0x7F800000
def f32Zero (neg : Bool) : Word := f32Word neg 0

def isNan (w : Word) : Bool := f32Exp w == 255 && f32Frac w != 0

/-! ## Rounding (R342, R343) -/

/-- Whether the magnitude `q + r / 2^shift` of a value of the given sign is rounded to `q + 1`. -/
def roundsUp (mode : RoundingMode) (neg : Bool) (q r shift : Nat) : Bool :=
  match mode with
  | .rne => decide (2 ^ shift < 2 * r) || (decide (2 * r = 2 ^ shift) && q % 2 == 1)
  | .rtz => false
  | .rdn => neg && r != 0
  | .rup => !neg && r != 0
  | .rmm => decide (2 ^ shift ≤ 2 * r)

/-- `m / 2^shift` rounded to an integer. -/
def roundShift (mode : RoundingMode) (neg : Bool) (m shift : Nat) : Nat :=
  m / 2 ^ shift + if roundsUp mode neg (m / 2 ^ shift) (m % 2 ^ shift) shift then 1 else 0

/-- `m * 2^e` rounded to an integer. -/
def roundToInt (mode : RoundingMode) (neg : Bool) (m : Nat) (e : Int) : Nat :=
  if 0 ≤ e then m * 2 ^ e.toNat else roundShift mode neg m (-e).toNat

/-- The exponent of the unit in the last place of the binary32 numbers next to `m * 2^e`, `m > 0`: 24 significant bits,
and never below the subnormals' `2^-149`. -/
def ulpExp (m : Nat) (e : Int) : Int := max (e + Int.ofNat (Nat.log2 m) - 23) (-149)

/-- The magnitude of the overflow result of a mode (R343). -/
def overflowMag (mode : RoundingMode) (neg : Bool) : Nat :=
  match mode with
  | .rne => 0x7F800000
  | .rmm => 0x7F800000
  | .rtz => 0x7F7FFFFF
  | .rdn => if neg then 0x7F800000 else 0x7F7FFFFF
  | .rup => if neg then 0x7F7FFFFF else 0x7F800000

/-- The magnitude bits of `m * 2^e` rounded, `m > 0`: a carry out of the fraction moves into the exponent. -/
def roundMag (mode : RoundingMode) (neg : Bool) (m : Nat) (e : Int) : Nat :=
  let ue := ulpExp m e
  let mag := (ue + 149).toNat * 2 ^ 23 + roundToInt mode neg m (e - ue)
  if 0x7F800000 ≤ mag then overflowMag mode neg else mag

/-- `round32((-1)^neg * m * 2^e, mode)` for `m > 0` (R343). -/
def round32 (mode : RoundingMode) (neg : Bool) (m : Nat) (e : Int) : Word := f32Word neg (roundMag mode neg m e)

/-- A magnitude strictly between `q * 2^e` and `(q + 1) * 2^e`, or `q * 2^e` itself when `exact`: the pair whose
rounding is the same, for a `q` of at least 26 bits (log entry 17). -/
def inexact (exact : Bool) (q : Nat) (e : Int) : Nat × Int :=
  if exact then (q, e) else (2 * q + 1, e - 1)

/-! ## Arithmetic (R344, R345, R350-R354) -/

/-- `(-1)^neg * m`. -/
def signedMag (neg : Bool) (m : Nat) : Int := if neg then -Int.ofNat m else Int.ofNat m

/-- The exact sum of two finite values, rounded; the sign of an exact zero sum is R345's. -/
def addFinite (mode : RoundingMode) (n1 : Bool) (m1 : Nat) (e1 : Int) (n2 : Bool) (m2 : Nat) (e2 : Int) : Word :=
  let e := min e1 e2
  let sum := signedMag n1 (m1 * 2 ^ (e1 - e).toNat) + signedMag n2 (m2 * 2 ^ (e2 - e).toNat)
  if sum = 0 then f32Zero (if n1 = n2 then n1 else mode == .rdn)
  else round32 mode (decide (sum < 0)) sum.natAbs e

/-- FADD.S on words. -/
def f32Add (mode : RoundingMode) (a b : Word) : Word :=
  match F32.ofWord a, F32.ofWord b with
  | .nan, _ => canonicalNan
  | _, .nan => canonicalNan
  | .inf n1, .inf n2 => if n1 = n2 then f32Inf n1 else canonicalNan
  | .inf n1, .fin _ _ _ => f32Inf n1
  | .fin _ _ _, .inf n2 => f32Inf n2
  | .fin n1 m1 e1, .fin n2 m2 e2 => addFinite mode n1 m1 e1 n2 m2 e2

/-- A word with its sign bit inverted. -/
def f32Neg (w : Word) : Word := w ^^^ 0x80000000#32

/-- FSUB.S on words (R351). -/
def f32Sub (mode : RoundingMode) (a b : Word) : Word := f32Add mode a (f32Neg b)

/-- FMUL.S on words. -/
def f32Mul (mode : RoundingMode) (a b : Word) : Word :=
  match F32.ofWord a, F32.ofWord b with
  | .nan, _ => canonicalNan
  | _, .nan => canonicalNan
  | .inf n1, .inf n2 => f32Inf (n1 ^^ n2)
  | .inf n1, .fin n2 m2 _ => if m2 = 0 then canonicalNan else f32Inf (n1 ^^ n2)
  | .fin n1 m1 _, .inf n2 => if m1 = 0 then canonicalNan else f32Inf (n1 ^^ n2)
  | .fin n1 m1 e1, .fin n2 m2 e2 =>
    if m1 * m2 = 0 then f32Zero (n1 ^^ n2) else round32 mode (n1 ^^ n2) (m1 * m2) (e1 + e2)

/-- The quotient of two nonzero magnitudes: 50 bits more than the integer quotient, the rest by `inexact`. -/
def quotient (m1 : Nat) (e1 : Int) (m2 : Nat) (e2 : Int) : Nat × Int :=
  inexact (decide (m1 * 2 ^ 50 % m2 = 0)) (m1 * 2 ^ 50 / m2) (e1 - e2 - 50)

/-- FDIV.S on words. -/
def f32Div (mode : RoundingMode) (a b : Word) : Word :=
  match F32.ofWord a, F32.ofWord b with
  | .nan, _ => canonicalNan
  | _, .nan => canonicalNan
  | .inf _, .inf _ => canonicalNan
  | .inf n1, .fin n2 _ _ => f32Inf (n1 ^^ n2)
  | .fin n1 _ _, .inf n2 => f32Zero (n1 ^^ n2)
  | .fin n1 m1 e1, .fin n2 m2 e2 =>
    if m2 = 0 then (if m1 = 0 then canonicalNan else f32Inf (n1 ^^ n2))
    else if m1 = 0 then f32Zero (n1 ^^ n2)
    else round32 mode (n1 ^^ n2) (quotient m1 e1 m2 e2).1 (quotient m1 e1 m2 e2).2

/-- The largest `r` below `r0 + 2^k` with `r * r ≤ n`, given one at least `r0`: bit by bit. -/
def isqrtFrom (n : Nat) : Nat → Nat → Nat
  | 0, r => r
  | k + 1, r => isqrtFrom n k (if (r + 2 ^ k) * (r + 2 ^ k) ≤ n then r + 2 ^ k else r)

/-- The integer square root of an `n` below 2^80. -/
def isqrt (n : Nat) : Nat := isqrtFrom n 40 0

/-- The square root of a nonzero magnitude, scaled by an even power of two at least `2^54`. -/
def squareRoot (m : Nat) (e : Int) : Nat × Int :=
  let k : Nat := if e % 2 = 0 then 54 else 55
  let n := m * 2 ^ k
  inexact (decide (isqrt n * isqrt n = n)) (isqrt n) ((e - Int.ofNat k) / 2)

/-- FSQRT.S on a word. -/
def f32Sqrt (mode : RoundingMode) (a : Word) : Word :=
  match F32.ofWord a with
  | .nan => canonicalNan
  | .inf neg => if neg then canonicalNan else f32Inf false
  | .fin neg m e =>
    if m = 0 then f32Zero neg
    else if neg then canonicalNan
    else round32 mode false (squareRoot m e).1 (squareRoot m e).2

/-! ## Sign injection, minimum, maximum, comparisons (R355-R359, R367-R369) -/

/-- A word's low 31 bits under another sign. -/
def withSign (sign : Bool) (w : Word) : Word := BitVec.ofBool sign ++ w.extractLsb' 0 31

/-- A key that orders the words of non-NaN values as R358 orders the values, -0 below +0. -/
def f32Key (w : Word) : Int :=
  if f32Sign w then -Int.ofNat (w.extractLsb' 0 31).toNat - 1 else Int.ofNat (w.extractLsb' 0 31).toNat

/-- FMIN.S (R358). -/
def f32Min (a b : Word) : Word :=
  if isNan a then (if isNan b then canonicalNan else b)
  else if isNan b then a
  else if f32Key a ≤ f32Key b then a else b

/-- FMAX.S (R359). -/
def f32Max (a b : Word) : Word :=
  if isNan a then (if isNan b then canonicalNan else b)
  else if isNan b then a
  else if f32Key a ≤ f32Key b then b else a

/-- A non-NaN word's place among the values: signed magnitude, both zeros at 0. -/
def f32Order (w : Word) : Int := signedMag (f32Sign w) (w.extractLsb' 0 31).toNat

/-- FEQ.S, FLT.S, FLE.S on words: false when an operand is NaN. -/
def f32Eq (a b : Word) : Bool := !isNan a && !isNan b && decide (f32Order a = f32Order b)
def f32Lt (a b : Word) : Bool := !isNan a && !isNan b && decide (f32Order a < f32Order b)
def f32Le (a b : Word) : Bool := !isNan a && !isNan b && decide (f32Order a ≤ f32Order b)

/-- FCLASS.S: the bit of the class (R363). -/
def f32ClassBit (w : Word) : Nat :=
  if f32Exp w = 255 then
    if f32Frac w = 0 then (if f32Sign w then 0 else 7)
    else if w.getLsbD 22 then 9 else 8
  else if f32Exp w = 0 then
    if f32Frac w = 0 then (if f32Sign w then 3 else 4)
    else if f32Sign w then 2 else 5
  else if f32Sign w then 1 else 6

def f32Class (w : Word) : Word := 1#32 <<< f32ClassBit w

/-! ## Conversions (R360, R361, R364, R365) -/

/-- A finite value rounded to an integer. -/
def f32ToInt (mode : RoundingMode) (neg : Bool) (m : Nat) (e : Int) : Int :=
  signedMag neg (roundToInt mode neg m e)

/-- FCVT.W.S: saturating. -/
def cvtWS (mode : RoundingMode) (w : Word) : Word :=
  match F32.ofWord w with
  | .nan => 0x7FFFFFFF#32
  | .inf neg => if neg then 0x80000000#32 else 0x7FFFFFFF#32
  | .fin neg m e =>
    if 2 ^ 31 - 1 < f32ToInt mode neg m e then 0x7FFFFFFF#32
    else if f32ToInt mode neg m e < -2 ^ 31 then 0x80000000#32
    else BitVec.ofInt 32 (f32ToInt mode neg m e)

/-- FCVT.WU.S: saturating. -/
def cvtWuS (mode : RoundingMode) (w : Word) : Word :=
  match F32.ofWord w with
  | .nan => 0xFFFFFFFF#32
  | .inf neg => if neg then 0#32 else 0xFFFFFFFF#32
  | .fin neg m e =>
    if f32ToInt mode neg m e < 0 then 0#32
    else if 2 ^ 32 - 1 < f32ToInt mode neg m e then 0xFFFFFFFF#32
    else BitVec.ofInt 32 (f32ToInt mode neg m e)

/-- An integer rounded to binary32; zero gives +0. -/
def ofIntRounded (mode : RoundingMode) (i : Int) : Word :=
  if i = 0 then f32Zero false else round32 mode (decide (i < 0)) i.natAbs 0

/-- FCVT.S.W and FCVT.S.WU. -/
def cvtSW (mode : RoundingMode) (w : Word) : Word := ofIntRounded mode w.toInt
def cvtSWu (mode : RoundingMode) (w : Word) : Word := ofIntRounded mode (Int.ofNat w.toNat)

end Sys2Proof.Machine
end

