-- ==== Sys2Proof/Machine/Fp.lean ====
section
/-! DEFINITION. LOAD-FP, STORE-FP and OP-FP (spec/47_f_float.md R340-R369). No meaning here reads `mstatus.FS` or writes
`fflags` (R340). -/

namespace Sys2Proof.Machine

/-- An instruction whose result depends on its rounding mode; a reserved mode is illegal (R342). -/
def withRounding (i : Instr) (rm : Rm) (f : RoundingMode → Result) (s : State) : Result :=
  match s.roundingMode rm with
  | some mode => f mode
  | none => illegal (s.bitsOf i) s

/-! ## Loads and stores (R346-R349); without `HAS_FLD_FSD` the 64-bit forms are illegal -/

def execFlw (frd rs1 : Reg) (imm : BitVec 12) (s : State) : Result :=
  loadF frd (s.ea rs1 (imm12 imm)) 4 boxLoaded ilen32 s

def execFsw (rs1 frs2 : Reg) (imm : BitVec 12) (s : State) : Result :=
  storeN (s.ea rs1 (imm12 imm)) 4 ((s.f32 frs2).setWidth 64) ilen32 s

def execFld (frd rs1 : Reg) (imm : BitVec 12) (s : State) : Result :=
  if s.cfg.hasFldFsd then loadF frd (s.ea rs1 (imm12 imm)) 8 id ilen32 s
  else illegal (s.bitsOf (.fld frd rs1 imm)) s

def execFsd (rs1 frs2 : Reg) (imm : BitVec 12) (s : State) : Result :=
  if s.cfg.hasFldFsd then storeN (s.ea rs1 (imm12 imm)) 8 (s.readF frs2) ilen32 s
  else illegal (s.bitsOf (.fsd rs1 frs2 imm)) s

/-! ## Arithmetic (R350-R354) -/

def execFaddS (frd frs1 frs2 : Reg) (rm : Rm) (s : State) : Result :=
  withRounding (.faddS frd frs1 frs2 rm) rm
    (fun mode => fpResult frd (f32Add mode (s.f32 frs1) (s.f32 frs2)) ilen32 s) s

def execFsubS (frd frs1 frs2 : Reg) (rm : Rm) (s : State) : Result :=
  withRounding (.fsubS frd frs1 frs2 rm) rm
    (fun mode => fpResult frd (f32Sub mode (s.f32 frs1) (s.f32 frs2)) ilen32 s) s

def execFmulS (frd frs1 frs2 : Reg) (rm : Rm) (s : State) : Result :=
  withRounding (.fmulS frd frs1 frs2 rm) rm
    (fun mode => fpResult frd (f32Mul mode (s.f32 frs1) (s.f32 frs2)) ilen32 s) s

def execFdivS (frd frs1 frs2 : Reg) (rm : Rm) (s : State) : Result :=
  withRounding (.fdivS frd frs1 frs2 rm) rm
    (fun mode => fpResult frd (f32Div mode (s.f32 frs1) (s.f32 frs2)) ilen32 s) s

def execFsqrtS (frd frs1 : Reg) (rm : Rm) (s : State) : Result :=
  withRounding (.fsqrtS frd frs1 rm) rm (fun mode => fpResult frd (f32Sqrt mode (s.f32 frs1)) ilen32 s) s

/-! ## Sign injection, minimum, maximum (R355-R359) -/

def execFsgnjS (frd frs1 frs2 : Reg) (s : State) : Result :=
  fpResult frd (withSign (f32Sign (s.f32 frs2)) (s.f32 frs1)) ilen32 s

def execFsgnjnS (frd frs1 frs2 : Reg) (s : State) : Result :=
  fpResult frd (withSign (!f32Sign (s.f32 frs2)) (s.f32 frs1)) ilen32 s

def execFsgnjxS (frd frs1 frs2 : Reg) (s : State) : Result :=
  fpResult frd (withSign (f32Sign (s.f32 frs1) ^^ f32Sign (s.f32 frs2)) (s.f32 frs1)) ilen32 s

def execFminS (frd frs1 frs2 : Reg) (s : State) : Result :=
  fpResult frd (f32Min (s.f32 frs1) (s.f32 frs2)) ilen32 s

def execFmaxS (frd frs1 frs2 : Reg) (s : State) : Result :=
  fpResult frd (f32Max (s.f32 frs1) (s.f32 frs2)) ilen32 s

/-! ## Conversions, moves, comparisons (R360-R369) -/

def execFcvtWS (rd frs1 : Reg) (rm : Rm) (s : State) : Result :=
  withRounding (.fcvtWS rd frs1 rm) rm (fun mode => intResult rd (cvtWS mode (s.f32 frs1)) ilen32 s) s

def execFcvtWuS (rd frs1 : Reg) (rm : Rm) (s : State) : Result :=
  withRounding (.fcvtWuS rd frs1 rm) rm (fun mode => intResult rd (cvtWuS mode (s.f32 frs1)) ilen32 s) s

def execFmvXW (rd frs1 : Reg) (s : State) : Result := intResult rd (s.f32 frs1) ilen32 s

def execFclassS (rd frs1 : Reg) (s : State) : Result := intResult rd (f32Class (s.f32 frs1)) ilen32 s

def execFeqS (rd frs1 frs2 : Reg) (s : State) : Result :=
  intResult rd (boolWord (f32Eq (s.f32 frs1) (s.f32 frs2))) ilen32 s

def execFltS (rd frs1 frs2 : Reg) (s : State) : Result :=
  intResult rd (boolWord (f32Lt (s.f32 frs1) (s.f32 frs2))) ilen32 s

def execFleS (rd frs1 frs2 : Reg) (s : State) : Result :=
  intResult rd (boolWord (f32Le (s.f32 frs1) (s.f32 frs2))) ilen32 s

def execFcvtSW (frd rs1 : Reg) (rm : Rm) (s : State) : Result :=
  withRounding (.fcvtSW frd rs1 rm) rm (fun mode => fpResult frd (cvtSW mode (s.readX rs1)) ilen32 s) s

def execFcvtSWu (frd rs1 : Reg) (rm : Rm) (s : State) : Result :=
  withRounding (.fcvtSWu frd rs1 rm) rm (fun mode => fpResult frd (cvtSWu mode (s.readX rs1)) ilen32 s) s

def execFmvWX (frd rs1 : Reg) (s : State) : Result := fpResult frd (s.readX rs1) ilen32 s

end Sys2Proof.Machine
end

