-- ==== Sys2Proof/Machine/MulDiv.lean ====
section
/-! DEFINITION. The M extension (spec/45_m_muldiv.md R300-R310). -/

namespace Sys2Proof.Machine

/-- Bits 63:32 of an exact product. -/
def highHalf (p : Int) : Word := (BitVec.ofInt 64 p).extractLsb' 32 32

/-- DIV (R305): the quotient rounded toward zero, with the two corner cases. -/
def divWord (a b : Word) : Word :=
  if b = 0#32 then 0xFFFFFFFF#32
  else if a = 0x80000000#32 ∧ b = 0xFFFFFFFF#32 then 0x80000000#32
  else BitVec.ofInt 32 (Int.tdiv a.toInt b.toInt)

/-- DIVU (R306). -/
def divuWord (a b : Word) : Word :=
  if b = 0#32 then 0xFFFFFFFF#32 else BitVec.ofNat 32 (a.toNat / b.toNat)

/-- REM (R307): the sign of the dividend. -/
def remWord (a b : Word) : Word :=
  if b = 0#32 then a
  else if a = 0x80000000#32 ∧ b = 0xFFFFFFFF#32 then 0#32
  else BitVec.ofInt 32 (a.toInt - b.toInt * Int.tdiv a.toInt b.toInt)

/-- REMU (R308). -/
def remuWord (a b : Word) : Word :=
  if b = 0#32 then a else BitVec.ofNat 32 (a.toNat % b.toNat)

def execMul (rd rs1 rs2 : Reg) (s : State) : Result :=
  intResult rd (s.readX rs1 * s.readX rs2) ilen32 s

def execMulh (rd rs1 rs2 : Reg) (s : State) : Result :=
  intResult rd (highHalf ((s.readX rs1).toInt * (s.readX rs2).toInt)) ilen32 s

def execMulhsu (rd rs1 rs2 : Reg) (s : State) : Result :=
  intResult rd (highHalf ((s.readX rs1).toInt * Int.ofNat (s.readX rs2).toNat)) ilen32 s

def execMulhu (rd rs1 rs2 : Reg) (s : State) : Result :=
  intResult rd (highHalf (Int.ofNat (s.readX rs1).toNat * Int.ofNat (s.readX rs2).toNat)) ilen32 s

def execDiv (rd rs1 rs2 : Reg) (s : State) : Result :=
  intResult rd (divWord (s.readX rs1) (s.readX rs2)) ilen32 s

def execDivu (rd rs1 rs2 : Reg) (s : State) : Result :=
  intResult rd (divuWord (s.readX rs1) (s.readX rs2)) ilen32 s

def execRem (rd rs1 rs2 : Reg) (s : State) : Result :=
  intResult rd (remWord (s.readX rs1) (s.readX rs2)) ilen32 s

def execRemu (rd rs1 rs2 : Reg) (s : State) : Result :=
  intResult rd (remuWord (s.readX rs1) (s.readX rs2)) ilen32 s

end Sys2Proof.Machine
end

