-- ==== Sys2Proof/Machine/Csr.lean ====
section
/-! DEFINITION. The CSR file: the numbers with a function (spec/10_state.md R33), `csr_read`, `csr_write`
(spec/44_zicsr.md R282) and the access checks (R32, R281). -/

namespace Sys2Proof.Machine

/-- The CSRs with a function (R33). -/
inductive CsrName where
  | ustatus | fflags | frm | fcsr | uie | utvec | uscratch | uepc | ucause | utval | uip
  | sstatus | sedeleg | sideleg | sie | stvec | scounteren | sscratch | sepc | scause | stval | sip | satp
  | mstatus | misa | medeleg | mideleg | mie | mtvec | mcounteren | mscratch | mepc | mcause | mtval | mip
  | mcycle | mcycleh | minstret | minstreth
  | cycle | cycleh | time | timeh | instret | instreth
  | mvendorid | marchid | mimpid | mhartid
deriving DecidableEq, Repr

/-- The numbers of R33, user and supervisor. -/
def csrTableUS : List (Nat × CsrName) :=
  [ (0x000, .ustatus), (0x001, .fflags), (0x002, .frm), (0x003, .fcsr), (0x004, .uie), (0x005, .utvec)
  , (0x040, .uscratch), (0x041, .uepc), (0x042, .ucause), (0x043, .utval), (0x044, .uip)
  , (0x100, .sstatus), (0x102, .sedeleg), (0x103, .sideleg), (0x104, .sie), (0x105, .stvec)
  , (0x106, .scounteren), (0x140, .sscratch), (0x141, .sepc), (0x142, .scause), (0x143, .stval)
  , (0x144, .sip), (0x180, .satp) ]

/-- The numbers of R33, machine, counters and identification. -/
def csrTableM : List (Nat × CsrName) :=
  [ (0x300, .mstatus), (0x301, .misa), (0x302, .medeleg), (0x303, .mideleg), (0x304, .mie), (0x305, .mtvec)
  , (0x306, .mcounteren), (0x340, .mscratch), (0x341, .mepc), (0x342, .mcause), (0x343, .mtval), (0x344, .mip)
  , (0xB00, .mcycle), (0xB80, .mcycleh), (0xB02, .minstret), (0xB82, .minstreth)
  , (0xC00, .cycle), (0xC80, .cycleh), (0xC01, .time), (0xC81, .timeh), (0xC02, .instret), (0xC82, .instreth)
  , (0xF11, .mvendorid), (0xF12, .marchid), (0xF13, .mimpid), (0xF14, .mhartid) ]

/-- The function of a CSR number, or none: plain storage (R31). -/
def csrName (n : CsrNum) : Option CsrName :=
  ((csrTableUS ++ csrTableM).find? (fun e => e.1 == n.toNat)).map (fun e => e.2)

/-- The value of a CSR with a function (R34-R62). -/
def csrReadNamed (s : State) : CsrName → Word
  | .ustatus => ustatusRead s.hart.mstatus
  | .fflags => (fflagsOf s.hart.fcsr).setWidth 32
  | .frm => (frmOf s.hart.fcsr).setWidth 32
  | .fcsr => s.hart.fcsr.setWidth 32
  | .uie => s.hart.mie &&& 0x111#32
  | .utvec => s.hart.utrap.tvec
  | .uscratch => s.hart.utrap.scratch
  | .uepc => s.hart.utrap.epc
  | .ucause => s.hart.utrap.cause
  | .utval => s.hart.utrap.tval
  | .uip => s.mip &&& 0x111#32
  | .sstatus => sstatusRead s.hart.mstatus
  | .sedeleg => s.hart.sedeleg
  | .sideleg => s.hart.sideleg
  | .sie => s.hart.mie &&& 0x333#32
  | .stvec => s.hart.strap.tvec
  | .scounteren => s.hart.scounteren
  | .sscratch => s.hart.strap.scratch
  | .sepc => s.hart.strap.epc
  | .scause => s.hart.strap.cause
  | .stval => s.hart.strap.tval
  | .sip => s.mip &&& 0x333#32
  | .satp => s.hart.satp
  | .mstatus => mstatusRead s.hart.mstatus
  | .misa => s.cfg.misaValue
  | .medeleg => s.hart.medeleg
  | .mideleg => s.hart.mideleg
  | .mie => s.hart.mie
  | .mtvec => s.hart.mtrap.tvec
  | .mcounteren => s.hart.mcounteren
  | .mscratch => s.hart.mtrap.scratch
  | .mepc => s.hart.mtrap.epc
  | .mcause => s.hart.mtrap.cause
  | .mtval => s.hart.mtrap.tval
  | .mip => s.mip
  | .mcycle => lowWord s.hart.cycle
  | .mcycleh => highWord s.hart.cycle
  | .minstret => lowWord s.hart.cycle
  | .minstreth => highWord s.hart.cycle
  | .cycle => lowWord s.hart.cycle
  | .cycleh => highWord s.hart.cycle
  | .time => lowWord s.mtime
  | .timeh => highWord s.mtime
  | .instret => lowWord s.hart.cycle
  | .instreth => highWord s.hart.cycle
  | .mvendorid => 0#32
  | .marchid => 0#32
  | .mimpid => 0#32
  | .mhartid => BitVec.ofNat 32 s.hart.hartid

/-- `csr_read(n)` (R282). -/
def csrRead (s : State) (n : CsrNum) : Word :=
  match csrName n with
  | some c => csrReadNamed s c
  | none => sparseGet 0#32 n.toNat s.hart.csrs

/-- A value stored in `xepc`: bit 0 is zero (R47). -/
def epcValue (v : Word) : Word := v &&& 0xFFFFFFFE#32

/-- The hart after a write of a CSR with a function (R34-R62). The numbers of the read-only quarter are refused before
they come here (R32); `misa` ignores writes (R37). -/
def csrWriteNamed (cfg : Config) (v : Word) (h : Hart) : CsrName → Hart
  | .ustatus => { h with mstatus := ustatusWrite h.mstatus v }
  | .fflags => { h with fcsr := frmOf h.fcsr ++ v.extractLsb' 0 5 }
  | .frm => { h with fcsr := v.extractLsb' 0 3 ++ fflagsOf h.fcsr }
  | .fcsr => { h with fcsr := v.extractLsb' 0 8 }
  | .uie => { h with mie := maskedWrite 0x111#32 h.mie v }
  | .utvec => { h with utrap := { h.utrap with tvec := v } }
  | .uscratch => { h with utrap := { h.utrap with scratch := v } }
  | .uepc => { h with utrap := { h.utrap with epc := epcValue v } }
  | .ucause => { h with utrap := { h.utrap with cause := v } }
  | .utval => { h with utrap := { h.utrap with tval := v } }
  | .uip => { h with mipSw := maskedWrite 0x001#32 h.mipSw v }
  | .sstatus => { h with mstatus := sstatusWrite h.mstatus v }
  | .sedeleg => { h with sedeleg := v }
  | .sideleg => { h with sideleg := v }
  | .sie => { h with mie := maskedWrite 0x333#32 h.mie v }
  | .stvec => { h with strap := { h.strap with tvec := v } }
  | .scounteren => { h with scounteren := v }
  | .sscratch => { h with strap := { h.strap with scratch := v } }
  | .sepc => { h with strap := { h.strap with epc := epcValue v } }
  | .scause => { h with strap := { h.strap with cause := v } }
  | .stval => { h with strap := { h.strap with tval := v } }
  | .sip => { h with mipSw := maskedWrite 0x103#32 h.mipSw v }
  | .satp => { h with satp := v, tlb := if cfg.tlbFlushOnSatpWrite then h.tlb.flush else h.tlb }
  | .mstatus => { h with mstatus := mstatusWrite h.mstatus v }
  | .misa => h
  | .medeleg => { h with medeleg := v }
  | .mideleg => { h with mideleg := v }
  | .mie => { h with mie := v &&& 0xBBB#32 }
  | .mtvec => { h with mtrap := { h.mtrap with tvec := v } }
  | .mcounteren => { h with mcounteren := v }
  | .mscratch => { h with mtrap := { h.mtrap with scratch := v } }
  | .mepc => { h with mtrap := { h.mtrap with epc := epcValue v } }
  | .mcause => { h with mtrap := { h.mtrap with cause := v } }
  | .mtval => { h with mtrap := { h.mtrap with tval := v } }
  | .mip => { h with mipSw := v &&& 0x333#32 }
  | .mcycle => { h with cycle := setLowWord h.cycle v }
  | .mcycleh => { h with cycle := setHighWord h.cycle v }
  | .minstret => { h with cycle := setLowWord h.cycle v }
  | .minstreth => { h with cycle := setHighWord h.cycle v }
  | .cycle => h
  | .cycleh => h
  | .time => h
  | .timeh => h
  | .instret => h
  | .instreth => h
  | .mvendorid => h
  | .marchid => h
  | .mimpid => h
  | .mhartid => h

/-- `csr_write(n, v)` (R282); a number without a function stores `v` (R31). -/
def csrWrite (n : CsrNum) (v : Word) (s : State) : State :=
  match csrName n with
  | some c => { s with hart := csrWriteNamed s.cfg v s.hart c }
  | none => { s with hart := { s.hart with csrs := sparseSet 0#32 n.toNat v s.hart.csrs } }

/-- The level a CSR number needs, `csr[9:8]` (R32 a). -/
def csrLevel (n : CsrNum) : Nat := (n.extractLsb' 8 2).toNat

/-- The read-only quarter, `csr[11:10] = 0b11` (R32 b). -/
def csrReadOnly (n : CsrNum) : Bool := n.extractLsb' 10 2 == 3#2

/-- The access checks of R281 pass: privilege, then, for an access that will write, the read-only quarter. -/
def csrAllowed (s : State) (n : CsrNum) (willWrite : Bool) : Bool :=
  decide (csrLevel n ≤ s.hart.priv.level) && !(willWrite && csrReadOnly n)

/-- The access procedure of R281 for the instruction with bits `w`: the checks, `t = csr_read`, the write of
`new t` when there is one, then `x[rd] <- t`. -/
def csrAccess (w : Word) (rd : Reg) (n : CsrNum) (willWrite : Bool) (new : Word → Word) (s : State) : Result :=
  if csrAllowed s n willWrite then
    let t := csrRead s n
    let s1 := if willWrite then csrWrite n (new t) s else s
    intResult rd t 4#32 s1
  else illegal w s

end Sys2Proof.Machine
end

