-- ==== Sys2Proof/Machine/Zicsr.lean ====
section
/-! DEFINITION. The CSR instructions (spec/44_zicsr.md R280-R288). -/

namespace Sys2Proof.Machine

def execCsrrw (rd rs1 : Reg) (csr : CsrNum) (s : State) : Result :=
  csrAccess (s.bitsOf (.csrrw rd rs1 csr)) rd csr true (fun _ => s.readX rs1) s

def execCsrrs (rd rs1 : Reg) (csr : CsrNum) (s : State) : Result :=
  csrAccess (s.bitsOf (.csrrs rd rs1 csr)) rd csr (rs1 != 0#5) (fun t => t ||| s.readX rs1) s

def execCsrrc (rd rs1 : Reg) (csr : CsrNum) (s : State) : Result :=
  csrAccess (s.bitsOf (.csrrc rd rs1 csr)) rd csr (rs1 != 0#5) (fun t => t &&& ~~~(s.readX rs1)) s

def execCsrrwi (rd : Reg) (uimm : BitVec 5) (csr : CsrNum) (s : State) : Result :=
  csrAccess (s.bitsOf (.csrrwi rd uimm csr)) rd csr true (fun _ => csrUimm uimm) s

def execCsrrsi (rd : Reg) (uimm : BitVec 5) (csr : CsrNum) (s : State) : Result :=
  csrAccess (s.bitsOf (.csrrsi rd uimm csr)) rd csr (uimm != 0#5) (fun t => t ||| csrUimm uimm) s

def execCsrrci (rd : Reg) (uimm : BitVec 5) (csr : CsrNum) (s : State) : Result :=
  csrAccess (s.bitsOf (.csrrci rd uimm csr)) rd csr (uimm != 0#5) (fun t => t &&& ~~~(csrUimm uimm)) s

end Sys2Proof.Machine
end

