-- ==== Sys2Proof/Machine/Dispatch.lean ====
section
/-! DEFINITION. The dispatch: one meaning for each instruction. -/

namespace Sys2Proof.Machine

def exec (i : Instr) (s : State) : Host.Outcome State Fault Refusal :=
  match i with
  -- LUI, AUIPC, control transfer (R171, R172, R222-R229)
  | .lui rd imm20 => Sys2Proof.Machine.execLui rd imm20 s
  | .auipc rd imm20 => Sys2Proof.Machine.execAuipc rd imm20 s
  | .jal rd off => Sys2Proof.Machine.execJal rd off s
  | .jalr rd rs1 imm => Sys2Proof.Machine.execJalr rd rs1 imm s
  | .beq rs1 rs2 off => Sys2Proof.Machine.execBeq rs1 rs2 off s
  | .bne rs1 rs2 off => Sys2Proof.Machine.execBne rs1 rs2 off s
  | .blt rs1 rs2 off => Sys2Proof.Machine.execBlt rs1 rs2 off s
  | .bge rs1 rs2 off => Sys2Proof.Machine.execBge rs1 rs2 off s
  | .bltu rs1 rs2 off => Sys2Proof.Machine.execBltu rs1 rs2 off s
  | .bgeu rs1 rs2 off => Sys2Proof.Machine.execBgeu rs1 rs2 off s
  -- integer loads and stores (R242-R249)
  | .lb rd rs1 imm => Sys2Proof.Machine.execLb rd rs1 imm s
  | .lh rd rs1 imm => Sys2Proof.Machine.execLh rd rs1 imm s
  | .lw rd rs1 imm => Sys2Proof.Machine.execLw rd rs1 imm s
  | .lbu rd rs1 imm => Sys2Proof.Machine.execLbu rd rs1 imm s
  | .lhu rd rs1 imm => Sys2Proof.Machine.execLhu rd rs1 imm s
  | .sb rs1 rs2 imm => Sys2Proof.Machine.execSb rs1 rs2 imm s
  | .sh rs1 rs2 imm => Sys2Proof.Machine.execSh rs1 rs2 imm s
  | .sw rs1 rs2 imm => Sys2Proof.Machine.execSw rs1 rs2 imm s
  -- OP-IMM (R173-R181)
  | .addi rd rs1 imm => Sys2Proof.Machine.execAddi rd rs1 imm s
  | .slti rd rs1 imm => Sys2Proof.Machine.execSlti rd rs1 imm s
  | .sltiu rd rs1 imm => Sys2Proof.Machine.execSltiu rd rs1 imm s
  | .xori rd rs1 imm => Sys2Proof.Machine.execXori rd rs1 imm s
  | .ori rd rs1 imm => Sys2Proof.Machine.execOri rd rs1 imm s
  | .andi rd rs1 imm => Sys2Proof.Machine.execAndi rd rs1 imm s
  | .slli rd rs1 shamt => Sys2Proof.Machine.execSlli rd rs1 shamt s
  | .srli rd rs1 shamt => Sys2Proof.Machine.execSrli rd rs1 shamt s
  | .srai rd rs1 shamt => Sys2Proof.Machine.execSrai rd rs1 shamt s
  -- OP (R182-R191) and the Break hint (R267)
  | .add rd rs1 rs2 => Sys2Proof.Machine.execAdd rd rs1 rs2 s
  | .sub rd rs1 rs2 => Sys2Proof.Machine.execSub rd rs1 rs2 s
  | .sll rd rs1 rs2 => Sys2Proof.Machine.execSll rd rs1 rs2 s
  | .slt rd rs1 rs2 => Sys2Proof.Machine.execSlt rd rs1 rs2 s
  | .sltu rd rs1 rs2 => Sys2Proof.Machine.execSltu rd rs1 rs2 s
  | .xor rd rs1 rs2 => Sys2Proof.Machine.execXor rd rs1 rs2 s
  | .srl rd rs1 rs2 => Sys2Proof.Machine.execSrl rd rs1 rs2 s
  | .sra rd rs1 rs2 => Sys2Proof.Machine.execSra rd rs1 rs2 s
  | .or rd rs1 rs2 => Sys2Proof.Machine.execOr rd rs1 rs2 s
  | .and rd rs1 rs2 => Sys2Proof.Machine.execAnd rd rs1 rs2 s
  | .breakHint => Sys2Proof.Machine.execBreakHint s
  -- M (R301-R308)
  | .mul rd rs1 rs2 => Sys2Proof.Machine.execMul rd rs1 rs2 s
  | .mulh rd rs1 rs2 => Sys2Proof.Machine.execMulh rd rs1 rs2 s
  | .mulhsu rd rs1 rs2 => Sys2Proof.Machine.execMulhsu rd rs1 rs2 s
  | .mulhu rd rs1 rs2 => Sys2Proof.Machine.execMulhu rd rs1 rs2 s
  | .div rd rs1 rs2 => Sys2Proof.Machine.execDiv rd rs1 rs2 s
  | .divu rd rs1 rs2 => Sys2Proof.Machine.execDivu rd rs1 rs2 s
  | .rem rd rs1 rs2 => Sys2Proof.Machine.execRem rd rs1 rs2 s
  | .remu rd rs1 rs2 => Sys2Proof.Machine.execRemu rd rs1 rs2 s
  -- MISC-MEM and SYSTEM (R260-R268, R283-R288); the ignored fields of the fences are kept so that no bit is lost
  | .fence fm pred succ rs1 rd => Sys2Proof.Machine.execFence fm pred succ rs1 rd s
  | .fenceI imm rs1 rd => Sys2Proof.Machine.execFenceI imm rs1 rd s
  | .ecall => Sys2Proof.Machine.execEcall s
  | .ebreak => Sys2Proof.Machine.execEbreak s
  | .uret => Sys2Proof.Machine.execUret s
  | .sret => Sys2Proof.Machine.execSret s
  | .mret => Sys2Proof.Machine.execMret s
  | .csrrw rd rs1 csr => Sys2Proof.Machine.execCsrrw rd rs1 csr s
  | .csrrs rd rs1 csr => Sys2Proof.Machine.execCsrrs rd rs1 csr s
  | .csrrc rd rs1 csr => Sys2Proof.Machine.execCsrrc rd rs1 csr s
  | .csrrwi rd uimm csr => Sys2Proof.Machine.execCsrrwi rd uimm csr s
  | .csrrsi rd uimm csr => Sys2Proof.Machine.execCsrrsi rd uimm csr s
  | .csrrci rd uimm csr => Sys2Proof.Machine.execCsrrci rd uimm csr s
  -- A subset (R322-R330)
  | .amoswapW rd rs1 rs2 aq rl => Sys2Proof.Machine.execAmoswapW rd rs1 rs2 aq rl s
  | .amoaddW rd rs1 rs2 aq rl => Sys2Proof.Machine.execAmoaddW rd rs1 rs2 aq rl s
  | .amoxorW rd rs1 rs2 aq rl => Sys2Proof.Machine.execAmoxorW rd rs1 rs2 aq rl s
  | .amoandW rd rs1 rs2 aq rl => Sys2Proof.Machine.execAmoandW rd rs1 rs2 aq rl s
  | .amoorW rd rs1 rs2 aq rl => Sys2Proof.Machine.execAmoorW rd rs1 rs2 aq rl s
  | .amominW rd rs1 rs2 aq rl => Sys2Proof.Machine.execAmominW rd rs1 rs2 aq rl s
  | .amomaxW rd rs1 rs2 aq rl => Sys2Proof.Machine.execAmomaxW rd rs1 rs2 aq rl s
  | .amominuW rd rs1 rs2 aq rl => Sys2Proof.Machine.execAmominuW rd rs1 rs2 aq rl s
  | .amomaxuW rd rs1 rs2 aq rl => Sys2Proof.Machine.execAmomaxuW rd rs1 rs2 aq rl s
  -- F subset, FLD and FSD (R346-R369)
  | .flw frd rs1 imm => Sys2Proof.Machine.execFlw frd rs1 imm s
  | .fsw rs1 frs2 imm => Sys2Proof.Machine.execFsw rs1 frs2 imm s
  | .fld frd rs1 imm => Sys2Proof.Machine.execFld frd rs1 imm s
  | .fsd rs1 frs2 imm => Sys2Proof.Machine.execFsd rs1 frs2 imm s
  | .faddS frd frs1 frs2 rm => Sys2Proof.Machine.execFaddS frd frs1 frs2 rm s
  | .fsubS frd frs1 frs2 rm => Sys2Proof.Machine.execFsubS frd frs1 frs2 rm s
  | .fmulS frd frs1 frs2 rm => Sys2Proof.Machine.execFmulS frd frs1 frs2 rm s
  | .fdivS frd frs1 frs2 rm => Sys2Proof.Machine.execFdivS frd frs1 frs2 rm s
  | .fsqrtS frd frs1 rm => Sys2Proof.Machine.execFsqrtS frd frs1 rm s
  | .fsgnjS frd frs1 frs2 => Sys2Proof.Machine.execFsgnjS frd frs1 frs2 s
  | .fsgnjnS frd frs1 frs2 => Sys2Proof.Machine.execFsgnjnS frd frs1 frs2 s
  | .fsgnjxS frd frs1 frs2 => Sys2Proof.Machine.execFsgnjxS frd frs1 frs2 s
  | .fminS frd frs1 frs2 => Sys2Proof.Machine.execFminS frd frs1 frs2 s
  | .fmaxS frd frs1 frs2 => Sys2Proof.Machine.execFmaxS frd frs1 frs2 s
  | .fcvtWS rd frs1 rm => Sys2Proof.Machine.execFcvtWS rd frs1 rm s
  | .fcvtWuS rd frs1 rm => Sys2Proof.Machine.execFcvtWuS rd frs1 rm s
  | .fmvXW rd frs1 => Sys2Proof.Machine.execFmvXW rd frs1 s
  | .fclassS rd frs1 => Sys2Proof.Machine.execFclassS rd frs1 s
  | .feqS rd frs1 frs2 => Sys2Proof.Machine.execFeqS rd frs1 frs2 s
  | .fltS rd frs1 frs2 => Sys2Proof.Machine.execFltS rd frs1 frs2 s
  | .fleS rd frs1 frs2 => Sys2Proof.Machine.execFleS rd frs1 frs2 s
  | .fcvtSW frd rs1 rm => Sys2Proof.Machine.execFcvtSW frd rs1 rm s
  | .fcvtSWu frd rs1 rm => Sys2Proof.Machine.execFcvtSWu frd rs1 rm s
  | .fmvWX frd rs1 => Sys2Proof.Machine.execFmvWX frd rs1 s
  -- C, quadrant 0 (R392-R398)
  | .cAddi4spn rd' nzuimm => Sys2Proof.Machine.execCAddi4spn rd' nzuimm s
  | .cFld frd' rs1' uimm => Sys2Proof.Machine.execCFld frd' rs1' uimm s
  | .cLw rd' rs1' uimm => Sys2Proof.Machine.execCLw rd' rs1' uimm s
  | .cFlw frd' rs1' uimm => Sys2Proof.Machine.execCFlw frd' rs1' uimm s
  | .cFsd rs1' frs2' uimm => Sys2Proof.Machine.execCFsd rs1' frs2' uimm s
  | .cSw rs1' rs2' uimm => Sys2Proof.Machine.execCSw rs1' rs2' uimm s
  | .cFsw rs1' frs2' uimm => Sys2Proof.Machine.execCFsw rs1' frs2' uimm s
  -- C, quadrant 1 (R400-R415)
  | .cNop imm => Sys2Proof.Machine.execCNop imm s
  | .cAddi rd imm => Sys2Proof.Machine.execCAddi rd imm s
  | .cJal off => Sys2Proof.Machine.execCJal off s
  | .cLi rd imm => Sys2Proof.Machine.execCLi rd imm s
  | .cAddi16sp imm => Sys2Proof.Machine.execCAddi16sp imm s
  | .cLui rd imm => Sys2Proof.Machine.execCLui rd imm s
  | .cSrli rd' shamt => Sys2Proof.Machine.execCSrli rd' shamt s
  | .cSrai rd' shamt => Sys2Proof.Machine.execCSrai rd' shamt s
  | .cAndi rd' imm => Sys2Proof.Machine.execCAndi rd' imm s
  | .cSub rd' rs2' => Sys2Proof.Machine.execCSub rd' rs2' s
  | .cXor rd' rs2' => Sys2Proof.Machine.execCXor rd' rs2' s
  | .cOr rd' rs2' => Sys2Proof.Machine.execCOr rd' rs2' s
  | .cAnd rd' rs2' => Sys2Proof.Machine.execCAnd rd' rs2' s
  | .cJ off => Sys2Proof.Machine.execCJ off s
  | .cBeqz rs1' off => Sys2Proof.Machine.execCBeqz rs1' off s
  | .cBnez rs1' off => Sys2Proof.Machine.execCBnez rs1' off s
  -- C, quadrant 2 (R420-R431)
  | .cSlli rd shamt => Sys2Proof.Machine.execCSlli rd shamt s
  | .cFldsp frd uimm => Sys2Proof.Machine.execCFldsp frd uimm s
  | .cLwsp rd uimm => Sys2Proof.Machine.execCLwsp rd uimm s
  | .cFlwsp frd uimm => Sys2Proof.Machine.execCFlwsp frd uimm s
  | .cJr rs1 => Sys2Proof.Machine.execCJr rs1 s
  | .cMv rd rs2 => Sys2Proof.Machine.execCMv rd rs2 s
  | .cEbreak => Sys2Proof.Machine.execCEbreak s
  | .cJalr rs1 => Sys2Proof.Machine.execCJalr rs1 s
  | .cAdd rd rs2 => Sys2Proof.Machine.execCAdd rd rs2 s
  | .cFsdsp frs2 uimm => Sys2Proof.Machine.execCFsdsp frs2 uimm s
  | .cSwsp rs2 uimm => Sys2Proof.Machine.execCSwsp rs2 uimm s
  | .cFswsp frs2 uimm => Sys2Proof.Machine.execCFswsp frs2 uimm s

end Sys2Proof.Machine
end

