-- ==== Sys2Proof/Machine/Fetch.lean ====
section
/-! DEFINITION. Instruction fetch (spec/20_memory.md R93) and the end of an instruction step
(spec/70_reset_and_hazards.md R510). -/

namespace Sys2Proof.Machine

/-- The two-parcel fetch: each parcel is translated on its own; a fault on the second reports `pc + 2` (R93). -/
def fetchInstr (s : State) : Access RawInstr :=
  match fetch16 s.hart.pc s with
  | .raise e t s1 => .raise e t s1
  | .ok lo s1 =>
    if isShort lo then .ok (.half lo) s1
    else match fetch16 (s.hart.pc + 2#32) s1 with
      | .raise e t s2 => .raise e t s2
      | .ok hi s2 => .ok (.word (hi ++ lo)) s2

/-- `cycle <- cycle + 1; since_check <- since_check + 1` (R29, R471, R510). -/
def State.countStep (s : State) : State :=
  { s with hart := { s.hart with cycle := s.hart.cycle + 1#64, sinceCheck := s.hart.sinceCheck + 1 } }

/-- The end of an executed instruction: a Break counts nothing (R266). -/
def State.endStep (s : State) : State := if s.hart.halted then s else s.countStep

/-- Where the fetch of the parcel at `va` reads. -/
def State.fetchAddress (s : State) (va : Word) : Word :=
  match translate .x va s with
  | .ok pa _ => pa
  | .raise _ _ _ => va

end Sys2Proof.Machine
end

