-- ==== Sys2Proof/Machine/Schedule.lean ====
section
/-! DEFINITION. Which hart takes the next step (spec/20_memory.md R119), and the interrupt check and delivery
(spec/60_exceptions.md R470, R471). -/

namespace Sys2Proof.Machine

/-! ## The next hart (R119, R266; log entry 9) -/

def runningCount (hs : List Hart) : Nat := hs.countP (fun h => !h.halted)

/-- The `k`-th running hart of a list, and the list without it. -/
def pickRunning : Nat → List Hart → Option (Hart × List Hart)
  | _, [] => none
  | k, h :: t =>
    if h.halted then (pickRunning k t).map (fun p => (p.1, h :: p.2))
    else match k with
      | 0 => some (h, t)
      | k + 1 => (pickRunning k t).map (fun p => (p.1, h :: p.2))

/-- The state with the hart that takes the next step as its `hart`: any running hart; none when all are halted. -/
def State.selectHart (s : State) : Option State :=
  match s.others with
  | [] => if s.hart.halted then none else some s
  | others =>
    match pickRunning (Config.freeHart s.draws % runningCount (s.hart :: others)) (s.hart :: others) with
    | none => none
    | some (h, rest) => some { s with hart := h, others := rest, draws := s.draws + 1 }

/-! ## The interrupt check (R470, R471) -/

/-- The deliverability test of R470 for a target level: strictly higher than the mode, or equal with its xIE set. -/
def Hart.levelTakes (h : Hart) (tgt : Priv) : Bool :=
  decide (h.priv.level < tgt.level) || (tgt == h.priv && h.xie tgt)

/-- A source that is enabled, pending and deliverable. -/
def State.deliverable (s : State) (i : Interrupt) : Bool :=
  s.hart.mie.getLsbD i.code && s.pending i && s.hart.levelTakes (s.hart.delegatedLevel (.interrupt i))

/-- The first deliverable source in the order of R470. -/
def State.pendingInterrupt (s : State) : Option Interrupt := Interrupt.searchOrder.find? s.deliverable

/-- A check is mandatory when `since_check >= IRQ_CHECK_PERIOD`, optional otherwise (R471). -/
def State.checkHappens (s : State) : Bool :=
  decide (s.cfg.irqCheckPeriod ≤ s.hart.sinceCheck) || Config.freeCheck s.draws

/-- The boundary before an instruction, after the choice about the check is drawn: `since_check` is 0 if the check
happened. -/
def State.afterCheck (s : State) : State :=
  { s with
    hart := { s.hart with sinceCheck := if s.checkHappens then 0 else s.hart.sinceCheck }
    draws := s.draws + 1 }

/-- The interrupt the boundary delivers, if any. The search stands first: which interrupt is pending decides alone when
there is none. -/
def State.interruptTaken (s : State) : Option Interrupt :=
  match s.pendingInterrupt with
  | none => none
  | some i => if s.checkHappens then some i else none

/-- An interrupt-delivery step: `TakeTrap(1, code, pc, 0)`, `cycle` unchanged, `since_check <- 0` (R470). -/
def State.deliver (s : State) (i : Interrupt) : State :=
  let s1 := { s with hart := { s.hart with sinceCheck := 0 }, draws := s.draws + 1 }
  takeTrap (.interrupt i) s.hart.pc 0#32 s1

end Sys2Proof.Machine
end

