-- ==== Sys2Proof/Machine/Step.lean ====
section
/-! DEFINITION. One step of the VM: one running hart takes an interrupt-delivery step or an instruction step
(spec/70_reset_and_hazards.md R510). -/

namespace Sys2Proof.Machine

/-- Part B of R510: fetch, decode, execute, count. -/
def instructionStep (s : State) : Host.Outcome State Fault Refusal :=
  match fetchInstr s with
  | .raise e t s1 => .next (raise e t s1).countStep
  | .ok r s1 =>
    match decodeRaw s1.cfg r with
    | none => .next (raise .illegalInstruction r.trapValue s1).countStep
    | some i =>
      match exec i s1 with
      | .next s2 => .next s2.endStep
      | .fault f => .fault f
      | .refused q => .refused q

/-- R510 for the hart that was selected; the environment moves before the check and before the instruction (log
entry 10). -/
def hartStep (s : State) : Host.Outcome State Fault Refusal :=
  match s.environment.interruptTaken with
  | some i => .next (s.environment.deliver i)
  | none => instructionStep s.environment.afterCheck.environment

/-- One step: some running hart's; none can be taken when every hart is halted (R119, R266). -/
def step (s : State) : Host.Outcome State Fault Refusal :=
  match s.selectHart with
  | none => .fault .stopped
  | some s1 => hartStep s1

/-- The state with an instruction of `nbits` bits, and zeros after it, where the next step fetches (log entry 8). When
every hart is halted, `hart` is resumed first: no step fetches otherwise. -/
def State.withFetchWord (s : State) (nbits w : Nat) : State :=
  let v : DWord := BitVec.ofNat 64 (w % 2 ^ nbits % 2 ^ 32)
  let s1 := if s.selectHart.isSome then s else { s with hart := { s.hart with halted := false } }
  let t := s1.selectHart.getD s1
  { s1 with
    mem := (s1.mem.writeN (t.fetchAddress t.hart.pc) 2 v).writeN (t.fetchAddress (t.hart.pc + 2#32)) 2 (v >>> 16) }

end Sys2Proof.Machine
end

