-- ==== Sys2Proof/Machine/HostControl.lean ====
section
/-! DEFINITION. What the host can do while no step is in progress (spec/70_reset_and_hazards.md R511, R512): resume, write a
hart's items, restore a saved hart, write devices, load an image, resize RAM, run a budget of instruction steps. The host's
writes are a source of nondeterminism (R522): `HostMove` is any of them, `Moves` a history of steps and host moves. -/

namespace Sys2Proof.Machine

/-! ## Harts -/

/-- Resume: clear `halted` of hart `i`; `pc` stays (R266, R512 c). -/
def State.resume (s : State) (i : Nat) : State := s.modifyHart i (fun h => { h with halted := false })

/-- The items of a hart that the host reads and writes (R20, R512 b). -/
inductive HartItem where
  | x (r : Reg) (v : Word)
  | f (r : Reg) (v : DWord)
  | pc (v : Word)
  | priv (p : Priv)
  | csr (n : CsrNum) (v : Word)
  | cycle (v : DWord)
  | mtimecmp (v : DWord)
  | halted (b : Bool)
deriving DecidableEq, Repr

/-- One item of the hart in `s.hart` written. A CSR is written as `csr_write` stores it, without the checks of an
instruction; `pc` is stored even, as R23 has it (log entry 24). -/
def State.writeItem (s : State) : HartItem → State
  | .x r v => s.setX r v
  | .f r v => s.setF r v
  | .pc v => s.setPc (v &&& 0xFFFFFFFE#32)
  | .priv p => { s with hart := { s.hart with priv := p } }
  | .csr n v => csrWrite n v s
  | .cycle v => { s with hart := { s.hart with cycle := v } }
  | .mtimecmp v => { s with hart := { s.hart with mtimecmp := v } }
  | .halted b => { s with hart := { s.hart with halted := b } }

/-- The host writes an item of hart `i`: "a host that writes `satp`, `priv` or page tables directly leaves the cache as it
was" (R512 b). -/
def State.hostWrite (s : State) (i : Nat) (w : HartItem) : State :=
  s.modifyHart i (fun h => { (State.writeItem { s with hart := h } w).hart with tlb := h.tlb })

/-- A hart restored from a save point: the translation cache is invalid and `since_check` is 0 (R512 b). -/
def Hart.restored (h : Hart) : Hart := { h with tlb := h.tlb.flush, sinceCheck := 0 }

/-- Hart `i` replaced by a restored one. DESIGN CHOICE (log entry 25): the saved values are taken as they are, whatever they
are, an odd `pc`, reserved `mstatus` bits or `MPP = 2` among them; R512 gives a restore no form. -/
def State.restore (s : State) (i : Nat) (saved : Hart) : State :=
  s.modifyHart i (fun h => { saved.restored with hartid := h.hartid, msip := h.msip, meip := h.meip })

/-! ## Devices -/

/-- A byte of RAM or ROM placed by the host, at `pa` if such a device answers there. -/
def State.loadByte (s : State) (pa : Word) (b : Byte) : State :=
  match claim s.cfg.devices pa 1 with
  | none => s
  | some d => match d.kind with
    | .ram => { s with mem := s.mem.write pa b }
    | .rom => { s with mem := s.mem.write pa b }
    | .clint => s
    | .debugPrint => s
    | .other => s

/-- An image placed from `pa` upward, the firmware "into ROM" among them (R500, R502). -/
def State.loadImage (s : State) (pa : Word) : List Byte → State
  | [] => s
  | b :: l => State.loadImage (s.loadByte pa b) (pa + 1#32) l

/-- The device list with `e` in place of `d`. -/
def replaceDevice (devices : List Device) (d e : Device) : List Device := devices.map (fun k => if k = d then e else k)

/-- The addresses between the old end and the new end of the RAM `d` that it held before, or holds after, a resize to `size`
bytes: their bytes are gone, or fresh (R83; log entry 26 for overlapping lists). -/
def resizeDrops (devices : List Device) (d : Device) (size : Word) (a : Nat) : Bool :=
  let e : Device := if d.size.toNat < size.toNat then { d with size := size } else d
  decide (d.base.toNat + min size.toNat d.size.toNat ≤ a) &&
    (replaceDevice devices d e).find? (claims (BitVec.ofNat 32 a)) == some e

/-- RAM `resize`, which "truncates or zero-extends" (R83), of the RAM based at `base`. -/
def State.resizeRam (s : State) (base size : Word) : State :=
  match s.cfg.devices.find? (fun d => d.kind == .ram && d.base == base) with
  | none => s
  | some d =>
    { s with
      cfg := { s.cfg with devices := replaceDevice s.cfg.devices d { d with size := size } }
      mem := s.mem.filter (fun c => !resizeDrops s.cfg.devices d size c.1) }

/-! ## Host moves -/

/-- A move of the host, while no step is in progress (R10, R512, R522). It drives `meip_in` too, which a step samples, and
answers reads of devices the spec does not describe: those are draws (log entry 5). -/
inductive HostMove (s : State) : State → Prop
  | resume (i : Nat) : HostMove s (s.resume i)
  | write (i : Nat) (w : HartItem) : HostMove s (s.hostWrite i w)
  /-- Of any saved hart: DESIGN CHOICE (log entry 25). -/
  | restore (i : Nat) (saved : Hart) : HostMove s (s.restore i saved)
  /-- A write of a device, the CLINT's registers among them (R461, R512 e). -/
  | device (pa : Word) (n : Nat) (v : DWord) (t : State) (hn : n ∈ [1, 2, 4, 8]) (ht : physWrite pa n v s = some t) :
      HostMove s t
  | image (pa : Word) (l : List Byte) : HostMove s (s.loadImage pa l)
  | resize (base size : Word) : HostMove s (s.resizeRam base size)

/-- A history of the VM: steps, and moves of the host between them (R10, R522). -/
inductive Moves : State → State → Prop
  | refl (s : State) : Moves s s
  | step (s t u : State) (hst : Machine.step s = .next t) (htu : Moves t u) : Moves s u
  | host (s t u : State) (hst : HostMove s t) (htu : Moves t u) : Moves s u

/-! ## The run loop -/

/-- What one step of `run` was (R510). -/
inductive StepKind where
  | delivered
  | continued
  | broke
deriving DecidableEq, Repr

/-- The kind of the step from `s` to `t`. -/
def stepKind (s t : State) : StepKind :=
  match s.selectHart with
  | none => .broke
  | some s1 =>
    if s1.environment.interruptTaken.isSome then .delivered
    else if t.hart.halted then .broke else .continued

/-- What `run(n)` reports; a guest trap is not reported (R511). -/
inductive RunStatus where
  | continue
  | stopped
deriving DecidableEq, Repr

/-- `run(n)` from `s` reports a status and leaves `t`: steps are taken until `n` instruction steps have been counted or a
hart breaks; interrupt-delivery steps use no budget (R511). -/
inductive Run : Nat → State → RunStatus → State → Prop
  | done (s : State) : Run 0 s .continue s
  | instruction (n : Nat) (s t u : State) (r : RunStatus) (hstep : step s = .next t)
      (hkind : stepKind s t = .continued) (hrest : Run n t r u) : Run (n + 1) s r u
  | delivery (n : Nat) (s t u : State) (r : RunStatus) (hstep : step s = .next t)
      (hkind : stepKind s t = .delivered) (hrest : Run (n + 1) t r u) : Run (n + 1) s r u
  | break (n : Nat) (s t : State) (hstep : step s = .next t) (hkind : stepKind s t = .broke) :
      Run (n + 1) s .stopped t
  | allHalted (n : Nat) (s : State) (hstep : step s = .fault .stopped) : Run (n + 1) s .stopped s

end Sys2Proof.Machine
end

