-- ==== Sys2Proof/Safety.lean ====
section
/-! DEFINITION. The terms claims are stated in: frames, results, trap entry, the invariant of the machine, and the real
value of a binary32 word. Nothing here is used by the machine. -/

namespace Sys2Proof.Machine

/-! ## Results: what an instruction writes, and that it writes nothing else -/

/-- `t` is `s` after an instruction that writes `v` to `x[rd]` (nothing when `rd = x0`) and sets `pc`, and nothing else. -/
structure IntResult (s t : State) (rd : Reg) (v pc : Word) : Prop where
  x : ∀ r, t.readX r = if r = rd ∧ r ≠ 0#5 then v else s.readX r
  pc : t.hart.pc = pc
  f : ∀ r, t.readF r = s.readF r
  csr : ∀ n, csrRead t n = csrRead s n
  memory : ∀ a, Memory.read t.mem a = Memory.read s.mem a
  rest : { t with hart := { t.hart with x := s.hart.x, pc := s.hart.pc } } = s

/-- `t` is `s` after an instruction that writes `v` to `f[frd]` and sets `pc`, and nothing else. -/
structure FpResult (s t : State) (frd : Reg) (v : DWord) (pc : Word) : Prop where
  f : ∀ r, t.readF r = if r = frd then v else s.readF r
  pc : t.hart.pc = pc
  x : ∀ r, t.readX r = s.readX r
  csr : ∀ n, csrRead t n = csrRead s n
  memory : ∀ a, Memory.read t.mem a = Memory.read s.mem a
  rest : { t with hart := { t.hart with f := s.hart.f, pc := s.hart.pc } } = s

/-- `t` is `s` after an instruction that only sets `pc`. -/
structure PcResult (s t : State) (pc : Word) : Prop where
  pc : t.hart.pc = pc
  x : ∀ r, t.readX r = s.readX r
  f : ∀ r, t.readF r = s.readF r
  csr : ∀ n, csrRead t n = csrRead s n
  memory : ∀ a, Memory.read t.mem a = Memory.read s.mem a
  rest : { t with hart := { t.hart with pc := s.hart.pc } } = s

/-! ## Results of memory accesses. The translation cache may change as R102 says; the clock, `io` and `draws` may when a page
table lies in the CLINT or in a device whose insides the spec does not give. A statement says what they are after: as the
translation left them. -/

/-- What a translation that answers may change. -/
def State.traces (s : State) : Tlb × DWord × List IoEvent × Nat := (s.hart.tlb, s.mtime, s.io, s.draws)

/-- The `n`-byte little-endian number at `pa` (R81). -/
def bytesValue (m : Memory) (pa : Word) : Nat → Nat
  | 0 => 0
  | n + 1 => (Memory.read m pa).toNat + 256 * bytesValue m (pa + 1#32) n

/-- `pa .. pa + n - 1` lie in one device of the given kind, the one that answers (R82, R84). -/
def State.holds (s : State) (kind : DeviceKind) (pa : Word) (n : Nat) : Prop :=
  ∃ d, s.cfg.devices.find? (claims pa) = some d ∧ d.kind = kind ∧
    pa.toNat + n ≤ d.base.toNat + d.size.toNat ∧ pa.toNat + n ≤ 2 ^ 32

/-- The bytes at `pa` are RAM or ROM. -/
def State.holdsBytes (s : State) (pa : Word) (n : Nat) : Prop := s.holds .ram pa n ∨ s.holds .rom pa n

/-- `t` is `s` after a load of `v` into `x[rd]`. -/
structure IntLoaded (s t : State) (rd : Reg) (v pc : Word) : Prop where
  x : ∀ r, t.readX r = if r = rd ∧ r ≠ 0#5 then v else s.readX r
  pc : t.hart.pc = pc
  f : ∀ r, t.readF r = s.readF r
  csr : ∀ n, csrRead { t with mtime := s.mtime } n = csrRead s n
  memory : ∀ a, Memory.read t.mem a = Memory.read s.mem a
  rest : { t with
    hart := { t.hart with x := s.hart.x, pc := s.hart.pc, tlb := s.hart.tlb }, mtime := s.mtime, io := s.io, draws := s.draws } = s

/-- `t` is `s` after a load of `v` into `f[frd]`. -/
structure FpLoaded (s t : State) (frd : Reg) (v : DWord) (pc : Word) : Prop where
  f : ∀ r, t.readF r = if r = frd then v else s.readF r
  pc : t.hart.pc = pc
  x : ∀ r, t.readX r = s.readX r
  csr : ∀ n, csrRead { t with mtime := s.mtime } n = csrRead s n
  memory : ∀ a, Memory.read t.mem a = Memory.read s.mem a
  rest : { t with
    hart := { t.hart with f := s.hart.f, pc := s.hart.pc, tlb := s.hart.tlb }, mtime := s.mtime, io := s.io, draws := s.draws } = s

/-- `t` is `s` after a store of the low `n` bytes of `v` at physical address `pa`: byte `k` of `v` at `pa + k`, every byte
outside `pa .. pa + n - 1` as before, no register changed. -/
structure Stored (s t : State) (pa : Word) (n : Nat) (v : Nat) (pc : Word) : Prop where
  memory : ∀ a, (Memory.read t.mem a).toNat =
    if pa.toNat ≤ a.toNat ∧ a.toNat < pa.toNat + n then v / 256 ^ (a.toNat - pa.toNat) % 256
    else (Memory.read s.mem a).toNat
  pc : t.hart.pc = pc
  x : ∀ r, t.readX r = s.readX r
  f : ∀ r, t.readF r = s.readF r
  csr : ∀ n, csrRead { t with mtime := s.mtime } n = csrRead s n
  rest : { t with
    hart := { t.hart with pc := s.hart.pc, tlb := s.hart.tlb }, mem := s.mem, mtime := s.mtime, io := s.io,
    draws := s.draws } = s

/-- `t` is `s` after an AMO on the word at `pa`: `x[rd]` gets the old word, `n` bytes of memory the new one (4 in RAM, none in
ROM), and the lock is free. -/
structure AmoDone (s t : State) (rd : Reg) (pa : Word) (n : Nat) (old new pc : Word) : Prop where
  x : ∀ r, t.readX r = if r = rd ∧ r ≠ 0#5 then old else s.readX r
  memory : ∀ a, (Memory.read t.mem a).toNat =
    if pa.toNat ≤ a.toNat ∧ a.toNat < pa.toNat + n then new.toNat / 256 ^ (a.toNat - pa.toNat) % 256
    else (Memory.read s.mem a).toNat
  pc : t.hart.pc = pc
  f : ∀ r, t.readF r = s.readF r
  csr : ∀ n, csrRead { t with mtime := s.mtime } n = csrRead s n
  lock : t.amoLock = false
  rest : { t with
    hart := { t.hart with x := s.hart.x, pc := s.hart.pc, tlb := s.hart.tlb }, mem := s.mem,
    mtime := s.mtime, io := s.io, draws := s.draws, amoLock := s.amoLock } = s

/-! ## Traps -/

/-- The bits of `mstatus` that entry to a level writes, and those a return from it writes (R452, R455). -/
def statusBits : Priv → List Nat
  | .m => [3, 7, 11, 12]
  | .s => [1, 5, 8]
  | .u => [0, 4]

/-- The handler's address: the base, plus `4 * code` when the trap is vectored (R452). -/
def handlerAddress (cfg : Config) (tvec : Word) (c : Cause) : Word :=
  if tvec.toNat % 4 = 1 ∧ (c.isInterrupt = true ∨ cfg.vectorExceptions = true) then
    BitVec.ofNat 32 (tvec.toNat / 4 * 4 + 4 * c.code)
  else BitVec.ofNat 32 (tvec.toNat / 4 * 4)

/-- `t` is `s` after entry to level `tgt` for cause `c` (R452): the level's trap registers, its enable bits, the previous
mode, the mode and `pc`; nothing else (R453). -/
structure TrapEntry (s t : State) (tgt : Priv) (c : Cause) (epc tval : Word) : Prop where
  epc : (t.hart.trapRegs tgt).epc = epc &&& 0xFFFFFFFE#32
  cause : ((t.hart.trapRegs tgt).cause).toNat = (if c.isInterrupt then 2 ^ 31 else 0) + c.code
  tval : (t.hart.trapRegs tgt).tval = tval
  tvec : (t.hart.trapRegs tgt).tvec = (s.hart.trapRegs tgt).tvec
  scratch : (t.hart.trapRegs tgt).scratch = (s.hart.trapRegs tgt).scratch
  otherLevels : ∀ l, l ≠ tgt → t.hart.trapRegs l = s.hart.trapRegs l
  pie : t.hart.mstatus.getLsbD tgt.piePos = s.hart.mstatus.getLsbD tgt.iePos
  ie : t.hart.mstatus.getLsbD tgt.iePos = false
  mpp : tgt = .m → mppField t.hart.mstatus = s.hart.priv.toBits
  spp : tgt = .s → t.hart.mstatus.getLsbD 8 = (s.hart.priv == .s)
  status : ∀ k, k ∉ statusBits tgt → t.hart.mstatus.getLsbD k = s.hart.mstatus.getLsbD k
  priv : t.hart.priv = tgt
  pc : t.hart.pc = handlerAddress s.cfg (s.hart.trapRegs tgt).tvec c
  x : ∀ r, t.readX r = s.readX r
  f : ∀ r, t.readF r = s.readF r
  memory : ∀ a, Memory.read t.mem a = Memory.read s.mem a
  rest : { t with
    hart := { t.hart with mtrap := s.hart.mtrap, strap := s.hart.strap, utrap := s.hart.utrap,
                          mstatus := s.hart.mstatus, priv := s.hart.priv, pc := s.hart.pc } } = s

/-- `t` is `s` after exception `e` raised by the instruction at `pc` with trap value `tval` (R450, R451). -/
def Raised (s t : State) (e : Exception) (tval : Word) : Prop :=
  TrapEntry s t (s.hart.trapTarget (.exception e)) (.exception e) s.hart.pc tval

/-- `t` is `s` after `Return(l)` (R455). -/
structure TrapReturned (s t : State) (l : Priv) : Prop where
  pc : t.hart.pc = (s.hart.trapRegs l).epc
  ie : t.hart.mstatus.getLsbD l.iePos = s.hart.mstatus.getLsbD l.piePos
  pie : t.hart.mstatus.getLsbD l.piePos = true
  mpp : l = .m → mppField t.hart.mstatus = 0#2
  spp : l = .s → t.hart.mstatus.getLsbD 8 = false
  status : ∀ k, k ∉ statusBits l → t.hart.mstatus.getLsbD k = s.hart.mstatus.getLsbD k
  /-- `mppField` is never 2 in a state that meets `State.Inv` (`Hart.Legal.mppLegal`). -/
  toM : l = .m → mppField s.hart.mstatus ≠ 2#2 → t.hart.priv.toBits = mppField s.hart.mstatus
  toS : l = .s → t.hart.priv = if s.hart.mstatus.getLsbD 8 then .s else .u
  toU : l = .u → t.hart.priv = .u
  x : ∀ r, t.readX r = s.readX r
  f : ∀ r, t.readF r = s.readF r
  memory : ∀ a, Memory.read t.mem a = Memory.read s.mem a
  rest : { t with hart := { t.hart with mstatus := s.hart.mstatus, priv := s.hart.priv, pc := s.hart.pc } } = s

/-! ## The shapes of instructions. Each says that `exec` answers a next state and what that state is -/

/-- The value of a scaled immediate field, signed or unsigned (R133, R151). -/
def signedImm {n : Nat} (scale : Int) (v : BitVec n) : Word := BitVec.ofInt 32 (scale * v.toInt)
def unsignedImm {n : Nat} (scale : Nat) (v : BitVec n) : Word := BitVec.ofNat 32 (scale * v.toNat)

/-- The register a prime field names (R150). -/
def primeReg (r' : PrimeReg) : Reg := BitVec.ofNat 5 (8 + r'.toNat)

/-- A truth value as a register value. -/
def truth (p : Prop) [Decidable p] : Word := if p then 1#32 else 0#32

/-- In every state, `i` writes `v` to `x[rd]`, goes on at `pc + len` and does nothing else. -/
def WritesX (i : Instr) (rd : Reg) (v : State → Word) (len : Word) : Prop :=
  ∀ s, ∃ t, exec i s = .next t ∧ IntResult s t rd (v s) (s.hart.pc + len)

/-- In every state, `i` writes `v`, boxed, to `f[frd]` (R26), goes on at `pc + 4` and does nothing else. -/
def WritesF (i : Instr) (frd : Reg) (v : State → Word) : Prop :=
  ∀ s, ∃ t, exec i s = .next t ∧ FpResult s t frd (0xFFFFFFFF#32 ++ v s) (s.hart.pc + 4#32)

/-- In every state, `i` only sets `pc`. -/
def SetsPc (i : Instr) (pc : State → Word) : Prop := ∀ s, ∃ t, exec i s = .next t ∧ PcResult s t (pc s)

/-- Where the rounding mode is `mode`, `i` writes the value `v mode`, boxed, to `f[frd]`; where the mode is reserved, `i`
raises IllegalInstruction with its word (R342). -/
def RoundsF (i : Instr) (rm : Rm) (frd : Reg) (w : Word) (v : RoundingMode → State → Word) : Prop :=
  (∀ s mode, s.roundingMode rm = some mode →
    ∃ t, exec i s = .next t ∧ FpResult s t frd (0xFFFFFFFF#32 ++ v mode s) (s.hart.pc + 4#32)) ∧
  (∀ s, s.roundingMode rm = none → ∃ t, exec i s = .next t ∧ Raised s t .illegalInstruction w)

/-- The same with an integer destination. -/
def RoundsX (i : Instr) (rm : Rm) (rd : Reg) (w : Word) (v : RoundingMode → State → Word) : Prop :=
  (∀ s mode, s.roundingMode rm = some mode →
    ∃ t, exec i s = .next t ∧ IntResult s t rd (v mode s) (s.hart.pc + 4#32)) ∧
  (∀ s, s.roundingMode rm = none → ∃ t, exec i s = .next t ∧ Raised s t .illegalInstruction w)

/-- Where the address `ea` translates for reading to `n` bytes of RAM or ROM, `i` loads them, extended by `ext`, into
`x[rd]` and goes on at `pc + len`; what a translation may change is as the translation left it. -/
def LoadsX (i : Instr) (rd : Reg) (ea : State → Word) (n : Nat) (ext : Nat → Word) (len : Word) : Prop :=
  ∀ s pa s1, translate .r (ea s) s = .ok pa s1 → s.holdsBytes pa n →
    ∃ t, exec i s = .next t ∧ IntLoaded s t rd (ext (bytesValue s.mem pa n)) (s.hart.pc + len) ∧
      t.traces = s1.traces

/-- The same for a floating-point register. -/
def LoadsF (i : Instr) (frd : Reg) (ea : State → Word) (n : Nat) (ext : Nat → DWord) (len : Word) : Prop :=
  ∀ s pa s1, translate .r (ea s) s = .ok pa s1 → s.holdsBytes pa n →
    ∃ t, exec i s = .next t ∧ FpLoaded s t frd (ext (bytesValue s.mem pa n)) (s.hart.pc + len) ∧
      t.traces = s1.traces

/-- Where the address `ea` translates for writing to `n` bytes of RAM, `i` stores the low `n` bytes of `v` there and goes
on at `pc + len`; to `n` bytes of ROM it stores nothing and goes on all the same (R85). -/
def StoresN (i : Instr) (ea : State → Word) (n : Nat) (v : State → Nat) (len : Word) : Prop :=
  ∀ s pa s1, Memory.wf s.mem = true → translate .w (ea s) s = .ok pa s1 →
    (s.holds .ram pa n → ∃ t, exec i s = .next t ∧ Stored s t pa n (v s) (s.hart.pc + len) ∧
      t.traces = s1.traces) ∧
    (s.holds .rom pa n → ∃ t, exec i s = .next t ∧ Stored s t pa 0 (v s) (s.hart.pc + len) ∧
      t.traces = s1.traces)

/-- Where the word at `x[rs1]` translates for writing to RAM, `i` puts the old word in `x[rd]` and `op` of the old word
and `x[rs2]` in memory; on a word of ROM it does the same but stores nothing (R85). -/
def Amo (i : Instr) (rd rs1 rs2 : Reg) (op : Word → Word → Word) : Prop :=
  ∀ s pa s1, Memory.wf s.mem = true → translate .w (s.readX rs1) s = .ok pa s1 →
    ∀ kn ∈ [(DeviceKind.ram, 4), (.rom, 0)], s.holds kn.1 pa 4 →
    ∃ t, exec i s = .next t ∧
      AmoDone s t rd pa kn.2 (BitVec.ofNat 32 (bytesValue s.mem pa 4))
        (op (BitVec.ofNat 32 (bytesValue s.mem pa 4)) (s.readX rs2)) (s.hart.pc + 4#32) ∧
      t.traces = s1.traces

/-! The same through the port, in whatever device the bytes lie: where the address translates and the port answers, the
instruction completes, and the state after is the one the port left but for the destination and `pc`. -/

/-- A load into `x[rd]` through the port. -/
def LoadsPortX (i : Instr) (rd : Reg) (ea : State → Word) (n : Nat) (ext : DWord → Word) (len : Word) : Prop :=
  ∀ s pa s1 v s2, translate .r (ea s) s = .ok pa s1 → physRead pa n s1 = some (v, s2) →
    ∃ t, exec i s = .next t ∧ IntResult s2 t rd (ext v) (s.hart.pc + len)

/-- A load into `f[frd]` through the port; a 64-bit form where `HAS_FLD_FSD`. -/
def LoadsPortF (i : Instr) (frd : Reg) (ea : State → Word) (n : Nat) (ext : DWord → DWord) (len : Word) : Prop :=
  ∀ s pa s1 v s2, (n = 8 → s.cfg.hasFldFsd = true) → translate .r (ea s) s = .ok pa s1 →
    physRead pa n s1 = some (v, s2) → ∃ t, exec i s = .next t ∧ FpResult s2 t frd (ext v) (s.hart.pc + len)

/-- A store through the port; a 64-bit form where `HAS_FLD_FSD`. -/
def StoresPort (i : Instr) (ea : State → Word) (n : Nat) (v : State → DWord) (len : Word) : Prop :=
  ∀ s pa s1 s2, (n = 8 → s.cfg.hasFldFsd = true) → translate .w (ea s) s = .ok pa s1 →
    physWrite pa n (v s) s1 = some s2 → ∃ t, exec i s = .next t ∧ PcResult s2 t (s.hart.pc + len)

/-- An AMO through the port: the read, then the write of `op` of the word read and `x[rs2]`, at one address. The lock is free
between instructions (R66; `State.Inv.lock`). -/
def AmoPort (i : Instr) (rd rs1 rs2 : Reg) (op : Word → Word → Word) : Prop :=
  ∀ s pa s1 v s2 s3, s.amoLock = false → translate .w (s.readX rs1) s = .ok pa s1 →
    physRead pa 4 s1 = some (v, s2) →
    physWrite pa 4 ((op (v.extractLsb' 0 32) (s.readX rs2)).setWidth 64) s2 = some s3 →
    ∃ t, exec i s = .next t ∧ IntResult s3 t rd (v.extractLsb' 0 32) (s.hart.pc + 4#32)

/-- The harts of the VM, the one that took the last step first. -/
def State.harts (s : State) : List Hart := s.hart :: s.others

/-- A write of the CLINT, `r`, is answered and leaves `s` with `f` applied to the hart of index `i` and nothing else changed. -/
def HartSet (s : State) (i : Nat) (f : Hart → Hart) (r : Option State) : Prop :=
  ∃ t, r = some t ∧ t.harts = s.harts.map (fun h => if h.hartid = i then f h else h) ∧
    { t with hart := s.hart, others := s.others } = s

/-- A data access at `ea` that cannot be made raises, and changes no register and no memory (R86, R103, R240): the fault
of the translation, or the access fault with trap value `ea` where no device answers. -/
def AccessFaults (acc : AccessKind) (i : Instr) (ea : State → Word) (n : Nat) : Prop :=
  (∀ s e tv s1, translate acc (ea s) s = .raise e tv s1 → ∃ t, exec i s = .next t ∧ Raised s1 t e tv) ∧
  (∀ s pa s1, translate acc (ea s) s = .ok pa s1 → (∀ k, ¬ s.holds k pa n) →
    ∃ t, exec i s = .next t ∧ Raised s1 t acc.accessFault (ea s))

/-- A CSR instruction with bits `w` (R281): where the access is allowed, `x[rd]` gets the old value, and the CSR is
written with `new` of it when there is a write; where it is refused, IllegalInstruction. -/
def AccessesCsr (i : Instr) (w : Word) (rd : Reg) (n : CsrNum) (writes : Bool) (new : State → Word → Word) : Prop :=
  (∀ s, n.toNat / 256 % 4 ≤ s.hart.priv.level → ¬ (writes = true ∧ n.toNat / 1024 = 3) →
    ∃ t, exec i s = .next t ∧
      (∀ r, t.readX r = if r = rd ∧ r ≠ 0#5 then csrRead s n else s.readX r) ∧
      t.hart.pc = s.hart.pc + 4#32 ∧
      (∀ a, Memory.read t.mem a = Memory.read s.mem a) ∧
      { t with hart := { t.hart with x := s.hart.x, pc := s.hart.pc } } =
        if writes then csrWrite n (new s (csrRead s n)) s else s) ∧
  (∀ s, (s.hart.priv.level < n.toNat / 256 % 4 ∨ (writes = true ∧ n.toNat / 1024 = 3)) →
    ∃ t, exec i s = .next t ∧ Raised s t .illegalInstruction w)

/-- The instructions that may write `fcsr`, `cycle` and the other CSRs by number. -/
def isCsrInstr : Instr → Bool
  | .csrrw _ _ _ => true
  | .csrrs _ _ _ => true
  | .csrrc _ _ _ => true
  | .csrrwi _ _ _ => true
  | .csrrsi _ _ _ => true
  | .csrrci _ _ _ => true
  | _ => false

/-- The CSR number an instruction will write if the access checks pass: the source field decides (R281). -/
def csrWritten : Instr → Option CsrNum
  | .csrrw _ _ n => some n
  | .csrrs _ rs1 n => if rs1 = 0#5 then none else some n
  | .csrrc _ rs1 n => if rs1 = 0#5 then none else some n
  | .csrrwi _ _ n => some n
  | .csrrsi _ uimm n => if uimm = 0#5 then none else some n
  | .csrrci _ uimm n => if uimm = 0#5 then none else some n
  | _ => none

/-! ## The invariant of the machine -/

/-- A legal hart (R21, R23, R31, R34, R41, R42, R47, R65). -/
structure Hart.Legal (h : Hart) : Prop where
  x0 : h.x[0] = 0#32
  pcEven : h.pc.getLsbD 0 = false
  statusMask : h.mstatus &&& ~~~mstatusMask = 0#32
  mppLegal : mppField h.mstatus ≠ 2#2
  mieMask : h.mie &&& ~~~0xBBB#32 = 0#32
  mipMask : h.mipSw &&& ~~~0x333#32 = 0#32
  epcEven : ∀ l, ((h.trapRegs l).epc).getLsbD 0 = false
  csrsWf : sparseWf 0#32 h.csrs = true
  csrsPlain : ∀ e ∈ h.csrs, e.1 < 4096 ∧ csrName (BitVec.ofNat 12 e.1) = none
  tlbM : ∀ a, (h.tlb.get .m a).valid = false

/-- The invariant: the configuration is well-formed, memory is in its canonical form, the AMO lock is free between
instructions (R66), the harts are numbered `0` to `NUM_HARTS - 1` (R10, R38) and each is legal. -/
structure State.Inv (s : State) : Prop where
  cfg : s.cfg.wf = true
  mem : Memory.wf s.mem = true
  lock : s.amoLock = false
  numbers : (s.harts.map (fun h => h.hartid)).Perm (List.range s.cfg.numHarts)
  harts : ∀ h ∈ s.harts, h.Legal

/-- Some hart can take a step (R266, R510). -/
def State.running (s : State) : Prop := ∃ h ∈ s.harts, h.halted = false

/-! ## The real value of a binary32 magnitude (R341, R343) -/

/-- The value of magnitude bits (bits 30:0), read on beyond the largest finite one as if the exponent range were
unbounded: "as if computed with unbounded range" (R343). -/
noncomputable def magValue (k : Nat) : ℝ :=
  if k < 2 ^ 23 then (k : ℝ) * 2 ^ (-149 : ℤ)
  else ((2 ^ 23 + k % 2 ^ 23 : ℕ) : ℝ) * 2 ^ ((k / 2 ^ 23 : ℕ) - 150 : ℤ)

/-- Of the magnitudes `k` and `k + 1` next to the real `v`, the one a mode selects for a value of the given sign (R342,
R343). -/
def Selects (mode : RoundingMode) (neg : Bool) (v : ℝ) (k sel : Nat) : Prop :=
  (v = magValue k → sel = k) ∧
  (v ≠ magValue k →
    match mode with
    | .rne => (2 * v < magValue k + magValue (k + 1) → sel = k) ∧
        (magValue k + magValue (k + 1) < 2 * v → sel = k + 1) ∧
        (2 * v = magValue k + magValue (k + 1) → (sel = k ∨ sel = k + 1) ∧ sel % 2 = 0)
    | .rtz => sel = k
    | .rdn => sel = if neg then k + 1 else k
    | .rup => sel = if neg then k else k + 1
    | .rmm => (2 * v < magValue k + magValue (k + 1) → sel = k) ∧
        (magValue k + magValue (k + 1) ≤ 2 * v → sel = k + 1))

/-- `w` is `round32` of the real with sign `neg` and magnitude `v > 0` (R343): the selected neighbour, or the mode's overflow
result when that is at least `2^128`. -/
def IsRounded (mode : RoundingMode) (neg : Bool) (v : ℝ) (w : Word) : Prop :=
  ∃ k sel, magValue k ≤ v ∧ v < magValue (k + 1) ∧ Selects mode neg v k sel ∧
    w = BitVec.ofBool neg ++ BitVec.ofNat 31 (
      if sel < 0x7F800000 then sel
      else match mode with
        | .rne => 0x7F800000
        | .rmm => 0x7F800000
        | .rtz => 0x7F7FFFFF
        | .rdn => if neg then 0x7F800000 else 0x7F7FFFFF
        | .rup => if neg then 0x7F7FFFFF else 0x7F800000)

/-- The real value of a finite binary32 word (R341). -/
noncomputable def realValue (w : Word) : ℝ := (if w.getLsbD 31 then -1 else 1) * magValue (w.toNat % 2 ^ 31)

/-- `w` is the real `v ≠ 0` rounded (R343). -/
def RoundsReal (mode : RoundingMode) (v : ℝ) (w : Word) : Prop :=
  (0 < v → IsRounded mode false v w) ∧ (v < 0 → IsRounded mode true (-v) w)

/-- `n` is the real `v` rounded to an integer by a mode (R342, R360). -/
def RoundsToInt (mode : RoundingMode) (v : ℝ) (n : ℤ) : Prop :=
  match mode with
  | .rne => |v - n| ≤ 1 / 2 ∧ (|v - n| = 1 / 2 → n % 2 = 0)
  | .rtz => |(n : ℝ)| ≤ |v| ∧ |v - n| < 1 ∧ 0 ≤ v * n
  | .rdn => (n : ℝ) ≤ v ∧ v < n + 1
  | .rup => v ≤ n ∧ (n : ℝ) < v + 1
  | .rmm => |v - n| ≤ 1 / 2 ∧ (|v - n| = 1 / 2 → |v| < |(n : ℝ)|)

/-- A word of a finite value. -/
def isFinite (w : Word) : Bool := (w.toNat / 2 ^ 23) % 2 ^ 8 != 255

end Sys2Proof.Machine
end

