-- ==== Sys2Proof/Certificates/Slice0/Obligations.lean ====
section
/-! DEFINITION. The statements for the provers. OBLIGATIONS.json gives each its title, rules and tier. -/

open Sys2Proof Sys2Proof.Machine

/-! ## Encoding -/

/-- Decoding the word of a well-formed instruction gives the instruction back, every operand at every value (R130-R152); so
do its bytes, whatever follows them: the parcel at the lower address is the less significant half (R81, R93, R130). -/
def Obligations.DecodeOfEncode : Prop :=
  ∀ (cfg : Config) (i : Instr), cfg.wf = true → i.wellFormed cfg = true →
    decodeRaw cfg (encode cfg i) = some i ∧
    ∀ rest : List Byte, decode cfg (encodeBytes cfg i ++ rest) = .ok (i, rest)

/-- A word that decodes is the word of the instruction it decodes to, which is well-formed: each word has one meaning. -/
def Obligations.EncodeOfDecode : Prop :=
  ∀ (cfg : Config) (r : RawInstr) (i : Instr), cfg.wf = true → decodeRaw cfg r = some i →
    i.wellFormed cfg = true ∧ encode cfg i = r

/-- Words of the spec's examples, one or more of each family, decode to the instructions they stand for. -/
def Obligations.ExampleWordsDecode : Prop :=
  decodeTableWord 32 0x00500093 = some (.addi 1 0 5) ∧
  decodeTableWord 32 0x406283B3 = some (.sub 7 5 6) ∧
  decodeTableWord 32 0xFE629EE3 = some (.bne 5 6 0xFFE#12) ∧
  decodeTableWord 32 0x008000EF = some (.jal 1 4) ∧
  decodeTableWord 32 0xFFC2A383 = some (.lw 7 5 0xFFC#12) ∧
  decodeTableWord 32 0xFE62AE23 = some (.sw 5 6 0xFFC#12) ∧
  decodeTableWord 32 0x340312F3 = some (.csrrw 5 6 0x340#12) ∧
  decodeTableWord 32 0x0262C3B3 = some (.div 7 5 6) ∧
  decodeTableWord 32 0x0662A3AF = some (.amoaddW 7 5 6 true true) ∧
  decodeTableWord 32 0xC00093D3 = some (.fcvtWS 7 1 .rtz) ∧
  decodeTableWord 32 0x00102033 = some .breakHint ∧
  decodeTableWord 16 0x0800 = some (.cAddi4spn 0 4) ∧
  decodeTableWord 16 0x2FFD = some (.cJal 0x3FF#11)

/-- The illegal 16-bit words are exactly those of R435's list. -/
def Obligations.IllegalHalfwords : Prop :=
  ∀ (cfg : Config) (h : Half), h.extractLsb' 0 2 ≠ 3#2 →
    (decodeRaw cfg (.half h) = none ↔
      (h.extractLsb' 0 2 = 0#2 ∧ h.extractLsb' 13 3 = 0#3 ∧ h.extractLsb' 5 8 = 0#8) ∨
      (h.extractLsb' 0 2 = 0#2 ∧ h.extractLsb' 13 3 = 4#3) ∨
      (h.extractLsb' 0 2 = 1#2 ∧ h.extractLsb' 13 3 = 3#3 ∧ h.extractLsb' 12 1 = 0#1 ∧ h.extractLsb' 2 5 = 0#5) ∨
      (h.extractLsb' 0 2 = 1#2 ∧ h.extractLsb' 13 3 = 4#3 ∧ h.extractLsb' 12 1 = 1#1 ∧
        (h.extractLsb' 10 2 = 0#2 ∨ h.extractLsb' 10 2 = 1#2)) ∨
      (h.extractLsb' 0 2 = 2#2 ∧ h.extractLsb' 13 3 = 0#3 ∧ h.extractLsb' 12 1 = 1#1) ∨
      (h.extractLsb' 0 2 = 1#2 ∧ h.extractLsb' 10 6 = 0x27#6) ∨
      (h.extractLsb' 0 2 = 2#2 ∧ h.extractLsb' 13 3 = 2#3 ∧ h.extractLsb' 7 5 = 0#5) ∨
      h = 0x8002#16 ∨
      (cfg.hasFldFsd = false ∧
        ((h.extractLsb' 0 2 = 0#2 ∧ (h.extractLsb' 13 3 = 1#3 ∨ h.extractLsb' 13 3 = 5#3)) ∨
         (h.extractLsb' 0 2 = 2#2 ∧ (h.extractLsb' 13 3 = 1#3 ∨ h.extractLsb' 13 3 = 5#3)))))

/-- LR.W and SC.W, the fused multiply-adds, OP-FP of another format, WFI, SFENCE.VMA and, with rm 101 or 110, every rounding
OP-FP row of R342 decode to no instruction, whatever the other fields hold (R331, R370, R270, R342, R350-R354, R360, R361,
R364, R365). -/
def Obligations.UnimplementedWords : Prop :=
  ∀ (cfg : Config) (w : Word), cfg.wf = true →
    ((w.extractLsb' 0 7 = 0x2F#7 ∧ (w.extractLsb' 27 5 = 2#5 ∨ w.extractLsb' 27 5 = 3#5)) ∨
     w.extractLsb' 0 7 = 0x43#7 ∨ w.extractLsb' 0 7 = 0x47#7 ∨ w.extractLsb' 0 7 = 0x4B#7 ∨
     w.extractLsb' 0 7 = 0x4F#7 ∨
     (w.extractLsb' 0 7 = 0x53#7 ∧ w.extractLsb' 25 2 ≠ 0#2) ∨
     (w.extractLsb' 0 7 = 0x73#7 ∧ w.extractLsb' 12 3 = 0#3 ∧
       w ≠ 0x00000073#32 ∧ w ≠ 0x00100073#32 ∧ w ≠ 0x00200073#32 ∧ w ≠ 0x10200073#32 ∧ w ≠ 0x30200073#32) ∨
     (w.extractLsb' 0 7 = 0x53#7 ∧
       w.extractLsb' 25 7 ∈ [0x00#7, 0x04#7, 0x08#7, 0x0C#7, 0x2C#7, 0x60#7, 0x68#7] ∧
       (w.extractLsb' 12 3 = 5#3 ∨ w.extractLsb' 12 3 = 6#3))) →
    decodeRaw cfg (.word w) = none

/-! ## Registers -/

/-- `x0` reads 0 whatever is written to it; every other register holds the last value written (R21). -/
def Obligations.RegisterZero : Prop :=
  ∀ (s : State) (r q : Reg) (v : Word),
    (s.setX r v).readX 0#5 = 0#32 ∧
    (q ≠ 0#5 → (s.setX r v).readX q = if q = r then v else s.readX q)

/-! ## Integer computation -/

/-- OP-IMM, LUI and AUIPC: the result, the destination, and nothing else (R171-R181). -/
def Obligations.ImmediateResults : Prop :=
  ∀ (rd rs1 : Reg) (imm : BitVec 12) (imm20 : BitVec 20) (shamt : BitVec 5),
    WritesX (.lui rd imm20) rd (fun _ => unsignedImm 4096 imm20) 4#32 ∧
    WritesX (.auipc rd imm20) rd (fun s => s.hart.pc + unsignedImm 4096 imm20) 4#32 ∧
    WritesX (.addi rd rs1 imm) rd (fun s => s.readX rs1 + signedImm 1 imm) 4#32 ∧
    WritesX (.slti rd rs1 imm) rd (fun s => truth ((s.readX rs1).toInt < imm.toInt)) 4#32 ∧
    WritesX (.sltiu rd rs1 imm) rd (fun s => truth ((s.readX rs1).toNat < (signedImm 1 imm).toNat)) 4#32 ∧
    WritesX (.xori rd rs1 imm) rd (fun s => s.readX rs1 ^^^ signedImm 1 imm) 4#32 ∧
    WritesX (.ori rd rs1 imm) rd (fun s => s.readX rs1 ||| signedImm 1 imm) 4#32 ∧
    WritesX (.andi rd rs1 imm) rd (fun s => s.readX rs1 &&& signedImm 1 imm) 4#32 ∧
    WritesX (.slli rd rs1 shamt) rd (fun s => BitVec.ofNat 32 ((s.readX rs1).toNat * 2 ^ shamt.toNat)) 4#32 ∧
    WritesX (.srli rd rs1 shamt) rd (fun s => BitVec.ofNat 32 ((s.readX rs1).toNat / 2 ^ shamt.toNat)) 4#32 ∧
    WritesX (.srai rd rs1 shamt) rd (fun s => BitVec.ofInt 32 ((s.readX rs1).toInt / 2 ^ shamt.toNat)) 4#32

/-- OP: the result, the destination, and nothing else; a shift uses the low five bits of `x[rs2]` (R182-R191). -/
def Obligations.RegisterResults : Prop :=
  ∀ (rd rs1 rs2 : Reg),
    WritesX (.add rd rs1 rs2) rd (fun s => BitVec.ofNat 32 ((s.readX rs1).toNat + (s.readX rs2).toNat)) 4#32 ∧
    WritesX (.sub rd rs1 rs2) rd (fun s => BitVec.ofInt 32 ((s.readX rs1).toNat - (s.readX rs2).toNat)) 4#32 ∧
    WritesX (.sll rd rs1 rs2) rd
      (fun s => BitVec.ofNat 32 ((s.readX rs1).toNat * 2 ^ ((s.readX rs2).toNat % 32))) 4#32 ∧
    WritesX (.slt rd rs1 rs2) rd (fun s => truth ((s.readX rs1).toInt < (s.readX rs2).toInt)) 4#32 ∧
    WritesX (.sltu rd rs1 rs2) rd (fun s => truth ((s.readX rs1).toNat < (s.readX rs2).toNat)) 4#32 ∧
    WritesX (.xor rd rs1 rs2) rd (fun s => s.readX rs1 ^^^ s.readX rs2) 4#32 ∧
    WritesX (.srl rd rs1 rs2) rd
      (fun s => BitVec.ofNat 32 ((s.readX rs1).toNat / 2 ^ ((s.readX rs2).toNat % 32))) 4#32 ∧
    WritesX (.sra rd rs1 rs2) rd
      (fun s => BitVec.ofInt 32 ((s.readX rs1).toInt / 2 ^ ((s.readX rs2).toNat % 32))) 4#32 ∧
    WritesX (.or rd rs1 rs2) rd (fun s => s.readX rs1 ||| s.readX rs2) 4#32 ∧
    WritesX (.and rd rs1 rs2) rd (fun s => s.readX rs1 &&& s.readX rs2) 4#32

/-- M: exact products, quotients toward zero, the corner cases, and nothing else written (R300-R308). -/
def Obligations.MulDivResults : Prop :=
  ∀ (rd rs1 rs2 : Reg),
    WritesX (.mul rd rs1 rs2) rd (fun s => BitVec.ofInt 32 ((s.readX rs1).toInt * (s.readX rs2).toInt)) 4#32 ∧
    WritesX (.mulh rd rs1 rs2) rd
      (fun s => BitVec.ofInt 32 ((s.readX rs1).toInt * (s.readX rs2).toInt / 2 ^ 32)) 4#32 ∧
    WritesX (.mulhsu rd rs1 rs2) rd
      (fun s => BitVec.ofInt 32 ((s.readX rs1).toInt * (s.readX rs2).toNat / 2 ^ 32)) 4#32 ∧
    WritesX (.mulhu rd rs1 rs2) rd
      (fun s => BitVec.ofNat 32 ((s.readX rs1).toNat * (s.readX rs2).toNat / 2 ^ 32)) 4#32 ∧
    WritesX (.div rd rs1 rs2) rd (fun s => if (s.readX rs2).toInt = 0 then 0xFFFFFFFF#32
      else BitVec.ofInt 32 ((s.readX rs1).toInt.tdiv (s.readX rs2).toInt)) 4#32 ∧
    WritesX (.divu rd rs1 rs2) rd (fun s => if (s.readX rs2).toNat = 0 then 0xFFFFFFFF#32
      else BitVec.ofNat 32 ((s.readX rs1).toNat / (s.readX rs2).toNat)) 4#32 ∧
    WritesX (.rem rd rs1 rs2) rd (fun s => if (s.readX rs2).toInt = 0 then s.readX rs1
      else BitVec.ofInt 32 ((s.readX rs1).toInt.tmod (s.readX rs2).toInt)) 4#32 ∧
    WritesX (.remu rd rs1 rs2) rd (fun s => if (s.readX rs2).toNat = 0 then s.readX rs1
      else BitVec.ofNat 32 ((s.readX rs1).toNat % (s.readX rs2).toNat)) 4#32

/-- The laws and the corner table of R310, of the results the four divisions write. The DIVU and REMU entries of the overflow
row are the spec's own inference from R306 and R308; the size and the sign of the remainder are R307's and R308's, the
unsigned identity is that of R306 and R308. -/
def Obligations.DivisionLaws : Prop :=
  ∀ (rd rs1 rs2 : Reg) (s : State), ∃ q r qu ru t1 t2 t3 t4,
    exec (.div rd rs1 rs2) s = .next t1 ∧ IntResult s t1 rd q (s.hart.pc + 4#32) ∧
    exec (.rem rd rs1 rs2) s = .next t2 ∧ IntResult s t2 rd r (s.hart.pc + 4#32) ∧
    exec (.divu rd rs1 rs2) s = .next t3 ∧ IntResult s t3 rd qu (s.hart.pc + 4#32) ∧
    exec (.remu rd rs1 rs2) s = .next t4 ∧ IntResult s t4 rd ru (s.hart.pc + 4#32) ∧
    (s.readX rs2 ≠ 0#32 → q * s.readX rs2 + r = s.readX rs1) ∧
    (s.readX rs2 ≠ 0#32 → ¬ (s.readX rs1 = 0x80000000#32 ∧ s.readX rs2 = 0xFFFFFFFF#32) →
      q.toInt * (s.readX rs2).toInt + r.toInt = (s.readX rs1).toInt ∧ r.toInt.natAbs < (s.readX rs2).toInt.natAbs ∧
      (0 ≤ (s.readX rs1).toInt → 0 ≤ r.toInt) ∧ ((s.readX rs1).toInt ≤ 0 → r.toInt ≤ 0)) ∧
    (s.readX rs1 = 0x80000000#32 → s.readX rs2 = 0xFFFFFFFF#32 →
      q = 0x80000000#32 ∧ r = 0#32 ∧ qu = 0#32 ∧ ru = 0x80000000#32) ∧
    (s.readX rs2 = 0#32 → q = 0xFFFFFFFF#32 ∧ r = s.readX rs1 ∧ qu = 0xFFFFFFFF#32 ∧ ru = s.readX rs1) ∧
    (s.readX rs1 = 0#32 → s.readX rs2 ≠ 0#32 → q = 0#32 ∧ r = 0#32 ∧ qu = 0#32 ∧ ru = 0#32) ∧
    (s.readX rs2 ≠ 0#32 →
      qu.toNat * (s.readX rs2).toNat + ru.toNat = (s.readX rs1).toNat ∧ ru.toNat < (s.readX rs2).toNat)

/-- The compressed computational instructions: as their 32-bit equivalents, with `ilen = 2` (R392, R400-R412, R420, R425,
R427). -/
def Obligations.CompressedResults : Prop :=
  ∀ (rd rs2 : Reg) (rd' rs2' : PrimeReg) (nz : BitVec 8) (imm : BitVec 6) (shamt : BitVec 5),
    WritesX (.cAddi4spn rd' nz) (primeReg rd') (fun s => s.readX 2#5 + unsignedImm 4 nz) 2#32 ∧
    SetsPc (.cNop imm) (fun s => s.hart.pc + 2#32) ∧
    WritesX (.cAddi rd imm) rd (fun s => s.readX rd + signedImm 1 imm) 2#32 ∧
    WritesX (.cLi rd imm) rd (fun _ => signedImm 1 imm) 2#32 ∧
    WritesX (.cAddi16sp imm) 2#5 (fun s => s.readX 2#5 + signedImm 16 imm) 2#32 ∧
    WritesX (.cLui rd imm) rd (fun _ => signedImm 4096 imm) 2#32 ∧
    WritesX (.cSrli rd' shamt) (primeReg rd')
      (fun s => BitVec.ofNat 32 ((s.readX (primeReg rd')).toNat / 2 ^ shamt.toNat)) 2#32 ∧
    WritesX (.cSrai rd' shamt) (primeReg rd')
      (fun s => BitVec.ofInt 32 ((s.readX (primeReg rd')).toInt / 2 ^ shamt.toNat)) 2#32 ∧
    WritesX (.cAndi rd' imm) (primeReg rd') (fun s => s.readX (primeReg rd') &&& signedImm 1 imm) 2#32 ∧
    WritesX (.cSub rd' rs2') (primeReg rd') (fun s => s.readX (primeReg rd') - s.readX (primeReg rs2')) 2#32 ∧
    WritesX (.cXor rd' rs2') (primeReg rd') (fun s => s.readX (primeReg rd') ^^^ s.readX (primeReg rs2')) 2#32 ∧
    WritesX (.cOr rd' rs2') (primeReg rd') (fun s => s.readX (primeReg rd') ||| s.readX (primeReg rs2')) 2#32 ∧
    WritesX (.cAnd rd' rs2') (primeReg rd') (fun s => s.readX (primeReg rd') &&& s.readX (primeReg rs2')) 2#32 ∧
    WritesX (.cSlli rd shamt) rd (fun s => BitVec.ofNat 32 ((s.readX rd).toNat * 2 ^ shamt.toNat)) 2#32 ∧
    WritesX (.cMv rd rs2) rd (fun s => s.readX rs2) 2#32 ∧
    WritesX (.cAdd rd rs2) rd (fun s => s.readX rd + s.readX rs2) 2#32

/-! ## Control transfer -/

/-- The jumps: the target from the old registers, bit 0 of a register target cleared, the link (R222, R223, R402, R413, R424,
R426). -/
def Obligations.JumpResults : Prop :=
  ∀ (rd rs1 : Reg) (off : BitVec 20) (imm : BitVec 12) (coff : BitVec 11) (s : State),
    (∃ t, exec (.jal rd off) s = .next t ∧
      IntResult s t rd (s.hart.pc + 4#32) (s.hart.pc + signedImm 2 off)) ∧
    (∃ t, exec (.jalr rd rs1 imm) s = .next t ∧
      IntResult s t rd (s.hart.pc + 4#32) (BitVec.ofNat 32 ((s.readX rs1 + signedImm 1 imm).toNat / 2 * 2))) ∧
    (∃ t, exec (.cJal coff) s = .next t ∧
      IntResult s t 1#5 (s.hart.pc + 2#32) (s.hart.pc + signedImm 2 coff)) ∧
    (∃ t, exec (.cJalr rs1) s = .next t ∧
      IntResult s t 1#5 (s.hart.pc + 2#32) (BitVec.ofNat 32 ((s.readX rs1).toNat / 2 * 2))) ∧
    (∃ t, exec (.cJ coff) s = .next t ∧ PcResult s t (s.hart.pc + signedImm 2 coff)) ∧
    (∃ t, exec (.cJr rs1) s = .next t ∧ PcResult s t (BitVec.ofNat 32 ((s.readX rs1).toNat / 2 * 2)))

/-- The branches: taken to `pc + offset` when the condition holds, else on; nothing else changes (R224-R229, R414, R415). -/
def Obligations.BranchResults : Prop :=
  ∀ (rs1 rs2 : Reg) (off : BitVec 12) (rs1' : PrimeReg) (coff : BitVec 8),
    SetsPc (.beq rs1 rs2 off)
      (fun s => s.hart.pc + if s.readX rs1 = s.readX rs2 then signedImm 2 off else 4#32) ∧
    SetsPc (.bne rs1 rs2 off)
      (fun s => s.hart.pc + if s.readX rs1 = s.readX rs2 then 4#32 else signedImm 2 off) ∧
    SetsPc (.blt rs1 rs2 off)
      (fun s => s.hart.pc + if (s.readX rs1).toInt < (s.readX rs2).toInt then signedImm 2 off else 4#32) ∧
    SetsPc (.bge rs1 rs2 off)
      (fun s => s.hart.pc + if (s.readX rs2).toInt ≤ (s.readX rs1).toInt then signedImm 2 off else 4#32) ∧
    SetsPc (.bltu rs1 rs2 off)
      (fun s => s.hart.pc + if (s.readX rs1).toNat < (s.readX rs2).toNat then signedImm 2 off else 4#32) ∧
    SetsPc (.bgeu rs1 rs2 off)
      (fun s => s.hart.pc + if (s.readX rs2).toNat ≤ (s.readX rs1).toNat then signedImm 2 off else 4#32) ∧
    SetsPc (.cBeqz rs1' coff)
      (fun s => s.hart.pc + if s.readX (primeReg rs1') = 0#32 then signedImm 2 coff else 2#32) ∧
    SetsPc (.cBnez rs1' coff)
      (fun s => s.hart.pc + if s.readX (primeReg rs1') = 0#32 then 2#32 else signedImm 2 coff)

/-! ## Loads, stores, AMOs -/

/-- The integer loads from RAM or ROM: width, extension, destination, frame, at any byte address (R94, R240-R246, R394,
R422). -/
def Obligations.IntegerLoads : Prop :=
  ∀ (rd rs1 : Reg) (imm : BitVec 12) (rd' rs1' : PrimeReg) (u5 : BitVec 5) (u6 : BitVec 6),
    LoadsX (.lb rd rs1 imm) rd (fun s => s.readX rs1 + signedImm 1 imm) 1
      (fun v => BitVec.ofInt 32 (BitVec.ofNat 8 v).toInt) 4#32 ∧
    LoadsX (.lh rd rs1 imm) rd (fun s => s.readX rs1 + signedImm 1 imm) 2
      (fun v => BitVec.ofInt 32 (BitVec.ofNat 16 v).toInt) 4#32 ∧
    LoadsX (.lw rd rs1 imm) rd (fun s => s.readX rs1 + signedImm 1 imm) 4 (BitVec.ofNat 32) 4#32 ∧
    LoadsX (.lbu rd rs1 imm) rd (fun s => s.readX rs1 + signedImm 1 imm) 1 (BitVec.ofNat 32) 4#32 ∧
    LoadsX (.lhu rd rs1 imm) rd (fun s => s.readX rs1 + signedImm 1 imm) 2 (BitVec.ofNat 32) 4#32 ∧
    LoadsX (.cLw rd' rs1' u5) (primeReg rd') (fun s => s.readX (primeReg rs1') + unsignedImm 4 u5) 4
      (BitVec.ofNat 32) 2#32 ∧
    LoadsX (.cLwsp rd u6) rd (fun s => s.readX 2#5 + unsignedImm 4 u6) 4 (BitVec.ofNat 32) 2#32

/-- The floating-point loads: a word is boxed, a double word is not (R346, R348, R393, R395, R421, R423). Where
`HAS_FLD_FSD` is false the 64-bit forms decode to no instruction. -/
def Obligations.FloatLoads : Prop :=
  ∀ (frd rs1 : Reg) (imm : BitVec 12) (frd' rs1' : PrimeReg) (u5 : BitVec 5) (u6 : BitVec 6),
    LoadsF (.flw frd rs1 imm) frd (fun s => s.readX rs1 + signedImm 1 imm) 4
      (fun v => 0xFFFFFFFF#32 ++ BitVec.ofNat 32 v) 4#32 ∧
    LoadsF (.cFlw frd' rs1' u5) (primeReg frd') (fun s => s.readX (primeReg rs1') + unsignedImm 4 u5) 4
      (fun v => 0xFFFFFFFF#32 ++ BitVec.ofNat 32 v) 2#32 ∧
    LoadsF (.cFlwsp frd u6) frd (fun s => s.readX 2#5 + unsignedImm 4 u6) 4
      (fun v => 0xFFFFFFFF#32 ++ BitVec.ofNat 32 v) 2#32 ∧
    (∀ s pa s1, s.cfg.hasFldFsd = true → s.holdsBytes pa 8 →
      (Machine.translate .r (s.readX rs1 + signedImm 1 imm) s = .ok pa s1 →
        ∃ t, exec (.fld frd rs1 imm) s = .next t ∧
          FpLoaded s t frd (BitVec.ofNat 64 (bytesValue s.mem pa 8)) (s.hart.pc + 4#32) ∧ t.traces = s1.traces) ∧
      (Machine.translate .r (s.readX (primeReg rs1') + unsignedImm 8 u5) s = .ok pa s1 →
        ∃ t, exec (.cFld frd' rs1' u5) s = .next t ∧
          FpLoaded s t (primeReg frd') (BitVec.ofNat 64 (bytesValue s.mem pa 8)) (s.hart.pc + 2#32) ∧
          t.traces = s1.traces) ∧
      (Machine.translate .r (s.readX 2#5 + unsignedImm 8 u6) s = .ok pa s1 →
        ∃ t, exec (.cFldsp frd u6) s = .next t ∧
          FpLoaded s t frd (BitVec.ofNat 64 (bytesValue s.mem pa 8)) (s.hart.pc + 2#32) ∧ t.traces = s1.traces))

/-- The integer stores: the bytes stored, every other byte and every register as before (R85, R240, R247-R249, R397,
R429). -/
def Obligations.IntegerStores : Prop :=
  ∀ (rs1 rs2 : Reg) (imm : BitVec 12) (rs1' rs2' : PrimeReg) (u5 : BitVec 5) (u6 : BitVec 6),
    StoresN (.sb rs1 rs2 imm) (fun s => s.readX rs1 + signedImm 1 imm) 1 (fun s => (s.readX rs2).toNat) 4#32 ∧
    StoresN (.sh rs1 rs2 imm) (fun s => s.readX rs1 + signedImm 1 imm) 2 (fun s => (s.readX rs2).toNat) 4#32 ∧
    StoresN (.sw rs1 rs2 imm) (fun s => s.readX rs1 + signedImm 1 imm) 4 (fun s => (s.readX rs2).toNat) 4#32 ∧
    StoresN (.cSw rs1' rs2' u5) (fun s => s.readX (primeReg rs1') + unsignedImm 4 u5) 4
      (fun s => (s.readX (primeReg rs2')).toNat) 2#32 ∧
    StoresN (.cSwsp rs2 u6) (fun s => s.readX 2#5 + unsignedImm 4 u6) 4 (fun s => (s.readX rs2).toNat) 2#32

/-- The floating-point stores: the low word or all 64 bits of the register, boxed or not; a ROM keeps its bytes (R85, R347,
R349, R396, R398, R428, R430). Each `kn` is a kind of device and how many of the 8 bytes it takes. -/
def Obligations.FloatStores : Prop :=
  ∀ (rs1 frs2 : Reg) (imm : BitVec 12) (rs1' frs2' : PrimeReg) (u5 : BitVec 5) (u6 : BitVec 6),
    StoresN (.fsw rs1 frs2 imm) (fun s => s.readX rs1 + signedImm 1 imm) 4 (fun s => (s.readF frs2).toNat % 2 ^ 32) 4#32 ∧
    StoresN (.cFsw rs1' frs2' u5) (fun s => s.readX (primeReg rs1') + unsignedImm 4 u5) 4
      (fun s => (s.readF (primeReg frs2')).toNat % 2 ^ 32) 2#32 ∧
    StoresN (.cFswsp frs2 u6) (fun s => s.readX 2#5 + unsignedImm 4 u6) 4 (fun s => (s.readF frs2).toNat % 2 ^ 32) 2#32 ∧
    (∀ s pa s1, s.cfg.hasFldFsd = true → Memory.wf s.mem = true →
      ∀ kn ∈ [(DeviceKind.ram, 8), (.rom, 0)], s.holds kn.1 pa 8 →
      (Machine.translate .w (s.readX rs1 + signedImm 1 imm) s = .ok pa s1 →
        ∃ t, exec (.fsd rs1 frs2 imm) s = .next t ∧
          Stored s t pa kn.2 (s.readF frs2).toNat (s.hart.pc + 4#32) ∧ t.traces = s1.traces) ∧
      (Machine.translate .w (s.readX (primeReg rs1') + unsignedImm 8 u5) s = .ok pa s1 →
        ∃ t, exec (.cFsd rs1' frs2' u5) s = .next t ∧
          Stored s t pa kn.2 (s.readF (primeReg frs2')).toNat (s.hart.pc + 2#32) ∧ t.traces = s1.traces) ∧
      (Machine.translate .w (s.readX 2#5 + unsignedImm 8 u6) s = .ok pa s1 →
        ∃ t, exec (.cFsdsp frs2 u6) s = .next t ∧
          Stored s t pa kn.2 (s.readF frs2).toNat (s.hart.pc + 2#32) ∧ t.traces = s1.traces))

/-- The AMOs: the old word to `x[rd]`, the function of the old word and the old `x[rs2]` to memory, one translation as a
write, the lock free again; a ROM keeps its bytes (R85); `aq` and `rl` have no effect (R320-R330). -/
def Obligations.AmoResults : Prop :=
  ∀ (rd rs1 rs2 : Reg) (aq rl : Bool),
    Amo (.amoswapW rd rs1 rs2 aq rl) rd rs1 rs2 (fun _ b => b) ∧
    Amo (.amoaddW rd rs1 rs2 aq rl) rd rs1 rs2 (fun a b => BitVec.ofNat 32 (a.toNat + b.toNat)) ∧
    Amo (.amoxorW rd rs1 rs2 aq rl) rd rs1 rs2 (fun a b => a ^^^ b) ∧
    Amo (.amoandW rd rs1 rs2 aq rl) rd rs1 rs2 (fun a b => a &&& b) ∧
    Amo (.amoorW rd rs1 rs2 aq rl) rd rs1 rs2 (fun a b => a ||| b) ∧
    Amo (.amominW rd rs1 rs2 aq rl) rd rs1 rs2 (fun a b => BitVec.ofInt 32 (min a.toInt b.toInt)) ∧
    Amo (.amomaxW rd rs1 rs2 aq rl) rd rs1 rs2 (fun a b => BitVec.ofInt 32 (max a.toInt b.toInt)) ∧
    Amo (.amominuW rd rs1 rs2 aq rl) rd rs1 rs2 (fun a b => BitVec.ofNat 32 (min a.toNat b.toNat)) ∧
    Amo (.amomaxuW rd rs1 rs2 aq rl) rd rs1 rs2 (fun a b => BitVec.ofNat 32 (max a.toNat b.toNat))

/-- Two harts' AMO-adds on one word, one after the other, add both operands, in either order (R111). -/
def Obligations.NoLostUpdate : Prop :=
  ∀ (rd rs1 rs2 rd' rs1' rs2' : Reg) (aq rl aq' rl' : Bool) (a a1 b : State) (pa : Word),
    Memory.wf a.mem = true → Machine.translate .w (a.readX rs1) a = .ok pa a1 → a.holds .ram pa 4 →
    ∃ a2, exec (.amoaddW rd rs1 rs2 aq rl) a = .next a2 ∧
      (b.mem = a2.mem → b.cfg = a2.cfg → ∀ b1, Machine.translate .w (b.readX rs1') b = .ok pa b1 →
        ∃ b2, exec (.amoaddW rd' rs1' rs2' aq' rl') b = .next b2 ∧
          bytesValue b2.mem pa 4 =
            (bytesValue a.mem pa 4 + (a.readX rs2).toNat + (b.readX rs2').toNat) % 2 ^ 32)

/-- Loads and stores whose access cannot be made raise the fault of their kind and change no register and no memory (R86,
R103, R240, R346, R347). The trap is entered from the state the translation left: a cache entry it filled stays (R102, R442;
log entry 18). -/
def Obligations.AccessFaultsRaise : Prop :=
  ∀ (r1 r2 : Reg) (imm : BitVec 12) (p1 p2 : PrimeReg) (u5 : BitVec 5) (u6 : BitVec 6),
    AccessFaults .r (.lb r1 r2 imm) (fun s => s.readX r2 + signedImm 1 imm) 1 ∧
    AccessFaults .r (.lh r1 r2 imm) (fun s => s.readX r2 + signedImm 1 imm) 2 ∧
    AccessFaults .r (.lw r1 r2 imm) (fun s => s.readX r2 + signedImm 1 imm) 4 ∧
    AccessFaults .r (.lbu r1 r2 imm) (fun s => s.readX r2 + signedImm 1 imm) 1 ∧
    AccessFaults .r (.lhu r1 r2 imm) (fun s => s.readX r2 + signedImm 1 imm) 2 ∧
    AccessFaults .r (.flw r1 r2 imm) (fun s => s.readX r2 + signedImm 1 imm) 4 ∧
    AccessFaults .r (.cLw p1 p2 u5) (fun s => s.readX (primeReg p2) + unsignedImm 4 u5) 4 ∧
    AccessFaults .r (.cFlw p1 p2 u5) (fun s => s.readX (primeReg p2) + unsignedImm 4 u5) 4 ∧
    AccessFaults .r (.cLwsp r1 u6) (fun s => s.readX 2#5 + unsignedImm 4 u6) 4 ∧
    AccessFaults .r (.cFlwsp r1 u6) (fun s => s.readX 2#5 + unsignedImm 4 u6) 4 ∧
    AccessFaults .w (.sb r2 r1 imm) (fun s => s.readX r2 + signedImm 1 imm) 1 ∧
    AccessFaults .w (.sh r2 r1 imm) (fun s => s.readX r2 + signedImm 1 imm) 2 ∧
    AccessFaults .w (.sw r2 r1 imm) (fun s => s.readX r2 + signedImm 1 imm) 4 ∧
    AccessFaults .w (.fsw r2 r1 imm) (fun s => s.readX r2 + signedImm 1 imm) 4 ∧
    AccessFaults .w (.cSw p2 p1 u5) (fun s => s.readX (primeReg p2) + unsignedImm 4 u5) 4 ∧
    AccessFaults .w (.cFsw p2 p1 u5) (fun s => s.readX (primeReg p2) + unsignedImm 4 u5) 4 ∧
    AccessFaults .w (.cSwsp r1 u6) (fun s => s.readX 2#5 + unsignedImm 4 u6) 4 ∧
    AccessFaults .w (.cFswsp r1 u6) (fun s => s.readX 2#5 + unsignedImm 4 u6) 4

/-- The same (log entry 18) for the AMOs, which never report a load fault and leave the lock free (R321), and for the 64-bit
floating-point forms (R348, R349, R393, R396, R421, R428). -/
def Obligations.AmoAndDoubleFaults : Prop :=
  ∀ (rd rs1 rs2 : Reg) (aq rl : Bool) (imm : BitVec 12) (p1 p2 : PrimeReg) (u5 : BitVec 5) (u6 : BitVec 6) (s : State),
    (s.amoLock = false → ∀ i ∈ [Instr.amoswapW rd rs1 rs2 aq rl, .amoaddW rd rs1 rs2 aq rl,
        .amoxorW rd rs1 rs2 aq rl, .amoandW rd rs1 rs2 aq rl, .amoorW rd rs1 rs2 aq rl,
        .amominW rd rs1 rs2 aq rl, .amomaxW rd rs1 rs2 aq rl, .amominuW rd rs1 rs2 aq rl,
        .amomaxuW rd rs1 rs2 aq rl],
      (∀ e tv s1, Machine.translate .w (s.readX rs1) s = .raise e tv s1 →
        ∃ t, exec i s = .next t ∧ Raised s1 t e tv) ∧
      (∀ pa s1, Machine.translate .w (s.readX rs1) s = .ok pa s1 → (∀ k, ¬ s.holds k pa 4) →
        ∃ t, exec i s = .next t ∧ Raised s1 t .storeAmoAccessFault (s.readX rs1))) ∧
    (s.cfg.hasFldFsd = true →
      (∀ p ∈ [(Instr.fld rd rs1 imm, s.readX rs1 + signedImm 1 imm),
          (.cFld p1 p2 u5, s.readX (primeReg p2) + unsignedImm 8 u5), (.cFldsp rd u6, s.readX 2#5 + unsignedImm 8 u6)],
        (∀ e tv s1, Machine.translate .r p.2 s = .raise e tv s1 → ∃ t, exec p.1 s = .next t ∧ Raised s1 t e tv) ∧
        (∀ pa s1, Machine.translate .r p.2 s = .ok pa s1 → (∀ k, ¬ s.holds k pa 8) →
          ∃ t, exec p.1 s = .next t ∧ Raised s1 t .loadAccessFault p.2)) ∧
      (∀ p ∈ [(Instr.fsd rs1 rs2 imm, s.readX rs1 + signedImm 1 imm),
          (.cFsd p2 p1 u5, s.readX (primeReg p2) + unsignedImm 8 u5), (.cFsdsp rd u6, s.readX 2#5 + unsignedImm 8 u6)],
        (∀ e tv s1, Machine.translate .w p.2 s = .raise e tv s1 → ∃ t, exec p.1 s = .next t ∧ Raised s1 t e tv) ∧
        (∀ pa s1, Machine.translate .w p.2 s = .ok pa s1 → (∀ k, ¬ s.holds k pa 8) →
          ∃ t, exec p.1 s = .next t ∧ Raised s1 t .storeAmoAccessFault p.2)))

/-- Where `HAS_FLD_FSD` is false the six 64-bit forms raise IllegalInstruction with their words (R348, R349, R393, R396, R421,
R428, R441). -/
def Obligations.DoubleFormsIllegal : Prop :=
  ∀ (rd rs1 rs2 : Reg) (imm : BitVec 12) (p1 p2 : PrimeReg) (u5 : BitVec 5) (u6 : BitVec 6) (s : State),
    s.cfg.hasFldFsd = false →
    ∀ p ∈ [(Instr.fld rd rs1 imm, imm ++ rs1 ++ 3#3 ++ rd ++ 0x07#7),
        (.fsd rs1 rs2 imm, imm.extractLsb' 5 7 ++ rs2 ++ rs1 ++ 3#3 ++ imm.extractLsb' 0 5 ++ 0x27#7),
        (.cFld p1 p2 u5, (0#16 : Half) ++ (1#3 ++ u5.extractLsb' 0 3 ++ p2 ++ u5.extractLsb' 3 2 ++ p1 ++ 0#2 : Half)),
        (.cFsd p2 p1 u5, (0#16 : Half) ++ (5#3 ++ u5.extractLsb' 0 3 ++ p2 ++ u5.extractLsb' 3 2 ++ p1 ++ 0#2 : Half)),
        (.cFldsp rd u6, (0#16 : Half) ++
          (1#3 ++ u6.extractLsb' 2 1 ++ rd ++ u6.extractLsb' 0 2 ++ u6.extractLsb' 3 3 ++ 2#2 : Half)),
        (.cFsdsp rd u6, (0#16 : Half) ++ (5#3 ++ u6.extractLsb' 0 3 ++ u6.extractLsb' 3 3 ++ rd ++ 2#2 : Half))],
      ∃ t, exec p.1 s = .next t ∧ Raised s t .illegalInstruction p.2

/-- A load whose `rd` is `x0` makes the same translation and the same port read as any other load, raises the same
exceptions, and then discards the value (R241). The two runs start in one state and so draw the same clock and the same
replies of devices, also in a walk: that is the model's form of a free value (log entries 5 and 13). -/
def Obligations.LoadToZero : Prop :=
  ∀ (rd rs1 : Reg) (imm : BitVec 12) (s : State),
    ∀ p ∈ [(Instr.lb rd rs1 imm, Instr.lb 0 rs1 imm), (.lh rd rs1 imm, .lh 0 rs1 imm), (.lw rd rs1 imm, .lw 0 rs1 imm),
        (.lbu rd rs1 imm, .lbu 0 rs1 imm), (.lhu rd rs1 imm, .lhu 0 rs1 imm)],
      ∃ t t0, exec p.1 s = .next t ∧ exec p.2 s = .next t0 ∧
        { t with hart := { t.hart with x := t0.hart.x } } = t0 ∧ ∀ r, t0.readX r = s.readX r

/-! ## Translation -/

/-- In M mode, or with `satp.MODE = 0`, the address is its own translation and nothing changes, whatever `mstatus.MPRV`
holds (R95, R106, C5). Elsewhere a hit answers from the cache, with no table read, no permission check and no look at the
root table (R96, R105). -/
def Obligations.TranslationWithoutWalk : Prop :=
  ∀ (acc : AccessKind) (va : Word) (s : State),
    (s.hart.priv = .m ∨ s.hart.satp.toNat < 2 ^ 31 → Machine.translate acc va s = .ok va s) ∧
    (s.hart.priv ≠ .m → 2 ^ 31 ≤ s.hart.satp.toNat →
      (s.hart.tlb.get s.hart.priv acc).valid = true →
      (s.hart.tlb.get s.hart.priv acc).vpage = va.extractLsb' 12 20 →
      Machine.translate acc va s = .ok ((s.hart.tlb.get s.hart.priv acc).ppage ++ va.extractLsb' 0 12) s)

/-- A translation that answers changes nothing when it is the identity or a hit (R95, R96), and after a walk fills the one
entry of the mode and access with the page it translated, even inside a superpage (R102); one that raises leaves the cache
unchanged, and raises only the page fault or access fault of its kind, with the address as trap value (R86, R103). Where a
page table lies in the CLINT the clock may move on, never back (log entry 10); where it lies in a device of unknown insides,
only that device's record and the free values drawn change (log entries 5, 13 and 19). -/
def Obligations.TranslationEffects : Prop :=
  ∀ (acc : AccessKind) (va : Word) (s : State),
    (∀ pa s1, Machine.translate acc va s = .ok pa s1 →
      { s1 with hart := s.hart, mtime := s.mtime, io := s.io, draws := s.draws } = s ∧
      s.mtime.toNat ≤ s1.mtime.toNat ∧
      { s1.hart with tlb := s.hart.tlb } = s.hart ∧
      (∀ p a, (p, a) ≠ (s.hart.priv, acc) → s1.hart.tlb.get p a = s.hart.tlb.get p a) ∧
      (if s.hart.priv = .m ∨ s.hart.satp.toNat < 2 ^ 31 ∨ ((s.hart.tlb.get s.hart.priv acc).valid = true ∧
          (s.hart.tlb.get s.hart.priv acc).vpage = va.extractLsb' 12 20) then s1 = s
        else s1.hart.tlb.get s.hart.priv acc =
          { valid := true, vpage := va.extractLsb' 12 20, ppage := pa.extractLsb' 12 20 }) ∧
      pa.extractLsb' 0 12 = va.extractLsb' 0 12) ∧
    (∀ e tv s1, Machine.translate acc va s = .raise e tv s1 →
      tv = va ∧ (e = acc.pageFault ∨ e = acc.accessFault) ∧
      { s1 with mtime := s.mtime, io := s.io, draws := s.draws } = s ∧ s.mtime.toNat ≤ s1.mtime.toNat)

/-- The access bits and the user and supervisor rule of R100, as the leaf `pte` of a walk is checked. -/
def Obligations.PermissionRules : Prop :=
  ∀ (pte : Word) (h : Hart) (acc : AccessKind),
    ptePermits pte h acc = true ↔
      (match acc with
        | .r => pte.getLsbD 1 = true
        | .w => pte.getLsbD 2 = true
        | .x => pte.getLsbD 3 = true) ∧
      (h.priv = .u → pte.getLsbD 4 = true) ∧
      (h.priv = .s → pte.getLsbD 4 = true → acc ≠ .x ∧ h.mstatus.getLsbD 18 = true)

/-- The walk through RAM tables, from a miss: a superpage and a two-level page give the composed address and fill the entry;
an invalid entry, a misaligned superpage or a refused permission raises the page fault of the access; a table no device
holds, the root or a level-0 one, raises its access fault (R97-R102). -/
def Obligations.WalkThroughRam : Prop :=
  ∀ (acc : AccessKind) (va p1 p0 : Word) (s : State), s.hart.priv ≠ .m → 2 ^ 31 ≤ s.hart.satp.toNat →
    ¬ ((s.hart.tlb.get s.hart.priv acc).valid = true ∧
        (s.hart.tlb.get s.hart.priv acc).vpage = va.extractLsb' 12 20) →
    let root := BitVec.ofNat 32 (s.hart.satp.toNat % 2 ^ 22 * 4096)
    let a1 := root + BitVec.ofNat 32 (4 * (va.toNat / 2 ^ 22))
    let a0 := BitVec.ofNat 32 (p1.toNat / 2 ^ 10 * 4096) + BitVec.ofNat 32 (4 * (va.toNat / 2 ^ 12 % 2 ^ 10))
    ((∀ k, ¬ s.holds k a1 4) → Machine.translate acc va s = .raise acc.accessFault va s) ∧
    (s.holdsBytes a1 4 → BitVec.ofNat 32 (bytesValue s.mem a1 4) = p1 →
      (p1.getLsbD 0 = false → Machine.translate acc va s = .raise acc.pageFault va s) ∧
      (p1.getLsbD 0 = true → p1.extractLsb' 1 3 ≠ 0#3 →
        (p1.extractLsb' 10 10 ≠ 0#10 → Machine.translate acc va s = .raise acc.pageFault va s) ∧
        (p1.extractLsb' 10 10 = 0#10 →
          (ptePermits p1 s.hart acc = false → Machine.translate acc va s = .raise acc.pageFault va s) ∧
          (ptePermits p1 s.hart acc = true →
            let pa := p1.extractLsb' 20 10 ++ va.extractLsb' 0 22
            let e := TlbEntry.mk true (va.extractLsb' 12 20) (pa.extractLsb' 12 20)
            Machine.translate acc va s =
              .ok pa { s with hart := { s.hart with tlb := s.hart.tlb.put s.hart.priv acc e } }))) ∧
      (p1.getLsbD 0 = true → p1.extractLsb' 1 3 = 0#3 → s.holdsBytes a0 4 →
        BitVec.ofNat 32 (bytesValue s.mem a0 4) = p0 →
        (p0.getLsbD 0 = false → Machine.translate acc va s = .raise acc.pageFault va s) ∧
        (p0.getLsbD 0 = true →
          (ptePermits p0 s.hart acc = false → Machine.translate acc va s = .raise acc.pageFault va s) ∧
          (ptePermits p0 s.hart acc = true →
            let pa := p0.extractLsb' 10 20 ++ va.extractLsb' 0 12
            let e := TlbEntry.mk true (va.extractLsb' 12 20) (pa.extractLsb' 12 20)
            Machine.translate acc va s =
              .ok pa { s with hart := { s.hart with tlb := s.hart.tlb.put s.hart.priv acc e } }))) ∧
      (p1.getLsbD 0 = true → p1.extractLsb' 1 3 = 0#3 → (∀ k, ¬ s.holds k a0 4) →
        Machine.translate acc va s = .raise acc.accessFault va s))

/-! ## The memory and the CLINT -/

/-- Every port write keeps the canonical form of memory, and reads back, byte by byte, what it wrote to RAM; a ROM keeps its
bytes (R81, R84, R85, R89). That a write of the CLINT or of a device of unknown insides leaves RAM alone is the model's choice
(log entry 13). -/
def Obligations.PortWrites : Prop :=
  ∀ (pa a : Word) (n : Nat) (v : DWord) (s t : State), n ≤ 8 → Memory.wf s.mem = true →
    physWrite pa n v s = some t →
    Memory.wf t.mem = true ∧
    (s.holds .ram pa n → ∀ k, k < n →
      Memory.read t.mem (pa + BitVec.ofNat 32 k) = v.extractLsb' (8 * k) 8) ∧
    (¬ (pa.toNat ≤ a.toNat ∧ a.toNat < pa.toNat + n) → Memory.read t.mem a = Memory.read s.mem a) ∧
    (¬ s.holds .ram pa n → t.mem = s.mem)

/-- The CLINT's registers, at the offsets of R462, of a CLINT that answers at its base: a word written to a half of `mtime`, or
of the `mtimecmp` of any hart, replaces that half, a word written to the `msip` of any hart sets its bit 0 (R461), nothing
else changes, and each reads back. An 8-byte access is two 4-byte accesses, the low word first (R87); one of 1 or 2 bytes is
not answered (log entry 14). A read lets the clock move on after it (log entry 10). -/
def Obligations.ClintRegisters : Prop :=
  ∀ (s : State) (d : Device), d.kind = .clint → d.size = 0x10000#32 → d.base.toNat + d.size.toNat ≤ 2 ^ 32 →
    (∀ off, off < 0x10000 → s.cfg.devices.find? (claims (d.base + BitVec.ofNat 32 off)) = some d) →
    s.cfg.numHarts ≤ 4095 → (s.harts.map (fun h => h.hartid)).Perm (List.range s.cfg.numHarts) →
    let at' : Nat → Word := fun off => d.base + BitVec.ofNat 32 off
    (∀ v : Word,
      physWrite (at' 0xBFF8) 4 (v.setWidth 64) s = some { s with mtime := s.mtime.extractLsb' 32 32 ++ v } ∧
      physWrite (at' 0xBFFC) 4 (v.setWidth 64) s = some { s with mtime := v ++ s.mtime.extractLsb' 0 32 } ∧
      ∀ i, i < s.cfg.numHarts →
        HartSet s i (fun h => { h with msip := v.getLsbD 0 }) (physWrite (at' (4 * i)) 4 (v.setWidth 64) s) ∧
        HartSet s i (fun h => { h with mtimecmp := h.mtimecmp.extractLsb' 32 32 ++ v })
          (physWrite (at' (0x4000 + 8 * i)) 4 (v.setWidth 64) s) ∧
        HartSet s i (fun h => { h with mtimecmp := v ++ h.mtimecmp.extractLsb' 0 32 })
          (physWrite (at' (0x4004 + 8 * i)) 4 (v.setWidth 64) s)) ∧
    physRead (at' 0xBFF8) 4 s = some ((s.mtime.extractLsb' 0 32).setWidth 64, s.advanceClock) ∧
    physRead (at' 0xBFFC) 4 s = some ((s.mtime.extractLsb' 32 32).setWidth 64, s.advanceClock) ∧
    (∀ h ∈ s.harts,
      physRead (at' (4 * h.hartid)) 4 s = some (if h.msip then 1#64 else 0#64, s.advanceClock) ∧
      physRead (at' (0x4000 + 8 * h.hartid)) 4 s =
        some ((h.mtimecmp.extractLsb' 0 32).setWidth 64, s.advanceClock) ∧
      physRead (at' (0x4004 + 8 * h.hartid)) 4 s =
        some ((h.mtimecmp.extractLsb' 32 32).setWidth 64, s.advanceClock)) ∧
    (∀ off (v : DWord), off + 8 ≤ 0x10000 →
      physWrite (at' off) 8 v s = (physWrite (at' off) 4 ((v.extractLsb' 0 32).setWidth 64) s).bind
        (fun u => physWrite (at' (off + 4)) 4 ((v.extractLsb' 32 32).setWidth 64) u) ∧
      physRead (at' off) 8 s = (physRead (at' off) 4 s).bind (fun lo =>
        (physRead (at' (off + 4)) 4 lo.2).map (fun hi => (hi.1.extractLsb' 0 32 ++ lo.1.extractLsb' 0 32, hi.2)))) ∧
    (∀ off n (v : DWord), off < 0x10000 → n = 1 ∨ n = 2 →
      physRead (at' off) n s = none ∧ physWrite (at' off) n v s = none)

/-- Loads, stores and AMOs complete wherever their address translates and the port answers, whatever device that is (R89,
R240, R321, R346-R349, R393-R398, R421-R423, R428-R430), and leave what the port left but for the destination and `pc`; RAM, a
ROM, the debug-print device and a device of unknown insides always answer. Their recorded replies and what they print are the model's choices (log
entries 12 and 13). -/
def Obligations.PortAccesses : Prop :=
  (∀ (rd rs1 : Reg) (imm : BitVec 12) (rd' rs1' : PrimeReg) (u5 : BitVec 5) (u6 : BitVec 6),
    let ea : State → Word := fun s => s.readX rs1 + signedImm 1 imm
    LoadsPortX (.lb rd rs1 imm) rd ea 1 (fun v => BitVec.ofInt 32 (v.extractLsb' 0 8).toInt) 4#32 ∧
    LoadsPortX (.lh rd rs1 imm) rd ea 2 (fun v => BitVec.ofInt 32 (v.extractLsb' 0 16).toInt) 4#32 ∧
    LoadsPortX (.lw rd rs1 imm) rd ea 4 (fun v => v.extractLsb' 0 32) 4#32 ∧
    LoadsPortX (.lbu rd rs1 imm) rd ea 1 (fun v => (v.extractLsb' 0 8).setWidth 32) 4#32 ∧
    LoadsPortX (.lhu rd rs1 imm) rd ea 2 (fun v => (v.extractLsb' 0 16).setWidth 32) 4#32 ∧
    LoadsPortX (.cLw rd' rs1' u5) (primeReg rd') (fun s => s.readX (primeReg rs1') + unsignedImm 4 u5) 4
      (fun v => v.extractLsb' 0 32) 2#32 ∧
    LoadsPortX (.cLwsp rd u6) rd (fun s => s.readX 2#5 + unsignedImm 4 u6) 4 (fun v => v.extractLsb' 0 32) 2#32 ∧
    LoadsPortF (.flw rd rs1 imm) rd ea 4 (fun v => 0xFFFFFFFF#32 ++ v.extractLsb' 0 32) 4#32 ∧
    LoadsPortF (.cFlw rd' rs1' u5) (primeReg rd') (fun s => s.readX (primeReg rs1') + unsignedImm 4 u5) 4
      (fun v => 0xFFFFFFFF#32 ++ v.extractLsb' 0 32) 2#32 ∧
    LoadsPortF (.cFlwsp rd u6) rd (fun s => s.readX 2#5 + unsignedImm 4 u6) 4
      (fun v => 0xFFFFFFFF#32 ++ v.extractLsb' 0 32) 2#32 ∧
    LoadsPortF (.fld rd rs1 imm) rd ea 8 (fun v => v) 4#32 ∧
    LoadsPortF (.cFld rd' rs1' u5) (primeReg rd') (fun s => s.readX (primeReg rs1') + unsignedImm 8 u5) 8
      (fun v => v) 2#32 ∧
    LoadsPortF (.cFldsp rd u6) rd (fun s => s.readX 2#5 + unsignedImm 8 u6) 8 (fun v => v) 2#32) ∧
  (∀ (rs1 rs2 : Reg) (imm : BitVec 12) (rs1' rs2' : PrimeReg) (u5 : BitVec 5) (u6 : BitVec 6),
    let ea : State → Word := fun s => s.readX rs1 + signedImm 1 imm
    StoresPort (.sb rs1 rs2 imm) ea 1 (fun s => (s.readX rs2).setWidth 64) 4#32 ∧
    StoresPort (.sh rs1 rs2 imm) ea 2 (fun s => (s.readX rs2).setWidth 64) 4#32 ∧
    StoresPort (.sw rs1 rs2 imm) ea 4 (fun s => (s.readX rs2).setWidth 64) 4#32 ∧
    StoresPort (.cSw rs1' rs2' u5) (fun s => s.readX (primeReg rs1') + unsignedImm 4 u5) 4
      (fun s => (s.readX (primeReg rs2')).setWidth 64) 2#32 ∧
    StoresPort (.cSwsp rs2 u6) (fun s => s.readX 2#5 + unsignedImm 4 u6) 4
      (fun s => (s.readX rs2).setWidth 64) 2#32 ∧
    StoresPort (.fsw rs1 rs2 imm) ea 4 (fun s => ((s.readF rs2).extractLsb' 0 32).setWidth 64) 4#32 ∧
    StoresPort (.cFsw rs1' rs2' u5) (fun s => s.readX (primeReg rs1') + unsignedImm 4 u5) 4
      (fun s => ((s.readF (primeReg rs2')).extractLsb' 0 32).setWidth 64) 2#32 ∧
    StoresPort (.cFswsp rs2 u6) (fun s => s.readX 2#5 + unsignedImm 4 u6) 4
      (fun s => ((s.readF rs2).extractLsb' 0 32).setWidth 64) 2#32 ∧
    StoresPort (.fsd rs1 rs2 imm) ea 8 (fun s => s.readF rs2) 4#32 ∧
    StoresPort (.cFsd rs1' rs2' u5) (fun s => s.readX (primeReg rs1') + unsignedImm 8 u5) 8
      (fun s => s.readF (primeReg rs2')) 2#32 ∧
    StoresPort (.cFsdsp rs2 u6) (fun s => s.readX 2#5 + unsignedImm 8 u6) 8 (fun s => s.readF rs2) 2#32) ∧
  (∀ (rd rs1 rs2 : Reg) (aq rl : Bool),
    AmoPort (.amoswapW rd rs1 rs2 aq rl) rd rs1 rs2 (fun _ b => b) ∧
    AmoPort (.amoaddW rd rs1 rs2 aq rl) rd rs1 rs2 (fun a b => BitVec.ofNat 32 (a.toNat + b.toNat)) ∧
    AmoPort (.amoxorW rd rs1 rs2 aq rl) rd rs1 rs2 (fun a b => a ^^^ b) ∧
    AmoPort (.amoandW rd rs1 rs2 aq rl) rd rs1 rs2 (fun a b => a &&& b) ∧
    AmoPort (.amoorW rd rs1 rs2 aq rl) rd rs1 rs2 (fun a b => a ||| b) ∧
    AmoPort (.amominW rd rs1 rs2 aq rl) rd rs1 rs2 (fun a b => BitVec.ofInt 32 (min a.toInt b.toInt)) ∧
    AmoPort (.amomaxW rd rs1 rs2 aq rl) rd rs1 rs2 (fun a b => BitVec.ofInt 32 (max a.toInt b.toInt)) ∧
    AmoPort (.amominuW rd rs1 rs2 aq rl) rd rs1 rs2 (fun a b => BitVec.ofNat 32 (min a.toNat b.toNat)) ∧
    AmoPort (.amomaxuW rd rs1 rs2 aq rl) rd rs1 rs2 (fun a b => BitVec.ofNat 32 (max a.toNat b.toNat))) ∧
  (∀ (s : State) (pa : Word) (n : Nat) (v : DWord),
    (s.holdsBytes pa n → ∃ b, physRead pa n s = some (b, s)) ∧
    (s.holds .ram pa n → n ≤ 8 → ∃ t, physWrite pa n v s = some t) ∧
    (s.holds .rom pa n → physWrite pa n v s = some s) ∧
    (s.holds .other pa n ∨ s.holds .debugPrint pa n → n ≤ 8 → ∃ b, b.toNat < 2 ^ (8 * n) ∧
      physRead pa n s = some (b, { s with io := .read pa n b :: s.io, draws := s.draws + 1 })) ∧
    (s.holds .other pa n → n ≤ 8 → physWrite pa n v s =
      some { s with io := .write pa n (BitVec.ofNat 64 (v.toNat % 2 ^ (8 * n))) :: s.io }) ∧
    (s.holds .debugPrint pa n →
      physWrite pa n v s = some { s with io := .printed (v.extractLsb' 0 8) :: s.io }))

/-! ## System instructions, traps and returns -/

/-- FENCE and FENCE.I: their words, whatever the fields hold, only advance `pc` (R260, R261). -/
def Obligations.FencesDoNothing : Prop :=
  ∀ (cfg : Config) (fm pred succ : BitVec 4) (imm : BitVec 12) (rs1 rd : Reg), cfg.wf = true →
    decodeRaw cfg (.word (fm ++ pred ++ succ ++ rs1 ++ 0#3 ++ rd ++ 0x0F#7)) = some (.fence fm pred succ rs1 rd) ∧
    decodeRaw cfg (.word (imm ++ rs1 ++ 1#3 ++ rd ++ 0x0F#7)) = some (.fenceI imm rs1 rd) ∧
    SetsPc (.fence fm pred succ rs1 rd) (fun s => s.hart.pc + 4#32) ∧
    SetsPc (.fenceI imm rs1 rd) (fun s => s.hart.pc + 4#32)

/-- ECALL: its word, and the environment call of the current mode, with trap value 0 and `epc` its own address; from M it is
handled in M (R262). -/
def Obligations.EcallTraps : Prop :=
  ∀ (cfg : Config) (s : State), cfg.wf = true →
    decodeRaw cfg (.word 0x00000073#32) = some .ecall ∧
    ∃ t, exec .ecall s = .next t ∧
      Raised s t (match s.hart.priv with | .u => .envCallFromU | .s => .envCallFromS | .m => .envCallFromM) 0#32 ∧
      (s.hart.priv = .m → t.hart.priv = .m)

/-- Break: the hart halts and no register, CSR, memory byte or counter and not `pc` changes; EBREAK and C.EBREAK unless
`EBREAK_TRAPS`, the Break hint always; a halted hart's next step is none (R263, R266, R267, R431; the stop of the VM is log entry 11). -/
def Obligations.BreakHalts : Prop :=
  ∀ (s : State),
    (∃ t, exec .breakHint s = .next t ∧ t.hart.halted = true ∧
      { t with hart := { t.hart with halted := s.hart.halted } } = s ∧ t.endStep = t ∧
      (s.others = [] → step t = .fault .stopped)) ∧
    (s.cfg.ebreakTraps = false → ∀ i ∈ [Instr.ebreak, .cEbreak], exec i s = exec .breakHint s) ∧
    (s.cfg.ebreakTraps = true → ∀ i ∈ [Instr.ebreak, .cEbreak], ∃ t, exec i s = .next t ∧
      Raised s t .breakpoint s.hart.pc)

/-- The target level of a trap (R451). -/
def Obligations.TrapTarget : Prop :=
  ∀ (h : Hart) (c : Cause),
    let dm := if c.isInterrupt then h.mideleg.getLsbD c.code else h.medeleg.getLsbD c.code
    let ds := if c.isInterrupt then h.sideleg.getLsbD c.code else h.sedeleg.getLsbD c.code
    let tgt : Priv := if dm = false then .m else if ds = false then .s else .u
    h.trapTarget c = (if c.isInterrupt = false ∧ tgt.level < h.priv.level then h.priv else tgt) ∧
    (c.isInterrupt = false → h.priv.level ≤ (h.trapTarget c).level)

/-- The state written on entry, and that nothing else is written (R450, R452, R453). -/
def Obligations.TrapEntryState : Prop :=
  ∀ (s : State) (c : Cause) (epc tval : Word),
    TrapEntry s (takeTrap c epc tval s) (s.hart.trapTarget c) c epc tval

/-- MRET, SRET and URET: their words, and where their mode allows them `Return(L)` (R264, R265, R268, R455). MRET below M and
SRET in U raise IllegalInstruction with their own words. The mode after MRET is stated for `MPP ≠ 2`, which every state that
meets `State.Inv` has (R34). -/
def Obligations.TrapReturns : Prop :=
  ∀ (cfg : Config) (s : State), cfg.wf = true →
    decodeRaw cfg (.word 0x30200073#32) = some .mret ∧ decodeRaw cfg (.word 0x10200073#32) = some .sret ∧
    decodeRaw cfg (.word 0x00200073#32) = some .uret ∧
    (s.hart.priv = .m → ∃ t, exec .mret s = .next t ∧ TrapReturned s t .m) ∧
    (s.hart.priv ≠ .u → ∃ t, exec .sret s = .next t ∧ TrapReturned s t .s) ∧
    (∃ t, exec .uret s = .next t ∧ TrapReturned s t .u) ∧
    (s.hart.priv ≠ .m → ∃ t, exec .mret s = .next t ∧ Raised s t .illegalInstruction 0x30200073#32) ∧
    (s.hart.priv = .u → ∃ t, exec .sret s = .next t ∧ Raised s t .illegalInstruction 0x10200073#32)

/-! ## CSRs -/

/-- The six CSR instructions: the checks, the old value to `x[rd]`, the write (R281, R283-R288). -/
def Obligations.CsrInstructions : Prop :=
  ∀ (rd rs1 : Reg) (uimm : BitVec 5) (n : CsrNum),
    AccessesCsr (.csrrw rd rs1 n) (n ++ rs1 ++ 1#3 ++ rd ++ 0x73#7) rd n true (fun s _ => s.readX rs1) ∧
    AccessesCsr (.csrrs rd rs1 n) (n ++ rs1 ++ 2#3 ++ rd ++ 0x73#7) rd n (rs1 != 0#5)
      (fun s t => t ||| s.readX rs1) ∧
    AccessesCsr (.csrrc rd rs1 n) (n ++ rs1 ++ 3#3 ++ rd ++ 0x73#7) rd n (rs1 != 0#5)
      (fun s t => t &&& ~~~(s.readX rs1)) ∧
    AccessesCsr (.csrrwi rd uimm n) (n ++ uimm ++ 5#3 ++ rd ++ 0x73#7) rd n true (fun _ _ => unsignedImm 1 uimm) ∧
    AccessesCsr (.csrrsi rd uimm n) (n ++ uimm ++ 6#3 ++ rd ++ 0x73#7) rd n (uimm != 0#5)
      (fun _ t => t ||| unsignedImm 1 uimm) ∧
    AccessesCsr (.csrrci rd uimm n) (n ++ uimm ++ 7#3 ++ rd ++ 0x73#7) rd n (uimm != 0#5)
      (fun _ t => t &&& ~~~(unsignedImm 1 uimm))

/-- The plain CSRs: those R33 lists as plain storage and every number R33 does not list read back the last value written
and leave every other number as it was (R31, R39, R40, R45, R46, R48-R50, R52). -/
def Obligations.PlainCsrs : Prop :=
  ∀ (s : State) (n m : CsrNum) (v : Word),
    (n ∈ [0x005#12, 0x040#12, 0x042#12, 0x043#12, 0x102#12, 0x103#12, 0x105#12, 0x106#12, 0x140#12, 0x142#12,
        0x143#12, 0x180#12, 0x302#12, 0x303#12, 0x305#12, 0x306#12, 0x340#12, 0x342#12, 0x343#12] ∨
      csrName n = none) →
    sparseWf 0#32 s.hart.csrs = true →
    csrRead (csrWrite n v s) n = v ∧ (m ≠ n → csrRead (csrWrite n v s) m = csrRead s m)

/-- `mstatus` and its views: the masked fields, the MPP legalisation, SD on reading; reads of `sstatus` and `ustatus` are
masked, writes go through to `mstatus` under the view's mask (R34, R35, R36). -/
def Obligations.StatusRegisters : Prop :=
  ∀ (s : State) (v : Word) (k : Nat),
    let t := csrWrite 0x300#12 v s
    (k ≠ 11 → k ≠ 12 → t.hart.mstatus.getLsbD k =
      if (0x007E79BB#32 : Word).getLsbD k then v.getLsbD k else s.hart.mstatus.getLsbD k) ∧
    mppField t.hart.mstatus = (if v.extractLsb' 11 2 = 2#2 then 0#2 else v.extractLsb' 11 2) ∧
    { t with hart := { t.hart with mstatus := s.hart.mstatus } } = s ∧
    csrRead s 0x300#12 =
      s.hart.mstatus ||| (if s.hart.mstatus.extractLsb' 13 2 = 3#2 then 0x80000000#32 else 0#32) ∧
    csrRead s 0x100#12 = csrRead s 0x300#12 &&& 0x800DE133#32 ∧
    csrRead s 0x000#12 = csrRead s 0x300#12 &&& 0x00000011#32 ∧
    (∃ m, csrWrite 0x100#12 v s = { s with hart := { s.hart with mstatus := m } } ∧
      ∀ k, m.getLsbD k = if (0x000C6133#32 : Word).getLsbD k then v.getLsbD k else s.hart.mstatus.getLsbD k) ∧
    (∃ m, csrWrite 0x000#12 v s = { s with hart := { s.hart with mstatus := m } } ∧
      ∀ k, m.getLsbD k = if (0x00000011#32 : Word).getLsbD k then v.getLsbD k else s.hart.mstatus.getLsbD k)

/-- The interrupt registers: `mip` is assembled from the stored bits, the CLINT bit, the timer comparison and the line;
`mie`, `mip` and their views are written under their masks (R41-R44). -/
def Obligations.InterruptRegisters : Prop :=
  ∀ (s : State) (v : Word) (k : Nat),
    ((csrRead s 0x344#12).getLsbD k = if k = 3 then s.hart.msip
      else if k = 7 then decide (s.hart.mtimecmp.toNat ≤ s.mtime.toNat)
      else if k = 11 then s.hart.meip
      else ((0x333#32 : Word).getLsbD k && s.hart.mipSw.getLsbD k)) ∧
    csrRead s 0x144#12 = csrRead s 0x344#12 &&& 0x333#32 ∧ csrRead s 0x044#12 = csrRead s 0x344#12 &&& 0x111#32 ∧
    csrRead s 0x104#12 = csrRead s 0x304#12 &&& 0x333#32 ∧ csrRead s 0x004#12 = csrRead s 0x304#12 &&& 0x111#32 ∧
    csrWrite 0x304#12 v s = { s with hart := { s.hart with mie := v &&& 0xBBB#32 } } ∧
    csrWrite 0x344#12 v s = { s with hart := { s.hart with mipSw := v &&& 0x333#32 } } ∧
    (csrWrite 0x104#12 v s).hart.mie.getLsbD k =
      (if (0x333#32 : Word).getLsbD k then v.getLsbD k else s.hart.mie.getLsbD k) ∧
    (csrWrite 0x004#12 v s).hart.mie.getLsbD k =
      (if (0x111#32 : Word).getLsbD k then v.getLsbD k else s.hart.mie.getLsbD k) ∧
    (csrWrite 0x144#12 v s).hart.mipSw.getLsbD k =
      (if (0x103#32 : Word).getLsbD k then v.getLsbD k else s.hart.mipSw.getLsbD k) ∧
    (csrWrite 0x044#12 v s).hart.mipSw.getLsbD k =
      (if k = 0 then v.getLsbD k else s.hart.mipSw.getLsbD k)

/-- `xepc` drops bit 0; `fcsr`, `fflags` and `frm` are one register; the counters are one counter, written by halves; `misa`
and the identification numbers are constants (R37, R38, R47, R51, R60-R62). -/
def Obligations.SpecialCsrs : Prop :=
  ∀ (s : State) (v : Word),
    (∀ n ∈ [0x041#12, 0x141#12, 0x341#12], csrRead (csrWrite n v s) n = BitVec.ofNat 32 (v.toNat / 2 * 2)) ∧
    csrRead (csrWrite 0x003#12 v s) 0x003#12 = BitVec.ofNat 32 (v.toNat % 256) ∧
    csrRead s 0x003#12 = (csrRead s 0x002#12 <<< 5) + csrRead s 0x001#12 ∧
    csrRead (csrWrite 0x001#12 v s) 0x001#12 = BitVec.ofNat 32 (v.toNat % 32) ∧
    csrRead (csrWrite 0x001#12 v s) 0x002#12 = csrRead s 0x002#12 ∧
    csrRead (csrWrite 0x002#12 v s) 0x002#12 = BitVec.ofNat 32 (v.toNat % 8) ∧
    csrRead (csrWrite 0x002#12 v s) 0x001#12 = csrRead s 0x001#12 ∧
    (∀ n ∈ [0xB00#12, 0xB02#12, 0xC00#12, 0xC02#12], csrRead s n = s.hart.cycle.extractLsb' 0 32) ∧
    (∀ n ∈ [0xB80#12, 0xB82#12, 0xC80#12, 0xC82#12], csrRead s n = s.hart.cycle.extractLsb' 32 32) ∧
    csrRead s 0xC01#12 = s.mtime.extractLsb' 0 32 ∧ csrRead s 0xC81#12 = s.mtime.extractLsb' 32 32 ∧
    (∀ n ∈ [0xB00#12, 0xB02#12],
      csrWrite n v s = { s with hart := { s.hart with cycle := s.hart.cycle.extractLsb' 32 32 ++ v } }) ∧
    (∀ n ∈ [0xB80#12, 0xB82#12],
      csrWrite n v s = { s with hart := { s.hart with cycle := v ++ s.hart.cycle.extractLsb' 0 32 } }) ∧
    csrRead s 0x301#12 = s.cfg.misaValue ∧ csrWrite 0x301#12 v s = s ∧
    csrRead s 0xF11#12 = 0#32 ∧ csrRead s 0xF12#12 = 0#32 ∧ csrRead s 0xF13#12 = 0#32 ∧
    csrRead s 0xF14#12 = BitVec.ofNat 32 s.hart.hartid

/-- A `satp` write stores all 32 bits and leaves the translation cache alone, unless `TLB_FLUSH_ON_SATP_WRITE`: then all nine
entries become invalid (R50, R104). -/
def Obligations.SatpWrites : Prop :=
  ∀ (s : State) (v : Word),
    let t := csrWrite 0x180#12 v s
    t.hart.satp = v ∧
    (s.cfg.tlbFlushOnSatpWrite = false → t.hart.tlb = s.hart.tlb) ∧
    (s.cfg.tlbFlushOnSatpWrite = true → ∀ p a, (t.hart.tlb.get p a).valid = false) ∧
    { t with hart := { t.hart with satp := s.hart.satp, tlb := s.hart.tlb } } = s

/-! ## Floating point -/

/-- The arithmetic instructions: the rounding mode, the boxed result, nothing else; a reserved mode is illegal (R340, R342,
R350-R354, R364, R365). What the results are is stated by the statements on `f32Add` and its kin. -/
def Obligations.FloatArithmetic : Prop :=
  ∀ (frd r1 r2 : Reg) (rm : Rm),
    RoundsF (.faddS frd r1 r2 rm) rm frd (0x00#7 ++ r2 ++ r1 ++ rm.toBits ++ frd ++ 0x53#7)
      (fun mode s => f32Add mode ((s.readF r1).extractLsb' 0 32) ((s.readF r2).extractLsb' 0 32)) ∧
    RoundsF (.fsubS frd r1 r2 rm) rm frd (0x04#7 ++ r2 ++ r1 ++ rm.toBits ++ frd ++ 0x53#7)
      (fun mode s => f32Add mode ((s.readF r1).extractLsb' 0 32)
        ((s.readF r2).extractLsb' 0 32 ^^^ 0x80000000#32)) ∧
    RoundsF (.fmulS frd r1 r2 rm) rm frd (0x08#7 ++ r2 ++ r1 ++ rm.toBits ++ frd ++ 0x53#7)
      (fun mode s => f32Mul mode ((s.readF r1).extractLsb' 0 32) ((s.readF r2).extractLsb' 0 32)) ∧
    RoundsF (.fdivS frd r1 r2 rm) rm frd (0x0C#7 ++ r2 ++ r1 ++ rm.toBits ++ frd ++ 0x53#7)
      (fun mode s => f32Div mode ((s.readF r1).extractLsb' 0 32) ((s.readF r2).extractLsb' 0 32)) ∧
    RoundsF (.fsqrtS frd r1 rm) rm frd (0x2C#7 ++ 0#5 ++ r1 ++ rm.toBits ++ frd ++ 0x53#7)
      (fun mode s => f32Sqrt mode ((s.readF r1).extractLsb' 0 32)) ∧
    RoundsF (.fcvtSW frd r1 rm) rm frd (0x68#7 ++ 0#5 ++ r1 ++ rm.toBits ++ frd ++ 0x53#7)
      (fun mode s => cvtSW mode (s.readX r1)) ∧
    RoundsF (.fcvtSWu frd r1 rm) rm frd (0x68#7 ++ 1#5 ++ r1 ++ rm.toBits ++ frd ++ 0x53#7)
      (fun mode s => cvtSWu mode (s.readX r1)) ∧
    RoundsX (.fcvtWS frd r1 rm) rm frd (0x60#7 ++ 0#5 ++ r1 ++ rm.toBits ++ frd ++ 0x53#7)
      (fun mode s => cvtWS mode ((s.readF r1).extractLsb' 0 32)) ∧
    RoundsX (.fcvtWuS frd r1 rm) rm frd (0x60#7 ++ 1#5 ++ r1 ++ rm.toBits ++ frd ++ 0x53#7)
      (fun mode s => cvtWuS mode ((s.readF r1).extractLsb' 0 32))

/-- The rounding mode of an instruction: the static field, or for DYN `fcsr.frm` when `FRM_WIRED`, RNE when not; `frm` of 5,
6 or 7 selects none (R62, R342). -/
def Obligations.RoundingModeChoice : Prop :=
  ∀ (s : State),
    s.roundingMode .rne = some .rne ∧ s.roundingMode .rtz = some .rtz ∧ s.roundingMode .rdn = some .rdn ∧
    s.roundingMode .rup = some .rup ∧ s.roundingMode .rmm = some .rmm ∧
    (s.cfg.frmWired = false → s.roundingMode .dyn = some .rne) ∧
    (s.cfg.frmWired = true →
      (s.hart.fcsr.toNat / 32 = 0 → s.roundingMode .dyn = some .rne) ∧
      (s.hart.fcsr.toNat / 32 = 1 → s.roundingMode .dyn = some .rtz) ∧
      (s.hart.fcsr.toNat / 32 = 2 → s.roundingMode .dyn = some .rdn) ∧
      (s.hart.fcsr.toNat / 32 = 3 → s.roundingMode .dyn = some .rup) ∧
      (s.hart.fcsr.toNat / 32 = 4 → s.roundingMode .dyn = some .rmm) ∧
      (5 ≤ s.hart.fcsr.toNat / 32 → s.roundingMode .dyn = none)) ∧
    ∀ b : BitVec 3, (Rm.ofBits b = none ↔ b = 5#3 ∨ b = 6#3)

/-- NaN results are canonical: a NaN operand gives `0x7FC00000` whatever its payload and sign (R344). The invalid operations
and exact special cases (R345). -/
def Obligations.FloatSpecialCases : Prop :=
  ∀ (mode : RoundingMode) (x y : Word) (n n2 : Bool),
    (isNan x = true ↔ x.toNat % 2 ^ 31 > 0x7F800000) ∧
    (isNan x = true ∨ isNan y = true →
      f32Add mode x y = 0x7FC00000#32 ∧ f32Sub mode x y = 0x7FC00000#32 ∧ f32Mul mode x y = 0x7FC00000#32 ∧
      f32Div mode x y = 0x7FC00000#32) ∧
    (isNan x = true → f32Sqrt mode x = 0x7FC00000#32) ∧
    (isFinite x = true →
      let inf : Bool → Word := fun b => if b then 0xFF800000#32 else 0x7F800000#32
      let zero : Bool → Word := fun b => if b then 0x80000000#32 else 0x00000000#32
      let sx := x.getLsbD 31
      (f32Add mode (inf false) (inf true) = 0x7FC00000#32 ∧ f32Add mode (inf true) (inf false) = 0x7FC00000#32 ∧
        f32Add mode (inf n) (inf n) = inf n ∧ f32Add mode (inf n) x = inf n ∧ f32Add mode x (inf n) = inf n) ∧
      (f32Mul mode (inf n) (zero n2) = 0x7FC00000#32 ∧ f32Mul mode (zero n2) (inf n) = 0x7FC00000#32 ∧
        f32Mul mode (inf n) (inf n2) = inf (n ^^ n2) ∧
        (x.toNat % 2 ^ 31 ≠ 0 → f32Mul mode (inf n) x = inf (n ^^ sx) ∧ f32Mul mode x (inf n) = inf (sx ^^ n)) ∧
        f32Mul mode (zero n) x = zero (n ^^ sx) ∧ f32Mul mode x (zero n) = zero (sx ^^ n)) ∧
      (f32Div mode (zero n) (zero n2) = 0x7FC00000#32 ∧ f32Div mode (inf n) (inf n2) = 0x7FC00000#32 ∧
        f32Div mode (inf n) x = inf (n ^^ sx) ∧ f32Div mode x (inf n) = zero (sx ^^ n) ∧
        (x.toNat % 2 ^ 31 ≠ 0 → f32Div mode x (zero n) = inf (sx ^^ n) ∧ f32Div mode (zero n) x = zero (n ^^ sx))) ∧
      (f32Add mode (zero n) (zero n) = zero n ∧
        f32Add mode (zero false) (zero true) = zero (mode == .rdn) ∧
        f32Add mode (zero true) (zero false) = zero (mode == .rdn) ∧
        (x.toNat % 2 ^ 31 ≠ 0 → f32Add mode x (x ^^^ 0x80000000#32) = zero (mode == .rdn))) ∧
      (f32Sqrt mode (zero n) = zero n ∧ f32Sqrt mode (inf false) = inf false ∧
        f32Sqrt mode (inf true) = 0x7FC00000#32 ∧
        (x.toNat % 2 ^ 31 ≠ 0 → sx = true → f32Sqrt mode x = 0x7FC00000#32)))

/-- Sums, products, quotients, square roots and integers are correctly rounded: one of the two neighbours of the exact real,
as the mode selects, or the mode's overflow result (R341, R343); the integer zero gives +0 (R364, R365). -/
def Obligations.CorrectRounding : Prop :=
  ∀ (mode : RoundingMode) (a b : Word),
    (isFinite a = true → isFinite b = true →
      RoundsReal mode (realValue a + realValue b) (f32Add mode a b) ∧
      RoundsReal mode (realValue a - realValue b) (f32Sub mode a b) ∧
      RoundsReal mode (realValue a * realValue b) (f32Mul mode a b) ∧
      (realValue b ≠ 0 → RoundsReal mode (realValue a / realValue b) (f32Div mode a b))) ∧
    (isFinite a = true → 0 < realValue a → IsRounded mode false (Real.sqrt (realValue a)) (f32Sqrt mode a)) ∧
    RoundsReal mode a.toInt (cvtSW mode a) ∧
    RoundsReal mode a.toNat (cvtSWu mode a) ∧
    cvtSW mode 0#32 = 0#32 ∧ cvtSWu mode 0#32 = 0#32

/-- FCVT.W.S and FCVT.WU.S: the real rounded to an integer by the mode, then saturated; NaN and the infinities (R360,
R361). -/
def Obligations.FloatToInteger : Prop :=
  ∀ (mode : RoundingMode) (a : Word),
    (isNan a = true → cvtWS mode a = 0x7FFFFFFF#32 ∧ cvtWuS mode a = 0xFFFFFFFF#32) ∧
    cvtWS mode 0x7F800000#32 = 0x7FFFFFFF#32 ∧ cvtWS mode 0xFF800000#32 = 0x80000000#32 ∧
    cvtWuS mode 0x7F800000#32 = 0xFFFFFFFF#32 ∧ cvtWuS mode 0xFF800000#32 = 0#32 ∧
    (isFinite a = true → ∃ n : ℤ, RoundsToInt mode (realValue a) n ∧
      cvtWS mode a = BitVec.ofInt 32 (max (-2 ^ 31) (min (2 ^ 31 - 1) n)) ∧
      cvtWuS mode a = BitVec.ofInt 32 (max 0 (min (2 ^ 32 - 1) n)))

/-- Sign injection, moves, classification: the bits, the destination, nothing else (R355-R357, R362, R363, R366); minimum,
maximum and comparisons write what `f32Min` and its kin give (R358, R359, R367-R369). -/
def Obligations.FloatMovesAndCompares : Prop :=
  ∀ (rd r1 r2 : Reg),
    WritesF (.fsgnjS rd r1 r2) rd
      (fun s => (s.readF r2).extractLsb' 31 1 ++ (s.readF r1).extractLsb' 0 31) ∧
    WritesF (.fsgnjnS rd r1 r2) rd
      (fun s => ~~~((s.readF r2).extractLsb' 31 1) ++ (s.readF r1).extractLsb' 0 31) ∧
    WritesF (.fsgnjxS rd r1 r2) rd
      (fun s => ((s.readF r1).extractLsb' 31 1 ^^^ (s.readF r2).extractLsb' 31 1) ++ (s.readF r1).extractLsb' 0 31) ∧
    WritesF (.fmvWX rd r1) rd (fun s => s.readX r1) ∧
    WritesX (.fmvXW rd r1) rd (fun s => (s.readF r1).extractLsb' 0 32) 4#32 ∧
    WritesX (.fclassS rd r1) rd (fun s =>
      let w := (s.readF r1).extractLsb' 0 32
      let mag := w.toNat % 2 ^ 31
      let neg := w.getLsbD 31
      if 0x7FC00000 ≤ mag then 0x200#32 else if 0x7F800000 < mag then 0x100#32
      else if mag = 0x7F800000 then (if neg then 0x001#32 else 0x080#32)
      else if 0x00800000 ≤ mag then (if neg then 0x002#32 else 0x040#32)
      else if 0 < mag then (if neg then 0x004#32 else 0x020#32)
      else if neg then 0x008#32 else 0x010#32) 4#32 ∧
    WritesF (.fminS rd r1 r2) rd
      (fun s => f32Min ((s.readF r1).extractLsb' 0 32) ((s.readF r2).extractLsb' 0 32)) ∧
    WritesF (.fmaxS rd r1 r2) rd
      (fun s => f32Max ((s.readF r1).extractLsb' 0 32) ((s.readF r2).extractLsb' 0 32)) ∧
    WritesX (.feqS rd r1 r2) rd
      (fun s => truth (f32Eq ((s.readF r1).extractLsb' 0 32) ((s.readF r2).extractLsb' 0 32) = true)) 4#32 ∧
    WritesX (.fltS rd r1 r2) rd
      (fun s => truth (f32Lt ((s.readF r1).extractLsb' 0 32) ((s.readF r2).extractLsb' 0 32) = true)) 4#32 ∧
    WritesX (.fleS rd r1 r2) rd
      (fun s => truth (f32Le ((s.readF r1).extractLsb' 0 32) ((s.readF r2).extractLsb' 0 32) = true)) 4#32

/-- Comparisons and minimum and maximum agree with the real values, -0 below +0 for the two selections, false or the other
operand for a NaN, each infinity at its end against every operand that is no NaN, and an operand equal to itself and its own
minimum and maximum (R358, R359, R367-R369). -/
def Obligations.FloatOrder : Prop :=
  ∀ (a b : Word),
    (isNan a = true ∨ isNan b = true → f32Eq a b = false ∧ f32Lt a b = false ∧ f32Le a b = false) ∧
    (isNan a = true → isNan b = true → f32Min a b = 0x7FC00000#32 ∧ f32Max a b = 0x7FC00000#32) ∧
    (isNan a = true → isNan b = false → f32Min a b = b ∧ f32Max a b = b ∧ f32Min b a = b ∧ f32Max b a = b) ∧
    (isFinite a = true → isFinite b = true →
      (f32Eq a b = true ↔ realValue a = realValue b) ∧ (f32Lt a b = true ↔ realValue a < realValue b) ∧
      (f32Le a b = true ↔ realValue a ≤ realValue b) ∧
      (realValue a < realValue b → f32Min a b = a ∧ f32Max a b = b ∧ f32Min b a = a ∧ f32Max b a = b)) ∧
    f32Min 0x00000000#32 0x80000000#32 = 0x80000000#32 ∧ f32Min 0x80000000#32 0x00000000#32 = 0x80000000#32 ∧
    f32Max 0x00000000#32 0x80000000#32 = 0x00000000#32 ∧ f32Max 0x80000000#32 0x00000000#32 = 0x00000000#32 ∧
    (isNan a = false → f32Eq a a = true ∧ f32Lt a a = false ∧ f32Le a a = true ∧ f32Min a a = a ∧ f32Max a a = a) ∧
    (isNan a = false → a ≠ 0x7F800000#32 →
      f32Eq a 0x7F800000#32 = false ∧ f32Eq 0x7F800000#32 a = false ∧
      f32Lt a 0x7F800000#32 = true ∧ f32Lt 0x7F800000#32 a = false ∧
      f32Le a 0x7F800000#32 = true ∧ f32Le 0x7F800000#32 a = false ∧
      f32Min a 0x7F800000#32 = a ∧ f32Min 0x7F800000#32 a = a ∧
      f32Max a 0x7F800000#32 = 0x7F800000#32 ∧ f32Max 0x7F800000#32 a = 0x7F800000#32) ∧
    (isNan a = false → a ≠ 0xFF800000#32 →
      f32Eq a 0xFF800000#32 = false ∧ f32Eq 0xFF800000#32 a = false ∧
      f32Lt 0xFF800000#32 a = true ∧ f32Lt a 0xFF800000#32 = false ∧
      f32Le 0xFF800000#32 a = true ∧ f32Le a 0xFF800000#32 = false ∧
      f32Min a 0xFF800000#32 = 0xFF800000#32 ∧ f32Min 0xFF800000#32 a = 0xFF800000#32 ∧
      f32Max a 0xFF800000#32 = a ∧ f32Max 0xFF800000#32 a = a)

/-! ## The machine as a whole -/

/-- No instruction but a CSR instruction changes `fcsr`, so floating-point arithmetic raises no flag (R61, R340); nor the plain
CSR numbers, `satp`, the delegation, enable and counter-enable registers, the stored `mip` bits, the vector and scratch
registers or `cycle`. The other CSRs are those trap entry and returns write, and `time` and `mip`, which follow the clock and
the CLINT. -/
def Obligations.FlagsChangeOnlyByCsrWrite : Prop :=
  ∀ (i : Instr) (s t : State), isCsrInstr i = false → exec i s = .next t →
    t.hart.fcsr = s.hart.fcsr ∧ t.hart.csrs = s.hart.csrs ∧ t.hart.satp = s.hart.satp ∧
    t.hart.medeleg = s.hart.medeleg ∧ t.hart.mideleg = s.hart.mideleg ∧ t.hart.sedeleg = s.hart.sedeleg ∧
    t.hart.sideleg = s.hart.sideleg ∧ t.hart.mie = s.hart.mie ∧ t.hart.mipSw = s.hart.mipSw ∧
    t.hart.mcounteren = s.hart.mcounteren ∧ t.hart.scounteren = s.hart.scounteren ∧
    (∀ l, (t.hart.trapRegs l).tvec = (s.hart.trapRegs l).tvec ∧
      (t.hart.trapRegs l).scratch = (s.hart.trapRegs l).scratch) ∧
    t.hart.cycle = s.hart.cycle

/-- The mode changes only by a return, which never raises it, or by an exception, which raises it and saves `pc` (R28,
R458). -/
def Obligations.ModeChanges : Prop :=
  ∀ (i : Instr) (s t : State), s.hart.pc.getLsbD 0 = false → exec i s = .next t → t.hart.priv ≠ s.hart.priv →
    (i ∈ [Instr.mret, .sret, .uret] ∧ t.hart.priv.level < s.hart.priv.level) ∨
    (s.hart.priv.level < t.hart.priv.level ∧ (t.hart.trapRegs t.hart.priv).epc = s.hart.pc)

/-- What U mode cannot touch: an instruction that runs in U mode and stays there leaves the M and S trap registers, `satp`,
the delegation registers, the other levels' enables and status bits, and every CSR number of a higher level (R32, R458). -/
def Obligations.UserModeIsolation : Prop :=
  ∀ (i : Instr) (s t : State), s.hart.priv = .u → exec i s = .next t → t.hart.priv = .u →
    sparseWf 0#32 s.hart.csrs = true →
    t.hart.mtrap = s.hart.mtrap ∧ t.hart.strap = s.hart.strap ∧ t.hart.satp = s.hart.satp ∧
    t.hart.medeleg = s.hart.medeleg ∧ t.hart.mideleg = s.hart.mideleg ∧ t.hart.sedeleg = s.hart.sedeleg ∧
    t.hart.sideleg = s.hart.sideleg ∧ t.hart.mcounteren = s.hart.mcounteren ∧
    t.hart.scounteren = s.hart.scounteren ∧ t.hart.cycle = s.hart.cycle ∧
    (∀ k, k ≠ 0 → k ≠ 4 → t.hart.mstatus.getLsbD k = s.hart.mstatus.getLsbD k) ∧
    (∀ k, (0x111#32 : Word).getLsbD k = false → t.hart.mie.getLsbD k = s.hart.mie.getLsbD k) ∧
    (∀ k, k ≠ 0 → t.hart.mipSw.getLsbD k = s.hart.mipSw.getLsbD k) ∧
    (∀ n : CsrNum, csrName n = none → 1 ≤ n.toNat / 256 % 4 → csrRead t n = csrRead s n)

/-! ## The step -/

/-- A step runs the instruction its fetch decodes, in the state the boundary and the fetch leave, and counts it unless it
broke (R93, R510). Which hart steps and when the clock and the line are sampled are the model's choices (log entries 9 and
10). The last clause reads the instruction from the bytes at `pc`, where the fetch is untranslated. -/
def Obligations.StepRunsDecoded : Prop :=
  ∀ (s s1 : State), s.selectHart = some s1 → s1.environment.interruptTaken = none →
    let u := s1.environment.afterCheck.environment
    (∀ r u1 i, fetchInstr u = .ok r u1 → decodeRaw u1.cfg r = some i →
      ∀ t, exec i u1 = .next t → step s = .next (if t.hart.halted then t else t.countStep)) ∧
    (∀ i rest, (s1.hart.priv = .m ∨ s1.hart.satp.toNat < 2 ^ 31) →
      s1.holdsBytes s1.hart.pc 2 → s1.holdsBytes (s1.hart.pc + 2#32) 2 →
      decode s1.cfg [Memory.read s1.mem s1.hart.pc, Memory.read s1.mem (s1.hart.pc + 1#32),
        Memory.read s1.mem (s1.hart.pc + 2#32), Memory.read s1.mem (s1.hart.pc + 3#32)] = .ok (i, rest) →
      ∀ t, exec i u = .next t → step s = .next (if t.hart.halted then t else t.countStep))

/-- A step whose fetched word is no instruction raises IllegalInstruction with the word as trap value, and one whose fetch
cannot be made raises the fetch's fault; each counts one cycle (R29, R155, R441, R443). The model's choices of
`StepRunsDecoded` stand here too (log entries 9 and 10). -/
def Obligations.StepRaisesFetchFaults : Prop :=
  ∀ (s s1 : State), s.selectHart = some s1 → s1.environment.interruptTaken = none →
    let u := s1.environment.afterCheck.environment
    (∀ r u1, fetchInstr u = .ok r u1 → decodeRaw u1.cfg r = none →
      ∃ t, step s = .next t.countStep ∧
        Raised u1 t .illegalInstruction (match r with | .half h => h.setWidth 32 | .word w => w)) ∧
    (∀ e tv u1, fetchInstr u = .raise e tv u1 → ∃ t, step s = .next t.countStep ∧ Raised u1 t e tv) ∧
    (∀ e tv u1, fetchInstr u = .raise e tv u1 →
      (e = .instructionPageFault ∨ e = .instructionAccessFault) ∧ (tv = u.hart.pc ∨ tv = u.hart.pc + 2#32))

/-- The interrupt a check finds: pending and enabled, deliverable at its target level, and the first such in the order
11, 3, 7, 9, 1, 5, 8, 0, 4. A delivered interrupt is the whole step: trap entry with `epc` the address of the next
instruction and trap value 0, `cycle` unchanged, `since_check` 0; otherwise the step is the instruction's (R470). Which hart
steps and when the clock and the line are sampled are the model's choices (log entries 9 and 10). -/
def Obligations.InterruptDelivery : Prop :=
  (∀ (s : State) (i : Interrupt),
    let ok : Interrupt → Prop := fun j =>
      let tgt := s.hart.trapTarget (.interrupt j)
      ((csrRead s 0x344#12) &&& (csrRead s 0x304#12)).getLsbD j.code = true ∧
      (s.hart.priv.level < tgt.level ∨ (tgt = s.hart.priv ∧ s.hart.mstatus.getLsbD tgt.iePos = true))
    let order : List Nat := [11, 3, 7, 9, 1, 5, 8, 0, 4]
    s.pendingInterrupt = some i ↔ ok i ∧ ∀ j, ok j → order.idxOf i.code ≤ order.idxOf j.code) ∧
  (∀ (s s1 : State), s.selectHart = some s1 →
    (∀ i, s1.environment.interruptTaken = some i → s1.environment.pendingInterrupt = some i ∧
      ∃ t, step s = .next t ∧
        TrapEntry
          { s1.environment with
            hart := { s1.environment.hart with sinceCheck := 0 }
            draws := s1.environment.draws + 1 } t
          (s1.hart.trapTarget (.interrupt i)) (.interrupt i) s1.hart.pc 0#32 ∧
        t.hart.cycle = s1.hart.cycle ∧ t.hart.sinceCheck = 0) ∧
    (s1.environment.interruptTaken = none → step s = instructionStep s1.environment.afterCheck.environment))

/-- Counting. A pending, deliverable interrupt is taken at the first boundary at which `since_check >= IRQ_CHECK_PERIOD`,
whatever the optional checks; `since_check` returns to 0 at a check, whatever it finds, and only there; it and `cycle` grow by one with each instruction
step, completed or trapped (for `cycle`, unless the instruction is a CSR instruction that, in M mode, writes a half of the counter, R51), and both stay on a Break (R29, R471, R472). -/
def Obligations.StepCounting : Prop :=
  ∀ (s : State),
    (s.cfg.irqCheckPeriod ≤ s.hart.sinceCheck → s.checkHappens = true ∧ s.interruptTaken = s.pendingInterrupt) ∧
    s.afterCheck.hart.sinceCheck = (if s.checkHappens then 0 else s.hart.sinceCheck) ∧
    (s.interruptTaken = none → s.pendingInterrupt ≠ none → s.afterCheck.hart.sinceCheck = s.hart.sinceCheck) ∧
    (∀ t, s.hart.halted = false → instructionStep s = .next t →
      (t.hart.halted = true → t.hart.sinceCheck = s.hart.sinceCheck ∧ t.hart.cycle = s.hart.cycle) ∧
      (t.hart.halted = false → t.hart.sinceCheck = s.hart.sinceCheck + 1) ∧
      (t.hart.halted = false →
        (∀ r u i n, fetchInstr s = .ok r u → decodeRaw u.cfg r = some i → csrWritten i = some n →
          n ∈ [0xB00#12, 0xB02#12, 0xB80#12, 0xB82#12] → s.hart.priv ≠ .m) →
        t.hart.cycle = s.hart.cycle + 1#64))

/-- The invariant holds after reset, under every well-formed configuration, and some hart runs. What a well-formed
configuration is beyond R9's ranges is the model's choice (log entry 22). -/
def Obligations.ResetHasInvariant : Prop :=
  State.reset.Inv ∧ ∀ cfg : Config, cfg.wf = true → (State.resetWith cfg).Inv ∧ (State.resetWith cfg).running

/-- The invariant is kept by every step: memory stays canonical, `x0` zero, `pc` and `xepc` even, reserved status bits zero,
MPP legal, the M entries of the translation cache invalid, the lock free, the harts' numbers a permutation of
`0 .. NUM_HARTS - 1`; and no step changes the parameters. -/
def Obligations.InvariantKept : Prop :=
  ∀ (s t : State), s.Inv → step s = .next t → t.Inv ∧ t.cfg = s.cfg

/-- Every instruction answers a next state in every state: none faults, none is refused. A VM with a running hart can step,
and the only stop of a step is that every hart is halted: the name of that stop is the model's (R266, R482; log entry
11). -/
def Obligations.RunningStateSteps : Prop :=
  (∀ (i : Instr) (s : State), ∃ t, exec i s = .next t) ∧
  ∀ (s : State), (s.running → ∃ t, step s = .next t) ∧ (¬ s.running → step s = .fault .stopped)

/-- Reset: the table of R75, for every hart. -/
def Obligations.ResetState : Prop :=
  ∀ (cfg : Config), cfg.wf = true → ∀ h ∈ (State.resetWith cfg).harts,
    h.pc = cfg.resetPc ∧ h.priv = .m ∧ (∀ k : Fin 32, h.x[k] = 0#32) ∧ (∀ k : Fin 32, h.f[k] = 0#64) ∧
    h.cycle = 0#64 ∧ h.mtimecmp = 0#64 ∧ h.mstatus = 0#32 ∧ h.mie = 0#32 ∧ h.mipSw = 0#32 ∧
    h.medeleg = 0#32 ∧ h.mideleg = 0#32 ∧ h.sedeleg = 0#32 ∧ h.sideleg = 0#32 ∧
    (∀ l, h.trapRegs l = { tvec := 0#32, scratch := 0#32, epc := 0#32, cause := 0#32, tval := 0#32 }) ∧
    h.satp = 0#32 ∧ h.fcsr = 0#8 ∧ h.mcounteren = 0#32 ∧ h.scounteren = 0#32 ∧
    (∀ n : CsrNum, csrName n = none → csrRead { State.resetWith cfg with hart := h } n = 0#32) ∧
    (∀ p a, (h.tlb.get p a).valid = false) ∧ h.halted = false ∧ h.sinceCheck = 0 ∧ h.msip = false ∧
    (State.resetWith cfg).amoLock = false ∧
    (State.resetWith cfg).harts.length = cfg.numHarts ∧
    State.reset.hart.pc = 0x20000000#32
end

