-- ==== Sys2Proof/Laws/Memory.lean ====
section
/-! SUPPORT. The sparse tables: reading over writing, the canonical form kept, and equality of equal tables. -/

namespace Sys2Proof.Machine

variable {β : Type} [DecidableEq β]

/-! ## Sparse tables -/

omit [DecidableEq β] in
/-- Below every key of the table, nothing is listed. -/
theorem sparseGet_below (d : β) (k : Nat) (l : List (Nat × β)) (h : ∀ e ∈ l, k < e.1) : sparseGet d k l = d := by
  induction l with
  | nil => rfl
  | cons e t ih =>
    obtain ⟨k', v⟩ := e
    have hk : k < k' := h (k', v) (by simp)
    have : k' ≠ k := by omega
    simp only [sparseGet, this, if_false]
    exact ih fun e he => h e (by simp [he])

theorem sparseWf_cons (d : β) (k : Nat) (v : β) (t : List (Nat × β)) :
    sparseWf d ((k, v) :: t) = true ↔ v ≠ d ∧ (∀ e ∈ t, k < e.1) ∧ sparseWf d t = true := by
  simp [sparseWf, and_assoc]

/-- A key of the table after a write is the written key or an old one. -/
theorem key_of_mem_sparseSet (d : β) (k : Nat) (v : β) (l : List (Nat × β)) (e : Nat × β)
    (h : e ∈ sparseSet d k v l) : e.1 = k ∨ e ∈ l := by
  induction l with
  | nil =>
    unfold sparseSet at h
    split at h
    · simp at h
    · left; simp at h; simp [h]
  | cons a t ih =>
    obtain ⟨k', v'⟩ := a
    unfold sparseSet at h
    split at h
    · split at h
      · exact .inr h
      · rcases List.mem_cons.1 h with rfl | h
        · exact .inl rfl
        · exact .inr h
    · split at h
      · split at h
        · exact .inr (List.mem_cons_of_mem _ h)
        · rcases List.mem_cons.1 h with rfl | h
          · exact .inl rfl
          · exact .inr (List.mem_cons_of_mem _ h)
      · rcases List.mem_cons.1 h with rfl | h
        · exact .inr (by simp)
        · rcases ih h with h | h
          · exact .inl h
          · exact .inr (List.mem_cons_of_mem _ h)

/-- A write keeps the canonical form. -/
theorem sparseWf_sparseSet (d : β) (k : Nat) (v : β) (l : List (Nat × β)) (h : sparseWf d l = true) :
    sparseWf d (sparseSet d k v l) = true := by
  induction l with
  | nil =>
    unfold sparseSet
    split
    · rfl
    · next hv => simp [sparseWf, hv]
  | cons a t ih =>
    obtain ⟨k', v'⟩ := a
    obtain ⟨hv', hlt, ht⟩ := (sparseWf_cons d k' v' t).1 h
    unfold sparseSet
    split
    · next hk =>
      split
      · exact h
      · next hv =>
        refine (sparseWf_cons d k v _).2 ⟨hv, fun e he => ?_, h⟩
        rcases List.mem_cons.1 he with rfl | he
        · exact hk
        · exact lt_trans hk (hlt e he)
    · split
      · next hk =>
        split
        · exact ht
        · next hv => exact (sparseWf_cons d k v t).2 ⟨hv, fun e he => hk ▸ hlt e he, ht⟩
      · next h1 h2 =>
        refine (sparseWf_cons d k' v' _).2 ⟨hv', fun e he => ?_, ih ht⟩
        rcases key_of_mem_sparseSet d k v t e he with he | he
        · omega
        · exact hlt e he

/-- Reading over a write. -/
theorem sparseGet_sparseSet (d : β) (k : Nat) (v : β) (l : List (Nat × β)) (h : sparseWf d l = true) (q : Nat) :
    sparseGet d q (sparseSet d k v l) = if q = k then v else sparseGet d q l := by
  induction l with
  | nil =>
    unfold sparseSet
    split
    · next hv => simp [sparseGet, hv]
    · by_cases hq : q = k
      · simp [sparseGet, hq]
      · simp [sparseGet, hq, Ne.symm hq]
  | cons a t ih =>
    obtain ⟨k', v'⟩ := a
    obtain ⟨hv', hlt, ht⟩ := (sparseWf_cons d k' v' t).1 h
    unfold sparseSet
    split
    · next hk =>
      have below : sparseGet d k ((k', v') :: t) = d :=
        sparseGet_below d k _ fun e he => by
          rcases List.mem_cons.1 he with rfl | he
          · exact hk
          · exact lt_trans hk (hlt e he)
      split
      · next hv =>
        by_cases hq : q = k
        · subst hq; simp [below, hv]
        · simp [hq]
      · by_cases hq : q = k
        · simp [sparseGet, hq]
        · conv_lhs => unfold sparseGet
          simp [hq, Ne.symm hq]
    · split
      · next hk =>
        subst hk
        split
        · next hv =>
          by_cases hq : q = k
          · subst hq; simp [sparseGet_below d q t hlt, hv]
          · conv_rhs => unfold sparseGet
            simp [hq, Ne.symm hq]
        · by_cases hq : q = k
          · simp [sparseGet, hq]
          · simp [sparseGet, hq, Ne.symm hq]
      · next h1 h2 =>
        by_cases hq : k' = q
        · subst hq; simp [sparseGet, Ne.symm h2]
        · simp only [sparseGet, hq, if_false]
          exact ih ht

/-- Two canonical tables that read the same are the same. -/
theorem sparse_ext (d : β) (l m : List (Nat × β)) (hl : sparseWf d l = true) (hm : sparseWf d m = true)
    (h : ∀ k, sparseGet d k l = sparseGet d k m) : l = m := by
  induction l generalizing m with
  | nil =>
    cases m with
    | nil => rfl
    | cons b u =>
      obtain ⟨k, v⟩ := b
      have := h k
      simp [sparseGet] at this
      exact absurd this.symm ((sparseWf_cons d k v u).1 hm).1
  | cons a t ih =>
    obtain ⟨k, v⟩ := a
    obtain ⟨hv, hlt, ht⟩ := (sparseWf_cons d k v t).1 hl
    cases m with
    | nil =>
      have := h k
      simp [sparseGet] at this
      exact absurd this hv
    | cons b u =>
      obtain ⟨k', v'⟩ := b
      obtain ⟨hv', hlt', hu⟩ := (sparseWf_cons d k' v' u).1 hm
      have hk : k = k' := by
        rcases Nat.lt_trichotomy k k' with hlt1 | rfl | hlt1
        · have := h k
          rw [sparseGet_below d k ((k', v') :: u) (fun e he => by
            rcases List.mem_cons.1 he with rfl | he
            · exact hlt1
            · exact lt_trans hlt1 (hlt' e he))] at this
          simp [sparseGet] at this
          exact absurd this hv
        · rfl
        · have := h k'
          rw [sparseGet_below d k' ((k, v) :: t) (fun e he => by
            rcases List.mem_cons.1 he with rfl | he
            · exact hlt1
            · exact lt_trans hlt1 (hlt e he))] at this
          simp [sparseGet] at this
          exact absurd this.symm hv'
      subst hk
      have hvv : v = v' := by simpa [sparseGet] using h k
      subst hvv
      congr 1
      refine ih u ht hu fun q => ?_
      by_cases hq : k = q
      · subst hq; rw [sparseGet_below d k t hlt, sparseGet_below d k u hlt']
      · simpa [sparseGet, hq] using h q

/-! ## Memory -/

/-- One byte written keeps the canonical form. -/
theorem Memory.wf_write (m : Memory) (a : Word) (b : Byte) (h : Memory.wf m = true) : Memory.wf (Memory.write m a b) = true := by
  simp only [Memory.wf, Bool.and_eq_true, List.all_eq_true, decide_eq_true_eq] at h ⊢
  refine ⟨sparseWf_sparseSet _ _ _ _ h.1, fun c hc => ?_⟩
  rcases key_of_mem_sparseSet _ _ _ _ c hc with hk | hk
  · rw [hk]; exact a.isLt
  · exact h.2 c hk

/-- `n` bytes written keep the canonical form. -/
theorem Memory.wf_writeN (m : Memory) (a : Word) (n : Nat) (v : DWord) (h : Memory.wf m = true) :
    Memory.wf (Memory.writeN m a n v) = true := by
  induction n generalizing m a v with
  | zero => exact h
  | succ n ih => exact ih _ _ _ (Memory.wf_write m a _ h)

/-- Reading a byte over writing one. -/
theorem Memory.read_write (m : Memory) (a : Word) (b : Byte) (q : Word) (h : Memory.wf m = true) :
    Memory.read (Memory.write m a b) q = if q = a then b else Memory.read m q := by
  have hw : sparseWf Memory.unlisted m = true := by
    simp only [Memory.wf, Bool.and_eq_true] at h; exact h.1
  unfold Memory.read Memory.write
  rw [sparseGet_sparseSet _ _ _ _ hw]
  by_cases e : q = a
  · subst e; simp
  · have : ¬ q.toNat = a.toNat := fun hh => e (BitVec.eq_of_toNat_eq hh)
    simp [e, this]

/-- Two canonical memories with the same bytes are equal. -/
theorem Memory.ext_read (l m : Memory) (hl : Memory.wf l = true) (hm : Memory.wf m = true)
    (h : ∀ a : Word, Memory.read l a = Memory.read m a) : l = m := by
  simp only [Memory.wf, Bool.and_eq_true, List.all_eq_true, decide_eq_true_eq] at hl hm
  refine sparse_ext Memory.unlisted l m hl.1 hm.1 fun k => ?_
  by_cases hk : k < 2 ^ 32
  · have := h (BitVec.ofNat 32 k)
    unfold Memory.read at this
    rwa [BitVec.toNat_ofNat, Nat.mod_eq_of_lt hk] at this
  · have big : ∀ n : Memory, (∀ c ∈ n, c.1 < 2 ^ 32) → sparseGet Memory.unlisted k n = Memory.unlisted := by
      intro n hn
      induction n with
      | nil => rfl
      | cons c t ih =>
        obtain ⟨k', v⟩ := c
        have h1 : k' < 2 ^ 32 := hn (k', v) (by simp)
        have h2 : k' ≠ k := by omega
        simp only [sparseGet, h2, if_false]
        exact ih fun c hc => hn c (by simp [hc])
    rw [big l hl.2, big m hm.2]

/-- Reading a byte over writing `n` that do not wrap around the address space (R81). -/
theorem Memory.read_writeN (m : Memory) (a : Word) (n : Nat) (v : DWord) (q : Word) (h : Memory.wf m = true)
    (hn : a.toNat + n ≤ 2 ^ 32) :
    Memory.read (Memory.writeN m a n v) q =
      if a.toNat ≤ q.toNat ∧ q.toNat < a.toNat + n then v.extractLsb' (8 * (q.toNat - a.toNat)) 8
      else Memory.read m q := by
  induction n generalizing m a v with
  | zero =>
    have : ¬ (a.toNat ≤ q.toNat ∧ q.toNat < a.toNat + 0) := by omega
    simp only [this, if_false]; rfl
  | succ n ih =>
    cases n with
    | zero =>
      show Memory.read (Memory.write m a _) q = _
      rw [Memory.read_write _ _ _ _ h]
      by_cases e : q = a
      · subst e
        simp only [le_refl, Nat.lt_add_one, and_self, Nat.zero_add, if_true, Nat.sub_self, Nat.mul_zero]
        ext i hi; simp
      · have : ¬ (a.toNat ≤ q.toNat ∧ q.toNat < a.toNat + (0 + 1)) := fun hh => e (BitVec.eq_of_toNat_eq (by omega))
        simp only [e, this, if_false]
    | succ n =>
      have ha : (a + 1#32).toNat = a.toNat + 1 := by
        rw [BitVec.toNat_add]; simp; omega
      have hw := Memory.wf_write m a (v.setWidth 8) h
      show Memory.read (Memory.writeN (Memory.write m a (v.setWidth 8)) (a + 1#32) (n + 1) (v >>> 8)) q = _
      rw [ih _ _ _ hw (by omega), ha, Memory.read_write _ _ _ _ h]
      by_cases e : q = a
      · subst e
        have h1 : ¬ (q.toNat + 1 ≤ q.toNat ∧ q.toNat < q.toNat + 1 + (n + 1)) := by omega
        have h2 : (q.toNat ≤ q.toNat ∧ q.toNat < q.toNat + (n + 1 + 1)) := by omega
        rw [if_neg h1, if_pos rfl, if_pos h2]
        ext i hi; simp
      · have hne : q.toNat ≠ a.toNat := fun hh => e (BitVec.eq_of_toNat_eq hh)
        by_cases h1 : a.toNat + 1 ≤ q.toNat ∧ q.toNat < a.toNat + 1 + (n + 1)
        · have h2 : a.toNat ≤ q.toNat ∧ q.toNat < a.toNat + (n + 1 + 1) := by omega
          rw [if_pos h1, if_pos h2]
          have h3 : 8 * (q.toNat - a.toNat) = 8 + 8 * (q.toNat - (a.toNat + 1)) := by omega
          rw [h3]
          ext i hi; simp [Nat.add_assoc]
        · have h2 : ¬ (a.toNat ≤ q.toNat ∧ q.toNat < a.toNat + (n + 1 + 1)) := by omega
          rw [if_neg h1, if_neg h2, if_neg e]

end Sys2Proof.Machine
end

