-- ==== Sys2Proof/Laws/State.lean ====
section
/-! SUPPORT. One lemma for each field and each update of the state. Fields of `State` are named `<update>_<field>`,
fields of its hart `<update>_<field>_hart`. -/

namespace Sys2Proof.Machine

/-! ## `setX` (R21) -/

@[simp] theorem State.setX_cfg (s : State) (r : Reg) (v : Word) : (s.setX r v).cfg = s.cfg := by
  unfold State.setX; split <;> rfl
@[simp] theorem State.setX_others (s : State) (r : Reg) (v : Word) : (s.setX r v).others = s.others := by
  unfold State.setX; split <;> rfl
@[simp] theorem State.setX_mem (s : State) (r : Reg) (v : Word) : (s.setX r v).mem = s.mem := by
  unfold State.setX; split <;> rfl
@[simp] theorem State.setX_mtime (s : State) (r : Reg) (v : Word) : (s.setX r v).mtime = s.mtime := by
  unfold State.setX; split <;> rfl
@[simp] theorem State.setX_amoLock (s : State) (r : Reg) (v : Word) : (s.setX r v).amoLock = s.amoLock := by
  unfold State.setX; split <;> rfl
@[simp] theorem State.setX_io (s : State) (r : Reg) (v : Word) : (s.setX r v).io = s.io := by
  unfold State.setX; split <;> rfl
@[simp] theorem State.setX_draws (s : State) (r : Reg) (v : Word) : (s.setX r v).draws = s.draws := by
  unfold State.setX; split <;> rfl
@[simp] theorem State.setX_hartid_hart (s : State) (r : Reg) (v : Word) : (s.setX r v).hart.hartid = s.hart.hartid := by
  unfold State.setX; split <;> rfl
@[simp] theorem State.setX_f_hart (s : State) (r : Reg) (v : Word) : (s.setX r v).hart.f = s.hart.f := by
  unfold State.setX; split <;> rfl
@[simp] theorem State.setX_pc_hart (s : State) (r : Reg) (v : Word) : (s.setX r v).hart.pc = s.hart.pc := by
  unfold State.setX; split <;> rfl
@[simp] theorem State.setX_priv_hart (s : State) (r : Reg) (v : Word) : (s.setX r v).hart.priv = s.hart.priv := by
  unfold State.setX; split <;> rfl
@[simp] theorem State.setX_cycle_hart (s : State) (r : Reg) (v : Word) : (s.setX r v).hart.cycle = s.hart.cycle := by
  unfold State.setX; split <;> rfl
@[simp] theorem State.setX_mtimecmp_hart (s : State) (r : Reg) (v : Word) : (s.setX r v).hart.mtimecmp = s.hart.mtimecmp := by
  unfold State.setX; split <;> rfl
@[simp] theorem State.setX_mstatus_hart (s : State) (r : Reg) (v : Word) : (s.setX r v).hart.mstatus = s.hart.mstatus := by
  unfold State.setX; split <;> rfl
@[simp] theorem State.setX_mie_hart (s : State) (r : Reg) (v : Word) : (s.setX r v).hart.mie = s.hart.mie := by
  unfold State.setX; split <;> rfl
@[simp] theorem State.setX_mipSw_hart (s : State) (r : Reg) (v : Word) : (s.setX r v).hart.mipSw = s.hart.mipSw := by
  unfold State.setX; split <;> rfl
@[simp] theorem State.setX_medeleg_hart (s : State) (r : Reg) (v : Word) : (s.setX r v).hart.medeleg = s.hart.medeleg := by
  unfold State.setX; split <;> rfl
@[simp] theorem State.setX_mideleg_hart (s : State) (r : Reg) (v : Word) : (s.setX r v).hart.mideleg = s.hart.mideleg := by
  unfold State.setX; split <;> rfl
@[simp] theorem State.setX_sedeleg_hart (s : State) (r : Reg) (v : Word) : (s.setX r v).hart.sedeleg = s.hart.sedeleg := by
  unfold State.setX; split <;> rfl
@[simp] theorem State.setX_sideleg_hart (s : State) (r : Reg) (v : Word) : (s.setX r v).hart.sideleg = s.hart.sideleg := by
  unfold State.setX; split <;> rfl
@[simp] theorem State.setX_mtrap_hart (s : State) (r : Reg) (v : Word) : (s.setX r v).hart.mtrap = s.hart.mtrap := by
  unfold State.setX; split <;> rfl
@[simp] theorem State.setX_strap_hart (s : State) (r : Reg) (v : Word) : (s.setX r v).hart.strap = s.hart.strap := by
  unfold State.setX; split <;> rfl
@[simp] theorem State.setX_utrap_hart (s : State) (r : Reg) (v : Word) : (s.setX r v).hart.utrap = s.hart.utrap := by
  unfold State.setX; split <;> rfl
@[simp] theorem State.setX_mcounteren_hart (s : State) (r : Reg) (v : Word) : (s.setX r v).hart.mcounteren = s.hart.mcounteren := by
  unfold State.setX; split <;> rfl
@[simp] theorem State.setX_scounteren_hart (s : State) (r : Reg) (v : Word) : (s.setX r v).hart.scounteren = s.hart.scounteren := by
  unfold State.setX; split <;> rfl
@[simp] theorem State.setX_satp_hart (s : State) (r : Reg) (v : Word) : (s.setX r v).hart.satp = s.hart.satp := by
  unfold State.setX; split <;> rfl
@[simp] theorem State.setX_fcsr_hart (s : State) (r : Reg) (v : Word) : (s.setX r v).hart.fcsr = s.hart.fcsr := by
  unfold State.setX; split <;> rfl
@[simp] theorem State.setX_csrs_hart (s : State) (r : Reg) (v : Word) : (s.setX r v).hart.csrs = s.hart.csrs := by
  unfold State.setX; split <;> rfl
@[simp] theorem State.setX_tlb_hart (s : State) (r : Reg) (v : Word) : (s.setX r v).hart.tlb = s.hart.tlb := by
  unfold State.setX; split <;> rfl
@[simp] theorem State.setX_halted_hart (s : State) (r : Reg) (v : Word) : (s.setX r v).hart.halted = s.hart.halted := by
  unfold State.setX; split <;> rfl
@[simp] theorem State.setX_sinceCheck_hart (s : State) (r : Reg) (v : Word) : (s.setX r v).hart.sinceCheck = s.hart.sinceCheck := by
  unfold State.setX; split <;> rfl
@[simp] theorem State.setX_msip_hart (s : State) (r : Reg) (v : Word) : (s.setX r v).hart.msip = s.hart.msip := by
  unfold State.setX; split <;> rfl
@[simp] theorem State.setX_meip_hart (s : State) (r : Reg) (v : Word) : (s.setX r v).hart.meip = s.hart.meip := by
  unfold State.setX; split <;> rfl

/-! ## `setF` (R25) -/

@[simp] theorem State.setF_cfg (s : State) (r : Reg) (v : DWord) : (s.setF r v).cfg = s.cfg := rfl
@[simp] theorem State.setF_others (s : State) (r : Reg) (v : DWord) : (s.setF r v).others = s.others := rfl
@[simp] theorem State.setF_mem (s : State) (r : Reg) (v : DWord) : (s.setF r v).mem = s.mem := rfl
@[simp] theorem State.setF_mtime (s : State) (r : Reg) (v : DWord) : (s.setF r v).mtime = s.mtime := rfl
@[simp] theorem State.setF_amoLock (s : State) (r : Reg) (v : DWord) : (s.setF r v).amoLock = s.amoLock := rfl
@[simp] theorem State.setF_io (s : State) (r : Reg) (v : DWord) : (s.setF r v).io = s.io := rfl
@[simp] theorem State.setF_draws (s : State) (r : Reg) (v : DWord) : (s.setF r v).draws = s.draws := rfl
@[simp] theorem State.setF_hartid_hart (s : State) (r : Reg) (v : DWord) : (s.setF r v).hart.hartid = s.hart.hartid := rfl
@[simp] theorem State.setF_x_hart (s : State) (r : Reg) (v : DWord) : (s.setF r v).hart.x = s.hart.x := rfl
@[simp] theorem State.setF_pc_hart (s : State) (r : Reg) (v : DWord) : (s.setF r v).hart.pc = s.hart.pc := rfl
@[simp] theorem State.setF_priv_hart (s : State) (r : Reg) (v : DWord) : (s.setF r v).hart.priv = s.hart.priv := rfl
@[simp] theorem State.setF_cycle_hart (s : State) (r : Reg) (v : DWord) : (s.setF r v).hart.cycle = s.hart.cycle := rfl
@[simp] theorem State.setF_mtimecmp_hart (s : State) (r : Reg) (v : DWord) : (s.setF r v).hart.mtimecmp = s.hart.mtimecmp := rfl
@[simp] theorem State.setF_mstatus_hart (s : State) (r : Reg) (v : DWord) : (s.setF r v).hart.mstatus = s.hart.mstatus := rfl
@[simp] theorem State.setF_mie_hart (s : State) (r : Reg) (v : DWord) : (s.setF r v).hart.mie = s.hart.mie := rfl
@[simp] theorem State.setF_mipSw_hart (s : State) (r : Reg) (v : DWord) : (s.setF r v).hart.mipSw = s.hart.mipSw := rfl
@[simp] theorem State.setF_medeleg_hart (s : State) (r : Reg) (v : DWord) : (s.setF r v).hart.medeleg = s.hart.medeleg := rfl
@[simp] theorem State.setF_mideleg_hart (s : State) (r : Reg) (v : DWord) : (s.setF r v).hart.mideleg = s.hart.mideleg := rfl
@[simp] theorem State.setF_sedeleg_hart (s : State) (r : Reg) (v : DWord) : (s.setF r v).hart.sedeleg = s.hart.sedeleg := rfl
@[simp] theorem State.setF_sideleg_hart (s : State) (r : Reg) (v : DWord) : (s.setF r v).hart.sideleg = s.hart.sideleg := rfl
@[simp] theorem State.setF_mtrap_hart (s : State) (r : Reg) (v : DWord) : (s.setF r v).hart.mtrap = s.hart.mtrap := rfl
@[simp] theorem State.setF_strap_hart (s : State) (r : Reg) (v : DWord) : (s.setF r v).hart.strap = s.hart.strap := rfl
@[simp] theorem State.setF_utrap_hart (s : State) (r : Reg) (v : DWord) : (s.setF r v).hart.utrap = s.hart.utrap := rfl
@[simp] theorem State.setF_mcounteren_hart (s : State) (r : Reg) (v : DWord) : (s.setF r v).hart.mcounteren = s.hart.mcounteren := rfl
@[simp] theorem State.setF_scounteren_hart (s : State) (r : Reg) (v : DWord) : (s.setF r v).hart.scounteren = s.hart.scounteren := rfl
@[simp] theorem State.setF_satp_hart (s : State) (r : Reg) (v : DWord) : (s.setF r v).hart.satp = s.hart.satp := rfl
@[simp] theorem State.setF_fcsr_hart (s : State) (r : Reg) (v : DWord) : (s.setF r v).hart.fcsr = s.hart.fcsr := rfl
@[simp] theorem State.setF_csrs_hart (s : State) (r : Reg) (v : DWord) : (s.setF r v).hart.csrs = s.hart.csrs := rfl
@[simp] theorem State.setF_tlb_hart (s : State) (r : Reg) (v : DWord) : (s.setF r v).hart.tlb = s.hart.tlb := rfl
@[simp] theorem State.setF_halted_hart (s : State) (r : Reg) (v : DWord) : (s.setF r v).hart.halted = s.hart.halted := rfl
@[simp] theorem State.setF_sinceCheck_hart (s : State) (r : Reg) (v : DWord) : (s.setF r v).hart.sinceCheck = s.hart.sinceCheck := rfl
@[simp] theorem State.setF_msip_hart (s : State) (r : Reg) (v : DWord) : (s.setF r v).hart.msip = s.hart.msip := rfl
@[simp] theorem State.setF_meip_hart (s : State) (r : Reg) (v : DWord) : (s.setF r v).hart.meip = s.hart.meip := rfl

/-! ## `setPc` (R23) -/

@[simp] theorem State.setPc_cfg (s : State) (v : Word) : (s.setPc v).cfg = s.cfg := rfl
@[simp] theorem State.setPc_others (s : State) (v : Word) : (s.setPc v).others = s.others := rfl
@[simp] theorem State.setPc_mem (s : State) (v : Word) : (s.setPc v).mem = s.mem := rfl
@[simp] theorem State.setPc_mtime (s : State) (v : Word) : (s.setPc v).mtime = s.mtime := rfl
@[simp] theorem State.setPc_amoLock (s : State) (v : Word) : (s.setPc v).amoLock = s.amoLock := rfl
@[simp] theorem State.setPc_io (s : State) (v : Word) : (s.setPc v).io = s.io := rfl
@[simp] theorem State.setPc_draws (s : State) (v : Word) : (s.setPc v).draws = s.draws := rfl
@[simp] theorem State.setPc_hartid_hart (s : State) (v : Word) : (s.setPc v).hart.hartid = s.hart.hartid := rfl
@[simp] theorem State.setPc_x_hart (s : State) (v : Word) : (s.setPc v).hart.x = s.hart.x := rfl
@[simp] theorem State.setPc_f_hart (s : State) (v : Word) : (s.setPc v).hart.f = s.hart.f := rfl
@[simp] theorem State.setPc_priv_hart (s : State) (v : Word) : (s.setPc v).hart.priv = s.hart.priv := rfl
@[simp] theorem State.setPc_cycle_hart (s : State) (v : Word) : (s.setPc v).hart.cycle = s.hart.cycle := rfl
@[simp] theorem State.setPc_mtimecmp_hart (s : State) (v : Word) : (s.setPc v).hart.mtimecmp = s.hart.mtimecmp := rfl
@[simp] theorem State.setPc_mstatus_hart (s : State) (v : Word) : (s.setPc v).hart.mstatus = s.hart.mstatus := rfl
@[simp] theorem State.setPc_mie_hart (s : State) (v : Word) : (s.setPc v).hart.mie = s.hart.mie := rfl
@[simp] theorem State.setPc_mipSw_hart (s : State) (v : Word) : (s.setPc v).hart.mipSw = s.hart.mipSw := rfl
@[simp] theorem State.setPc_medeleg_hart (s : State) (v : Word) : (s.setPc v).hart.medeleg = s.hart.medeleg := rfl
@[simp] theorem State.setPc_mideleg_hart (s : State) (v : Word) : (s.setPc v).hart.mideleg = s.hart.mideleg := rfl
@[simp] theorem State.setPc_sedeleg_hart (s : State) (v : Word) : (s.setPc v).hart.sedeleg = s.hart.sedeleg := rfl
@[simp] theorem State.setPc_sideleg_hart (s : State) (v : Word) : (s.setPc v).hart.sideleg = s.hart.sideleg := rfl
@[simp] theorem State.setPc_mtrap_hart (s : State) (v : Word) : (s.setPc v).hart.mtrap = s.hart.mtrap := rfl
@[simp] theorem State.setPc_strap_hart (s : State) (v : Word) : (s.setPc v).hart.strap = s.hart.strap := rfl
@[simp] theorem State.setPc_utrap_hart (s : State) (v : Word) : (s.setPc v).hart.utrap = s.hart.utrap := rfl
@[simp] theorem State.setPc_mcounteren_hart (s : State) (v : Word) : (s.setPc v).hart.mcounteren = s.hart.mcounteren := rfl
@[simp] theorem State.setPc_scounteren_hart (s : State) (v : Word) : (s.setPc v).hart.scounteren = s.hart.scounteren := rfl
@[simp] theorem State.setPc_satp_hart (s : State) (v : Word) : (s.setPc v).hart.satp = s.hart.satp := rfl
@[simp] theorem State.setPc_fcsr_hart (s : State) (v : Word) : (s.setPc v).hart.fcsr = s.hart.fcsr := rfl
@[simp] theorem State.setPc_csrs_hart (s : State) (v : Word) : (s.setPc v).hart.csrs = s.hart.csrs := rfl
@[simp] theorem State.setPc_tlb_hart (s : State) (v : Word) : (s.setPc v).hart.tlb = s.hart.tlb := rfl
@[simp] theorem State.setPc_halted_hart (s : State) (v : Word) : (s.setPc v).hart.halted = s.hart.halted := rfl
@[simp] theorem State.setPc_sinceCheck_hart (s : State) (v : Word) : (s.setPc v).hart.sinceCheck = s.hart.sinceCheck := rfl
@[simp] theorem State.setPc_msip_hart (s : State) (v : Word) : (s.setPc v).hart.msip = s.hart.msip := rfl
@[simp] theorem State.setPc_meip_hart (s : State) (v : Word) : (s.setPc v).hart.meip = s.hart.meip := rfl
@[simp] theorem State.setPc_pc_hart (s : State) (v : Word) : (s.setPc v).hart.pc = v := rfl

/-! ## `advance` (R24) -/

@[simp] theorem State.advance_cfg (s : State) (n : Word) : (s.advance n).cfg = s.cfg := rfl
@[simp] theorem State.advance_others (s : State) (n : Word) : (s.advance n).others = s.others := rfl
@[simp] theorem State.advance_mem (s : State) (n : Word) : (s.advance n).mem = s.mem := rfl
@[simp] theorem State.advance_mtime (s : State) (n : Word) : (s.advance n).mtime = s.mtime := rfl
@[simp] theorem State.advance_amoLock (s : State) (n : Word) : (s.advance n).amoLock = s.amoLock := rfl
@[simp] theorem State.advance_io (s : State) (n : Word) : (s.advance n).io = s.io := rfl
@[simp] theorem State.advance_draws (s : State) (n : Word) : (s.advance n).draws = s.draws := rfl
@[simp] theorem State.advance_hartid_hart (s : State) (n : Word) : (s.advance n).hart.hartid = s.hart.hartid := rfl
@[simp] theorem State.advance_x_hart (s : State) (n : Word) : (s.advance n).hart.x = s.hart.x := rfl
@[simp] theorem State.advance_f_hart (s : State) (n : Word) : (s.advance n).hart.f = s.hart.f := rfl
@[simp] theorem State.advance_priv_hart (s : State) (n : Word) : (s.advance n).hart.priv = s.hart.priv := rfl
@[simp] theorem State.advance_cycle_hart (s : State) (n : Word) : (s.advance n).hart.cycle = s.hart.cycle := rfl
@[simp] theorem State.advance_mtimecmp_hart (s : State) (n : Word) : (s.advance n).hart.mtimecmp = s.hart.mtimecmp := rfl
@[simp] theorem State.advance_mstatus_hart (s : State) (n : Word) : (s.advance n).hart.mstatus = s.hart.mstatus := rfl
@[simp] theorem State.advance_mie_hart (s : State) (n : Word) : (s.advance n).hart.mie = s.hart.mie := rfl
@[simp] theorem State.advance_mipSw_hart (s : State) (n : Word) : (s.advance n).hart.mipSw = s.hart.mipSw := rfl
@[simp] theorem State.advance_medeleg_hart (s : State) (n : Word) : (s.advance n).hart.medeleg = s.hart.medeleg := rfl
@[simp] theorem State.advance_mideleg_hart (s : State) (n : Word) : (s.advance n).hart.mideleg = s.hart.mideleg := rfl
@[simp] theorem State.advance_sedeleg_hart (s : State) (n : Word) : (s.advance n).hart.sedeleg = s.hart.sedeleg := rfl
@[simp] theorem State.advance_sideleg_hart (s : State) (n : Word) : (s.advance n).hart.sideleg = s.hart.sideleg := rfl
@[simp] theorem State.advance_mtrap_hart (s : State) (n : Word) : (s.advance n).hart.mtrap = s.hart.mtrap := rfl
@[simp] theorem State.advance_strap_hart (s : State) (n : Word) : (s.advance n).hart.strap = s.hart.strap := rfl
@[simp] theorem State.advance_utrap_hart (s : State) (n : Word) : (s.advance n).hart.utrap = s.hart.utrap := rfl
@[simp] theorem State.advance_mcounteren_hart (s : State) (n : Word) : (s.advance n).hart.mcounteren = s.hart.mcounteren := rfl
@[simp] theorem State.advance_scounteren_hart (s : State) (n : Word) : (s.advance n).hart.scounteren = s.hart.scounteren := rfl
@[simp] theorem State.advance_satp_hart (s : State) (n : Word) : (s.advance n).hart.satp = s.hart.satp := rfl
@[simp] theorem State.advance_fcsr_hart (s : State) (n : Word) : (s.advance n).hart.fcsr = s.hart.fcsr := rfl
@[simp] theorem State.advance_csrs_hart (s : State) (n : Word) : (s.advance n).hart.csrs = s.hart.csrs := rfl
@[simp] theorem State.advance_tlb_hart (s : State) (n : Word) : (s.advance n).hart.tlb = s.hart.tlb := rfl
@[simp] theorem State.advance_halted_hart (s : State) (n : Word) : (s.advance n).hart.halted = s.hart.halted := rfl
@[simp] theorem State.advance_sinceCheck_hart (s : State) (n : Word) : (s.advance n).hart.sinceCheck = s.hart.sinceCheck := rfl
@[simp] theorem State.advance_msip_hart (s : State) (n : Word) : (s.advance n).hart.msip = s.hart.msip := rfl
@[simp] theorem State.advance_meip_hart (s : State) (n : Word) : (s.advance n).hart.meip = s.hart.meip := rfl
@[simp] theorem State.advance_pc_hart (s : State) (n : Word) : (s.advance n).hart.pc = s.hart.pc + n := rfl

/-! ## `lockAmo` and `unlockAmo` (R110) -/

@[simp] theorem State.lockAmo_cfg (s : State) : (s.lockAmo).cfg = s.cfg := rfl
@[simp] theorem State.lockAmo_others (s : State) : (s.lockAmo).others = s.others := rfl
@[simp] theorem State.lockAmo_mem (s : State) : (s.lockAmo).mem = s.mem := rfl
@[simp] theorem State.lockAmo_mtime (s : State) : (s.lockAmo).mtime = s.mtime := rfl
@[simp] theorem State.lockAmo_io (s : State) : (s.lockAmo).io = s.io := rfl
@[simp] theorem State.lockAmo_draws (s : State) : (s.lockAmo).draws = s.draws := rfl
@[simp] theorem State.lockAmo_amoLock (s : State) : s.lockAmo.amoLock = true := rfl
@[simp] theorem State.lockAmo_hart (s : State) : s.lockAmo.hart = s.hart := rfl
@[simp] theorem State.unlockAmo_cfg (s : State) : (s.unlockAmo).cfg = s.cfg := rfl
@[simp] theorem State.unlockAmo_others (s : State) : (s.unlockAmo).others = s.others := rfl
@[simp] theorem State.unlockAmo_mem (s : State) : (s.unlockAmo).mem = s.mem := rfl
@[simp] theorem State.unlockAmo_mtime (s : State) : (s.unlockAmo).mtime = s.mtime := rfl
@[simp] theorem State.unlockAmo_io (s : State) : (s.unlockAmo).io = s.io := rfl
@[simp] theorem State.unlockAmo_draws (s : State) : (s.unlockAmo).draws = s.draws := rfl
@[simp] theorem State.unlockAmo_amoLock (s : State) : s.unlockAmo.amoLock = false := rfl
@[simp] theorem State.unlockAmo_hart (s : State) : s.unlockAmo.hart = s.hart := rfl

/-! ## `fillTlb` (R102) -/

@[simp] theorem fillTlb_cfg (a : AccessKind) (va pa : Word) (s : State) : (fillTlb a va pa s).cfg = s.cfg := rfl
@[simp] theorem fillTlb_others (a : AccessKind) (va pa : Word) (s : State) : (fillTlb a va pa s).others = s.others := rfl
@[simp] theorem fillTlb_mem (a : AccessKind) (va pa : Word) (s : State) : (fillTlb a va pa s).mem = s.mem := rfl
@[simp] theorem fillTlb_mtime (a : AccessKind) (va pa : Word) (s : State) : (fillTlb a va pa s).mtime = s.mtime := rfl
@[simp] theorem fillTlb_amoLock (a : AccessKind) (va pa : Word) (s : State) : (fillTlb a va pa s).amoLock = s.amoLock := rfl
@[simp] theorem fillTlb_io (a : AccessKind) (va pa : Word) (s : State) : (fillTlb a va pa s).io = s.io := rfl
@[simp] theorem fillTlb_draws (a : AccessKind) (va pa : Word) (s : State) : (fillTlb a va pa s).draws = s.draws := rfl
@[simp] theorem fillTlb_hartid_hart (a : AccessKind) (va pa : Word) (s : State) : (fillTlb a va pa s).hart.hartid = s.hart.hartid := rfl
@[simp] theorem fillTlb_x_hart (a : AccessKind) (va pa : Word) (s : State) : (fillTlb a va pa s).hart.x = s.hart.x := rfl
@[simp] theorem fillTlb_f_hart (a : AccessKind) (va pa : Word) (s : State) : (fillTlb a va pa s).hart.f = s.hart.f := rfl
@[simp] theorem fillTlb_pc_hart (a : AccessKind) (va pa : Word) (s : State) : (fillTlb a va pa s).hart.pc = s.hart.pc := rfl
@[simp] theorem fillTlb_priv_hart (a : AccessKind) (va pa : Word) (s : State) : (fillTlb a va pa s).hart.priv = s.hart.priv := rfl
@[simp] theorem fillTlb_cycle_hart (a : AccessKind) (va pa : Word) (s : State) : (fillTlb a va pa s).hart.cycle = s.hart.cycle := rfl
@[simp] theorem fillTlb_mtimecmp_hart (a : AccessKind) (va pa : Word) (s : State) : (fillTlb a va pa s).hart.mtimecmp = s.hart.mtimecmp := rfl
@[simp] theorem fillTlb_mstatus_hart (a : AccessKind) (va pa : Word) (s : State) : (fillTlb a va pa s).hart.mstatus = s.hart.mstatus := rfl
@[simp] theorem fillTlb_mie_hart (a : AccessKind) (va pa : Word) (s : State) : (fillTlb a va pa s).hart.mie = s.hart.mie := rfl
@[simp] theorem fillTlb_mipSw_hart (a : AccessKind) (va pa : Word) (s : State) : (fillTlb a va pa s).hart.mipSw = s.hart.mipSw := rfl
@[simp] theorem fillTlb_medeleg_hart (a : AccessKind) (va pa : Word) (s : State) : (fillTlb a va pa s).hart.medeleg = s.hart.medeleg := rfl
@[simp] theorem fillTlb_mideleg_hart (a : AccessKind) (va pa : Word) (s : State) : (fillTlb a va pa s).hart.mideleg = s.hart.mideleg := rfl
@[simp] theorem fillTlb_sedeleg_hart (a : AccessKind) (va pa : Word) (s : State) : (fillTlb a va pa s).hart.sedeleg = s.hart.sedeleg := rfl
@[simp] theorem fillTlb_sideleg_hart (a : AccessKind) (va pa : Word) (s : State) : (fillTlb a va pa s).hart.sideleg = s.hart.sideleg := rfl
@[simp] theorem fillTlb_mtrap_hart (a : AccessKind) (va pa : Word) (s : State) : (fillTlb a va pa s).hart.mtrap = s.hart.mtrap := rfl
@[simp] theorem fillTlb_strap_hart (a : AccessKind) (va pa : Word) (s : State) : (fillTlb a va pa s).hart.strap = s.hart.strap := rfl
@[simp] theorem fillTlb_utrap_hart (a : AccessKind) (va pa : Word) (s : State) : (fillTlb a va pa s).hart.utrap = s.hart.utrap := rfl
@[simp] theorem fillTlb_mcounteren_hart (a : AccessKind) (va pa : Word) (s : State) : (fillTlb a va pa s).hart.mcounteren = s.hart.mcounteren := rfl
@[simp] theorem fillTlb_scounteren_hart (a : AccessKind) (va pa : Word) (s : State) : (fillTlb a va pa s).hart.scounteren = s.hart.scounteren := rfl
@[simp] theorem fillTlb_satp_hart (a : AccessKind) (va pa : Word) (s : State) : (fillTlb a va pa s).hart.satp = s.hart.satp := rfl
@[simp] theorem fillTlb_fcsr_hart (a : AccessKind) (va pa : Word) (s : State) : (fillTlb a va pa s).hart.fcsr = s.hart.fcsr := rfl
@[simp] theorem fillTlb_csrs_hart (a : AccessKind) (va pa : Word) (s : State) : (fillTlb a va pa s).hart.csrs = s.hart.csrs := rfl
@[simp] theorem fillTlb_halted_hart (a : AccessKind) (va pa : Word) (s : State) : (fillTlb a va pa s).hart.halted = s.hart.halted := rfl
@[simp] theorem fillTlb_sinceCheck_hart (a : AccessKind) (va pa : Word) (s : State) : (fillTlb a va pa s).hart.sinceCheck = s.hart.sinceCheck := rfl
@[simp] theorem fillTlb_msip_hart (a : AccessKind) (va pa : Word) (s : State) : (fillTlb a va pa s).hart.msip = s.hart.msip := rfl
@[simp] theorem fillTlb_meip_hart (a : AccessKind) (va pa : Word) (s : State) : (fillTlb a va pa s).hart.meip = s.hart.meip := rfl

/-! ## `haltHart` (R266) -/

@[simp] theorem haltHart_cfg (s : State) : (haltHart s).cfg = s.cfg := rfl
@[simp] theorem haltHart_others (s : State) : (haltHart s).others = s.others := rfl
@[simp] theorem haltHart_mem (s : State) : (haltHart s).mem = s.mem := rfl
@[simp] theorem haltHart_mtime (s : State) : (haltHart s).mtime = s.mtime := rfl
@[simp] theorem haltHart_amoLock (s : State) : (haltHart s).amoLock = s.amoLock := rfl
@[simp] theorem haltHart_io (s : State) : (haltHart s).io = s.io := rfl
@[simp] theorem haltHart_draws (s : State) : (haltHart s).draws = s.draws := rfl
@[simp] theorem haltHart_hartid_hart (s : State) : (haltHart s).hart.hartid = s.hart.hartid := rfl
@[simp] theorem haltHart_x_hart (s : State) : (haltHart s).hart.x = s.hart.x := rfl
@[simp] theorem haltHart_f_hart (s : State) : (haltHart s).hart.f = s.hart.f := rfl
@[simp] theorem haltHart_pc_hart (s : State) : (haltHart s).hart.pc = s.hart.pc := rfl
@[simp] theorem haltHart_priv_hart (s : State) : (haltHart s).hart.priv = s.hart.priv := rfl
@[simp] theorem haltHart_cycle_hart (s : State) : (haltHart s).hart.cycle = s.hart.cycle := rfl
@[simp] theorem haltHart_mtimecmp_hart (s : State) : (haltHart s).hart.mtimecmp = s.hart.mtimecmp := rfl
@[simp] theorem haltHart_mstatus_hart (s : State) : (haltHart s).hart.mstatus = s.hart.mstatus := rfl
@[simp] theorem haltHart_mie_hart (s : State) : (haltHart s).hart.mie = s.hart.mie := rfl
@[simp] theorem haltHart_mipSw_hart (s : State) : (haltHart s).hart.mipSw = s.hart.mipSw := rfl
@[simp] theorem haltHart_medeleg_hart (s : State) : (haltHart s).hart.medeleg = s.hart.medeleg := rfl
@[simp] theorem haltHart_mideleg_hart (s : State) : (haltHart s).hart.mideleg = s.hart.mideleg := rfl
@[simp] theorem haltHart_sedeleg_hart (s : State) : (haltHart s).hart.sedeleg = s.hart.sedeleg := rfl
@[simp] theorem haltHart_sideleg_hart (s : State) : (haltHart s).hart.sideleg = s.hart.sideleg := rfl
@[simp] theorem haltHart_mtrap_hart (s : State) : (haltHart s).hart.mtrap = s.hart.mtrap := rfl
@[simp] theorem haltHart_strap_hart (s : State) : (haltHart s).hart.strap = s.hart.strap := rfl
@[simp] theorem haltHart_utrap_hart (s : State) : (haltHart s).hart.utrap = s.hart.utrap := rfl
@[simp] theorem haltHart_mcounteren_hart (s : State) : (haltHart s).hart.mcounteren = s.hart.mcounteren := rfl
@[simp] theorem haltHart_scounteren_hart (s : State) : (haltHart s).hart.scounteren = s.hart.scounteren := rfl
@[simp] theorem haltHart_satp_hart (s : State) : (haltHart s).hart.satp = s.hart.satp := rfl
@[simp] theorem haltHart_fcsr_hart (s : State) : (haltHart s).hart.fcsr = s.hart.fcsr := rfl
@[simp] theorem haltHart_csrs_hart (s : State) : (haltHart s).hart.csrs = s.hart.csrs := rfl
@[simp] theorem haltHart_tlb_hart (s : State) : (haltHart s).hart.tlb = s.hart.tlb := rfl
@[simp] theorem haltHart_sinceCheck_hart (s : State) : (haltHart s).hart.sinceCheck = s.hart.sinceCheck := rfl
@[simp] theorem haltHart_msip_hart (s : State) : (haltHart s).hart.msip = s.hart.msip := rfl
@[simp] theorem haltHart_meip_hart (s : State) : (haltHart s).hart.meip = s.hart.meip := rfl
@[simp] theorem haltHart_halted_hart (s : State) : (haltHart s).hart.halted = true := rfl

/-! ## `countStep` (R29, R471) -/

@[simp] theorem State.countStep_cfg (s : State) : (s.countStep).cfg = s.cfg := rfl
@[simp] theorem State.countStep_others (s : State) : (s.countStep).others = s.others := rfl
@[simp] theorem State.countStep_mem (s : State) : (s.countStep).mem = s.mem := rfl
@[simp] theorem State.countStep_mtime (s : State) : (s.countStep).mtime = s.mtime := rfl
@[simp] theorem State.countStep_amoLock (s : State) : (s.countStep).amoLock = s.amoLock := rfl
@[simp] theorem State.countStep_io (s : State) : (s.countStep).io = s.io := rfl
@[simp] theorem State.countStep_draws (s : State) : (s.countStep).draws = s.draws := rfl
@[simp] theorem State.countStep_hartid_hart (s : State) : (s.countStep).hart.hartid = s.hart.hartid := rfl
@[simp] theorem State.countStep_x_hart (s : State) : (s.countStep).hart.x = s.hart.x := rfl
@[simp] theorem State.countStep_f_hart (s : State) : (s.countStep).hart.f = s.hart.f := rfl
@[simp] theorem State.countStep_pc_hart (s : State) : (s.countStep).hart.pc = s.hart.pc := rfl
@[simp] theorem State.countStep_priv_hart (s : State) : (s.countStep).hart.priv = s.hart.priv := rfl
@[simp] theorem State.countStep_mtimecmp_hart (s : State) : (s.countStep).hart.mtimecmp = s.hart.mtimecmp := rfl
@[simp] theorem State.countStep_mstatus_hart (s : State) : (s.countStep).hart.mstatus = s.hart.mstatus := rfl
@[simp] theorem State.countStep_mie_hart (s : State) : (s.countStep).hart.mie = s.hart.mie := rfl
@[simp] theorem State.countStep_mipSw_hart (s : State) : (s.countStep).hart.mipSw = s.hart.mipSw := rfl
@[simp] theorem State.countStep_medeleg_hart (s : State) : (s.countStep).hart.medeleg = s.hart.medeleg := rfl
@[simp] theorem State.countStep_mideleg_hart (s : State) : (s.countStep).hart.mideleg = s.hart.mideleg := rfl
@[simp] theorem State.countStep_sedeleg_hart (s : State) : (s.countStep).hart.sedeleg = s.hart.sedeleg := rfl
@[simp] theorem State.countStep_sideleg_hart (s : State) : (s.countStep).hart.sideleg = s.hart.sideleg := rfl
@[simp] theorem State.countStep_mtrap_hart (s : State) : (s.countStep).hart.mtrap = s.hart.mtrap := rfl
@[simp] theorem State.countStep_strap_hart (s : State) : (s.countStep).hart.strap = s.hart.strap := rfl
@[simp] theorem State.countStep_utrap_hart (s : State) : (s.countStep).hart.utrap = s.hart.utrap := rfl
@[simp] theorem State.countStep_mcounteren_hart (s : State) : (s.countStep).hart.mcounteren = s.hart.mcounteren := rfl
@[simp] theorem State.countStep_scounteren_hart (s : State) : (s.countStep).hart.scounteren = s.hart.scounteren := rfl
@[simp] theorem State.countStep_satp_hart (s : State) : (s.countStep).hart.satp = s.hart.satp := rfl
@[simp] theorem State.countStep_fcsr_hart (s : State) : (s.countStep).hart.fcsr = s.hart.fcsr := rfl
@[simp] theorem State.countStep_csrs_hart (s : State) : (s.countStep).hart.csrs = s.hart.csrs := rfl
@[simp] theorem State.countStep_tlb_hart (s : State) : (s.countStep).hart.tlb = s.hart.tlb := rfl
@[simp] theorem State.countStep_halted_hart (s : State) : (s.countStep).hart.halted = s.hart.halted := rfl
@[simp] theorem State.countStep_msip_hart (s : State) : (s.countStep).hart.msip = s.hart.msip := rfl
@[simp] theorem State.countStep_meip_hart (s : State) : (s.countStep).hart.meip = s.hart.meip := rfl
@[simp] theorem State.countStep_cycle_hart (s : State) : s.countStep.hart.cycle = s.hart.cycle + 1#64 := rfl
@[simp] theorem State.countStep_sinceCheck_hart (s : State) : s.countStep.hart.sinceCheck = s.hart.sinceCheck + 1 := rfl

/-! ## `advanceClock` and `sampleLines` (R462, R463) -/

@[simp] theorem State.advanceClock_cfg (s : State) : (s.advanceClock).cfg = s.cfg := rfl
@[simp] theorem State.advanceClock_others (s : State) : (s.advanceClock).others = s.others := rfl
@[simp] theorem State.advanceClock_mem (s : State) : (s.advanceClock).mem = s.mem := rfl
@[simp] theorem State.advanceClock_amoLock (s : State) : (s.advanceClock).amoLock = s.amoLock := rfl
@[simp] theorem State.advanceClock_io (s : State) : (s.advanceClock).io = s.io := rfl
@[simp] theorem State.advanceClock_hart (s : State) : s.advanceClock.hart = s.hart := rfl
@[simp] theorem State.advanceClock_draws (s : State) : s.advanceClock.draws = s.draws + 1 := rfl
@[simp] theorem State.sampleLines_cfg (s : State) : (s.sampleLines).cfg = s.cfg := rfl
@[simp] theorem State.sampleLines_others (s : State) : (s.sampleLines).others = s.others := rfl
@[simp] theorem State.sampleLines_mem (s : State) : (s.sampleLines).mem = s.mem := rfl
@[simp] theorem State.sampleLines_mtime (s : State) : (s.sampleLines).mtime = s.mtime := rfl
@[simp] theorem State.sampleLines_amoLock (s : State) : (s.sampleLines).amoLock = s.amoLock := rfl
@[simp] theorem State.sampleLines_io (s : State) : (s.sampleLines).io = s.io := rfl
@[simp] theorem State.sampleLines_hartid_hart (s : State) : (s.sampleLines).hart.hartid = s.hart.hartid := rfl
@[simp] theorem State.sampleLines_x_hart (s : State) : (s.sampleLines).hart.x = s.hart.x := rfl
@[simp] theorem State.sampleLines_f_hart (s : State) : (s.sampleLines).hart.f = s.hart.f := rfl
@[simp] theorem State.sampleLines_pc_hart (s : State) : (s.sampleLines).hart.pc = s.hart.pc := rfl
@[simp] theorem State.sampleLines_priv_hart (s : State) : (s.sampleLines).hart.priv = s.hart.priv := rfl
@[simp] theorem State.sampleLines_cycle_hart (s : State) : (s.sampleLines).hart.cycle = s.hart.cycle := rfl
@[simp] theorem State.sampleLines_mtimecmp_hart (s : State) : (s.sampleLines).hart.mtimecmp = s.hart.mtimecmp := rfl
@[simp] theorem State.sampleLines_mstatus_hart (s : State) : (s.sampleLines).hart.mstatus = s.hart.mstatus := rfl
@[simp] theorem State.sampleLines_mie_hart (s : State) : (s.sampleLines).hart.mie = s.hart.mie := rfl
@[simp] theorem State.sampleLines_mipSw_hart (s : State) : (s.sampleLines).hart.mipSw = s.hart.mipSw := rfl
@[simp] theorem State.sampleLines_medeleg_hart (s : State) : (s.sampleLines).hart.medeleg = s.hart.medeleg := rfl
@[simp] theorem State.sampleLines_mideleg_hart (s : State) : (s.sampleLines).hart.mideleg = s.hart.mideleg := rfl
@[simp] theorem State.sampleLines_sedeleg_hart (s : State) : (s.sampleLines).hart.sedeleg = s.hart.sedeleg := rfl
@[simp] theorem State.sampleLines_sideleg_hart (s : State) : (s.sampleLines).hart.sideleg = s.hart.sideleg := rfl
@[simp] theorem State.sampleLines_mtrap_hart (s : State) : (s.sampleLines).hart.mtrap = s.hart.mtrap := rfl
@[simp] theorem State.sampleLines_strap_hart (s : State) : (s.sampleLines).hart.strap = s.hart.strap := rfl
@[simp] theorem State.sampleLines_utrap_hart (s : State) : (s.sampleLines).hart.utrap = s.hart.utrap := rfl
@[simp] theorem State.sampleLines_mcounteren_hart (s : State) : (s.sampleLines).hart.mcounteren = s.hart.mcounteren := rfl
@[simp] theorem State.sampleLines_scounteren_hart (s : State) : (s.sampleLines).hart.scounteren = s.hart.scounteren := rfl
@[simp] theorem State.sampleLines_satp_hart (s : State) : (s.sampleLines).hart.satp = s.hart.satp := rfl
@[simp] theorem State.sampleLines_fcsr_hart (s : State) : (s.sampleLines).hart.fcsr = s.hart.fcsr := rfl
@[simp] theorem State.sampleLines_csrs_hart (s : State) : (s.sampleLines).hart.csrs = s.hart.csrs := rfl
@[simp] theorem State.sampleLines_tlb_hart (s : State) : (s.sampleLines).hart.tlb = s.hart.tlb := rfl
@[simp] theorem State.sampleLines_halted_hart (s : State) : (s.sampleLines).hart.halted = s.hart.halted := rfl
@[simp] theorem State.sampleLines_sinceCheck_hart (s : State) : (s.sampleLines).hart.sinceCheck = s.hart.sinceCheck := rfl
@[simp] theorem State.sampleLines_msip_hart (s : State) : (s.sampleLines).hart.msip = s.hart.msip := rfl
@[simp] theorem State.sampleLines_draws (s : State) : s.sampleLines.draws = s.draws + 1 := rfl

/-! ## `environment` -/

@[simp] theorem State.environment_cfg (s : State) : (s.environment).cfg = s.cfg := rfl
@[simp] theorem State.environment_others (s : State) : (s.environment).others = s.others := rfl
@[simp] theorem State.environment_mem (s : State) : (s.environment).mem = s.mem := rfl
@[simp] theorem State.environment_amoLock (s : State) : (s.environment).amoLock = s.amoLock := rfl
@[simp] theorem State.environment_io (s : State) : (s.environment).io = s.io := rfl
@[simp] theorem State.environment_hartid_hart (s : State) : (s.environment).hart.hartid = s.hart.hartid := rfl
@[simp] theorem State.environment_x_hart (s : State) : (s.environment).hart.x = s.hart.x := rfl
@[simp] theorem State.environment_f_hart (s : State) : (s.environment).hart.f = s.hart.f := rfl
@[simp] theorem State.environment_pc_hart (s : State) : (s.environment).hart.pc = s.hart.pc := rfl
@[simp] theorem State.environment_priv_hart (s : State) : (s.environment).hart.priv = s.hart.priv := rfl
@[simp] theorem State.environment_cycle_hart (s : State) : (s.environment).hart.cycle = s.hart.cycle := rfl
@[simp] theorem State.environment_mtimecmp_hart (s : State) : (s.environment).hart.mtimecmp = s.hart.mtimecmp := rfl
@[simp] theorem State.environment_mstatus_hart (s : State) : (s.environment).hart.mstatus = s.hart.mstatus := rfl
@[simp] theorem State.environment_mie_hart (s : State) : (s.environment).hart.mie = s.hart.mie := rfl
@[simp] theorem State.environment_mipSw_hart (s : State) : (s.environment).hart.mipSw = s.hart.mipSw := rfl
@[simp] theorem State.environment_medeleg_hart (s : State) : (s.environment).hart.medeleg = s.hart.medeleg := rfl
@[simp] theorem State.environment_mideleg_hart (s : State) : (s.environment).hart.mideleg = s.hart.mideleg := rfl
@[simp] theorem State.environment_sedeleg_hart (s : State) : (s.environment).hart.sedeleg = s.hart.sedeleg := rfl
@[simp] theorem State.environment_sideleg_hart (s : State) : (s.environment).hart.sideleg = s.hart.sideleg := rfl
@[simp] theorem State.environment_mtrap_hart (s : State) : (s.environment).hart.mtrap = s.hart.mtrap := rfl
@[simp] theorem State.environment_strap_hart (s : State) : (s.environment).hart.strap = s.hart.strap := rfl
@[simp] theorem State.environment_utrap_hart (s : State) : (s.environment).hart.utrap = s.hart.utrap := rfl
@[simp] theorem State.environment_mcounteren_hart (s : State) : (s.environment).hart.mcounteren = s.hart.mcounteren := rfl
@[simp] theorem State.environment_scounteren_hart (s : State) : (s.environment).hart.scounteren = s.hart.scounteren := rfl
@[simp] theorem State.environment_satp_hart (s : State) : (s.environment).hart.satp = s.hart.satp := rfl
@[simp] theorem State.environment_fcsr_hart (s : State) : (s.environment).hart.fcsr = s.hart.fcsr := rfl
@[simp] theorem State.environment_csrs_hart (s : State) : (s.environment).hart.csrs = s.hart.csrs := rfl
@[simp] theorem State.environment_tlb_hart (s : State) : (s.environment).hart.tlb = s.hart.tlb := rfl
@[simp] theorem State.environment_halted_hart (s : State) : (s.environment).hart.halted = s.hart.halted := rfl
@[simp] theorem State.environment_sinceCheck_hart (s : State) : (s.environment).hart.sinceCheck = s.hart.sinceCheck := rfl
@[simp] theorem State.environment_msip_hart (s : State) : (s.environment).hart.msip = s.hart.msip := rfl
@[simp] theorem State.environment_draws (s : State) : s.environment.draws = s.draws + 2 := rfl

/-! ## `afterCheck` (R471) -/

@[simp] theorem State.afterCheck_cfg (s : State) : (s.afterCheck).cfg = s.cfg := rfl
@[simp] theorem State.afterCheck_others (s : State) : (s.afterCheck).others = s.others := rfl
@[simp] theorem State.afterCheck_mem (s : State) : (s.afterCheck).mem = s.mem := rfl
@[simp] theorem State.afterCheck_mtime (s : State) : (s.afterCheck).mtime = s.mtime := rfl
@[simp] theorem State.afterCheck_amoLock (s : State) : (s.afterCheck).amoLock = s.amoLock := rfl
@[simp] theorem State.afterCheck_io (s : State) : (s.afterCheck).io = s.io := rfl
@[simp] theorem State.afterCheck_hartid_hart (s : State) : (s.afterCheck).hart.hartid = s.hart.hartid := rfl
@[simp] theorem State.afterCheck_x_hart (s : State) : (s.afterCheck).hart.x = s.hart.x := rfl
@[simp] theorem State.afterCheck_f_hart (s : State) : (s.afterCheck).hart.f = s.hart.f := rfl
@[simp] theorem State.afterCheck_pc_hart (s : State) : (s.afterCheck).hart.pc = s.hart.pc := rfl
@[simp] theorem State.afterCheck_priv_hart (s : State) : (s.afterCheck).hart.priv = s.hart.priv := rfl
@[simp] theorem State.afterCheck_cycle_hart (s : State) : (s.afterCheck).hart.cycle = s.hart.cycle := rfl
@[simp] theorem State.afterCheck_mtimecmp_hart (s : State) : (s.afterCheck).hart.mtimecmp = s.hart.mtimecmp := rfl
@[simp] theorem State.afterCheck_mstatus_hart (s : State) : (s.afterCheck).hart.mstatus = s.hart.mstatus := rfl
@[simp] theorem State.afterCheck_mie_hart (s : State) : (s.afterCheck).hart.mie = s.hart.mie := rfl
@[simp] theorem State.afterCheck_mipSw_hart (s : State) : (s.afterCheck).hart.mipSw = s.hart.mipSw := rfl
@[simp] theorem State.afterCheck_medeleg_hart (s : State) : (s.afterCheck).hart.medeleg = s.hart.medeleg := rfl
@[simp] theorem State.afterCheck_mideleg_hart (s : State) : (s.afterCheck).hart.mideleg = s.hart.mideleg := rfl
@[simp] theorem State.afterCheck_sedeleg_hart (s : State) : (s.afterCheck).hart.sedeleg = s.hart.sedeleg := rfl
@[simp] theorem State.afterCheck_sideleg_hart (s : State) : (s.afterCheck).hart.sideleg = s.hart.sideleg := rfl
@[simp] theorem State.afterCheck_mtrap_hart (s : State) : (s.afterCheck).hart.mtrap = s.hart.mtrap := rfl
@[simp] theorem State.afterCheck_strap_hart (s : State) : (s.afterCheck).hart.strap = s.hart.strap := rfl
@[simp] theorem State.afterCheck_utrap_hart (s : State) : (s.afterCheck).hart.utrap = s.hart.utrap := rfl
@[simp] theorem State.afterCheck_mcounteren_hart (s : State) : (s.afterCheck).hart.mcounteren = s.hart.mcounteren := rfl
@[simp] theorem State.afterCheck_scounteren_hart (s : State) : (s.afterCheck).hart.scounteren = s.hart.scounteren := rfl
@[simp] theorem State.afterCheck_satp_hart (s : State) : (s.afterCheck).hart.satp = s.hart.satp := rfl
@[simp] theorem State.afterCheck_fcsr_hart (s : State) : (s.afterCheck).hart.fcsr = s.hart.fcsr := rfl
@[simp] theorem State.afterCheck_csrs_hart (s : State) : (s.afterCheck).hart.csrs = s.hart.csrs := rfl
@[simp] theorem State.afterCheck_tlb_hart (s : State) : (s.afterCheck).hart.tlb = s.hart.tlb := rfl
@[simp] theorem State.afterCheck_halted_hart (s : State) : (s.afterCheck).hart.halted = s.hart.halted := rfl
@[simp] theorem State.afterCheck_msip_hart (s : State) : (s.afterCheck).hart.msip = s.hart.msip := rfl
@[simp] theorem State.afterCheck_meip_hart (s : State) : (s.afterCheck).hart.meip = s.hart.meip := rfl
@[simp] theorem State.afterCheck_draws (s : State) : s.afterCheck.draws = s.draws + 1 := rfl

/-! ## `setTrapRegs` -/

@[simp] theorem Hart.setTrapRegs_hartid (h : Hart) (l : Priv) (t : TrapRegs) : (h.setTrapRegs l t).hartid = h.hartid := by
  cases l <;> rfl
@[simp] theorem Hart.setTrapRegs_x (h : Hart) (l : Priv) (t : TrapRegs) : (h.setTrapRegs l t).x = h.x := by
  cases l <;> rfl
@[simp] theorem Hart.setTrapRegs_f (h : Hart) (l : Priv) (t : TrapRegs) : (h.setTrapRegs l t).f = h.f := by
  cases l <;> rfl
@[simp] theorem Hart.setTrapRegs_pc (h : Hart) (l : Priv) (t : TrapRegs) : (h.setTrapRegs l t).pc = h.pc := by
  cases l <;> rfl
@[simp] theorem Hart.setTrapRegs_priv (h : Hart) (l : Priv) (t : TrapRegs) : (h.setTrapRegs l t).priv = h.priv := by
  cases l <;> rfl
@[simp] theorem Hart.setTrapRegs_cycle (h : Hart) (l : Priv) (t : TrapRegs) : (h.setTrapRegs l t).cycle = h.cycle := by
  cases l <;> rfl
@[simp] theorem Hart.setTrapRegs_mtimecmp (h : Hart) (l : Priv) (t : TrapRegs) : (h.setTrapRegs l t).mtimecmp = h.mtimecmp := by
  cases l <;> rfl
@[simp] theorem Hart.setTrapRegs_mstatus (h : Hart) (l : Priv) (t : TrapRegs) : (h.setTrapRegs l t).mstatus = h.mstatus := by
  cases l <;> rfl
@[simp] theorem Hart.setTrapRegs_mie (h : Hart) (l : Priv) (t : TrapRegs) : (h.setTrapRegs l t).mie = h.mie := by
  cases l <;> rfl
@[simp] theorem Hart.setTrapRegs_mipSw (h : Hart) (l : Priv) (t : TrapRegs) : (h.setTrapRegs l t).mipSw = h.mipSw := by
  cases l <;> rfl
@[simp] theorem Hart.setTrapRegs_medeleg (h : Hart) (l : Priv) (t : TrapRegs) : (h.setTrapRegs l t).medeleg = h.medeleg := by
  cases l <;> rfl
@[simp] theorem Hart.setTrapRegs_mideleg (h : Hart) (l : Priv) (t : TrapRegs) : (h.setTrapRegs l t).mideleg = h.mideleg := by
  cases l <;> rfl
@[simp] theorem Hart.setTrapRegs_sedeleg (h : Hart) (l : Priv) (t : TrapRegs) : (h.setTrapRegs l t).sedeleg = h.sedeleg := by
  cases l <;> rfl
@[simp] theorem Hart.setTrapRegs_sideleg (h : Hart) (l : Priv) (t : TrapRegs) : (h.setTrapRegs l t).sideleg = h.sideleg := by
  cases l <;> rfl
@[simp] theorem Hart.setTrapRegs_mcounteren (h : Hart) (l : Priv) (t : TrapRegs) : (h.setTrapRegs l t).mcounteren = h.mcounteren := by
  cases l <;> rfl
@[simp] theorem Hart.setTrapRegs_scounteren (h : Hart) (l : Priv) (t : TrapRegs) : (h.setTrapRegs l t).scounteren = h.scounteren := by
  cases l <;> rfl
@[simp] theorem Hart.setTrapRegs_satp (h : Hart) (l : Priv) (t : TrapRegs) : (h.setTrapRegs l t).satp = h.satp := by
  cases l <;> rfl
@[simp] theorem Hart.setTrapRegs_fcsr (h : Hart) (l : Priv) (t : TrapRegs) : (h.setTrapRegs l t).fcsr = h.fcsr := by
  cases l <;> rfl
@[simp] theorem Hart.setTrapRegs_csrs (h : Hart) (l : Priv) (t : TrapRegs) : (h.setTrapRegs l t).csrs = h.csrs := by
  cases l <;> rfl
@[simp] theorem Hart.setTrapRegs_tlb (h : Hart) (l : Priv) (t : TrapRegs) : (h.setTrapRegs l t).tlb = h.tlb := by
  cases l <;> rfl
@[simp] theorem Hart.setTrapRegs_halted (h : Hart) (l : Priv) (t : TrapRegs) : (h.setTrapRegs l t).halted = h.halted := by
  cases l <;> rfl
@[simp] theorem Hart.setTrapRegs_sinceCheck (h : Hart) (l : Priv) (t : TrapRegs) : (h.setTrapRegs l t).sinceCheck = h.sinceCheck := by
  cases l <;> rfl
@[simp] theorem Hart.setTrapRegs_msip (h : Hart) (l : Priv) (t : TrapRegs) : (h.setTrapRegs l t).msip = h.msip := by
  cases l <;> rfl
@[simp] theorem Hart.setTrapRegs_meip (h : Hart) (l : Priv) (t : TrapRegs) : (h.setTrapRegs l t).meip = h.meip := by
  cases l <;> rfl

@[simp] theorem Hart.trapRegs_setTrapRegs (h : Hart) (l k : Priv) (t : TrapRegs) :
    (h.setTrapRegs l t).trapRegs k = if k = l then t else h.trapRegs k := by
  cases l <;> cases k <;> rfl

/-! ## `takeTrap` (R452, R453) -/

@[simp] theorem takeTrap_cfg (c : Cause) (epc tval : Word) (s : State) : (takeTrap c epc tval s).cfg = s.cfg := by
  unfold takeTrap Hart.enterTrap; simp
@[simp] theorem takeTrap_others (c : Cause) (epc tval : Word) (s : State) : (takeTrap c epc tval s).others = s.others := by
  unfold takeTrap Hart.enterTrap; simp
@[simp] theorem takeTrap_mem (c : Cause) (epc tval : Word) (s : State) : (takeTrap c epc tval s).mem = s.mem := by
  unfold takeTrap Hart.enterTrap; simp
@[simp] theorem takeTrap_mtime (c : Cause) (epc tval : Word) (s : State) : (takeTrap c epc tval s).mtime = s.mtime := by
  unfold takeTrap Hart.enterTrap; simp
@[simp] theorem takeTrap_amoLock (c : Cause) (epc tval : Word) (s : State) : (takeTrap c epc tval s).amoLock = s.amoLock := by
  unfold takeTrap Hart.enterTrap; simp
@[simp] theorem takeTrap_io (c : Cause) (epc tval : Word) (s : State) : (takeTrap c epc tval s).io = s.io := by
  unfold takeTrap Hart.enterTrap; simp
@[simp] theorem takeTrap_draws (c : Cause) (epc tval : Word) (s : State) : (takeTrap c epc tval s).draws = s.draws := by
  unfold takeTrap Hart.enterTrap; simp
@[simp] theorem takeTrap_hartid_hart (c : Cause) (epc tval : Word) (s : State) : (takeTrap c epc tval s).hart.hartid = s.hart.hartid := by
  unfold takeTrap Hart.enterTrap; simp
@[simp] theorem takeTrap_x_hart (c : Cause) (epc tval : Word) (s : State) : (takeTrap c epc tval s).hart.x = s.hart.x := by
  unfold takeTrap Hart.enterTrap; simp
@[simp] theorem takeTrap_f_hart (c : Cause) (epc tval : Word) (s : State) : (takeTrap c epc tval s).hart.f = s.hart.f := by
  unfold takeTrap Hart.enterTrap; simp
@[simp] theorem takeTrap_cycle_hart (c : Cause) (epc tval : Word) (s : State) : (takeTrap c epc tval s).hart.cycle = s.hart.cycle := by
  unfold takeTrap Hart.enterTrap; simp
@[simp] theorem takeTrap_mtimecmp_hart (c : Cause) (epc tval : Word) (s : State) : (takeTrap c epc tval s).hart.mtimecmp = s.hart.mtimecmp := by
  unfold takeTrap Hart.enterTrap; simp
@[simp] theorem takeTrap_mie_hart (c : Cause) (epc tval : Word) (s : State) : (takeTrap c epc tval s).hart.mie = s.hart.mie := by
  unfold takeTrap Hart.enterTrap; simp
@[simp] theorem takeTrap_mipSw_hart (c : Cause) (epc tval : Word) (s : State) : (takeTrap c epc tval s).hart.mipSw = s.hart.mipSw := by
  unfold takeTrap Hart.enterTrap; simp
@[simp] theorem takeTrap_medeleg_hart (c : Cause) (epc tval : Word) (s : State) : (takeTrap c epc tval s).hart.medeleg = s.hart.medeleg := by
  unfold takeTrap Hart.enterTrap; simp
@[simp] theorem takeTrap_mideleg_hart (c : Cause) (epc tval : Word) (s : State) : (takeTrap c epc tval s).hart.mideleg = s.hart.mideleg := by
  unfold takeTrap Hart.enterTrap; simp
@[simp] theorem takeTrap_sedeleg_hart (c : Cause) (epc tval : Word) (s : State) : (takeTrap c epc tval s).hart.sedeleg = s.hart.sedeleg := by
  unfold takeTrap Hart.enterTrap; simp
@[simp] theorem takeTrap_sideleg_hart (c : Cause) (epc tval : Word) (s : State) : (takeTrap c epc tval s).hart.sideleg = s.hart.sideleg := by
  unfold takeTrap Hart.enterTrap; simp
@[simp] theorem takeTrap_mcounteren_hart (c : Cause) (epc tval : Word) (s : State) : (takeTrap c epc tval s).hart.mcounteren = s.hart.mcounteren := by
  unfold takeTrap Hart.enterTrap; simp
@[simp] theorem takeTrap_scounteren_hart (c : Cause) (epc tval : Word) (s : State) : (takeTrap c epc tval s).hart.scounteren = s.hart.scounteren := by
  unfold takeTrap Hart.enterTrap; simp
@[simp] theorem takeTrap_satp_hart (c : Cause) (epc tval : Word) (s : State) : (takeTrap c epc tval s).hart.satp = s.hart.satp := by
  unfold takeTrap Hart.enterTrap; simp
@[simp] theorem takeTrap_fcsr_hart (c : Cause) (epc tval : Word) (s : State) : (takeTrap c epc tval s).hart.fcsr = s.hart.fcsr := by
  unfold takeTrap Hart.enterTrap; simp
@[simp] theorem takeTrap_csrs_hart (c : Cause) (epc tval : Word) (s : State) : (takeTrap c epc tval s).hart.csrs = s.hart.csrs := by
  unfold takeTrap Hart.enterTrap; simp
@[simp] theorem takeTrap_tlb_hart (c : Cause) (epc tval : Word) (s : State) : (takeTrap c epc tval s).hart.tlb = s.hart.tlb := by
  unfold takeTrap Hart.enterTrap; simp
@[simp] theorem takeTrap_halted_hart (c : Cause) (epc tval : Word) (s : State) : (takeTrap c epc tval s).hart.halted = s.hart.halted := by
  unfold takeTrap Hart.enterTrap; simp
@[simp] theorem takeTrap_sinceCheck_hart (c : Cause) (epc tval : Word) (s : State) : (takeTrap c epc tval s).hart.sinceCheck = s.hart.sinceCheck := by
  unfold takeTrap Hart.enterTrap; simp
@[simp] theorem takeTrap_msip_hart (c : Cause) (epc tval : Word) (s : State) : (takeTrap c epc tval s).hart.msip = s.hart.msip := by
  unfold takeTrap Hart.enterTrap; simp
@[simp] theorem takeTrap_meip_hart (c : Cause) (epc tval : Word) (s : State) : (takeTrap c epc tval s).hart.meip = s.hart.meip := by
  unfold takeTrap Hart.enterTrap; simp

/-! ## `raise` (R13) -/

@[simp] theorem raise_cfg (e : Exception) (tval : Word) (s : State) : (raise e tval s).cfg = s.cfg :=
  takeTrap_cfg (.exception e) s.hart.pc tval s
@[simp] theorem raise_others (e : Exception) (tval : Word) (s : State) : (raise e tval s).others = s.others :=
  takeTrap_others (.exception e) s.hart.pc tval s
@[simp] theorem raise_mem (e : Exception) (tval : Word) (s : State) : (raise e tval s).mem = s.mem :=
  takeTrap_mem (.exception e) s.hart.pc tval s
@[simp] theorem raise_mtime (e : Exception) (tval : Word) (s : State) : (raise e tval s).mtime = s.mtime :=
  takeTrap_mtime (.exception e) s.hart.pc tval s
@[simp] theorem raise_amoLock (e : Exception) (tval : Word) (s : State) : (raise e tval s).amoLock = s.amoLock :=
  takeTrap_amoLock (.exception e) s.hart.pc tval s
@[simp] theorem raise_io (e : Exception) (tval : Word) (s : State) : (raise e tval s).io = s.io :=
  takeTrap_io (.exception e) s.hart.pc tval s
@[simp] theorem raise_draws (e : Exception) (tval : Word) (s : State) : (raise e tval s).draws = s.draws :=
  takeTrap_draws (.exception e) s.hart.pc tval s
@[simp] theorem raise_hartid_hart (e : Exception) (tval : Word) (s : State) : (raise e tval s).hart.hartid = s.hart.hartid :=
  takeTrap_hartid_hart (.exception e) s.hart.pc tval s
@[simp] theorem raise_x_hart (e : Exception) (tval : Word) (s : State) : (raise e tval s).hart.x = s.hart.x :=
  takeTrap_x_hart (.exception e) s.hart.pc tval s
@[simp] theorem raise_f_hart (e : Exception) (tval : Word) (s : State) : (raise e tval s).hart.f = s.hart.f :=
  takeTrap_f_hart (.exception e) s.hart.pc tval s
@[simp] theorem raise_cycle_hart (e : Exception) (tval : Word) (s : State) : (raise e tval s).hart.cycle = s.hart.cycle :=
  takeTrap_cycle_hart (.exception e) s.hart.pc tval s
@[simp] theorem raise_mtimecmp_hart (e : Exception) (tval : Word) (s : State) : (raise e tval s).hart.mtimecmp = s.hart.mtimecmp :=
  takeTrap_mtimecmp_hart (.exception e) s.hart.pc tval s
@[simp] theorem raise_mie_hart (e : Exception) (tval : Word) (s : State) : (raise e tval s).hart.mie = s.hart.mie :=
  takeTrap_mie_hart (.exception e) s.hart.pc tval s
@[simp] theorem raise_mipSw_hart (e : Exception) (tval : Word) (s : State) : (raise e tval s).hart.mipSw = s.hart.mipSw :=
  takeTrap_mipSw_hart (.exception e) s.hart.pc tval s
@[simp] theorem raise_medeleg_hart (e : Exception) (tval : Word) (s : State) : (raise e tval s).hart.medeleg = s.hart.medeleg :=
  takeTrap_medeleg_hart (.exception e) s.hart.pc tval s
@[simp] theorem raise_mideleg_hart (e : Exception) (tval : Word) (s : State) : (raise e tval s).hart.mideleg = s.hart.mideleg :=
  takeTrap_mideleg_hart (.exception e) s.hart.pc tval s
@[simp] theorem raise_sedeleg_hart (e : Exception) (tval : Word) (s : State) : (raise e tval s).hart.sedeleg = s.hart.sedeleg :=
  takeTrap_sedeleg_hart (.exception e) s.hart.pc tval s
@[simp] theorem raise_sideleg_hart (e : Exception) (tval : Word) (s : State) : (raise e tval s).hart.sideleg = s.hart.sideleg :=
  takeTrap_sideleg_hart (.exception e) s.hart.pc tval s
@[simp] theorem raise_mcounteren_hart (e : Exception) (tval : Word) (s : State) : (raise e tval s).hart.mcounteren = s.hart.mcounteren :=
  takeTrap_mcounteren_hart (.exception e) s.hart.pc tval s
@[simp] theorem raise_scounteren_hart (e : Exception) (tval : Word) (s : State) : (raise e tval s).hart.scounteren = s.hart.scounteren :=
  takeTrap_scounteren_hart (.exception e) s.hart.pc tval s
@[simp] theorem raise_satp_hart (e : Exception) (tval : Word) (s : State) : (raise e tval s).hart.satp = s.hart.satp :=
  takeTrap_satp_hart (.exception e) s.hart.pc tval s
@[simp] theorem raise_fcsr_hart (e : Exception) (tval : Word) (s : State) : (raise e tval s).hart.fcsr = s.hart.fcsr :=
  takeTrap_fcsr_hart (.exception e) s.hart.pc tval s
@[simp] theorem raise_csrs_hart (e : Exception) (tval : Word) (s : State) : (raise e tval s).hart.csrs = s.hart.csrs :=
  takeTrap_csrs_hart (.exception e) s.hart.pc tval s
@[simp] theorem raise_tlb_hart (e : Exception) (tval : Word) (s : State) : (raise e tval s).hart.tlb = s.hart.tlb :=
  takeTrap_tlb_hart (.exception e) s.hart.pc tval s
@[simp] theorem raise_halted_hart (e : Exception) (tval : Word) (s : State) : (raise e tval s).hart.halted = s.hart.halted :=
  takeTrap_halted_hart (.exception e) s.hart.pc tval s
@[simp] theorem raise_sinceCheck_hart (e : Exception) (tval : Word) (s : State) : (raise e tval s).hart.sinceCheck = s.hart.sinceCheck :=
  takeTrap_sinceCheck_hart (.exception e) s.hart.pc tval s
@[simp] theorem raise_msip_hart (e : Exception) (tval : Word) (s : State) : (raise e tval s).hart.msip = s.hart.msip :=
  takeTrap_msip_hart (.exception e) s.hart.pc tval s
@[simp] theorem raise_meip_hart (e : Exception) (tval : Word) (s : State) : (raise e tval s).hart.meip = s.hart.meip :=
  takeTrap_meip_hart (.exception e) s.hart.pc tval s

/-! ## `trapReturn` (R455) -/

@[simp] theorem trapReturn_cfg (l : Priv) (s : State) : (trapReturn l s).cfg = s.cfg := rfl
@[simp] theorem trapReturn_others (l : Priv) (s : State) : (trapReturn l s).others = s.others := rfl
@[simp] theorem trapReturn_mem (l : Priv) (s : State) : (trapReturn l s).mem = s.mem := rfl
@[simp] theorem trapReturn_mtime (l : Priv) (s : State) : (trapReturn l s).mtime = s.mtime := rfl
@[simp] theorem trapReturn_amoLock (l : Priv) (s : State) : (trapReturn l s).amoLock = s.amoLock := rfl
@[simp] theorem trapReturn_io (l : Priv) (s : State) : (trapReturn l s).io = s.io := rfl
@[simp] theorem trapReturn_draws (l : Priv) (s : State) : (trapReturn l s).draws = s.draws := rfl
@[simp] theorem trapReturn_hartid_hart (l : Priv) (s : State) : (trapReturn l s).hart.hartid = s.hart.hartid := rfl
@[simp] theorem trapReturn_x_hart (l : Priv) (s : State) : (trapReturn l s).hart.x = s.hart.x := rfl
@[simp] theorem trapReturn_f_hart (l : Priv) (s : State) : (trapReturn l s).hart.f = s.hart.f := rfl
@[simp] theorem trapReturn_cycle_hart (l : Priv) (s : State) : (trapReturn l s).hart.cycle = s.hart.cycle := rfl
@[simp] theorem trapReturn_mtimecmp_hart (l : Priv) (s : State) : (trapReturn l s).hart.mtimecmp = s.hart.mtimecmp := rfl
@[simp] theorem trapReturn_mie_hart (l : Priv) (s : State) : (trapReturn l s).hart.mie = s.hart.mie := rfl
@[simp] theorem trapReturn_mipSw_hart (l : Priv) (s : State) : (trapReturn l s).hart.mipSw = s.hart.mipSw := rfl
@[simp] theorem trapReturn_medeleg_hart (l : Priv) (s : State) : (trapReturn l s).hart.medeleg = s.hart.medeleg := rfl
@[simp] theorem trapReturn_mideleg_hart (l : Priv) (s : State) : (trapReturn l s).hart.mideleg = s.hart.mideleg := rfl
@[simp] theorem trapReturn_sedeleg_hart (l : Priv) (s : State) : (trapReturn l s).hart.sedeleg = s.hart.sedeleg := rfl
@[simp] theorem trapReturn_sideleg_hart (l : Priv) (s : State) : (trapReturn l s).hart.sideleg = s.hart.sideleg := rfl
@[simp] theorem trapReturn_mtrap_hart (l : Priv) (s : State) : (trapReturn l s).hart.mtrap = s.hart.mtrap := rfl
@[simp] theorem trapReturn_strap_hart (l : Priv) (s : State) : (trapReturn l s).hart.strap = s.hart.strap := rfl
@[simp] theorem trapReturn_utrap_hart (l : Priv) (s : State) : (trapReturn l s).hart.utrap = s.hart.utrap := rfl
@[simp] theorem trapReturn_mcounteren_hart (l : Priv) (s : State) : (trapReturn l s).hart.mcounteren = s.hart.mcounteren := rfl
@[simp] theorem trapReturn_scounteren_hart (l : Priv) (s : State) : (trapReturn l s).hart.scounteren = s.hart.scounteren := rfl
@[simp] theorem trapReturn_satp_hart (l : Priv) (s : State) : (trapReturn l s).hart.satp = s.hart.satp := rfl
@[simp] theorem trapReturn_fcsr_hart (l : Priv) (s : State) : (trapReturn l s).hart.fcsr = s.hart.fcsr := rfl
@[simp] theorem trapReturn_csrs_hart (l : Priv) (s : State) : (trapReturn l s).hart.csrs = s.hart.csrs := rfl
@[simp] theorem trapReturn_tlb_hart (l : Priv) (s : State) : (trapReturn l s).hart.tlb = s.hart.tlb := rfl
@[simp] theorem trapReturn_halted_hart (l : Priv) (s : State) : (trapReturn l s).hart.halted = s.hart.halted := rfl
@[simp] theorem trapReturn_sinceCheck_hart (l : Priv) (s : State) : (trapReturn l s).hart.sinceCheck = s.hart.sinceCheck := rfl
@[simp] theorem trapReturn_msip_hart (l : Priv) (s : State) : (trapReturn l s).hart.msip = s.hart.msip := rfl
@[simp] theorem trapReturn_meip_hart (l : Priv) (s : State) : (trapReturn l s).hart.meip = s.hart.meip := rfl

/-! ## Reading registers after an update (R21, R25) -/

@[simp] theorem State.readX_zero (s : State) : s.readX 0#5 = 0#32 := rfl

theorem State.readX_eq_of_x {s t : State} (h : t.hart.x = s.hart.x) (r : Reg) : t.readX r = s.readX r := by
  unfold State.readX; simp only [h]

theorem State.readF_eq_of_f {s t : State} (h : t.hart.f = s.hart.f) (r : Reg) : t.readF r = s.readF r := by
  unfold State.readF; simp only [h]

@[simp] theorem State.readX_setX (s : State) (r : Reg) (v : Word) (q : Reg) :
    (s.setX r v).readX q = if q = r ∧ q ≠ 0#5 then v else s.readX q := by
  unfold State.setX State.readX
  by_cases hr : r = 0#5
  · subst hr
    by_cases hq : q = 0#5 <;> simp [hq]
  · by_cases hq : q = 0#5
    · simp [hq]
    · by_cases e : q = r
      · subst e; simp [hq]
      · have hne : ¬ r.toNat = q.toNat := fun h => e (BitVec.eq_of_toNat_eq h.symm)
        simp [hr, hq, e, hne]

@[simp] theorem State.readF_setF (s : State) (r : Reg) (v : DWord) (q : Reg) :
    (s.setF r v).readF q = if q = r then v else s.readF q := by
  unfold State.setF State.readF
  by_cases e : q = r
  · subst e; simp
  · have hne : ¬ r.toNat = q.toNat := fun h => e (BitVec.eq_of_toNat_eq h.symm)
    simp [e, hne]

@[simp] theorem State.readX_setF (s : State) (q : Reg) (w : DWord) (r : Reg) : (s.setF q w).readX r = s.readX r := rfl

@[simp] theorem State.readX_setPc (s : State) (w : Word) (r : Reg) : (s.setPc w).readX r = s.readX r := rfl

@[simp] theorem State.readX_advance (s : State) (w : Word) (r : Reg) : (s.advance w).readX r = s.readX r := rfl

@[simp] theorem State.readX_countStep (s : State)  (r : Reg) : (s.countStep).readX r = s.readX r := rfl

@[simp] theorem State.readX_unlockAmo (s : State)  (r : Reg) : (s.unlockAmo).readX r = s.readX r := rfl

@[simp] theorem State.readX_lockAmo (s : State)  (r : Reg) : (s.lockAmo).readX r = s.readX r := rfl

@[simp] theorem State.readF_setPc (s : State) (w : Word) (r : Reg) : (s.setPc w).readF r = s.readF r := rfl

@[simp] theorem State.readF_advance (s : State) (w : Word) (r : Reg) : (s.advance w).readF r = s.readF r := rfl

@[simp] theorem State.readF_countStep (s : State)  (r : Reg) : (s.countStep).readF r = s.readF r := rfl

@[simp] theorem State.readF_unlockAmo (s : State)  (r : Reg) : (s.unlockAmo).readF r = s.readF r := rfl

@[simp] theorem State.readF_lockAmo (s : State)  (r : Reg) : (s.lockAmo).readF r = s.readF r := rfl

@[simp] theorem State.readF_setX (s : State) (q : Reg) (w : Word) (r : Reg) : (s.setX q w).readF r = s.readF r :=
  State.readF_eq_of_f (State.setX_f_hart s q w) r

@[simp] theorem State.readX_takeTrap (c : Cause) (epc tval : Word) (s : State) (r : Reg) :
    (takeTrap c epc tval s).readX r = s.readX r :=
  State.readX_eq_of_x (takeTrap_x_hart c epc tval s) r

@[simp] theorem State.readF_takeTrap (c : Cause) (epc tval : Word) (s : State) (r : Reg) :
    (takeTrap c epc tval s).readF r = s.readF r :=
  State.readF_eq_of_f (takeTrap_f_hart c epc tval s) r

@[simp] theorem State.readX_raise (e : Exception) (tval : Word) (s : State) (r : Reg) :
    (raise e tval s).readX r = s.readX r :=
  State.readX_eq_of_x (raise_x_hart e tval s) r

@[simp] theorem State.readF_raise (e : Exception) (tval : Word) (s : State) (r : Reg) :
    (raise e tval s).readF r = s.readF r :=
  State.readF_eq_of_f (raise_f_hart e tval s) r

end Sys2Proof.Machine
end

