-- ==== Sys2Proof/Laws/Results.lean ====
section
/-! SUPPORT. One lemma for each shared way an instruction ends: an integer result, a floating-point result, a bare `pc`,
and the values of the operand forms. -/

namespace Sys2Proof.Machine

/-! ## What a CSR read depends on -/

/-- A CSR read looks at the parameters, the clock and the hart, and of the hart not at `x`, `f`, `pc`, the mode or the
translation cache. -/
theorem csrRead_congr {s t : State} (hc : t.cfg = s.cfg) (hm : t.mtime = s.mtime)
    (hh : { t.hart with x := s.hart.x, f := s.hart.f, pc := s.hart.pc, priv := s.hart.priv, tlb := s.hart.tlb } = s.hart)
    (n : CsrNum) : csrRead t n = csrRead s n := by
  obtain ⟨cfg, h, o, m, mt, l, io, d⟩ := s
  obtain ⟨cfg', h', o', m', mt', l', io', d'⟩ := t
  cases h; cases h'
  simp only [Hart.mk.injEq] at hh
  simp only at hc hm
  subst hc hm
  obtain ⟨rfl, -, -, -, -, rfl, rfl, rfl, rfl, rfl, rfl, rfl, rfl, rfl, rfl, rfl, rfl, rfl, rfl, rfl, rfl, rfl, -, rfl,
    rfl, rfl, rfl⟩ := hh
  unfold csrRead
  cases csrName n with
  | none => rfl
  | some c => cases c <;> rfl

/-! ## The ends of an instruction -/

theorem State.setX_frame (s : State) (rd : Reg) (v pc : Word) :
    { (s.setX rd v).setPc pc with
      hart := { ((s.setX rd v).setPc pc).hart with x := s.hart.x, pc := s.hart.pc } } = s := by
  unfold State.setX; split <;> rfl

/-- An integer result and a `pc`. -/
theorem intResult_of_setX (s : State) (rd : Reg) (v pc : Word) : IntResult s ((s.setX rd v).setPc pc) rd v pc where
  x r := by rw [State.readX_setPc, State.readX_setX]
  pc := rfl
  f r := by simp
  csr n := csrRead_congr (by simp) (by simp) (by unfold State.setX; split <;> rfl) n
  memory a := by simp
  rest := State.setX_frame s rd v pc

/-- What `intResult` does. -/
theorem intResult_spec (rd : Reg) (v ilen : Word) (s : State) :
    ∃ t, intResult rd v ilen s = .next t ∧ IntResult s t rd v (s.hart.pc + ilen) :=
  ⟨_, rfl, by
    unfold State.advance
    rw [State.setX_pc_hart]
    exact intResult_of_setX s rd v _⟩

/-- A floating-point register and a `pc`. -/
theorem fpResult_of_setF (s : State) (rd : Reg) (v : DWord) (pc : Word) :
    FpResult s ((s.setF rd v).setPc pc) rd v pc where
  f r := by rw [State.readF_setPc, State.readF_setF]
  pc := rfl
  x r := by simp
  csr n := csrRead_congr rfl rfl rfl n
  memory _ := rfl
  rest := rfl

/-- What `fpResult` does. -/
theorem fpResult_spec (rd : Reg) (v ilen : Word) (s : State) :
    ∃ t, fpResult rd v ilen s = .next t ∧ FpResult s t rd (box v) (s.hart.pc + ilen) :=
  ⟨_, rfl, fpResult_of_setF s rd (box v) _⟩

/-- A new `pc` and nothing else. -/
theorem pcResult_of_setPc (s : State) (pc : Word) : PcResult s (s.setPc pc) pc where
  pc := rfl
  x _ := rfl
  f _ := rfl
  csr n := csrRead_congr rfl rfl rfl n
  memory _ := rfl
  rest := rfl

/-- What `jumpAndLink` does. -/
theorem jumpAndLink_spec (rd : Reg) (target ilen : Word) (s : State) :
    ∃ t, jumpAndLink rd target ilen s = .next t ∧ IntResult s t rd (s.hart.pc + ilen) target :=
  ⟨_, rfl, intResult_of_setX s rd _ target⟩

/-- What `branchTo` does. -/
theorem branchTo_spec (taken : Bool) (off ilen : Word) (s : State) :
    ∃ t, branchTo taken off ilen s = .next t ∧ PcResult s t (s.hart.pc + if taken then off else ilen) := by
  refine ⟨_, rfl, ?_⟩
  cases taken
  · exact pcResult_of_setPc s _
  · exact pcResult_of_setPc s _

/-! ## Operand values -/

theorem imm12_eq (imm : BitVec 12) : imm12 imm = signedImm 1 imm := by
  unfold imm12 signedImm
  rw [Int.one_mul]
  exact BitVec.eq_of_toInt_eq (by
    rw [BitVec.toInt_signExtend_of_le (by decide), BitVec.toInt_ofInt]
    have := @BitVec.toInt_lt 12 imm; have := @BitVec.le_toInt 12 imm
    rw [Int.bmod_eq_of_le] <;> omega)

theorem prime_eq (r' : PrimeReg) : prime r' = primeReg r' := by revert r'; decide

theorem csrUimm_eq (u : BitVec 5) : csrUimm u = unsignedImm 1 u := by revert u; decide

theorem immCi_eq (imm : BitVec 6) : immCi imm = signedImm 1 imm := by revert imm; decide

theorem immCLui_eq (imm : BitVec 6) : immCLui imm = signedImm 4096 imm := by revert imm; decide

theorem imm16sp_eq (imm : BitVec 6) : imm16sp imm = signedImm 16 imm := by revert imm; decide

theorem uimmW_eq (u : BitVec 5) : uimmW u = unsignedImm 4 u := by revert u; decide

theorem uimmD_eq (u : BitVec 5) : uimmD u = unsignedImm 8 u := by revert u; decide

theorem uimmWsp_eq (u : BitVec 6) : uimmWsp u = unsignedImm 4 u := by revert u; decide

theorem uimmDsp_eq (u : BitVec 6) : uimmDsp u = unsignedImm 8 u := by revert u; decide

/-- A double of a number with `n` bits, sign-extended: the even offsets. -/
theorem signExtend_even {n : Nat} (v : BitVec n) (hn : 0 < n ∧ n < 32) :
    (v ++ 0#1 : BitVec (n + 1)).signExtend 32 = signedImm 2 v := by
  unfold signedImm
  apply BitVec.eq_of_toInt_eq
  have h1 := @BitVec.toInt_lt n v
  have h2 := @BitVec.le_toInt n v
  have hp : (2 : Int) ^ (n - 1) ≤ 2 ^ 30 := by
    exact_mod_cast Nat.pow_le_pow_right (by decide) (by omega : n - 1 ≤ 30)
  have hv : (v ++ 0#1 : BitVec (n + 1)).toInt = 2 * v.toInt := by
    rw [BitVec.toInt_append]
    rw [if_neg (by simp; omega)]
    simp
  rw [BitVec.toInt_signExtend_of_le (by omega), hv, BitVec.toInt_ofInt]
  rw [Int.bmod_eq_of_le] <;> omega

theorem immB_eq (off : BitVec 12) : immB off = signedImm 2 off := signExtend_even off ⟨by decide, by decide⟩

theorem immJ_eq (off : BitVec 20) : immJ off = signedImm 2 off := signExtend_even off ⟨by decide, by decide⟩

theorem immCj_eq (off : BitVec 11) : immCj off = signedImm 2 off := signExtend_even off ⟨by decide, by decide⟩

theorem immCb_eq (off : BitVec 8) : immCb off = signedImm 2 off := signExtend_even off ⟨by decide, by decide⟩

theorem immU_eq (imm : BitVec 20) : immU imm = unsignedImm 4096 imm := by
  unfold immU unsignedImm
  apply BitVec.eq_of_toNat_eq
  rw [BitVec.toNat_append, BitVec.toNat_ofNat]
  have := imm.isLt
  rw [Nat.mod_eq_of_lt (by omega)]
  simp [Nat.shiftLeft_eq]; omega

theorem imm4spn_eq (v : BitVec 8) : imm4spn v = unsignedImm 4 v := by revert v; decide

theorem evenTarget_eq (v : Word) : evenTarget v = BitVec.ofNat 32 (v.toNat / 2 * 2) := by
  have h : evenTarget v = (v >>> 1) <<< 1 := by
    apply BitVec.eq_of_getLsbD_eq
    intro i hi
    unfold evenTarget
    interval_cases i <;> simp
  rw [h]
  apply BitVec.eq_of_toNat_eq
  rw [BitVec.toNat_shiftLeft, BitVec.toNat_ushiftRight, BitVec.toNat_ofNat, Nat.shiftRight_eq_div_pow,
    Nat.shiftLeft_eq]

theorem boolWord_decide (p : Prop) [Decidable p] : boolWord (decide p) = truth p := by
  unfold boolWord truth; by_cases h : p <;> simp [h]

theorem shiftAmount_eq (v : Word) : shiftAmount v = v.toNat % 32 := by
  unfold shiftAmount; rw [BitVec.extractLsb'_toNat]; simp

end Sys2Proof.Machine
end

