-- ==== Sys2Proof/Laws/Ops.lean ====
section
/-! SUPPORT. One lemma for each shared operation over memory: the port, the translation, the loads, the stores and the AMO
access, each saying once what it can do. -/

namespace Sys2Proof.Machine

/-! ## Values in memory -/

theorem Memory.toNat_readN (m : Memory) (a : Word) (n : Nat) (hn : n ≤ 8) :
    (Memory.readN m a n).toNat = bytesValue m a n ∧ bytesValue m a n < 2 ^ (8 * n) := by
  induction n generalizing a with
  | zero => exact ⟨rfl, by simp [bytesValue]⟩
  | succ n ih =>
    obtain ⟨h1, h2⟩ := ih (a + 1#32) (by omega)
    have hb := (Memory.read m a).isLt
    have hp : 2 ^ (8 * (n + 1)) = 256 * 2 ^ (8 * n) := by rw [Nat.mul_add, Nat.pow_add]; omega
    have hle : 2 ^ (8 * (n + 1)) ≤ 2 ^ 64 := Nat.pow_le_pow_right (by decide) (by omega)
    constructor
    · unfold Memory.readN bytesValue
      rw [BitVec.toNat_or, BitVec.toNat_shiftLeft, BitVec.toNat_setWidth, h1, Nat.mod_eq_of_lt (a := bytesValue m (a + 1#32) n <<< 8) (by rw [Nat.shiftLeft_eq]; omega),
        Nat.mod_eq_of_lt (a := (Memory.read m a).toNat) (by omega), Nat.shiftLeft_eq,
        Nat.mul_comm _ (2 ^ 8), ← Nat.two_pow_add_eq_or_of_lt hb]
      omega
    · unfold bytesValue; omega

/-! ## The port -/

/-- Where the bytes of an access lie in a device, that device claims it. -/
theorem claim_of_holds {s : State} {k : DeviceKind} {pa : Word} {n : Nat} (h : s.holds k pa n) :
    ∃ d, claim s.cfg.devices pa n = some d ∧ d.kind = k := by
  obtain ⟨d, hf, hk, h1, h2⟩ := h
  exact ⟨d, by unfold claim; rw [hf]; exact if_pos ⟨h1, h2⟩, hk⟩

/-- Where they lie in none, none does. -/
theorem claim_none {s : State} {pa : Word} {n : Nat} (h : ∀ k, ¬ s.holds k pa n) :
    claim s.cfg.devices pa n = none := by
  unfold claim
  cases hf : s.cfg.devices.find? (claims pa) with
  | none => rfl
  | some d => exact if_neg (fun hc => h d.kind ⟨d, hf, rfl, hc.1, hc.2⟩)

/-- A claimed access lies in a device of the claimant's kind. -/
theorem holds_of_claim {s : State} {pa : Word} {n : Nat} {d : Device} (h : claim s.cfg.devices pa n = some d) :
    s.holds d.kind pa n := by
  unfold claim at h
  split at h
  · cases h
  · next e hf =>
    split at h
    · next hc => cases h; exact ⟨d, hf, rfl, hc.1, hc.2⟩
    · cases h

theorem physRead_bytes {s : State} {pa : Word} {n : Nat} (h : s.holdsBytes pa n) :
    physRead pa n s = some (s.mem.readN pa n, s) := by
  rcases h with h | h <;> obtain ⟨d, hc, hk⟩ := claim_of_holds h <;> simp [physRead, hc, hk]

theorem physRead_none {s : State} {pa : Word} {n : Nat} (h : ∀ k, ¬ s.holds k pa n) : physRead pa n s = none := by
  unfold physRead; rw [claim_none h]

theorem physWrite_ram {s : State} {pa : Word} {n : Nat} (v : DWord) (h : s.holds .ram pa n) :
    physWrite pa n v s = some { s with mem := s.mem.writeN pa n v } := by
  obtain ⟨d, hc, hk⟩ := claim_of_holds h; simp [physWrite, hc, hk]

theorem physWrite_rom {s : State} {pa : Word} {n : Nat} (v : DWord) (h : s.holds .rom pa n) :
    physWrite pa n v s = some s := by
  obtain ⟨d, hc, hk⟩ := claim_of_holds h; simp [physWrite, hc, hk]

theorem physWrite_none {s : State} {pa : Word} {n : Nat} (v : DWord) (h : ∀ k, ¬ s.holds k pa n) :
    physWrite pa n v s = none := by
  unfold physWrite; rw [claim_none h]

theorem advanceClock_mono (s : State) : s.mtime.toNat ≤ s.advanceClock.mtime.toNat := by
  unfold State.advanceClock
  dsimp only
  split
  · assumption
  · exact Nat.le_refl _

/-- `t` is `s` but for what reads of devices leave: the clock, which never goes back, the record and the draws. -/
structure ReadFrame (s t : State) : Prop where
  rest : { t with mtime := s.mtime, io := s.io, draws := s.draws } = s
  clock : s.mtime.toNat ≤ t.mtime.toNat

theorem ReadFrame.refl (s : State) : ReadFrame s s := ⟨rfl, Nat.le_refl _⟩

theorem ReadFrame.trans {s t u : State} (h : ReadFrame s t) (g : ReadFrame t u) : ReadFrame s u := by
  refine ⟨?_, Nat.le_trans h.clock g.clock⟩
  have h1 := h.rest
  have g1 := g.rest
  clear h g
  cases s; cases t; cases u; simp_all

theorem ReadFrame.advanceClock (s : State) : ReadFrame s s.advanceClock := ⟨rfl, advanceClock_mono s⟩

/-- What a port read can change. -/
theorem physRead_frame {pa : Word} {n : Nat} {s t : State} {v : DWord} (h : physRead pa n s = some (v, t)) :
    ReadFrame s t := by
  unfold physRead at h
  split at h
  · cases h
  · next d _ =>
    split at h
    · cases h; exact .refl s
    · cases h; exact .refl s
    · unfold clintRead at h
      split at h
      · split at h <;> cases h
        exact .advanceClock s
      · split at h <;> cases h
        exact (ReadFrame.advanceClock s).trans (.advanceClock _)
      · cases h
    · cases h; exact ⟨rfl, Nat.le_refl _⟩
    · cases h; exact ⟨rfl, Nat.le_refl _⟩

/-- A hart that differs at most in the two fields the CLINT holds for it. -/
def ClintDiffers (h g : Hart) : Prop := { g with mtimecmp := h.mtimecmp, msip := h.msip } = h

theorem ClintDiffers.refl (h : Hart) : ClintDiffers h h := rfl

theorem ClintDiffers.pc {h g : Hart} (c : ClintDiffers h g) : g.pc = h.pc := by
  have hh := congrArg Hart.pc c; exact hh

theorem ClintDiffers.x {h g : Hart} (c : ClintDiffers h g) : g.x = h.x := by
  have hh := congrArg Hart.x c; exact hh

theorem ClintDiffers.trans {h g k : Hart} (a : ClintDiffers h g) (b : ClintDiffers g k) : ClintDiffers h k := by
  unfold ClintDiffers at *; cases h; cases g; cases k; simp_all

/-- What a write of a CLINT register leaves alone. -/
structure ClintFrame (s t : State) : Prop where
  hart : ClintDiffers s.hart t.hart
  others : List.Forall₂ ClintDiffers s.others t.others
  cfg : t.cfg = s.cfg
  mem : t.mem = s.mem
  amoLock : t.amoLock = s.amoLock
  io : t.io = s.io
  draws : t.draws = s.draws

theorem forall₂_trans {α : Type} {R : α → α → Prop} (ht : ∀ {a b c}, R a b → R b c → R a c) {l m k : List α}
    (h : List.Forall₂ R l m) (g : List.Forall₂ R m k) : List.Forall₂ R l k := by
  induction h generalizing k with
  | nil => cases g; exact .nil
  | cons ha _ ih => cases g with
    | cons hb hr => exact .cons (ht ha hb) (ih hr)

theorem clintDiffers_list (l : List Hart) : List.Forall₂ ClintDiffers l l := List.forall₂_same.2 (fun _ _ => rfl)

theorem ClintFrame.refl (s : State) : ClintFrame s s := ⟨rfl, clintDiffers_list _, rfl, rfl, rfl, rfl, rfl⟩

theorem ClintFrame.trans {s t u : State} (a : ClintFrame s t) (b : ClintFrame t u) : ClintFrame s u :=
  ⟨a.hart.trans b.hart, forall₂_trans (fun h g => h.trans g) a.others b.others, b.cfg.trans a.cfg, b.mem.trans a.mem,
    b.amoLock.trans a.amoLock, b.io.trans a.io, b.draws.trans a.draws⟩

theorem modifyHart_frame (s : State) (i : Nat) (f : Hart → Hart) (hf : ∀ h, ClintDiffers h (f h)) :
    ClintFrame s (s.modifyHart i f) := by
  unfold State.modifyHart
  split
  · exact ⟨hf _, clintDiffers_list _, rfl, rfl, rfl, rfl, rfl⟩
  · refine ⟨rfl, ?_, rfl, rfl, rfl, rfl, rfl⟩
    rw [List.forall₂_map_right_iff]
    refine List.forall₂_same.2 (fun h _ => ?_)
    split
    · exact hf h
    · rfl

theorem clintSet_frame (s : State) (v : Word) (r : ClintReg) : ClintFrame s (clintSet s v r) := by
  cases r with
  | msip i => exact modifyHart_frame s i _ (fun _ => rfl)
  | mtimecmpLo i => exact modifyHart_frame s i _ (fun _ => rfl)
  | mtimecmpHi i => exact modifyHart_frame s i _ (fun _ => rfl)
  | mtimeLo => exact ⟨rfl, clintDiffers_list _, rfl, rfl, rfl, rfl, rfl⟩
  | mtimeHi => exact ⟨rfl, clintDiffers_list _, rfl, rfl, rfl, rfl, rfl⟩

theorem clintWrite_frame {off n : Nat} {v : DWord} {s t : State} (h : clintWrite off n v s = some t) :
    ClintFrame s t := by
  unfold clintWrite at h
  split at h
  · split at h <;> cases h
    exact clintSet_frame _ _ _
  · split at h <;> cases h
    exact (clintSet_frame _ _ _).trans (clintSet_frame _ _ _)
  · cases h

/-- What a port write can change: the bytes `Memory.writeN` writes, what the CLINT holds (the clock among it), and the record
of device accesses. -/
theorem physWrite_frame {pa : Word} {n : Nat} {v : DWord} {s t : State} (h : physWrite pa n v s = some t) :
    ClintFrame s { t with mem := s.mem, io := s.io } ∧
    (t.mem = s.mem ∨ (s.holds .ram pa n ∧ t.mem = s.mem.writeN pa n v)) := by
  unfold physWrite at h
  split at h
  · cases h
  · next d hd =>
    split at h
    · next hk => cases h; exact ⟨.refl s, .inr ⟨hk ▸ holds_of_claim hd, rfl⟩⟩
    · cases h; exact ⟨.refl s, .inl rfl⟩
    · have hf := clintWrite_frame h
      exact ⟨⟨hf.hart, hf.others, hf.cfg, rfl, hf.amoLock, rfl, hf.draws⟩, .inl hf.mem⟩
    · cases h; exact ⟨.refl s, .inl rfl⟩
    · cases h; exact ⟨.refl s, .inl rfl⟩

/-! ## Translation -/

theorem walkLeaf_cases (acc : AccessKind) (va pte pa : Word) (s : State) :
    walkLeaf acc va pte pa s = .ok pa (fillTlb acc va pa s) ∨ walkLeaf acc va pte pa s = .raise acc.pageFault va s := by
  unfold walkLeaf; split
  · exact .inl rfl
  · exact .inr rfl

/-- Every way a walk ends: with an address and the entry filled, or with a fault of its kind; before that only page-table
reads have left a trace. -/
theorem walk_cases (acc : AccessKind) (va : Word) (s : State) :
    ∃ s0, ReadFrame s s0 ∧
      ((∃ pa, pa.extractLsb' 0 12 = va.extractLsb' 0 12 ∧ walk acc va s = .ok pa (fillTlb acc va pa s0)) ∨
        walk acc va s = .raise acc.pageFault va s0 ∨ walk acc va s = .raise acc.accessFault va s0) := by
  have hleaf : ∀ pte : Word, (leafAddr pte va).extractLsb' 0 12 = va.extractLsb' 0 12 := by
    intro pte; unfold leafAddr; rw [BitVec.extractLsb'_append_eq_right]
  have hsuper : ∀ pte : Word, (superpageAddr pte va).extractLsb' 0 12 = va.extractLsb' 0 12 := by
    intro pte; unfold superpageAddr
    apply BitVec.eq_of_getLsbD_eq; intro i hi
    have : i < 22 := by omega
    rw [BitVec.getLsbD_extractLsb', BitVec.getLsbD_extractLsb', Nat.zero_add, BitVec.getLsbD_append]
    simp [this]
  have hw : ∀ (pte pa : Word) (s0 : State), pa.extractLsb' 0 12 = va.extractLsb' 0 12 →
      ((∃ q, q.extractLsb' 0 12 = va.extractLsb' 0 12 ∧ walkLeaf acc va pte pa s0 = .ok q (fillTlb acc va q s0)) ∨
        walkLeaf acc va pte pa s0 = .raise acc.pageFault va s0 ∨
        walkLeaf acc va pte pa s0 = .raise acc.accessFault va s0) := by
    intro pte pa s0 hp
    rcases walkLeaf_cases acc va pte pa s0 with h | h
    · exact .inl ⟨pa, hp, h⟩
    · exact .inr (.inl h)
  unfold walk
  split
  · exact ⟨s, .refl s, .inr (.inr rfl)⟩
  · next v s1 h1 =>
    have g1 := physRead_frame h1
    dsimp only
    split
    · exact ⟨s1, g1, .inr (.inl rfl)⟩
    · split
      · unfold walkLevel0
        split
        · exact ⟨s1, g1, .inr (.inr rfl)⟩
        · next v2 s2 h2 =>
          have g2 := g1.trans (physRead_frame h2)
          dsimp only
          split
          · exact ⟨s2, g2, .inr (.inl rfl)⟩
          · exact ⟨s2, g2, hw _ _ s2 (hleaf _)⟩
      · split
        · exact ⟨s1, g1, .inr (.inl rfl)⟩
        · exact ⟨s1, g1, hw _ _ s1 (hsuper _)⟩

/-- What a translation that answers leaves: the state before it but for the cache and the traces of page-table reads. -/
theorem translate_ok {acc : AccessKind} {va pa : Word} {s s1 : State} (h : translate acc va s = .ok pa s1) :
    { s1 with hart := { s1.hart with tlb := s.hart.tlb }, mtime := s.mtime, io := s.io, draws := s.draws } = s ∧
      s.mtime.toNat ≤ s1.mtime.toNat := by
  unfold translate at h
  split at h
  · cases h; exact ⟨rfl, Nat.le_refl _⟩
  · dsimp only at h
    split at h
    · cases h; exact ⟨rfl, Nat.le_refl _⟩
    · obtain ⟨s0, g0, hc⟩ := walk_cases acc va s
      rcases hc with ⟨q, -, hq⟩ | hq | hq <;> rw [hq] at h <;> cases h
      refine ⟨?_, g0.clock⟩
      have g1 := g0.rest
      clear g0 hq
      cases s; cases s0; simp_all [fillTlb]

/-- A translation that raises leaves even the cache. -/
theorem translate_raise {acc : AccessKind} {va tv : Word} {s s1 : State} {e : Exception}
    (h : translate acc va s = .raise e tv s1) :
    tv = va ∧ (e = acc.pageFault ∨ e = acc.accessFault) ∧ ReadFrame s s1 := by
  unfold translate at h
  split at h
  · cases h
  · dsimp only at h
    split at h
    · cases h
    · obtain ⟨s0, g0, hc⟩ := walk_cases acc va s
      rcases hc with ⟨q, -, hq⟩ | hq | hq <;> rw [hq] at h <;> cases h
      · exact ⟨rfl, .inl rfl, g0⟩
      · exact ⟨rfl, .inr rfl, g0⟩

/-! ## Loads and stores -/

theorem State.holds_congr {s t : State} (h : t.cfg = s.cfg) (k : DeviceKind) (pa : Word) (n : Nat) :
    t.holds k pa n ↔ s.holds k pa n := by unfold State.holds; rw [h]

theorem State.holdsBytes_congr {s t : State} (h : t.cfg = s.cfg) (pa : Word) (n : Nat) :
    t.holdsBytes pa n ↔ s.holdsBytes pa n := by unfold State.holdsBytes; rw [State.holds_congr h, State.holds_congr h]

/-- The fields a translation that answers leaves alone. -/
structure TranslateFrame (s s1 : State) : Prop where
  cfg : s1.cfg = s.cfg
  others : s1.others = s.others
  mem : s1.mem = s.mem
  amoLock : s1.amoLock = s.amoLock
  hart : { s1.hart with tlb := s.hart.tlb } = s.hart

theorem translate_ok_frame {acc : AccessKind} {va pa : Word} {s s1 : State} (h : translate acc va s = .ok pa s1) :
    TranslateFrame s s1 := by
  have hr := (translate_ok h).1
  cases s; cases s1; simp at hr; obtain ⟨rfl, hh, rfl, rfl, rfl⟩ := hr
  exact ⟨rfl, rfl, rfl, rfl, hh⟩

theorem TranslateFrame.x {s s1 : State} (h : TranslateFrame s s1) : s1.hart.x = s.hart.x :=
  by have hh := congrArg Hart.x h.hart; exact hh

theorem TranslateFrame.f {s s1 : State} (h : TranslateFrame s s1) : s1.hart.f = s.hart.f :=
  by have hh := congrArg Hart.f h.hart; exact hh

theorem TranslateFrame.pc {s s1 : State} (h : TranslateFrame s s1) : s1.hart.pc = s.hart.pc :=
  by have hh := congrArg Hart.pc h.hart; exact hh

/-- A CSR reads as before in a state that agrees, but for the clock, on what a CSR read looks at. -/
theorem TranslateFrame.csr {s s1 t : State} (h : TranslateFrame s s1) (hc : t.cfg = s1.cfg)
    (hh : { t.hart with x := s1.hart.x, f := s1.hart.f, pc := s1.hart.pc, priv := s1.hart.priv, tlb := s1.hart.tlb } =
      s1.hart) (n : CsrNum) : csrRead { t with mtime := s.mtime } n = csrRead s n :=
  csrRead_congr (s := s) (t := { t with mtime := s.mtime }) (hc.trans h.cfg) rfl (by
    have h1 := h.hart
    generalize hs : s.hart = a at *
    generalize ht : s1.hart = b at *
    generalize hu : t.hart = c at *
    cases a; cases b; cases c; simp_all) n

/-- A read of bytes of RAM or ROM. -/
theorem memRead_bytes {va pa : Word} {n : Nat} {s s1 : State} (h : translate .r va s = .ok pa s1)
    (hb : s.holdsBytes pa n) : memRead va n s = .ok (s.mem.readN pa n) s1 := by
  have hf := translate_ok_frame h
  unfold memRead readVia
  rw [h]
  simp only
  rw [physRead_bytes ((State.holdsBytes_congr hf.cfg pa n).2 hb), hf.mem]

/-- An access that cannot be made raises what the translation raised, or the access fault. -/
theorem memRead_raise {va tv : Word} {n : Nat} {s s1 : State} {e : Exception}
    (h : translate .r va s = .raise e tv s1) : memRead va n s = .raise e tv s1 := by
  unfold memRead readVia; rw [h]

theorem memRead_no_device {va pa : Word} {n : Nat} {s s1 : State} (h : translate .r va s = .ok pa s1)
    (hb : ∀ k, ¬ s.holds k pa n) : memRead va n s = .raise .loadAccessFault va s1 := by
  unfold memRead readVia
  rw [h]
  simp only
  rw [physRead_none (fun k hk => hb k ((State.holds_congr (translate_ok_frame h).cfg k pa n).1 hk))]
  rfl

theorem memWrite_ram {va pa : Word} {n : Nat} {v : DWord} {s s1 : State} (h : translate .w va s = .ok pa s1)
    (hb : s.holds .ram pa n) : memWrite va n v s = .ok () { s1 with mem := s.mem.writeN pa n v } := by
  have hf := translate_ok_frame h
  unfold memWrite
  rw [h]
  simp only
  rw [physWrite_ram v ((State.holds_congr hf.cfg _ pa n).2 hb), hf.mem]

theorem memWrite_rom {va pa : Word} {n : Nat} {v : DWord} {s s1 : State} (h : translate .w va s = .ok pa s1)
    (hb : s.holds .rom pa n) : memWrite va n v s = .ok () s1 := by
  unfold memWrite
  rw [h]
  simp only
  rw [physWrite_rom v ((State.holds_congr (translate_ok_frame h).cfg _ pa n).2 hb)]

theorem memWrite_raise {va tv : Word} {n : Nat} {v : DWord} {s s1 : State} {e : Exception}
    (h : translate .w va s = .raise e tv s1) : memWrite va n v s = .raise e tv s1 := by
  unfold memWrite; rw [h]

theorem memWrite_no_device {va pa : Word} {n : Nat} {v : DWord} {s s1 : State} (h : translate .w va s = .ok pa s1)
    (hb : ∀ k, ¬ s.holds k pa n) : memWrite va n v s = .raise .storeAmoAccessFault va s1 := by
  unfold memWrite
  rw [h]
  simp only
  rw [physWrite_none v (fun k hk => hb k ((State.holds_congr (translate_ok_frame h).cfg k pa n).1 hk))]

/-- What `loadX` does where the port answers. -/
theorem loadX_port {rd : Reg} {va pa ilen : Word} {n : Nat} {ext : DWord → Word} {s s1 s2 : State} {v : DWord}
    (h : translate .r va s = .ok pa s1) (hv : physRead pa n s1 = some (v, s2)) :
    ∃ t, loadX rd va n ext ilen s = .next t ∧ IntResult s2 t rd (ext v) (s.hart.pc + ilen) := by
  have hp : s2.hart.pc = s.hart.pc :=
    (congrArg (fun u : State => u.hart.pc) (physRead_frame hv).rest).trans (translate_ok_frame h).pc
  unfold loadX memRead readVia
  simp only [h, hv]
  rw [← hp]
  exact intResult_spec rd (ext v) ilen s2

/-- What `loadF` does where the port answers. -/
theorem loadF_port {rd : Reg} {va pa ilen : Word} {n : Nat} {ext : DWord → DWord} {s s1 s2 : State} {v : DWord}
    (h : translate .r va s = .ok pa s1) (hv : physRead pa n s1 = some (v, s2)) :
    ∃ t, loadF rd va n ext ilen s = .next t ∧ FpResult s2 t rd (ext v) (s.hart.pc + ilen) := by
  have hp : s2.hart.pc = s.hart.pc :=
    (congrArg (fun u : State => u.hart.pc) (physRead_frame hv).rest).trans (translate_ok_frame h).pc
  unfold loadF memRead readVia
  simp only [h, hv]
  rw [← hp]
  exact ⟨_, rfl, fpResult_of_setF s2 rd (ext v) _⟩

/-- A result written after a translation, in terms of the state before it. -/
theorem IntResult.loaded {s s1 t : State} {rd : Reg} {v pc : Word} (hf : TranslateFrame s s1)
    (hr : { s1 with hart := { s1.hart with tlb := s.hart.tlb }, mtime := s.mtime, io := s.io, draws := s.draws } = s)
    (hres : IntResult s1 t rd v pc) : IntLoaded s t rd v pc ∧ t.traces = s1.traces := by
  have hh : { t.hart with x := s1.hart.x, pc := s1.hart.pc } = s1.hart := congrArg State.hart hres.rest
  refine ⟨⟨?_, hres.pc, ?_, ?_, ?_, ?_⟩, ?_⟩
  · intro r; rw [hres.x r]; exact ite_congr rfl (fun _ => rfl) (fun _ => State.readX_eq_of_x hf.x r)
  · intro r; rw [hres.f r]; exact State.readF_eq_of_f hf.f r
  · have hc := congrArg State.cfg hres.rest
    refine hf.csr hc ?_
    exact congrArg (fun g : Hart => { g with f := s1.hart.f, priv := s1.hart.priv, tlb := s1.hart.tlb }) hh
  · intro a; rw [hres.memory a, hf.mem]
  · have h1 := hres.rest
    rw [hf.x, hf.pc] at h1
    rw [← hr, ← h1]
  · have hh := congrArg State.traces hres.rest; exact hh

/-- The same for `f[frd]`. -/
theorem FpResult.loaded {s s1 t : State} {rd : Reg} {v : DWord} {pc : Word} (hf : TranslateFrame s s1)
    (hr : { s1 with hart := { s1.hart with tlb := s.hart.tlb }, mtime := s.mtime, io := s.io, draws := s.draws } = s)
    (hres : FpResult s1 t rd v pc) : FpLoaded s t rd v pc ∧ t.traces = s1.traces := by
  have hh : { t.hart with f := s1.hart.f, pc := s1.hart.pc } = s1.hart := congrArg State.hart hres.rest
  refine ⟨⟨?_, hres.pc, ?_, ?_, ?_, ?_⟩, ?_⟩
  · intro r; rw [hres.f r]; exact ite_congr rfl (fun _ => rfl) (fun _ => State.readF_eq_of_f hf.f r)
  · intro r; rw [hres.x r]; exact State.readX_eq_of_x hf.x r
  · have hc := congrArg State.cfg hres.rest
    refine hf.csr hc ?_
    exact congrArg (fun g : Hart => { g with x := s1.hart.x, priv := s1.hart.priv, tlb := s1.hart.tlb }) hh
  · intro a; rw [hres.memory a, hf.mem]
  · have h1 := hres.rest
    rw [hf.f, hf.pc] at h1
    rw [← hr, ← h1]
  · have hh := congrArg State.traces hres.rest; exact hh

/-- What `loadX` does on bytes of RAM or ROM. -/
theorem loadX_bytes {rd : Reg} {va pa ilen : Word} {n : Nat} {ext : DWord → Word} {s s1 : State}
    (h : translate .r va s = .ok pa s1) (hb : s.holdsBytes pa n) :
    ∃ t, loadX rd va n ext ilen s = .next t ∧ IntLoaded s t rd (ext (s.mem.readN pa n)) (s.hart.pc + ilen) ∧
      t.traces = s1.traces := by
  have hf := translate_ok_frame h
  have hv := physRead_bytes ((State.holdsBytes_congr hf.cfg pa n).2 hb)
  rw [hf.mem] at hv
  obtain ⟨t, ht, hres⟩ := loadX_port (rd := rd) (ext := ext) (ilen := ilen) h hv
  exact ⟨t, ht, hres.loaded hf (translate_ok h).1⟩

/-- What `loadF` does on bytes of RAM or ROM. -/
theorem loadF_bytes {rd : Reg} {va pa ilen : Word} {n : Nat} {ext : DWord → DWord} {s s1 : State}
    (h : translate .r va s = .ok pa s1) (hb : s.holdsBytes pa n) :
    ∃ t, loadF rd va n ext ilen s = .next t ∧ FpLoaded s t rd (ext (s.mem.readN pa n)) (s.hart.pc + ilen) ∧
      t.traces = s1.traces := by
  have hf := translate_ok_frame h
  have hv := physRead_bytes ((State.holdsBytes_congr hf.cfg pa n).2 hb)
  rw [hf.mem] at hv
  obtain ⟨t, ht, hres⟩ := loadF_port (rd := rd) (ext := ext) (ilen := ilen) h hv
  exact ⟨t, ht, hres.loaded hf (translate_ok h).1⟩

/-- The bytes a store of up to eight bytes leaves. -/
theorem read_writeN_bytes (m : Memory) (pa : Word) (n : Nat) (v : DWord) (hm : Memory.wf m = true)
    (hp : pa.toNat + n ≤ 2 ^ 32) (a : Word) :
    (Memory.read (Memory.writeN m pa n v) a).toNat =
      if pa.toNat ≤ a.toNat ∧ a.toNat < pa.toNat + n then v.toNat / 256 ^ (a.toNat - pa.toNat) % 256
      else (Memory.read m a).toNat := by
  rw [Memory.read_writeN m pa n v a hm hp]
  split
  · next h =>
    have h8 : 2 ^ (8 * (a.toNat - pa.toNat)) = 256 ^ (a.toNat - pa.toNat) := by rw [Nat.pow_mul]
    rw [BitVec.extractLsb'_toNat, Nat.shiftRight_eq_div_pow, h8]
  · rfl

/-- What `storeN` does where the port answers. -/
theorem storeN_port {va pa ilen : Word} {n : Nat} {v : DWord} {s s1 s2 : State} (h : translate .w va s = .ok pa s1)
    (hv : physWrite pa n v s1 = some s2) :
    ∃ t, storeN va n v ilen s = .next t ∧ PcResult s2 t (s.hart.pc + ilen) := by
  have hp : s2.hart.pc = s.hart.pc :=
    ((physWrite_frame hv).1.hart.pc).trans (translate_ok_frame h).pc
  unfold storeN memWrite
  simp only [h, hv]
  rw [← hp]
  exact ⟨_, rfl, pcResult_of_setPc s2 _⟩

/-- What `storeN` does on bytes of RAM. -/
theorem storeN_ram {va pa ilen : Word} {n : Nat} {v : DWord} {s s1 : State} (hm : Memory.wf s.mem = true)
    (h : translate .w va s = .ok pa s1) (hb : s.holds .ram pa n) :
    ∃ t, storeN va n v ilen s = .next t ∧ Stored s t pa n v.toNat (s.hart.pc + ilen) ∧
      t.traces = s1.traces := by
  have hf := translate_ok_frame h
  have hr := (translate_ok h).1
  unfold storeN
  rw [memWrite_ram h hb]
  refine ⟨_, rfl, ⟨?_, ?_, ?_, ?_, ?_, ?_⟩, rfl⟩
  · obtain ⟨_, _, _, _, hp⟩ := hb
    exact fun a => read_writeN_bytes s.mem pa n v hm hp a
  · exact congrArg (· + ilen) hf.pc
  · intro r; exact State.readX_eq_of_x hf.x r
  · intro r; exact State.readF_eq_of_f hf.f r
  · exact hf.csr rfl rfl
  · have hp := hf.pc
    cases s; cases s1; simp_all [State.advance, State.setPc]

/-- What `storeN` does on bytes of ROM: nothing is stored (R85). -/
theorem storeN_rom {va pa ilen : Word} {n : Nat} {v : DWord} {s s1 : State}
    (h : translate .w va s = .ok pa s1) (hb : s.holds .rom pa n) (w : Nat) :
    ∃ t, storeN va n v ilen s = .next t ∧ Stored s t pa 0 w (s.hart.pc + ilen) ∧
      t.traces = s1.traces := by
  have hf := translate_ok_frame h
  have hr := (translate_ok h).1
  unfold storeN
  rw [memWrite_rom h hb]
  refine ⟨_, rfl, ⟨?_, ?_, ?_, ?_, ?_, ?_⟩, rfl⟩
  · intro a
    rw [if_neg (by omega)]
    exact congrArg (fun m => (Memory.read m a).toNat) hf.mem
  · exact congrArg (· + ilen) hf.pc
  · intro r; exact State.readX_eq_of_x hf.x r
  · intro r; exact State.readF_eq_of_f hf.f r
  · exact hf.csr rfl rfl
  · have hp := hf.pc
    have hm := hf.mem
    cases s; cases s1; simp_all [State.advance, State.setPc]

/-! ## The AMO access -/

/-- The AMO lock takes no part in a port access or a translation. -/
theorem physRead_lock (pa : Word) (n : Nat) (s : State) (b : Bool) :
    physRead pa n { s with amoLock := b } = (physRead pa n s).map (fun p => (p.1, { p.2 with amoLock := b })) := by
  unfold physRead
  split
  · next h => simp only at h; rw [h]; rfl
  · next d h =>
    simp only at h
    rw [h]
    cases hk : d.kind <;> simp only [hk]
    · rfl
    · rfl
    · unfold clintRead
      split <;> rename_i he
      · simp only
        cases clintReg s.cfg.numHarts (pa.toNat - d.base.toNat) with
        | none => rfl
        | some r => cases r <;> rfl
      · simp only
        cases clintReg s.cfg.numHarts (pa.toNat - d.base.toNat) with
        | none => rfl
        | some lo =>
          cases clintReg s.cfg.numHarts (pa.toNat - d.base.toNat + 4) with
          | none => rfl
          | some hi => cases lo <;> cases hi <;> rfl
      · rfl
    · rfl
    · rfl

/-- The same for a translation's result. -/
def Access.withLock {α : Type} (b : Bool) : Access α → Access α
  | .ok v s => .ok v { s with amoLock := b }
  | .raise e t s => .raise e t { s with amoLock := b }

theorem walkLeaf_lock (acc : AccessKind) (va pte pa : Word) (s : State) (b : Bool) :
    walkLeaf acc va pte pa { s with amoLock := b } = (walkLeaf acc va pte pa s).withLock b := by
  unfold walkLeaf; simp only; split <;> rfl

theorem walk_lock (acc : AccessKind) (va : Word) (s : State) (b : Bool) :
    walk acc va { s with amoLock := b } = (walk acc va s).withLock b := by
  unfold walk
  rw [physRead_lock]
  cases physRead (pteAddr (rootTable s.hart.satp) (vpn1 va)) 4 s with
  | none => rfl
  | some p =>
    obtain ⟨v, s1⟩ := p
    simp only [Option.map_some]
    split
    · rfl
    · split
      · unfold walkLevel0
        rw [physRead_lock]
        cases physRead (pteAddr (pteBase (v.setWidth 32)) (vpn0 va)) 4 s1 with
        | none => rfl
        | some p2 =>
          obtain ⟨v2, s2⟩ := p2
          simp only [Option.map_some]
          split
          · rfl
          · exact walkLeaf_lock _ _ _ _ _ _
      · split
        · rfl
        · exact walkLeaf_lock _ _ _ _ _ _

theorem translate_lock (acc : AccessKind) (va : Word) (s : State) (b : Bool) :
    translate acc va { s with amoLock := b } = (translate acc va s).withLock b := by
  unfold translate
  simp only
  split
  · rfl
  · split
    · rfl
    · exact walk_lock acc va s b

/-- The AMO lock takes no part in a port write either. -/
theorem clintSet_lock (s : State) (v : Word) (r : ClintReg) (b : Bool) :
    clintSet { s with amoLock := b } v r = { clintSet s v r with amoLock := b } := by
  cases r <;> simp only [clintSet, State.modifyHart] <;> first | rfl | (split <;> rfl)

theorem clintSet_cfg (s : State) (v : Word) (r : ClintReg) : (clintSet s v r).cfg = s.cfg := (clintSet_frame s v r).cfg

theorem physWrite_lock (pa : Word) (n : Nat) (v : DWord) (s : State) (b : Bool) :
    physWrite pa n v { s with amoLock := b } = (physWrite pa n v s).map (fun t => { t with amoLock := b }) := by
  unfold physWrite
  split
  · next h => simp only at h; rw [h]; rfl
  · next d h =>
    simp only at h
    rw [h]
    cases hk : d.kind <;> simp only [hk]
    · rfl
    · rfl
    · unfold clintWrite
      split
      · simp only
        cases clintReg s.cfg.numHarts (pa.toNat - d.base.toNat) with
        | none => rfl
        | some r => exact congrArg some (clintSet_lock s _ r b)
      · simp only
        cases clintReg s.cfg.numHarts (pa.toNat - d.base.toNat) with
        | none => rfl
        | some lo =>
          cases clintReg s.cfg.numHarts (pa.toNat - d.base.toNat + 4) with
          | none => rfl
          | some hi =>
            exact congrArg some ((congrArg (fun u => clintSet u (highWord v) hi) (clintSet_lock s _ lo b)).trans
              (clintSet_lock _ _ hi b))
      · rfl
    · rfl
    · rfl

/-- What an AMO does where the port answers both accesses. -/
theorem amo_port {op : Word → Word → Word} {rd rs1 rs2 : Reg} {pa : Word} {v : DWord} {s s1 s2 s3 : State}
    (h : translate .w (s.readX rs1) s = .ok pa s1) (hv : physRead pa 4 s1 = some (v, s2))
    (hw : physWrite pa 4 ((op (word32 v) (s.readX rs2)).setWidth 64) s2 = some s3) :
    ∃ t, amo op rd rs1 rs2 s = .next t ∧ IntResult (State.unlockAmo s3) t rd (word32 v) (s.hart.pc + 4#32) := by
  have hp : s3.hart.pc = s.hart.pc :=
    ((physWrite_frame hw).1.hart.pc).trans
      ((congrArg (fun u : State => u.hart.pc) (physRead_frame hv).rest).trans (translate_ok_frame h).pc)
  have hacc : amoAccess op (s.readX rs1) (s.readX rs2) s.lockAmo = .ok (word32 v) { s3 with amoLock := true } := by
    unfold amoAccess State.lockAmo
    rw [translate_lock, h]
    simp only [Access.withLock]
    rw [physRead_lock, hv]
    simp only [Option.map_some]
    rw [physWrite_lock, hw]
    rfl
  unfold amo
  rw [hacc]
  rw [← hp]
  exact intResult_spec rd (word32 v) ilen32 (State.unlockAmo s3)

/-- An AMO's result in terms of the state before its translation, for a write that changed memory alone. -/
theorem IntResult.amoDone {s s1 t : State} {m : Memory} {rd : Reg} {pa old new pc : Word} {n : Nat}
    (hf : TranslateFrame s s1)
    (hr : { s1 with hart := { s1.hart with tlb := s.hart.tlb }, mtime := s.mtime, io := s.io, draws := s.draws } = s)
    (hm : ∀ a : Word, (Memory.read m a).toNat =
      if pa.toNat ≤ a.toNat ∧ a.toNat < pa.toNat + n then new.toNat / 256 ^ (a.toNat - pa.toNat) % 256
      else (Memory.read s.mem a).toNat)
    (hres : IntResult (State.unlockAmo { s1 with mem := m }) t rd old pc) :
    AmoDone s t rd pa n old new pc ∧ t.traces = s1.traces := by
  have hh : { t.hart with x := s1.hart.x, pc := s1.hart.pc } = s1.hart := congrArg State.hart hres.rest
  refine ⟨⟨?_, ?_, hres.pc, ?_, ?_, ?_, ?_⟩, ?_⟩
  · intro r; rw [hres.x r]; exact ite_congr rfl (fun _ => rfl) (fun _ => State.readX_eq_of_x hf.x r)
  · intro a; rw [hres.memory a]; exact hm a
  · intro r; rw [hres.f r]; exact State.readF_eq_of_f hf.f r
  · have hc := congrArg State.cfg hres.rest
    refine hf.csr hc ?_
    exact congrArg (fun g : Hart => { g with f := s1.hart.f, priv := s1.hart.priv, tlb := s1.hart.tlb }) hh
  · have hh := congrArg State.amoLock hres.rest; exact hh
  · have h1 := hres.rest
    simp only [State.unlockAmo, hf.x, hf.pc] at h1
    have h2 := congrArg (fun u : State => { u with
      hart := { u.hart with tlb := s.hart.tlb }, mem := s.mem, mtime := s.mtime, io := s.io, draws := s.draws,
      amoLock := s.amoLock }) h1
    refine h2.trans ?_
    have h3 : ∀ u : State, u.mem = s.mem → u.amoLock = s.amoLock →
        ({ u with mem := s.mem, amoLock := s.amoLock } : State) = u := by
      intro u a b; rw [← a, ← b]
    refine (h3 { s1 with
      hart := { s1.hart with tlb := s.hart.tlb }, mtime := s.mtime, io := s.io, draws := s.draws } hf.mem hf.amoLock).trans hr
  · have hh := congrArg State.traces hres.rest; exact hh

theorem word32_readN (m : Memory) (pa : Word) : word32 (m.readN pa 4) = BitVec.ofNat 32 (bytesValue m pa 4) := by
  apply BitVec.eq_of_toNat_eq
  unfold word32
  rw [BitVec.toNat_setWidth, (Memory.toNat_readN m pa 4 (by decide)).1, BitVec.toNat_ofNat]

/-- What an AMO does on a word of RAM, and on one of ROM, which keeps its bytes. -/
theorem amo_bytes {op : Word → Word → Word} {rd rs1 rs2 : Reg} {pa : Word} {s s1 : State} (hm : Memory.wf s.mem = true)
    (h : translate .w (s.readX rs1) s = .ok pa s1) (kn : DeviceKind × Nat)
    (hk : kn ∈ [(DeviceKind.ram, 4), (.rom, 0)]) (hb : s.holds kn.1 pa 4) :
    ∃ t, amo op rd rs1 rs2 s = .next t ∧
      AmoDone s t rd pa kn.2 (BitVec.ofNat 32 (bytesValue s.mem pa 4))
        (op (BitVec.ofNat 32 (bytesValue s.mem pa 4)) (s.readX rs2)) (s.hart.pc + 4#32) ∧
      t.traces = s1.traces := by
  have hf := translate_ok_frame h
  have hr := (translate_ok h).1
  have hb1 : s1.holds kn.1 pa 4 := (State.holds_congr hf.cfg _ pa 4).2 hb
  rw [← word32_readN]
  simp only [List.mem_cons, List.not_mem_nil, or_false] at hk
  rcases hk with rfl | rfl
  · have hv := physRead_bytes (.inl hb1)
    rw [hf.mem] at hv
    obtain ⟨t, ht, hres⟩ := amo_port (op := op) (rd := rd) (rs2 := rs2) h hv (physWrite_ram _ hb1)
    refine ⟨t, ht, hres.amoDone hf hr (fun a => ?_)⟩
    obtain ⟨_, _, _, _, hp⟩ := hb
    rw [hf.mem]
    refine (read_writeN_bytes s.mem pa 4 _ hm hp a).trans ?_
    rw [BitVec.toNat_setWidth, Nat.mod_eq_of_lt (Nat.lt_of_lt_of_le (BitVec.isLt _) (by decide))]
  · have hv := physRead_bytes (.inr hb1)
    rw [hf.mem] at hv
    obtain ⟨t, ht, hres⟩ := amo_port (op := op) (rd := rd) (rs2 := rs2) h hv (physWrite_rom _ hb1)
    refine ⟨t, ht, IntResult.amoDone (m := s1.mem) hf hr (fun a => ?_) hres⟩
    rw [if_neg (by simp only; omega), hf.mem]

end Sys2Proof.Machine
end

