-- ==== Sys2Proof/Laws/Exec.lean ====
section
/-! SUPPORT. What an instruction can do, said once: `exec_cases`. Claims over all instructions go through it. -/

namespace Sys2Proof.Machine

/-- `t` is `s` but for what computation and memory accesses write: `x` (not `x0`), `f`, `pc`, the current mode's cache
entries, memory, the CLINT, the record of device accesses and the draws. -/
structure Plain (s t : State) : Prop where
  cfg : t.cfg = s.cfg
  others : List.Forall₂ ClintDiffers s.others t.others
  hart : { t.hart with x := s.hart.x, f := s.hart.f, pc := s.hart.pc, tlb := s.hart.tlb, mtimecmp := s.hart.mtimecmp, msip := s.hart.msip } = s.hart
  x0 : t.hart.x[0] = s.hart.x[0]
  wf : Memory.wf s.mem = true → Memory.wf t.mem = true
  lock : s.amoLock = false → t.amoLock = false
  tlbOther : ∀ p a, p ≠ s.hart.priv → t.hart.tlb.get p a = s.hart.tlb.get p a
  tlbM : s.hart.priv = .m → t.hart.tlb = s.hart.tlb

theorem Plain.refl (s : State) : Plain s s :=
  ⟨rfl, clintDiffers_list _, rfl, rfl, id, id, fun _ _ _ => rfl, fun _ => rfl⟩

theorem Plain.priv {s t : State} (h : Plain s t) : t.hart.priv = s.hart.priv := by
  have hh := congrArg Hart.priv h.hart; exact hh

theorem Plain.mstatus {s t : State} (h : Plain s t) : t.hart.mstatus = s.hart.mstatus := by
  have hh := congrArg Hart.mstatus h.hart; exact hh

theorem Plain.trapRegs {s t : State} (h : Plain s t) (l : Priv) : t.hart.trapRegs l = s.hart.trapRegs l := by
  cases l
  · have hh := congrArg Hart.utrap h.hart; exact hh
  · have hh := congrArg Hart.strap h.hart; exact hh
  · have hh := congrArg Hart.mtrap h.hart; exact hh

theorem Plain.halted {s t : State} (h : Plain s t) : t.hart.halted = s.hart.halted := by
  have hh := congrArg Hart.halted h.hart; exact hh

theorem Plain.trans {s t u : State} (a : Plain s t) (b : Plain t u) : Plain s u where
  cfg := b.cfg.trans a.cfg
  others := forall₂_trans (fun h g => h.trans g) a.others b.others
  hart := by
    have h1 := a.hart
    have h2 := b.hart
    rw [← h1, ← h2]
  x0 := b.x0.trans a.x0
  wf h := b.wf (a.wf h)
  lock h := b.lock (a.lock h)
  tlbOther p k hp := (b.tlbOther p k (a.priv ▸ hp)).trans (a.tlbOther p k hp)
  tlbM hp := (b.tlbM (a.priv ▸ hp)).trans (a.tlbM hp)

theorem Plain.setX (s : State) (r : Reg) (v : Word) : Plain s (s.setX r v) := by
  unfold State.setX
  split
  · exact .refl s
  · next h =>
    refine ⟨rfl, clintDiffers_list _, rfl, ?_, id, id, fun _ _ _ => rfl, fun _ => rfl⟩
    have hr : r.toNat ≠ 0 := fun h0 => h (BitVec.eq_of_toNat_eq h0)
    simp [hr]

theorem Plain.setF (s : State) (r : Reg) (v : DWord) : Plain s (s.setF r v) :=
  ⟨rfl, clintDiffers_list _, rfl, rfl, id, id, fun _ _ _ => rfl, fun _ => rfl⟩

theorem Plain.setPc (s : State) (v : Word) : Plain s (s.setPc v) :=
  ⟨rfl, clintDiffers_list _, rfl, rfl, id, id, fun _ _ _ => rfl, fun _ => rfl⟩

theorem Plain.lockAmo (s : State) : Plain s (State.unlockAmo s) :=
  ⟨rfl, clintDiffers_list _, rfl, rfl, id, fun _ => rfl, fun _ _ _ => rfl, fun _ => rfl⟩

theorem Plain.physRead {pa : Word} {n : Nat} {s t : State} {v : DWord} (h : physRead pa n s = some (v, t)) :
    Plain s t ∧ t.hart.pc = s.hart.pc := by
  have hr := (physRead_frame h).rest
  cases s; cases t
  simp at hr
  obtain ⟨rfl, rfl, rfl, rfl, rfl⟩ := hr
  exact ⟨⟨rfl, clintDiffers_list _, rfl, rfl, id, id, fun _ _ _ => rfl, fun _ => rfl⟩, rfl⟩

theorem ClintDiffers.plain {h g : Hart} (c : ClintDiffers h g) :
    { g with x := h.x, f := h.f, pc := h.pc, tlb := h.tlb, mtimecmp := h.mtimecmp, msip := h.msip } = h ∧
      g.x = h.x ∧ g.pc = h.pc ∧ g.tlb = h.tlb := by
  unfold ClintDiffers at c; cases h; cases g; simp_all

theorem Plain.physWrite {pa : Word} {n : Nat} {s t : State} {v : DWord} (h : physWrite pa n v s = some t) :
    Plain s t ∧ t.hart.pc = s.hart.pc := by
  obtain ⟨hf, hm⟩ := physWrite_frame h
  obtain ⟨h1, h2, h3, h4⟩ := hf.hart.plain
  refine ⟨⟨hf.cfg, hf.others, h1, ?_, ?_, fun hl => hf.amoLock.trans hl, fun p a _ => congrArg (fun b => Tlb.get b p a) h4,
    fun _ => h4⟩, h3⟩
  · exact congrArg (fun v : Vector Word 32 => v[0]) h2
  · intro hw
    rcases hm with hm | ⟨-, hm⟩
    · rw [hm]; exact hw
    · rw [hm]; exact Memory.wf_writeN _ _ _ _ hw

/-- A raise before it is taken, or an answer: what an access leaves. -/
def Access.Leaves {α : Type} (s : State) : Access α → Prop
  | .ok _ t => Plain s t ∧ t.hart.pc = s.hart.pc
  | .raise _ _ t => Plain s t ∧ t.hart.pc = s.hart.pc

theorem Access.Leaves.of_plain {α : Type} {s s0 : State} {r : Access α} (h : Plain s s0 ∧ s0.hart.pc = s.hart.pc)
    (hr : r.Leaves s0) : r.Leaves s := by
  cases r with
  | ok v t => exact ⟨h.1.trans hr.1, hr.2.trans h.2⟩
  | raise e tv t => exact ⟨h.1.trans hr.1, hr.2.trans h.2⟩

theorem walkLeaf_leaves (acc : AccessKind) (va pte pa : Word) (s : State) (hp : s.hart.priv ≠ .m) :
    (walkLeaf acc va pte pa s).Leaves s := by
  unfold walkLeaf
  split
  · refine ⟨⟨rfl, clintDiffers_list _, rfl, rfl, id, id, fun p a h => ?_, fun h => absurd h hp⟩, rfl⟩
    show (Tlb.put _ _ _ _).get p a = _
    cases hpr : s.hart.priv <;> cases p <;> simp_all [Tlb.put, Tlb.get, Tlb.row]
  · exact ⟨.refl s, rfl⟩

theorem walk_leaves (acc : AccessKind) (va : Word) (s : State) (hp : s.hart.priv ≠ .m) : (walk acc va s).Leaves s := by
  unfold walk
  split
  · exact ⟨.refl s, rfl⟩
  · next v s1 h1 =>
    have g1 := Plain.physRead h1
    have p1 : s1.hart.priv ≠ .m := g1.1.priv ▸ hp
    dsimp only
    split
    · exact g1
    · split
      · unfold walkLevel0
        split
        · exact g1
        · next v2 s2 h2 =>
          have g2 := Plain.physRead h2
          have p2 : s2.hart.priv ≠ .m := g2.1.priv ▸ p1
          dsimp only
          refine Access.Leaves.of_plain g1 ?_
          split
          · exact g2
          · exact Access.Leaves.of_plain g2 (walkLeaf_leaves _ _ _ _ _ p2)
      · split
        · exact g1
        · exact Access.Leaves.of_plain g1 (walkLeaf_leaves _ _ _ _ _ p1)

theorem translate_leaves (acc : AccessKind) (va : Word) (s : State) : (translate acc va s).Leaves s := by
  unfold translate
  split
  · exact ⟨.refl s, rfl⟩
  · next h =>
    dsimp only
    split
    · exact ⟨.refl s, rfl⟩
    · refine walk_leaves _ _ _ (fun hm => h ?_)
      unfold Hart.translates; rw [hm]; rfl

theorem readVia_leaves (acc : AccessKind) (va : Word) (n : Nat) (s : State) : (readVia acc va n s).Leaves s := by
  have h := translate_leaves acc va s
  unfold readVia
  split
  · next he => rw [he] at h; exact h
  · next he =>
    rw [he] at h
    split
    · exact h
    · next hr => exact Access.Leaves.of_plain h (Plain.physRead hr)

theorem memWrite_leaves (va : Word) (n : Nat) (v : DWord) (s : State) : (memWrite va n v s).Leaves s := by
  have h := translate_leaves .w va s
  unfold memWrite
  split
  · next he => rw [he] at h; exact h
  · next he =>
    rw [he] at h
    split
    · exact h
    · next hr => exact Access.Leaves.of_plain h (Plain.physWrite hr)

theorem fetch16_leaves (va : Word) (s : State) : (fetch16 va s).Leaves s := by
  have h := readVia_leaves .x va 2 s
  unfold fetch16
  split
  · next he => rw [he] at h; exact h
  · next he => rw [he] at h; exact h

theorem fetchInstr_leaves (s : State) : (fetchInstr s).Leaves s := by
  have h := fetch16_leaves s.hart.pc s
  unfold fetchInstr
  split
  · next he => rw [he] at h; exact h
  · next s1 he =>
    rw [he] at h
    split
    · exact h
    · have h2 := fetch16_leaves (s.hart.pc + 2#32) s1
      split
      · next he2 => rw [he2] at h2; exact Access.Leaves.of_plain h h2
      · next he2 => rw [he2] at h2; exact Access.Leaves.of_plain h h2

theorem Plain.unlock_of_lock {s t : State} (h : Plain s.lockAmo t) : Plain s t.unlockAmo :=
  ⟨h.cfg, h.others, h.hart, h.x0, h.wf, fun _ => rfl, h.tlbOther, h.tlbM⟩

theorem amoAccess_leaves (op : Word → Word → Word) (va src : Word) (s : State) : (amoAccess op va src s).Leaves s := by
  have h := translate_leaves .w va s
  unfold amoAccess
  split
  · next he => rw [he] at h; exact h
  · next he =>
    rw [he] at h
    split
    · exact h
    · next hr =>
      have h2 := Plain.physRead hr
      refine Access.Leaves.of_plain h ?_
      split
      · exact h2
      · next hw => exact Access.Leaves.of_plain (r := .ok 0#32 _) h2 (Plain.physWrite hw)

/-! ## The instructions -/

/-- The effects of an instruction. -/
inductive Effect (i : Instr) (s : State) : State → Prop
  /-- Computation, memory, control transfer: an even `pc` stays even. -/
  | plain {t : State} (h : Plain s t) (hpc : s.hart.pc.getLsbD 0 = false → t.hart.pc.getLsbD 0 = false) : Effect i s t
  /-- An exception raised at the instruction's `pc` after what its accesses left. -/
  | raised {s1 : State} (e : Exception) (tv : Word) (h : Plain s s1) (hpc : s1.hart.pc = s.hart.pc) :
      Effect i s (raise e tv s1)
  /-- A trap return, to a level the mode allows. -/
  | returned (l : Priv) (hi : i ∈ [Instr.mret, .sret, .uret]) (hl : l.level ≤ s.hart.priv.level) :
      Effect i s (trapReturn l s)
  /-- Break. -/
  | halted : Effect i s (haltHart s)
  /-- The write of the CSR the instruction names, which the checks allow. -/
  | csr (n : CsrNum) (v w : Word) (rd : Reg) (hi : csrWritten i = some n) (ha : csrAllowed s n true = true) :
      Effect i s (((csrWrite n v s).setX rd w).advance 4#32)

/-- An instruction that writes a CSR is a CSR instruction. -/
theorem isCsrInstr_of_csrWritten {i : Instr} {n : CsrNum} (h : csrWritten i = some n) : isCsrInstr i = true := by
  cases i <;> first | rfl | cases h

/-- `exec i s` answers a next state, by one of the effects. -/
def Does (i : Instr) (s : State) (r : Result) : Prop := ∃ t, r = .next t ∧ Effect i s t

theorem even_add {a b : Word} (ha : a.getLsbD 0 = false) (hb : b.getLsbD 0 = false) : (a + b).getLsbD 0 = false := by
  rw [BitVec.getLsbD_add (by decide), ha, hb]; simp

theorem Does.int (i : Instr) {s s1 : State} (rd : Reg) (v ilen : Word) (h : Plain s s1) (hp : s1.hart.pc = s.hart.pc)
    (he : ilen.getLsbD 0 = false) : Does i s (intResult rd v ilen s1) := by
  refine ⟨_, rfl, .plain ((h.trans (.setX s1 rd v)).trans (.setPc _ _)) (fun h0 => ?_)⟩
  rw [State.advance, State.setX_pc_hart, hp]
  exact even_add h0 he

theorem Does.fp (i : Instr) {s s1 : State} (rd : Reg) (v : DWord) (ilen : Word) (h : Plain s s1)
    (hp : s1.hart.pc = s.hart.pc) (he : ilen.getLsbD 0 = false) : Does i s (.next ((s1.setF rd v).advance ilen)) := by
  refine ⟨_, rfl, .plain ((h.trans (.setF s1 rd v)).trans (.setPc _ _)) (fun h0 => ?_)⟩
  exact even_add (hp ▸ h0) he

theorem Does.advance (i : Instr) {s s1 : State} (ilen : Word) (h : Plain s s1) (hp : s1.hart.pc = s.hart.pc)
    (he : ilen.getLsbD 0 = false) : Does i s (.next (s1.advance ilen)) := by
  refine ⟨_, rfl, .plain (h.trans (.setPc _ _)) (fun h0 => ?_)⟩
  exact even_add (hp ▸ h0) he

theorem Does.raise (i : Instr) {s s1 : State} (e : Exception) (tv : Word) (h : Plain s s1) (hp : s1.hart.pc = s.hart.pc) :
    Does i s (.next (raise e tv s1)) := ⟨_, rfl, .raised e tv h hp⟩

theorem Does.illegal (i : Instr) (s : State) (w : Word) : Does i s (illegal w s) := .raise i _ _ (.refl s) rfl

theorem Does.jump (i : Instr) (s : State) (rd : Reg) (target ilen : Word)
    (he : s.hart.pc.getLsbD 0 = false → target.getLsbD 0 = false) : Does i s (jumpAndLink rd target ilen s) :=
  ⟨_, rfl, .plain ((Plain.setX s rd _).trans (.setPc _ _)) he⟩

theorem Does.branch (i : Instr) (s : State) (c : Bool) (off ilen : Word) (ho : off.getLsbD 0 = false)
    (he : ilen.getLsbD 0 = false) : Does i s (branchTo c off ilen s) := by
  refine ⟨_, rfl, ?_⟩
  cases c
  · exact .plain (.setPc _ _) (fun h0 => even_add h0 he)
  · exact .plain (.setPc _ _) (fun h0 => even_add h0 ho)

theorem Does.loadX (i : Instr) (s : State) (rd : Reg) (va : Word) (n : Nat) (ext : DWord → Word) (ilen : Word)
    (he : ilen.getLsbD 0 = false) : Does i s (loadX rd va n ext ilen s) := by
  have h := readVia_leaves .r va n s
  unfold Machine.loadX memRead
  split
  · next hv => rw [hv] at h; exact .int i rd _ _ h.1 h.2 he
  · next hv => rw [hv] at h; exact .raise i _ _ h.1 h.2

theorem Does.loadF (i : Instr) (s : State) (rd : Reg) (va : Word) (n : Nat) (ext : DWord → DWord) (ilen : Word)
    (he : ilen.getLsbD 0 = false) : Does i s (loadF rd va n ext ilen s) := by
  have h := readVia_leaves .r va n s
  unfold Machine.loadF memRead
  split
  · next hv => rw [hv] at h; exact .fp i rd _ _ h.1 h.2 he
  · next hv => rw [hv] at h; exact .raise i _ _ h.1 h.2

theorem Does.storeN (i : Instr) (s : State) (va : Word) (n : Nat) (v : DWord) (ilen : Word)
    (he : ilen.getLsbD 0 = false) : Does i s (storeN va n v ilen s) := by
  have h := memWrite_leaves va n v s
  unfold Machine.storeN
  split
  · next hv => rw [hv] at h; exact .advance i _ h.1 h.2 he
  · next hv => rw [hv] at h; exact .raise i _ _ h.1 h.2

theorem Does.amo (i : Instr) (s : State) (op : Word → Word → Word) (rd rs1 rs2 : Reg) :
    Does i s (amo op rd rs1 rs2 s) := by
  have h := amoAccess_leaves op (s.readX rs1) (s.readX rs2) s.lockAmo
  unfold Machine.amo
  split
  · next hv => rw [hv] at h; exact .int i rd _ _ h.1.unlock_of_lock h.2 (by decide)
  · next hv => rw [hv] at h; exact .raise i _ _ h.1.unlock_of_lock h.2

theorem Does.rounding (i : Instr) (s : State) (rm : Rm) (f : RoundingMode → Result) (h : ∀ m, Does i s (f m)) :
    Does i s (withRounding i rm f s) := by
  unfold withRounding
  split
  · exact h _
  · exact .illegal i s _

theorem Does.csrAccess (i : Instr) (s : State) (w : Word) (rd : Reg) (n : CsrNum) (wr : Bool) (new : Word → Word)
    (hi : wr = true → csrWritten i = some n) : Does i s (csrAccess w rd n wr new s) := by
  unfold Machine.csrAccess
  split
  · next ha =>
    dsimp only
    cases wr
    · exact .int i rd _ _ (.refl s) rfl (by decide)
    · exact ⟨_, rfl, .csr n _ _ rd (hi rfl) ha⟩
  · exact .illegal i s w

theorem Does.breakpoint (i : Instr) (s : State) : Does i s (breakpoint s) := by
  unfold Machine.breakpoint
  split
  · exact .raise i _ _ (.refl s) rfl
  · exact ⟨_, rfl, .halted⟩

theorem Does.double (i : Instr) (s : State) (w : Word) (r : Result) (h : Does i s r) :
    Does i s (if s.cfg.hasFldFsd then r else Machine.illegal w s) := by
  split
  · exact h
  · exact .illegal i s w

theorem evenOffset {n : Nat} (v : BitVec n) : ((v ++ 0#1 : BitVec (n + 1)).signExtend 32).getLsbD 0 = false := by
  rw [BitVec.getLsbD_signExtend, if_pos (Nat.succ_pos n), BitVec.getLsbD_append]; simp

theorem evenTarget_even (v : Word) : (evenTarget v).getLsbD 0 = false := by unfold evenTarget; simp

/-- Every instruction, in every state, answers a next state by one of the effects. -/
theorem exec_cases (i : Instr) (s : State) : ∃ t, exec i s = .next t ∧ Effect i s t := by
  show Does i s (exec i s)
  have e4 : ilen32.getLsbD 0 = false := by decide
  have e2 : ilen16.getLsbD 0 = false := by decide
  have int4 : ∀ rd v, Does i s (intResult rd v ilen32 s) := fun rd v => .int i rd v _ (.refl s) rfl e4
  have int2 : ∀ rd v, Does i s (intResult rd v ilen16 s) := fun rd v => .int i rd v _ (.refl s) rfl e2
  have fp4 : ∀ rd v, Does i s (fpResult rd v ilen32 s) := fun rd v => .fp i rd _ _ (.refl s) rfl e4
  have lx4 : ∀ rd va n ext, Does i s (loadX rd va n ext ilen32 s) := fun rd va n ext => .loadX i s rd va n ext _ e4
  have lx2 : ∀ rd va n ext, Does i s (loadX rd va n ext ilen16 s) := fun rd va n ext => .loadX i s rd va n ext _ e2
  have lf4 : ∀ rd va n ext, Does i s (loadF rd va n ext ilen32 s) := fun rd va n ext => .loadF i s rd va n ext _ e4
  have lf2 : ∀ rd va n ext, Does i s (loadF rd va n ext ilen16 s) := fun rd va n ext => .loadF i s rd va n ext _ e2
  have st4 : ∀ va n v, Does i s (storeN va n v ilen32 s) := fun va n v => .storeN i s va n v _ e4
  have st2 : ∀ va n v, Does i s (storeN va n v ilen16 s) := fun va n v => .storeN i s va n v _ e2
  have am : ∀ op rd rs1 rs2, Does i s (amo op rd rs1 rs2 s) := fun op rd rs1 rs2 => .amo i s op rd rs1 rs2
  have br4 : ∀ c off, Does i s (branchTo c (immB off) ilen32 s) :=
    fun c off => .branch i s c _ _ (evenOffset off) e4
  have br2 : ∀ c off, Does i s (branchTo c (immCb off) ilen16 s) :=
    fun c off => .branch i s c _ _ (evenOffset off) e2
  cases i with
  | lui => exact int4 _ _
  | auipc => exact int4 _ _
  | jal rd off => exact .jump _ s _ _ _ (fun h0 => even_add h0 (evenOffset off))
  | jalr rd rs1 imm => exact .jump _ s _ _ _ (fun _ => evenTarget_even _)
  | beq => exact br4 _ _
  | bne => exact br4 _ _
  | blt => exact br4 _ _
  | bge => exact br4 _ _
  | bltu => exact br4 _ _
  | bgeu => exact br4 _ _
  | lb => exact lx4 _ _ _ _
  | lh => exact lx4 _ _ _ _
  | lw => exact lx4 _ _ _ _
  | lbu => exact lx4 _ _ _ _
  | lhu => exact lx4 _ _ _ _
  | sb => exact st4 _ _ _
  | sh => exact st4 _ _ _
  | sw => exact st4 _ _ _
  | addi => exact int4 _ _
  | slti => exact int4 _ _
  | sltiu => exact int4 _ _
  | xori => exact int4 _ _
  | ori => exact int4 _ _
  | andi => exact int4 _ _
  | slli => exact int4 _ _
  | srli => exact int4 _ _
  | srai => exact int4 _ _
  | add => exact int4 _ _
  | sub => exact int4 _ _
  | sll => exact int4 _ _
  | slt => exact int4 _ _
  | sltu => exact int4 _ _
  | xor => exact int4 _ _
  | srl => exact int4 _ _
  | sra => exact int4 _ _
  | or => exact int4 _ _
  | and => exact int4 _ _
  | breakHint => exact ⟨_, rfl, .halted⟩
  | mul => exact int4 _ _
  | mulh => exact int4 _ _
  | mulhsu => exact int4 _ _
  | mulhu => exact int4 _ _
  | div => exact int4 _ _
  | divu => exact int4 _ _
  | rem => exact int4 _ _
  | remu => exact int4 _ _
  | fence => exact .advance _ _ (.refl s) rfl e4
  | fenceI => exact .advance _ _ (.refl s) rfl e4
  | ecall => exact .raise _ _ _ (.refl s) rfl
  | ebreak => exact .breakpoint _ s
  | uret => exact ⟨_, rfl, .returned .u (by simp) (Nat.zero_le _)⟩
  | sret =>
    show Does _ s (execSret s)
    unfold execSret
    split
    · exact .illegal _ s _
    · next h => exact ⟨_, rfl, .returned .s (by simp) (by cases hp : s.hart.priv <;> simp_all [Priv.level])⟩
  | mret =>
    show Does _ s (execMret s)
    unfold execMret
    split
    · next h => exact ⟨_, rfl, .returned .m (by simp) (by rw [h])⟩
    · exact .illegal _ s _
  | csrrw a b c => exact (show Does _ s (execCsrrw a b c s) by unfold execCsrrw; exact .csrAccess _ s _ _ _ _ _ (fun _ => rfl))
  | csrrs a b c => exact (show Does _ s (execCsrrs a b c s) by unfold execCsrrs; exact .csrAccess _ s _ _ _ _ _ (fun h => if_neg (bne_iff_ne.1 h)))
  | csrrc a b c => exact (show Does _ s (execCsrrc a b c s) by unfold execCsrrc; exact .csrAccess _ s _ _ _ _ _ (fun h => if_neg (bne_iff_ne.1 h)))
  | csrrwi a b c => exact (show Does _ s (execCsrrwi a b c s) by unfold execCsrrwi; exact .csrAccess _ s _ _ _ _ _ (fun _ => rfl))
  | csrrsi a b c => exact (show Does _ s (execCsrrsi a b c s) by unfold execCsrrsi; exact .csrAccess _ s _ _ _ _ _ (fun h => if_neg (bne_iff_ne.1 h)))
  | csrrci a b c => exact (show Does _ s (execCsrrci a b c s) by unfold execCsrrci; exact .csrAccess _ s _ _ _ _ _ (fun h => if_neg (bne_iff_ne.1 h)))
  | amoswapW => exact am _ _ _ _
  | amoaddW => exact am _ _ _ _
  | amoxorW => exact am _ _ _ _
  | amoandW => exact am _ _ _ _
  | amoorW => exact am _ _ _ _
  | amominW => exact am _ _ _ _
  | amomaxW => exact am _ _ _ _
  | amominuW => exact am _ _ _ _
  | amomaxuW => exact am _ _ _ _
  | flw => exact lf4 _ _ _ _
  | fsw => exact st4 _ _ _
  | fld a b c => exact (show Does _ s (execFld a b c s) by unfold execFld; exact .double _ s _ _ (lf4 _ _ _ _))
  | fsd a b c => exact (show Does _ s (execFsd a b c s) by unfold execFsd; exact .double _ s _ _ (st4 _ _ _))
  | faddS => exact .rounding _ s _ _ (fun _ => fp4 _ _)
  | fsubS => exact .rounding _ s _ _ (fun _ => fp4 _ _)
  | fmulS => exact .rounding _ s _ _ (fun _ => fp4 _ _)
  | fdivS => exact .rounding _ s _ _ (fun _ => fp4 _ _)
  | fsqrtS => exact .rounding _ s _ _ (fun _ => fp4 _ _)
  | fsgnjS => exact fp4 _ _
  | fsgnjnS => exact fp4 _ _
  | fsgnjxS => exact fp4 _ _
  | fminS => exact fp4 _ _
  | fmaxS => exact fp4 _ _
  | fcvtWS => exact .rounding _ s _ _ (fun _ => int4 _ _)
  | fcvtWuS => exact .rounding _ s _ _ (fun _ => int4 _ _)
  | fmvXW => exact int4 _ _
  | fclassS => exact int4 _ _
  | feqS => exact int4 _ _
  | fltS => exact int4 _ _
  | fleS => exact int4 _ _
  | fcvtSW => exact .rounding _ s _ _ (fun _ => fp4 _ _)
  | fcvtSWu => exact .rounding _ s _ _ (fun _ => fp4 _ _)
  | fmvWX => exact fp4 _ _
  | cAddi4spn => exact int2 _ _
  | cFld a b c => exact (show Does _ s (execCFld a b c s) by unfold execCFld; exact .double _ s _ _ (lf2 _ _ _ _))
  | cLw => exact lx2 _ _ _ _
  | cFlw => exact lf2 _ _ _ _
  | cFsd a b c => exact (show Does _ s (execCFsd a b c s) by unfold execCFsd; exact .double _ s _ _ (st2 _ _ _))
  | cSw => exact st2 _ _ _
  | cFsw => exact st2 _ _ _
  | cNop => exact .advance _ _ (.refl s) rfl e2
  | cAddi => exact int2 _ _
  | cJal off => exact .jump _ s _ _ _ (fun h0 => even_add h0 (evenOffset off))
  | cLi => exact int2 _ _
  | cAddi16sp => exact int2 _ _
  | cLui => exact int2 _ _
  | cSrli => exact int2 _ _
  | cSrai => exact int2 _ _
  | cAndi => exact int2 _ _
  | cSub => exact int2 _ _
  | cXor => exact int2 _ _
  | cOr => exact int2 _ _
  | cAnd => exact int2 _ _
  | cJ off => exact ⟨_, rfl, .plain (.setPc _ _) (fun h0 => even_add h0 (evenOffset off))⟩
  | cBeqz => exact br2 _ _
  | cBnez => exact br2 _ _
  | cSlli => exact int2 _ _
  | cFldsp a b => exact (show Does _ s (execCFldsp a b s) by unfold execCFldsp; exact .double _ s _ _ (lf2 _ _ _ _))
  | cLwsp => exact lx2 _ _ _ _
  | cFlwsp => exact lf2 _ _ _ _
  | cJr => exact ⟨_, rfl, .plain (.setPc _ _) (fun _ => evenTarget_even _)⟩
  | cMv => exact int2 _ _
  | cEbreak => exact .breakpoint _ s
  | cJalr => exact .jump _ s _ _ _ (fun _ => evenTarget_even _)
  | cAdd => exact int2 _ _
  | cFsdsp a b => exact (show Does _ s (execCFsdsp a b s) by unfold execCFsdsp; exact .double _ s _ _ (st2 _ _ _))
  | cSwsp => exact st2 _ _ _
  | cFswsp => exact st2 _ _ _

end Sys2Proof.Machine
end

