-- ==== Sys2Proof/Laws/Host.lean ====
section
/-! SUPPORT. What the host's moves do to memory and to the translation cache (R83, R512). -/

namespace Sys2Proof.Machine

/-- A table filtered by its keys. -/
theorem sparseGet_filter {β : Type} (d : β) (k : Nat) (q : Nat → Bool) (l : List (Nat × β)) :
    sparseGet d k (l.filter (fun c => q c.1)) = if q k then sparseGet d k l else d := by
  induction l with
  | nil => simp [sparseGet]
  | cons c t ih =>
    obtain ⟨k', v⟩ := c
    by_cases hk : k' = k
    · subst hk
      cases hq : q k' <;> simp_all [sparseGet]
    · cases hq : q k' <;> simp_all [sparseGet]

theorem sparseWf_filter {β : Type} [DecidableEq β] (d : β) (p : Nat × β → Bool) (l : List (Nat × β))
    (h : sparseWf d l = true) : sparseWf d (l.filter p) = true := by
  induction l with
  | nil => rfl
  | cons c t ih =>
    obtain ⟨k, v⟩ := c
    rw [sparseWf_cons] at h
    obtain ⟨hv, ht, hw⟩ := h
    cases hp : p (k, v)
    · rw [List.filter_cons_of_neg (by rw [hp]; decide)]; exact ih hw
    · rw [List.filter_cons_of_pos hp, sparseWf_cons]
      exact ⟨hv, fun e he => ht e (List.mem_filter.1 he).1, ih hw⟩

theorem Memory.wf_filter (m : Memory) (p : Host.Cell → Bool) (h : Memory.wf m = true) :
    Memory.wf (m.filter p) = true := by
  unfold Memory.wf at *
  simp only [Bool.and_eq_true, List.all_eq_true] at *
  exact ⟨sparseWf_filter _ p m h.1, fun c hc => h.2 c (List.mem_filter.1 hc).1⟩

/-- A byte after a resize: one the resize drops reads as fresh RAM, every other one as before (R83). -/
theorem resizeRam_read (s : State) (base size : Word) (d : Device)
    (hd : s.cfg.devices.find? (fun d => d.kind == .ram && d.base == base) = some d) (a : Word) :
    Memory.read (s.resizeRam base size).mem a =
      if resizeDrops s.cfg.devices d size a.toNat then Memory.unlisted else Memory.read s.mem a := by
  unfold State.resizeRam
  rw [hd]
  refine (sparseGet_filter Memory.unlisted a.toNat (fun k => !resizeDrops s.cfg.devices d size k) s.mem).trans ?_
  cases resizeDrops s.cfg.devices d size a.toNat <;> rfl

/-- "zero-extends": every byte past the old end that the grown RAM answers for is zero, whatever lay there before (R83). -/
theorem resizeRam_extends (s : State) (base size : Word) (d : Device)
    (hd : s.cfg.devices.find? (fun d => d.kind == .ram && d.base == base) = some d) (a : Word)
    (h1 : d.size.toNat < size.toNat) (h2 : d.base.toNat + d.size.toNat ≤ a.toNat)
    (h3 : (s.resizeRam base size).cfg.devices.find? (claims a) = some { d with size := size }) :
    Memory.read (s.resizeRam base size).mem a = 0#8 := by
  rw [resizeRam_read s base size d hd a]
  unfold State.resizeRam at h3
  rw [hd] at h3
  have h4 : resizeDrops s.cfg.devices d size a.toNat = true := by
    unfold resizeDrops
    dsimp only at h3 ⊢
    rw [if_pos h1, BitVec.ofNat_toNat, BitVec.setWidth_eq, h3, Nat.min_eq_right (Nat.le_of_lt h1)]
    simp [h2]
  rw [h4]; rfl

/-- "truncates": no byte that the RAM held past its new end is kept (R83). -/
theorem resizeRam_truncates (s : State) (base size : Word) (d : Device)
    (hd : s.cfg.devices.find? (fun d => d.kind == .ram && d.base == base) = some d) (a : Word)
    (h1 : size.toNat ≤ d.size.toNat) (h2 : d.base.toNat + size.toNat ≤ a.toNat)
    (h3 : s.cfg.devices.find? (claims a) = some d) : Memory.read (s.resizeRam base size).mem a = Memory.unlisted := by
  rw [resizeRam_read s base size d hd a]
  have hself : replaceDevice s.cfg.devices d d = s.cfg.devices := by
    unfold replaceDevice
    conv_rhs => rw [← List.map_id s.cfg.devices]
    refine List.map_congr_left (fun k _ => ?_)
    dsimp only [id]
    split
    · next h => exact h.symm
    · rfl
  have h4 : resizeDrops s.cfg.devices d size a.toNat = true := by
    unfold resizeDrops
    dsimp only
    rw [if_neg (by omega), hself, BitVec.ofNat_toNat, BitVec.setWidth_eq, h3, Nat.min_eq_left h1]
    simp [h2]
  rw [h4]; rfl

theorem State.loadByte_wf (s : State) (pa : Word) (b : Byte) (h : Memory.wf s.mem = true) :
    Memory.wf (s.loadByte pa b).mem = true := by
  unfold State.loadByte
  split
  · exact h
  · split
    · exact Memory.wf_write _ _ _ h
    · exact Memory.wf_write _ _ _ h
    · exact h
    · exact h
    · exact h

theorem State.loadImage_wf (l : List Byte) (s : State) (pa : Word) (h : Memory.wf s.mem = true) :
    Memory.wf (s.loadImage pa l).mem = true := by
  induction l generalizing s pa with
  | nil => exact h
  | cons b l ih => exact ih _ _ (s.loadByte_wf pa b h)

theorem State.modifyHart_mem (s : State) (i : Nat) (f : Hart → Hart) : (s.modifyHart i f).mem = s.mem := by
  unfold State.modifyHart; split <;> rfl

/-- Every host move keeps the canonical form of memory. -/
theorem HostMove.wf {s t : State} (h : HostMove s t) (hw : Memory.wf s.mem = true) : Memory.wf t.mem = true := by
  cases h with
  | resume i => unfold State.resume; rw [State.modifyHart_mem]; exact hw
  | write i w => unfold State.hostWrite; rw [State.modifyHart_mem]; exact hw
  | restore i saved => unfold State.restore; rw [State.modifyHart_mem]; exact hw
  | device pa n v t hn ht => exact (Plain.physWrite ht).1.wf hw
  | image pa l => exact s.loadImage_wf l pa hw
  | resize base size =>
    unfold State.resizeRam
    split
    · exact hw
    · exact Memory.wf_filter _ _ hw

/-- A host write of an item of a hart leaves its translation cache as it was (R512 b). -/
theorem State.hostWrite_tlb (s : State) (w : HartItem) :
    (s.hostWrite s.hart.hartid w).hart.tlb = s.hart.tlb := by
  unfold State.hostWrite State.modifyHart; rw [if_pos rfl]

end Sys2Proof.Machine
end

