-- ==== Sys2Proof/Laws/PerInstr.lean ====
section
/-! SUPPORT. Facts about every instruction as syntax, one lemma for each constructor: the family `EncodedLength` says that the
low two bits of an encoding tell its length (spec/30_encoding.md R130). -/

namespace Sys2Proof.Laws

/-- The low two bits of a concatenation are those of its last field. -/
theorem low_append {n m : Nat} (x : BitVec n) (y : BitVec m) (h : 2 ≤ m) :
    (x ++ y).extractLsb' 0 2 = y.extractLsb' 0 2 := by
  apply BitVec.eq_of_getLsbD_eq
  intro i hi
  rw [BitVec.getLsbD_extractLsb', BitVec.getLsbD_extractLsb', BitVec.getLsbD_append, if_pos (by omega)]

end Sys2Proof.Laws

namespace Sys2Proof.Laws.EncodedLength

/-- The low two bits of the first parcel are 11 exactly for a 32-bit encoding. -/
def agrees : RawInstr → Prop
  | .half h => h.extractLsb' 0 2 ≠ 3#2
  | .word w => w.extractLsb' 0 2 = 3#2

/-- Under every well-formed configuration, the encoding of the instruction, if it is well-formed, tells its length. -/
def Statement (i : Instr) : Prop :=
  ∀ cfg : Config, cfg.wf = true → i.wellFormed cfg = true → agrees (encode cfg i)

theorem low_cast {n m : Nat} (h : n = m) (v : BitVec n) : (v.cast h).extractLsb' 0 2 = v.extractLsb' 0 2 := by
  subst h; rfl

theorem word {n : Nat} {x : BitVec n} {op : BitVec 7} (w : Word) (hn : n + 7 = 32) (hw : w = (x ++ op).cast hn)
    (hop : op.extractLsb' 0 2 = 3#2) : agrees (.word w) := by
  subst hw
  exact (low_cast hn _).trans ((low_append x op (by decide)).trans hop)

theorem half {n : Nat} {x : BitVec n} {op : BitVec 2} (h : Half) (hn : n + 2 = 16) (hh : h = (x ++ op).cast hn)
    (hop : op.extractLsb' 0 2 ≠ 3#2) : agrees (.half h) := by
  subst hh
  exact fun hc => hop (((low_append x op (by decide)).symm.trans (low_cast hn _).symm).trans hc)

theorem lui (rd : Reg) (imm20 : BitVec 20) : Statement (.lui rd imm20) := fun _ _ _ => word _ rfl rfl (by decide)

theorem auipc (rd : Reg) (imm20 : BitVec 20) : Statement (.auipc rd imm20) := fun _ _ _ => word _ rfl rfl (by decide)

theorem jal (rd : Reg) (off : BitVec 20) : Statement (.jal rd off) := fun _ _ _ => word _ rfl rfl (by decide)

theorem jalr (rd rs1 : Reg) (imm : BitVec 12) : Statement (.jalr rd rs1 imm) := fun _ _ _ => word _ rfl rfl (by decide)

theorem beq (rs1 rs2 : Reg) (off : BitVec 12) : Statement (.beq rs1 rs2 off) := fun _ _ _ => word _ rfl rfl (by decide)

theorem bne (rs1 rs2 : Reg) (off : BitVec 12) : Statement (.bne rs1 rs2 off) := fun _ _ _ => word _ rfl rfl (by decide)

theorem blt (rs1 rs2 : Reg) (off : BitVec 12) : Statement (.blt rs1 rs2 off) := fun _ _ _ => word _ rfl rfl (by decide)

theorem bge (rs1 rs2 : Reg) (off : BitVec 12) : Statement (.bge rs1 rs2 off) := fun _ _ _ => word _ rfl rfl (by decide)

theorem bltu (rs1 rs2 : Reg) (off : BitVec 12) : Statement (.bltu rs1 rs2 off) := fun _ _ _ => word _ rfl rfl (by decide)

theorem bgeu (rs1 rs2 : Reg) (off : BitVec 12) : Statement (.bgeu rs1 rs2 off) := fun _ _ _ => word _ rfl rfl (by decide)

theorem lb (rd rs1 : Reg) (imm : BitVec 12) : Statement (.lb rd rs1 imm) := fun _ _ _ => word _ rfl rfl (by decide)

theorem lh (rd rs1 : Reg) (imm : BitVec 12) : Statement (.lh rd rs1 imm) := fun _ _ _ => word _ rfl rfl (by decide)

theorem lw (rd rs1 : Reg) (imm : BitVec 12) : Statement (.lw rd rs1 imm) := fun _ _ _ => word _ rfl rfl (by decide)

theorem lbu (rd rs1 : Reg) (imm : BitVec 12) : Statement (.lbu rd rs1 imm) := fun _ _ _ => word _ rfl rfl (by decide)

theorem lhu (rd rs1 : Reg) (imm : BitVec 12) : Statement (.lhu rd rs1 imm) := fun _ _ _ => word _ rfl rfl (by decide)

theorem sb (rs1 rs2 : Reg) (imm : BitVec 12) : Statement (.sb rs1 rs2 imm) := fun _ _ _ => word _ rfl rfl (by decide)

theorem sh (rs1 rs2 : Reg) (imm : BitVec 12) : Statement (.sh rs1 rs2 imm) := fun _ _ _ => word _ rfl rfl (by decide)

theorem sw (rs1 rs2 : Reg) (imm : BitVec 12) : Statement (.sw rs1 rs2 imm) := fun _ _ _ => word _ rfl rfl (by decide)

theorem addi (rd rs1 : Reg) (imm : BitVec 12) : Statement (.addi rd rs1 imm) := fun _ _ _ => word _ rfl rfl (by decide)

theorem slti (rd rs1 : Reg) (imm : BitVec 12) : Statement (.slti rd rs1 imm) := fun _ _ _ => word _ rfl rfl (by decide)

theorem sltiu (rd rs1 : Reg) (imm : BitVec 12) : Statement (.sltiu rd rs1 imm) := fun _ _ _ => word _ rfl rfl (by decide)

theorem xori (rd rs1 : Reg) (imm : BitVec 12) : Statement (.xori rd rs1 imm) := fun _ _ _ => word _ rfl rfl (by decide)

theorem ori (rd rs1 : Reg) (imm : BitVec 12) : Statement (.ori rd rs1 imm) := fun _ _ _ => word _ rfl rfl (by decide)

theorem andi (rd rs1 : Reg) (imm : BitVec 12) : Statement (.andi rd rs1 imm) := fun _ _ _ => word _ rfl rfl (by decide)

theorem slli (rd rs1 : Reg) (shamt : BitVec 5) : Statement (.slli rd rs1 shamt) := fun _ _ _ => word _ rfl rfl (by decide)

theorem srli (rd rs1 : Reg) (shamt : BitVec 5) : Statement (.srli rd rs1 shamt) := fun _ _ _ => word _ rfl rfl (by decide)

theorem srai (rd rs1 : Reg) (shamt : BitVec 5) : Statement (.srai rd rs1 shamt) := fun _ _ _ => word _ rfl rfl (by decide)

theorem add (rd rs1 rs2 : Reg) : Statement (.add rd rs1 rs2) := fun _ _ _ => word _ rfl rfl (by decide)

theorem sub (rd rs1 rs2 : Reg) : Statement (.sub rd rs1 rs2) := fun _ _ _ => word _ rfl rfl (by decide)

theorem sll (rd rs1 rs2 : Reg) : Statement (.sll rd rs1 rs2) := fun _ _ _ => word _ rfl rfl (by decide)

theorem slt (rd rs1 rs2 : Reg) : Statement (.slt rd rs1 rs2) := fun _ _ _ => word _ rfl rfl (by decide)

theorem sltu (rd rs1 rs2 : Reg) : Statement (.sltu rd rs1 rs2) := fun _ _ _ => word _ rfl rfl (by decide)

theorem xor (rd rs1 rs2 : Reg) : Statement (.xor rd rs1 rs2) := fun _ _ _ => word _ rfl rfl (by decide)

theorem srl (rd rs1 rs2 : Reg) : Statement (.srl rd rs1 rs2) := fun _ _ _ => word _ rfl rfl (by decide)

theorem sra (rd rs1 rs2 : Reg) : Statement (.sra rd rs1 rs2) := fun _ _ _ => word _ rfl rfl (by decide)

theorem or (rd rs1 rs2 : Reg) : Statement (.or rd rs1 rs2) := fun _ _ _ => word _ rfl rfl (by decide)

theorem and (rd rs1 rs2 : Reg) : Statement (.and rd rs1 rs2) := fun _ _ _ => word _ rfl rfl (by decide)

theorem breakHint : Statement .breakHint := by
  intro cfg _ hw
  have h : ∀ w : Word, Config.isSltWord w = true → w.extractLsb' 0 2 = 3#2 := by
    intro w hw
    have h7 : w.extractLsb' 0 7 = 0x33#7 := by
      unfold Config.isSltWord at hw; simp at hw; exact hw.1.1
    apply BitVec.eq_of_getLsbD_eq
    intro i hi
    have hb := congrArg (fun v => BitVec.getLsbD v i) h7
    simp only [BitVec.getLsbD_extractLsb'] at hb ⊢
    have h1 : i < 7 := by omega
    simp only [hi, h1, decide_true, Bool.true_and] at hb ⊢
    rw [hb]
    interval_cases i <;> rfl
  show agrees (encode cfg .breakHint)
  unfold encode
  cases hb : cfg.breakHintWord with
  | none => rw [Instr.wellFormed, hb] at hw; cases hw
  | some w => rw [Instr.wellFormed, hb] at hw; exact h w hw

theorem mul (rd rs1 rs2 : Reg) : Statement (.mul rd rs1 rs2) := fun _ _ _ => word _ rfl rfl (by decide)

theorem mulh (rd rs1 rs2 : Reg) : Statement (.mulh rd rs1 rs2) := fun _ _ _ => word _ rfl rfl (by decide)

theorem mulhsu (rd rs1 rs2 : Reg) : Statement (.mulhsu rd rs1 rs2) := fun _ _ _ => word _ rfl rfl (by decide)

theorem mulhu (rd rs1 rs2 : Reg) : Statement (.mulhu rd rs1 rs2) := fun _ _ _ => word _ rfl rfl (by decide)

theorem div (rd rs1 rs2 : Reg) : Statement (.div rd rs1 rs2) := fun _ _ _ => word _ rfl rfl (by decide)

theorem divu (rd rs1 rs2 : Reg) : Statement (.divu rd rs1 rs2) := fun _ _ _ => word _ rfl rfl (by decide)

theorem rem (rd rs1 rs2 : Reg) : Statement (.rem rd rs1 rs2) := fun _ _ _ => word _ rfl rfl (by decide)

theorem remu (rd rs1 rs2 : Reg) : Statement (.remu rd rs1 rs2) := fun _ _ _ => word _ rfl rfl (by decide)

theorem fence (fm pred succ : BitVec 4) (rs1 rd : Reg) : Statement (.fence fm pred succ rs1 rd) := fun _ _ _ => word _ rfl rfl (by decide)

theorem fenceI (imm : BitVec 12) (rs1 rd : Reg) : Statement (.fenceI imm rs1 rd) := fun _ _ _ => word _ rfl rfl (by decide)

theorem ecall : Statement (.ecall) := fun _ _ _ => word _ rfl rfl (by decide)

theorem ebreak : Statement (.ebreak) := fun _ _ _ => word _ rfl rfl (by decide)

theorem uret : Statement (.uret) := fun _ _ _ => word _ rfl rfl (by decide)

theorem sret : Statement (.sret) := fun _ _ _ => word _ rfl rfl (by decide)

theorem mret : Statement (.mret) := fun _ _ _ => word _ rfl rfl (by decide)

theorem csrrw (rd rs1 : Reg) (csr : CsrNum) : Statement (.csrrw rd rs1 csr) := fun _ _ _ => word _ rfl rfl (by decide)

theorem csrrs (rd rs1 : Reg) (csr : CsrNum) : Statement (.csrrs rd rs1 csr) := fun _ _ _ => word _ rfl rfl (by decide)

theorem csrrc (rd rs1 : Reg) (csr : CsrNum) : Statement (.csrrc rd rs1 csr) := fun _ _ _ => word _ rfl rfl (by decide)

theorem csrrwi (rd : Reg) (uimm : BitVec 5) (csr : CsrNum) : Statement (.csrrwi rd uimm csr) := fun _ _ _ => word _ rfl rfl (by decide)

theorem csrrsi (rd : Reg) (uimm : BitVec 5) (csr : CsrNum) : Statement (.csrrsi rd uimm csr) := fun _ _ _ => word _ rfl rfl (by decide)

theorem csrrci (rd : Reg) (uimm : BitVec 5) (csr : CsrNum) : Statement (.csrrci rd uimm csr) := fun _ _ _ => word _ rfl rfl (by decide)

theorem amoswapW (rd rs1 rs2 : Reg) (aq rl : Bool) : Statement (.amoswapW rd rs1 rs2 aq rl) := fun _ _ _ => word _ rfl rfl (by decide)

theorem amoaddW (rd rs1 rs2 : Reg) (aq rl : Bool) : Statement (.amoaddW rd rs1 rs2 aq rl) := fun _ _ _ => word _ rfl rfl (by decide)

theorem amoxorW (rd rs1 rs2 : Reg) (aq rl : Bool) : Statement (.amoxorW rd rs1 rs2 aq rl) := fun _ _ _ => word _ rfl rfl (by decide)

theorem amoandW (rd rs1 rs2 : Reg) (aq rl : Bool) : Statement (.amoandW rd rs1 rs2 aq rl) := fun _ _ _ => word _ rfl rfl (by decide)

theorem amoorW (rd rs1 rs2 : Reg) (aq rl : Bool) : Statement (.amoorW rd rs1 rs2 aq rl) := fun _ _ _ => word _ rfl rfl (by decide)

theorem amominW (rd rs1 rs2 : Reg) (aq rl : Bool) : Statement (.amominW rd rs1 rs2 aq rl) := fun _ _ _ => word _ rfl rfl (by decide)

theorem amomaxW (rd rs1 rs2 : Reg) (aq rl : Bool) : Statement (.amomaxW rd rs1 rs2 aq rl) := fun _ _ _ => word _ rfl rfl (by decide)

theorem amominuW (rd rs1 rs2 : Reg) (aq rl : Bool) : Statement (.amominuW rd rs1 rs2 aq rl) := fun _ _ _ => word _ rfl rfl (by decide)

theorem amomaxuW (rd rs1 rs2 : Reg) (aq rl : Bool) : Statement (.amomaxuW rd rs1 rs2 aq rl) := fun _ _ _ => word _ rfl rfl (by decide)

theorem flw (frd rs1 : Reg) (imm : BitVec 12) : Statement (.flw frd rs1 imm) := fun _ _ _ => word _ rfl rfl (by decide)

theorem fsw (rs1 frs2 : Reg) (imm : BitVec 12) : Statement (.fsw rs1 frs2 imm) := fun _ _ _ => word _ rfl rfl (by decide)

theorem fld (frd rs1 : Reg) (imm : BitVec 12) : Statement (.fld frd rs1 imm) := fun _ _ _ => word _ rfl rfl (by decide)

theorem fsd (rs1 frs2 : Reg) (imm : BitVec 12) : Statement (.fsd rs1 frs2 imm) := fun _ _ _ => word _ rfl rfl (by decide)

theorem faddS (frd frs1 frs2 : Reg) (rm : Rm) : Statement (.faddS frd frs1 frs2 rm) := fun _ _ _ => word _ rfl rfl (by decide)

theorem fsubS (frd frs1 frs2 : Reg) (rm : Rm) : Statement (.fsubS frd frs1 frs2 rm) := fun _ _ _ => word _ rfl rfl (by decide)

theorem fmulS (frd frs1 frs2 : Reg) (rm : Rm) : Statement (.fmulS frd frs1 frs2 rm) := fun _ _ _ => word _ rfl rfl (by decide)

theorem fdivS (frd frs1 frs2 : Reg) (rm : Rm) : Statement (.fdivS frd frs1 frs2 rm) := fun _ _ _ => word _ rfl rfl (by decide)

theorem fsqrtS (frd frs1 : Reg) (rm : Rm) : Statement (.fsqrtS frd frs1 rm) := fun _ _ _ => word _ rfl rfl (by decide)

theorem fsgnjS (frd frs1 frs2 : Reg) : Statement (.fsgnjS frd frs1 frs2) := fun _ _ _ => word _ rfl rfl (by decide)

theorem fsgnjnS (frd frs1 frs2 : Reg) : Statement (.fsgnjnS frd frs1 frs2) := fun _ _ _ => word _ rfl rfl (by decide)

theorem fsgnjxS (frd frs1 frs2 : Reg) : Statement (.fsgnjxS frd frs1 frs2) := fun _ _ _ => word _ rfl rfl (by decide)

theorem fminS (frd frs1 frs2 : Reg) : Statement (.fminS frd frs1 frs2) := fun _ _ _ => word _ rfl rfl (by decide)

theorem fmaxS (frd frs1 frs2 : Reg) : Statement (.fmaxS frd frs1 frs2) := fun _ _ _ => word _ rfl rfl (by decide)

theorem fcvtWS (rd frs1 : Reg) (rm : Rm) : Statement (.fcvtWS rd frs1 rm) := fun _ _ _ => word _ rfl rfl (by decide)

theorem fcvtWuS (rd frs1 : Reg) (rm : Rm) : Statement (.fcvtWuS rd frs1 rm) := fun _ _ _ => word _ rfl rfl (by decide)

theorem fmvXW (rd frs1 : Reg) : Statement (.fmvXW rd frs1) := fun _ _ _ => word _ rfl rfl (by decide)

theorem fclassS (rd frs1 : Reg) : Statement (.fclassS rd frs1) := fun _ _ _ => word _ rfl rfl (by decide)

theorem feqS (rd frs1 frs2 : Reg) : Statement (.feqS rd frs1 frs2) := fun _ _ _ => word _ rfl rfl (by decide)

theorem fltS (rd frs1 frs2 : Reg) : Statement (.fltS rd frs1 frs2) := fun _ _ _ => word _ rfl rfl (by decide)

theorem fleS (rd frs1 frs2 : Reg) : Statement (.fleS rd frs1 frs2) := fun _ _ _ => word _ rfl rfl (by decide)

theorem fcvtSW (frd rs1 : Reg) (rm : Rm) : Statement (.fcvtSW frd rs1 rm) := fun _ _ _ => word _ rfl rfl (by decide)

theorem fcvtSWu (frd rs1 : Reg) (rm : Rm) : Statement (.fcvtSWu frd rs1 rm) := fun _ _ _ => word _ rfl rfl (by decide)

theorem fmvWX (frd rs1 : Reg) : Statement (.fmvWX frd rs1) := fun _ _ _ => word _ rfl rfl (by decide)

theorem cAddi4spn (rd' : PrimeReg) (nzuimm : BitVec 8) : Statement (.cAddi4spn rd' nzuimm) := fun _ _ _ => half _ rfl rfl (by decide)

theorem cFld (frd' rs1' : PrimeReg) (uimm : BitVec 5) : Statement (.cFld frd' rs1' uimm) := fun _ _ _ => half _ rfl rfl (by decide)

theorem cLw (rd' rs1' : PrimeReg) (uimm : BitVec 5) : Statement (.cLw rd' rs1' uimm) := fun _ _ _ => half _ rfl rfl (by decide)

theorem cFlw (frd' rs1' : PrimeReg) (uimm : BitVec 5) : Statement (.cFlw frd' rs1' uimm) := fun _ _ _ => half _ rfl rfl (by decide)

theorem cFsd (rs1' frs2' : PrimeReg) (uimm : BitVec 5) : Statement (.cFsd rs1' frs2' uimm) := fun _ _ _ => half _ rfl rfl (by decide)

theorem cSw (rs1' rs2' : PrimeReg) (uimm : BitVec 5) : Statement (.cSw rs1' rs2' uimm) := fun _ _ _ => half _ rfl rfl (by decide)

theorem cFsw (rs1' frs2' : PrimeReg) (uimm : BitVec 5) : Statement (.cFsw rs1' frs2' uimm) := fun _ _ _ => half _ rfl rfl (by decide)

theorem cNop (imm : BitVec 6) : Statement (.cNop imm) := fun _ _ _ => half _ rfl rfl (by decide)

theorem cAddi (rd : Reg) (imm : BitVec 6) : Statement (.cAddi rd imm) := fun _ _ _ => half _ rfl rfl (by decide)

theorem cJal (off : BitVec 11) : Statement (.cJal off) := fun _ _ _ => half _ rfl rfl (by decide)

theorem cLi (rd : Reg) (imm : BitVec 6) : Statement (.cLi rd imm) := fun _ _ _ => half _ rfl rfl (by decide)

theorem cAddi16sp (imm : BitVec 6) : Statement (.cAddi16sp imm) := fun _ _ _ => half _ rfl rfl (by decide)

theorem cLui (rd : Reg) (imm : BitVec 6) : Statement (.cLui rd imm) := fun _ _ _ => half _ rfl rfl (by decide)

theorem cSrli (rd' : PrimeReg) (shamt : BitVec 5) : Statement (.cSrli rd' shamt) := fun _ _ _ => half _ rfl rfl (by decide)

theorem cSrai (rd' : PrimeReg) (shamt : BitVec 5) : Statement (.cSrai rd' shamt) := fun _ _ _ => half _ rfl rfl (by decide)

theorem cAndi (rd' : PrimeReg) (imm : BitVec 6) : Statement (.cAndi rd' imm) := fun _ _ _ => half _ rfl rfl (by decide)

theorem cSub (rd' rs2' : PrimeReg) : Statement (.cSub rd' rs2') := fun _ _ _ => half _ rfl rfl (by decide)

theorem cXor (rd' rs2' : PrimeReg) : Statement (.cXor rd' rs2') := fun _ _ _ => half _ rfl rfl (by decide)

theorem cOr (rd' rs2' : PrimeReg) : Statement (.cOr rd' rs2') := fun _ _ _ => half _ rfl rfl (by decide)

theorem cAnd (rd' rs2' : PrimeReg) : Statement (.cAnd rd' rs2') := fun _ _ _ => half _ rfl rfl (by decide)

theorem cJ (off : BitVec 11) : Statement (.cJ off) := fun _ _ _ => half _ rfl rfl (by decide)

theorem cBeqz (rs1' : PrimeReg) (off : BitVec 8) : Statement (.cBeqz rs1' off) := fun _ _ _ => half _ rfl rfl (by decide)

theorem cBnez (rs1' : PrimeReg) (off : BitVec 8) : Statement (.cBnez rs1' off) := fun _ _ _ => half _ rfl rfl (by decide)

theorem cSlli (rd : Reg) (shamt : BitVec 5) : Statement (.cSlli rd shamt) := fun _ _ _ => half _ rfl rfl (by decide)

theorem cFldsp (frd : Reg) (uimm : BitVec 6) : Statement (.cFldsp frd uimm) := fun _ _ _ => half _ rfl rfl (by decide)

theorem cLwsp (rd : Reg) (uimm : BitVec 6) : Statement (.cLwsp rd uimm) := fun _ _ _ => half _ rfl rfl (by decide)

theorem cFlwsp (frd : Reg) (uimm : BitVec 6) : Statement (.cFlwsp frd uimm) := fun _ _ _ => half _ rfl rfl (by decide)

theorem cJr (rs1 : Reg) : Statement (.cJr rs1) := fun _ _ _ => half _ rfl rfl (by decide)

theorem cMv (rd rs2 : Reg) : Statement (.cMv rd rs2) := fun _ _ _ => half _ rfl rfl (by decide)

theorem cEbreak : Statement (.cEbreak) := fun _ _ _ => half _ rfl rfl (by decide)

theorem cJalr (rs1 : Reg) : Statement (.cJalr rs1) := fun _ _ _ => half _ rfl rfl (by decide)

theorem cAdd (rd rs2 : Reg) : Statement (.cAdd rd rs2) := fun _ _ _ => half _ rfl rfl (by decide)

theorem cFsdsp (frs2 : Reg) (uimm : BitVec 6) : Statement (.cFsdsp frs2 uimm) := fun _ _ _ => half _ rfl rfl (by decide)

theorem cSwsp (rs2 : Reg) (uimm : BitVec 6) : Statement (.cSwsp rs2 uimm) := fun _ _ _ => half _ rfl rfl (by decide)

theorem cFswsp (frs2 : Reg) (uimm : BitVec 6) : Statement (.cFswsp frs2 uimm) := fun _ _ _ => half _ rfl rfl (by decide)

end Sys2Proof.Laws.EncodedLength
end

