-- ==== Sys2Proof/Tests/Slice0.lean ====
section
/-! SUPPORT. The model's own tests: ill-formed terms, decoding, one small step for each instruction, and a witness for the
hypotheses of each statement. The expected values are the examples of the rules named (spec/40 to spec/48). -/

open Sys2Proof Sys2Proof.Machine

/-! ## Small states -/

namespace Sys2Proof.Machine

def State.withX (s : State) (l : List (Reg × Word)) : State := l.foldl (fun s p => s.setX p.1 p.2) s
def State.withF (s : State) (l : List (Reg × DWord)) : State := l.foldl (fun s p => s.setF p.1 p.2) s
def State.withPriv (s : State) (p : Priv) : State := { s with hart := { s.hart with priv := p } }
def State.withCfg (s : State) (c : Config) : State := { s with cfg := c }

/-- Bytes placed from an address upward. -/
def State.withBytes (s : State) (a : Word) : List Byte → State
  | [] => s
  | b :: l => State.withBytes { s with mem := s.mem.write a b } (a + 1#32) l

end Sys2Proof.Machine

namespace Sys2Proof.Tests

/-- The state after one step of the instruction with bits `w`, placed where `s` fetches. -/
def after (s : State) (nbits w : Nat) : State :=
  match step (s.withFetchWord nbits w) with
  | .next t => t
  | _ => s

/-! ## Ill-formed terms are refused (R152, R163) -/

def noDouble : Config := { Config.default with hasFldFsd := false }
def noHint : Config := { Config.default with breakHintWord := none }

theorem test_illFormed_slt : Instr.wellFormed Config.default (.slt 0 0 1) = false := by decide
theorem test_illFormed_breakHint : Instr.wellFormed noHint .breakHint = false := by decide
theorem test_illFormed_fld : Instr.wellFormed noDouble (.fld 1 5 8) = false := by decide
theorem test_illFormed_fsd : Instr.wellFormed noDouble (.fsd 5 2 8) = false := by decide
theorem test_illFormed_cFld : Instr.wellFormed noDouble (.cFld 0 1 1) = false := by decide
theorem test_illFormed_cFsd : Instr.wellFormed noDouble (.cFsd 1 0 1) = false := by decide
theorem test_illFormed_cFldsp : Instr.wellFormed noDouble (.cFldsp 1 1) = false := by decide
theorem test_illFormed_cFsdsp : Instr.wellFormed noDouble (.cFsdsp 1 1) = false := by decide
theorem test_illFormed_cAddi4spn : Instr.wellFormed Config.default (.cAddi4spn 0 0) = false := by decide
theorem test_illFormed_cAddi : Instr.wellFormed Config.default (.cAddi 0 5) = false := by decide
theorem test_illFormed_cAddi16sp : Instr.wellFormed Config.default (.cAddi16sp 0) = false := by decide
theorem test_illFormed_cLui_sp : Instr.wellFormed Config.default (.cLui 2 1) = false := by decide
theorem test_illFormed_cLui_zero : Instr.wellFormed Config.default (.cLui 10 0) = false := by decide
theorem test_illFormed_cLwsp : Instr.wellFormed Config.default (.cLwsp 0 3) = false := by decide
theorem test_illFormed_cJr : Instr.wellFormed Config.default (.cJr 0) = false := by decide
theorem test_illFormed_cMv : Instr.wellFormed Config.default (.cMv 10 0) = false := by decide
theorem test_illFormed_cJalr : Instr.wellFormed Config.default (.cJalr 0) = false := by decide
theorem test_illFormed_cAdd : Instr.wellFormed Config.default (.cAdd 10 0) = false := by decide

theorem test_config_wf : Config.default.wf = true ∧ noDouble.wf = true ∧ noHint.wf = true := by decide
theorem test_config_illFormed : Config.wf { Config.default with numHarts := 0 } = false ∧
    Config.wf { Config.default with irqCheckPeriod := 0 } = false ∧
    Config.wf { Config.default with resetPc := 0x20000001#32 } = false ∧
    Config.wf { Config.default with breakHintWord := some 0x00500093#32 } = false ∧
    Config.wf { Config.default with devices := Config.default.devices ++ Config.default.devices } = false := by decide

/-! ## Decoding: words written out field by field (R132, R151), then the example words of the rules -/

theorem test_decode_fields_R :  -- SUB x7, x5, x6: funct7, rs2, rs1, funct3, rd, opcode
    decodeRaw Config.default
      (.word (0b0100000#7 ++ 0b00110#5 ++ 0b00101#5 ++ 0b000#3 ++ 0b00111#5 ++ 0b0110011#7)) = some (.sub 7 5 6) := by decide
theorem test_decode_fields_I :  -- LHU x7, -2(x5): imm[11:0], rs1, funct3, rd, opcode
    decodeRaw Config.default
      (.word (0b111111111110#12 ++ 0b00101#5 ++ 0b101#3 ++ 0b00111#5 ++ 0b0000011#7)) = some (.lhu 7 5 (-2)) := by decide
theorem test_decode_fields_S :  -- SH x6, 0x7E1(x5): imm[11:5], rs2, rs1, funct3, imm[4:0], opcode
    decodeRaw Config.default
      (.word (0b0111111#7 ++ 0b00110#5 ++ 0b00101#5 ++ 0b001#3 ++ 0b00001#5 ++ 0b0100011#7)) =
        some (.sh 5 6 0x7E1) := by decide
theorem test_decode_fields_B :  -- BLT x5, x6: imm[12]=0, [10:5]=000001, [4:1]=0010, [11]=1: offset 0x824
    decodeRaw Config.default
      (.word (0b0#1 ++ 0b000001#6 ++ 0b00110#5 ++ 0b00101#5 ++ 0b100#3 ++ 0b0010#4 ++ 0b1#1 ++ 0b1100011#7)) =
        some (.blt 5 6 0x412) := by decide
theorem test_decode_fields_J :  -- JAL x1: imm[20]=0, [10:1]=1, [11]=1, [19:12]=0x80: offset 0x80802
    decodeRaw Config.default
      (.word (0b0#1 ++ 0b0000000001#10 ++ 0b1#1 ++ 0b10000000#8 ++ 0b00001#5 ++ 0b1101111#7)) =
        some (.jal 1 0x40401) := by decide
theorem test_decode_fields_amo :  -- AMOMAX.W with aq alone
    decodeRaw Config.default
      (.word (0b10100#5 ++ 0b1#1 ++ 0b0#1 ++ 0b00110#5 ++ 0b00101#5 ++ 0b010#3 ++ 0b00111#5 ++ 0b0101111#7)) =
        some (.amomaxW 7 5 6 true false) := by decide
theorem test_decode_fields_fp :  -- FMUL.S f3, f1, f2, rup
    decodeRaw Config.default
      (.word (0b0001000#7 ++ 0b00010#5 ++ 0b00001#5 ++ 0b011#3 ++ 0b00011#5 ++ 0b1010011#7)) =
        some (.fmulS 3 1 2 .rup) := by decide
theorem test_decode_fields_csr :  -- CSRRSI x5, sepc, 17
    decodeRaw Config.default
      (.word (0b000101000001#12 ++ 0b10001#5 ++ 0b110#3 ++ 0b00101#5 ++ 0b1110011#7)) =
        some (.csrrsi 5 17 0x141) := by decide
theorem test_decode_fields_C0 :  -- C.LW: 010, uimm[5:3]=100, rs1'=001, uimm[2]=1, uimm[6]=0, rd'=010, 00: offset 36
    decodeRaw Config.default
      (.half (0b010#3 ++ 0b100#3 ++ 0b001#3 ++ 0b1#1 ++ 0b0#1 ++ 0b010#3 ++ 0b00#2)) = some (.cLw 2 1 9) := by decide
theorem test_decode_fields_C1 :  -- C.ADDI16SP: 011, [9]=0, 2, [4]=0, [6]=1, [8:7]=00, [5]=1, 01: 96
    decodeRaw Config.default
      (.half (0b011#3 ++ 0b0#1 ++ 0b00010#5 ++ 0b0#1 ++ 0b1#1 ++ 0b00#2 ++ 0b1#1 ++ 0b01#2)) =
        some (.cAddi16sp 6) := by decide
theorem test_decode_fields_C2 :  -- C.SWSP: 110, uimm[5:2]=0001, uimm[7:6]=10, rs2, 10: offset 132
    decodeRaw Config.default (.half (0b110#3 ++ 0b0001#4 ++ 0b10#2 ++ 0b01010#5 ++ 0b10#2)) =
      some (.cSwsp 10 33) := by decide

/-- The example words of R171, R172, R173, R174, R175, R176, R177, R178, R179, R180, R181. -/
theorem test_decode_alu :
    decodeTableWord 32 0x123452B7 = some (.lui 5 0x12345) ∧
    decodeTableWord 32 0xFFFFF317 = some (.auipc 6 0xFFFFF) ∧
    decodeTableWord 32 0x00500093 = some (.addi 1 0 5) ∧
    decodeTableWord 32 0xFFF28293 = some (.addi 5 5 (-1)) ∧
    decodeTableWord 32 0xFFD2A393 = some (.slti 7 5 (-3)) ∧
    decodeTableWord 32 0xFFF2B393 = some (.sltiu 7 5 (-1)) ∧
    decodeTableWord 32 0xFFF2C393 = some (.xori 7 5 (-1)) ∧
    decodeTableWord 32 0x0F02E393 = some (.ori 7 5 0x0F0) ∧
    decodeTableWord 32 0x0FF2F393 = some (.andi 7 5 0x0FF) ∧
    decodeTableWord 32 0x00429393 = some (.slli 7 5 4) ∧
    decodeTableWord 32 0x0042D393 = some (.srli 7 5 4) ∧
    decodeTableWord 32 0x4042D393 = some (.srai 7 5 4) := by decide

/-- The example words of R182, R183, R184, R185, R186, R187, R188, R189, R190, R191, R267. -/
theorem test_decode_op :
    decodeTableWord 32 0x002081B3 = some (.add 3 1 2) ∧
    decodeTableWord 32 0x406283B3 = some (.sub 7 5 6) ∧
    decodeTableWord 32 0x006293B3 = some (.sll 7 5 6) ∧
    decodeTableWord 32 0x0062A3B3 = some (.slt 7 5 6) ∧
    decodeTableWord 32 0x0062B3B3 = some (.sltu 7 5 6) ∧
    decodeTableWord 32 0x0062C3B3 = some (.xor 7 5 6) ∧
    decodeTableWord 32 0x0062D3B3 = some (.srl 7 5 6) ∧
    decodeTableWord 32 0x4062D3B3 = some (.sra 7 5 6) ∧
    decodeTableWord 32 0x0062E3B3 = some (.or 7 5 6) ∧
    decodeTableWord 32 0x0062F3B3 = some (.and 7 5 6) ∧
    decodeTableWord 32 0x00102033 = some (.breakHint) := by decide

/-- The example words of R222, R223, R224, R225, R226, R227, R228, R229. -/
theorem test_decode_control :
    decodeTableWord 32 0x008000EF = some (.jal 1 4) ∧
    decodeTableWord 32 0xFFFFF06F = some (.jal 0 (-1)) ∧
    decodeTableWord 32 0x003280E7 = some (.jalr 1 5 3) ∧
    decodeTableWord 32 0x00628463 = some (.beq 5 6 4) ∧
    decodeTableWord 32 0xFE629EE3 = some (.bne 5 6 (-2)) ∧
    decodeTableWord 32 0x0062C463 = some (.blt 5 6 4) ∧
    decodeTableWord 32 0x0062D463 = some (.bge 5 6 4) ∧
    decodeTableWord 32 0x0062E463 = some (.bltu 5 6 4) ∧
    decodeTableWord 32 0x0062F463 = some (.bgeu 5 6 4) := by decide

/-- The example words of R242, R243, R244, R245, R246, R247, R248, R249. -/
theorem test_decode_load_store :
    decodeTableWord 32 0x00428383 = some (.lb 7 5 4) ∧
    decodeTableWord 32 0x00429383 = some (.lh 7 5 4) ∧
    decodeTableWord 32 0xFFC2A383 = some (.lw 7 5 (-4)) ∧
    decodeTableWord 32 0x0042C383 = some (.lbu 7 5 4) ∧
    decodeTableWord 32 0x0042D383 = some (.lhu 7 5 4) ∧
    decodeTableWord 32 0x00628023 = some (.sb 5 6 0) ∧
    decodeTableWord 32 0x00629223 = some (.sh 5 6 4) ∧
    decodeTableWord 32 0xFE62AE23 = some (.sw 5 6 (-4)) := by decide

/-- The example words of R260, R261, R262, R263, R264, R265, R268. -/
theorem test_decode_system :
    decodeTableWord 32 0x0FF0000F = some (.fence 0 15 15 0 0) ∧
    decodeTableWord 32 0x0000100F = some (.fenceI 0 0 0) ∧
    decodeTableWord 32 0x00000073 = some (.ecall) ∧
    decodeTableWord 32 0x00100073 = some (.ebreak) ∧
    decodeTableWord 32 0x30200073 = some (.mret) ∧
    decodeTableWord 32 0x10200073 = some (.sret) ∧
    decodeTableWord 32 0x00200073 = some (.uret) := by decide

/-- The example words of R283, R284, R285, R286, R287, R288. -/
theorem test_decode_csr :
    decodeTableWord 32 0x340312F3 = some (.csrrw 5 6 0x340) ∧
    decodeTableWord 32 0x300022F3 = some (.csrrs 5 0 0x300) ∧
    decodeTableWord 32 0x300332F3 = some (.csrrc 5 6 0x300) ∧
    decodeTableWord 32 0x3402D073 = some (.csrrwi 0 5 0x340) ∧
    decodeTableWord 32 0x300462F3 = some (.csrrsi 5 8 0x300) ∧
    decodeTableWord 32 0x300472F3 = some (.csrrci 5 8 0x300) := by decide

/-- The example words of R301, R302, R303, R304, R305, R306, R307, R308. -/
theorem test_decode_muldiv :
    decodeTableWord 32 0x026283B3 = some (.mul 7 5 6) ∧
    decodeTableWord 32 0x026293B3 = some (.mulh 7 5 6) ∧
    decodeTableWord 32 0x0262A3B3 = some (.mulhsu 7 5 6) ∧
    decodeTableWord 32 0x0262B3B3 = some (.mulhu 7 5 6) ∧
    decodeTableWord 32 0x0262C3B3 = some (.div 7 5 6) ∧
    decodeTableWord 32 0x0262D3B3 = some (.divu 7 5 6) ∧
    decodeTableWord 32 0x0262E3B3 = some (.rem 7 5 6) ∧
    decodeTableWord 32 0x0262F3B3 = some (.remu 7 5 6) := by decide

/-- The example words of R322, R323, R324, R325, R326, R327, R328, R329, R330. -/
theorem test_decode_amo :
    decodeTableWord 32 0x0862A3AF = some (.amoswapW 7 5 6 false false) ∧
    decodeTableWord 32 0x0062A3AF = some (.amoaddW 7 5 6 false false) ∧
    decodeTableWord 32 0x0662A3AF = some (.amoaddW 7 5 6 true true) ∧
    decodeTableWord 32 0x2062A3AF = some (.amoxorW 7 5 6 false false) ∧
    decodeTableWord 32 0x6062A3AF = some (.amoandW 7 5 6 false false) ∧
    decodeTableWord 32 0x4062A3AF = some (.amoorW 7 5 6 false false) ∧
    decodeTableWord 32 0x8062A3AF = some (.amominW 7 5 6 false false) ∧
    decodeTableWord 32 0xA062A3AF = some (.amomaxW 7 5 6 false false) ∧
    decodeTableWord 32 0xC062A3AF = some (.amominuW 7 5 6 false false) ∧
    decodeTableWord 32 0xE062A3AF = some (.amomaxuW 7 5 6 false false) := by decide

/-- The example words of R346, R347, R348, R349. -/
theorem test_decode_float_memory :
    decodeTableWord 32 0x0082A087 = some (.flw 1 5 8) ∧
    decodeTableWord 32 0x0022A427 = some (.fsw 5 2 8) ∧
    decodeTableWord 32 0x0082B087 = some (.fld 1 5 8) ∧
    decodeTableWord 32 0x0022B427 = some (.fsd 5 2 8) := by decide

/-- The example words of R350, R351, R352, R353, R354, R355, R356, R357, R358, R359. -/
theorem test_decode_float_arith :
    decodeTableWord 32 0x0020F1D3 = some (.faddS 3 1 2 .dyn) ∧
    decodeTableWord 32 0x0820F1D3 = some (.fsubS 3 1 2 .dyn) ∧
    decodeTableWord 32 0x1020F1D3 = some (.fmulS 3 1 2 .dyn) ∧
    decodeTableWord 32 0x1820F1D3 = some (.fdivS 3 1 2 .dyn) ∧
    decodeTableWord 32 0x5800F1D3 = some (.fsqrtS 3 1 .dyn) ∧
    decodeTableWord 32 0x202081D3 = some (.fsgnjS 3 1 2) ∧
    decodeTableWord 32 0x202091D3 = some (.fsgnjnS 3 1 2) ∧
    decodeTableWord 32 0x2020A1D3 = some (.fsgnjxS 3 1 2) ∧
    decodeTableWord 32 0x282081D3 = some (.fminS 3 1 2) ∧
    decodeTableWord 32 0x282091D3 = some (.fmaxS 3 1 2) := by decide

/-- The example words of R360, R361, R362, R363, R364, R365, R366, R367, R368, R369. -/
theorem test_decode_float_other :
    decodeTableWord 32 0xC00093D3 = some (.fcvtWS 7 1 .rtz) ∧
    decodeTableWord 32 0xC000F3D3 = some (.fcvtWS 7 1 .dyn) ∧
    decodeTableWord 32 0xC01093D3 = some (.fcvtWuS 7 1 .rtz) ∧
    decodeTableWord 32 0xE00083D3 = some (.fmvXW 7 1) ∧
    decodeTableWord 32 0xE00093D3 = some (.fclassS 7 1) ∧
    decodeTableWord 32 0xD002F1D3 = some (.fcvtSW 3 5 .dyn) ∧
    decodeTableWord 32 0xD012F1D3 = some (.fcvtSWu 3 5 .dyn) ∧
    decodeTableWord 32 0xF00281D3 = some (.fmvWX 3 5) ∧
    decodeTableWord 32 0xA020A3D3 = some (.feqS 7 1 2) ∧
    decodeTableWord 32 0xA02093D3 = some (.fltS 7 1 2) ∧
    decodeTableWord 32 0xA02083D3 = some (.fleS 7 1 2) := by decide

/-- The example words of R392, R393, R394, R395, R396, R397, R398. -/
theorem test_decode_quadrant0 :
    decodeTableWord 16 0x0800 = some (.cAddi4spn 0 4) ∧
    decodeTableWord 16 0x1FFC = some (.cAddi4spn 7 255) ∧
    decodeTableWord 16 0x0048 = some (.cAddi4spn 2 1) ∧
    decodeTableWord 16 0x2480 = some (.cFld 0 1 1) ∧
    decodeTableWord 16 0x3FFC = some (.cFld 7 7 31) ∧
    decodeTableWord 16 0x41D0 = some (.cLw 4 3 1) ∧
    decodeTableWord 16 0x5CE0 = some (.cLw 0 1 31) ∧
    decodeTableWord 16 0x61C8 = some (.cFlw 2 3 1) ∧
    decodeTableWord 16 0xA480 = some (.cFsd 1 0 1) ∧
    decodeTableWord 16 0xC10C = some (.cSw 2 3 0) ∧
    decodeTableWord 16 0xC1B0 = some (.cSw 3 4 16) ∧
    decodeTableWord 16 0xE1C8 = some (.cFsw 3 2 1) := by decide

/-- The example words of R400, R401, R402, R403, R404, R405, R406, R407, R408, R409, R410, R411, R412, R413, R414, R415. -/
theorem test_decode_quadrant1 :
    decodeTableWord 16 0x0001 = some (.cNop 0) ∧
    decodeTableWord 16 0x0015 = some (.cNop 5) ∧
    decodeTableWord 16 0x1141 = some (.cAddi 2 (-16)) ∧
    decodeTableWord 16 0x057D = some (.cAddi 10 31) ∧
    decodeTableWord 16 0x2021 = some (.cJal 4) ∧
    decodeTableWord 16 0x3FFD = some (.cJal (-1)) ∧
    decodeTableWord 16 0x2FFD = some (.cJal 1023) ∧
    decodeTableWord 16 0x3001 = some (.cJal (-1024)) ∧
    decodeTableWord 16 0x557D = some (.cLi 10 (-1)) ∧
    decodeTableWord 16 0x6141 = some (.cAddi16sp 1) ∧
    decodeTableWord 16 0x7139 = some (.cAddi16sp (-4)) ∧
    decodeTableWord 16 0x617D = some (.cAddi16sp 31) ∧
    decodeTableWord 16 0x7101 = some (.cAddi16sp (-32)) ∧
    decodeTableWord 16 0x6505 = some (.cLui 10 1) ∧
    decodeTableWord 16 0x757D = some (.cLui 10 (-1)) ∧
    decodeTableWord 16 0x8111 = some (.cSrli 2 4) ∧
    decodeTableWord 16 0x8511 = some (.cSrai 2 4) ∧
    decodeTableWord 16 0x847D = some (.cSrai 0 31) ∧
    decodeTableWord 16 0x893D = some (.cAndi 2 15) ∧
    decodeTableWord 16 0x8D0D = some (.cSub 2 3) ∧
    decodeTableWord 16 0x8D2D = some (.cXor 2 3) ∧
    decodeTableWord 16 0x8D4D = some (.cOr 2 3) ∧
    decodeTableWord 16 0x8D6D = some (.cAnd 2 3) ∧
    decodeTableWord 16 0xBFD5 = some (.cJ (-6)) ∧
    decodeTableWord 16 0xA095 = some (.cJ 50) ∧
    decodeTableWord 16 0xC501 = some (.cBeqz 2 4) ∧
    decodeTableWord 16 0xD001 = some (.cBeqz 0 (-128)) ∧
    decodeTableWord 16 0xCC7D = some (.cBeqz 0 127) ∧
    decodeTableWord 16 0xFD75 = some (.cBnez 2 (-2)) ∧
    decodeTableWord 16 0xE399 = some (.cBnez 7 3) := by decide

/-- The example words of R420, R421, R422, R423, R424, R425, R426, R427, R428, R429, R430, R431. -/
theorem test_decode_quadrant2 :
    decodeTableWord 16 0x0512 = some (.cSlli 10 4) ∧
    decodeTableWord 16 0x20A2 = some (.cFldsp 1 1) ∧
    decodeTableWord 16 0x3FFE = some (.cFldsp 31 63) ∧
    decodeTableWord 16 0x40B2 = some (.cLwsp 1 3) ∧
    decodeTableWord 16 0x557E = some (.cLwsp 10 63) ∧
    decodeTableWord 16 0x60B2 = some (.cFlwsp 1 3) ∧
    decodeTableWord 16 0x8082 = some (.cJr 1) ∧
    decodeTableWord 16 0x852E = some (.cMv 10 11) ∧
    decodeTableWord 16 0x9002 = some (.cEbreak) ∧
    decodeTableWord 16 0x9502 = some (.cJalr 10) ∧
    decodeTableWord 16 0x952E = some (.cAdd 10 11) ∧
    decodeTableWord 16 0xA406 = some (.cFsdsp 1 1) ∧
    decodeTableWord 16 0xBFFE = some (.cFsdsp 31 63) ∧
    decodeTableWord 16 0xC606 = some (.cSwsp 1 3) ∧
    decodeTableWord 16 0xDFAA = some (.cSwsp 10 63) ∧
    decodeTableWord 16 0xE606 = some (.cFswsp 1 3) := by decide

/-! ## One step of each instruction, placed where the step fetches it -/

theorem test_step_lui : (let t := after (State.reset) 32 0x123452B7
    t.readX 5 = 0x12345000#32 ∧ t.hart.pc = 0x20000004#32) := by decide  -- R171
theorem test_step_auipc : (let t := after (State.reset |>.setPc 0x20000010#32) 32 0xFFFFF317
    t.readX 6 = 0x1FFFF010#32) := by decide  -- R172
theorem test_step_addi : (let t := after (State.reset) 32 0xFFF28293
    t.readX 5 = 0xFFFFFFFF#32) := by decide  -- R173
theorem test_step_slti : (let t := after (State.reset |>.withX [(5, 0xFFFFFFFC#32)]) 32 0xFFD2A393
    t.readX 7 = 0x00000001#32) := by decide  -- R174
theorem test_step_sltiu : (let t := after (State.reset |>.withX [(5, 0x00000005#32)]) 32 0xFFF2B393
    t.readX 7 = 0x00000001#32) := by decide  -- R175
theorem test_step_xori : (let t := after (State.reset |>.withX [(5, 0x000000FF#32)]) 32 0xFFF2C393
    t.readX 7 = 0xFFFFFF00#32) := by decide  -- R176
theorem test_step_ori : (let t := after (State.reset |>.withX [(5, 0x00000F0F#32)]) 32 0x0F02E393
    t.readX 7 = 0x00000FFF#32) := by decide  -- R177
theorem test_step_andi : (let t := after (State.reset |>.withX [(5, 0x12345678#32)]) 32 0x0FF2F393
    t.readX 7 = 0x00000078#32) := by decide  -- R178
theorem test_step_slli : (let t := after (State.reset |>.withX [(5, 0xF000000F#32)]) 32 0x00429393
    t.readX 7 = 0x000000F0#32) := by decide  -- R179
theorem test_step_srli : (let t := after (State.reset |>.withX [(5, 0x80000010#32)]) 32 0x0042D393
    t.readX 7 = 0x08000001#32) := by decide  -- R180
theorem test_step_srai : (let t := after (State.reset |>.withX [(5, 0x80000010#32)]) 32 0x4042D393
    t.readX 7 = 0xF8000001#32) := by decide  -- R181
theorem test_step_add : (let t := after (State.reset |>.withX [(1, 0x00000005#32), (2, 0x00000007#32)]) 32 0x002081B3
    t.readX 3 = 0x0000000C#32) := by decide  -- R182
theorem test_step_sub : (let t := after (State.reset |>.withX [(5, 0x00000003#32), (6, 0x00000005#32)]) 32 0x406283B3
    t.readX 7 = 0xFFFFFFFE#32) := by decide  -- R183
theorem test_step_sll : (let t := after (State.reset |>.withX [(5, 0x00000001#32), (6, 0x00000021#32)]) 32 0x006293B3
    t.readX 7 = 0x00000002#32) := by decide  -- R184
theorem test_step_slt : (let t := after (State.reset |>.withX [(5, 0xFFFFFFFF#32), (6, 0x00000001#32)]) 32 0x0062A3B3
    t.readX 7 = 0x00000001#32) := by decide  -- R185
theorem test_step_sltu : (let t := after (State.reset |>.withX [(5, 0xFFFFFFFF#32), (6, 0x00000001#32), (7, 0x00000009#32)]) 32 0x0062B3B3
    t.readX 7 = 0x00000000#32) := by decide  -- R186
theorem test_step_xor : (let t := after (State.reset |>.withX [(5, 0xFF00FF00#32), (6, 0x0FF00FF0#32)]) 32 0x0062C3B3
    t.readX 7 = 0xF0F0F0F0#32) := by decide  -- R187
theorem test_step_srl : (let t := after (State.reset |>.withX [(5, 0x80000000#32), (6, 0x0000001F#32)]) 32 0x0062D3B3
    t.readX 7 = 0x00000001#32) := by decide  -- R188
theorem test_step_sra : (let t := after (State.reset |>.withX [(5, 0x80000000#32), (6, 0x0000001F#32)]) 32 0x4062D3B3
    t.readX 7 = 0xFFFFFFFF#32) := by decide  -- R189
theorem test_step_or : (let t := after (State.reset |>.withX [(5, 0xF0F00000#32), (6, 0x00000F0F#32)]) 32 0x0062E3B3
    t.readX 7 = 0xF0F00F0F#32) := by decide  -- R190
theorem test_step_and : (let t := after (State.reset |>.withX [(5, 0xFFFF0000#32), (6, 0x0FF00FF0#32)]) 32 0x0062F3B3
    t.readX 7 = 0x0FF00000#32) := by decide  -- R191
theorem test_step_breakHint : (let t := after (State.reset) 32 0x00102033
    t.hart.halted = true ∧ t.hart.pc = 0x20000000#32) := by decide  -- R267
theorem test_step_jal : (let t := after (State.reset) 32 0x008000EF
    t.readX 1 = 0x20000004#32 ∧ t.hart.pc = 0x20000008#32) := by decide  -- R222
theorem test_step_jalr : (let t := after (State.reset |>.withX [(5, 0x20000100#32)] |>.setPc 0x20000010#32) 32 0x003280E7
    t.readX 1 = 0x20000014#32 ∧ t.hart.pc = 0x20000102#32) := by decide  -- R223
theorem test_step_beq : (let t := after (State.reset |>.withX [(5, 0x00000007#32), (6, 0x00000007#32)]) 32 0x00628463
    t.hart.pc = 0x20000008#32) := by decide  -- R224
theorem test_step_bne : (let t := after (State.reset |>.withX [(5, 0x00000001#32)] |>.setPc 0x20000004#32) 32 0xFE629EE3
    t.hart.pc = 0x20000000#32) := by decide  -- R225
theorem test_step_blt : (let t := after (State.reset |>.withX [(5, 0xFFFFFFFF#32)]) 32 0x0062C463
    t.hart.pc = 0x20000008#32) := by decide  -- R226
theorem test_step_bge : (let t := after (State.reset |>.withX [(5, 0xFFFFFFFF#32)]) 32 0x0062D463
    t.hart.pc = 0x20000004#32) := by decide  -- R227
theorem test_step_bltu : (let t := after (State.reset |>.withX [(5, 0xFFFFFFFF#32)]) 32 0x0062E463
    t.hart.pc = 0x20000004#32) := by decide  -- R228
theorem test_step_bgeu : (let t := after (State.reset |>.withX [(5, 0xFFFFFFFF#32)]) 32 0x0062F463
    t.hart.pc = 0x20000008#32) := by decide  -- R229
theorem test_step_lb : (let t := after (State.reset |>.withX [(5, 0x80000008#32)] |>.withBytes 0x8000000C#32 [0x9C#8]) 32 0x00428383
    t.readX 7 = 0xFFFFFF9C#32) := by decide  -- R242
theorem test_step_lh : (let t := after (State.reset |>.withX [(5, 0x80000008#32)] |>.withBytes 0x8000000C#32 [0x34#8, 0x92#8]) 32 0x00429383
    t.readX 7 = 0xFFFF9234#32) := by decide  -- R243
theorem test_step_lw : (let t := after (State.reset |>.withX [(5, 0x80000008#32)] |>.withBytes 0x80000004#32 [0x78#8, 0x56#8, 0x34#8, 0x12#8]) 32 0xFFC2A383
    t.readX 7 = 0x12345678#32) := by decide  -- R244
theorem test_step_lbu : (let t := after (State.reset |>.withX [(5, 0x80000008#32)] |>.withBytes 0x8000000C#32 [0x9C#8]) 32 0x0042C383
    t.readX 7 = 0x0000009C#32) := by decide  -- R245
theorem test_step_lhu : (let t := after (State.reset |>.withX [(5, 0x80000008#32)] |>.withBytes 0x8000000C#32 [0x34#8, 0x92#8]) 32 0x0042D383
    t.readX 7 = 0x00009234#32) := by decide  -- R246
theorem test_step_sb : (let t := after (State.reset |>.withX [(5, 0x80000008#32), (6, 0x00000041#32)] |>.withBytes 0x80000008#32 [0x11#8, 0x22#8]) 32 0x00628023
    [Memory.read t.mem 0x80000008#32, Memory.read t.mem 0x80000009#32] = [0x41#8, 0x22#8]) := by decide  -- R247
theorem test_step_sh : (let t := after (State.reset |>.withX [(5, 0x80000008#32), (6, 0xABCD1234#32)]) 32 0x00629223
    [Memory.read t.mem 0x8000000C#32, Memory.read t.mem 0x8000000D#32, Memory.read t.mem 0x8000000E#32] = [0x34#8, 0x12#8, 0x00#8]) := by decide  -- R248
theorem test_step_sw : (let t := after (State.reset |>.withX [(5, 0x80000008#32), (6, 0x12345678#32)]) 32 0xFE62AE23
    [Memory.read t.mem 0x80000004#32, Memory.read t.mem 0x80000005#32, Memory.read t.mem 0x80000006#32, Memory.read t.mem 0x80000007#32] = [0x78#8, 0x56#8, 0x34#8, 0x12#8]) := by decide  -- R249
theorem test_step_fence : (let t := after (State.reset) 32 0x0FF0000F
    t.hart.pc = 0x20000004#32 ∧ t.hart.cycle = 1#64) := by decide  -- R260
theorem test_step_fenceI : (let t := after (State.reset) 32 0x0000100F
    t.hart.pc = 0x20000004#32) := by decide  -- R261
theorem test_step_ecall : (let t := after (State.reset |>.setPc 0x80000010#32 |>.withPriv .u |> csrWrite 0x305#12 0x80000400#32) 32 0x00000073
    csrRead t 0x341#12 = 0x80000010#32 ∧ csrRead t 0x342#12 = 0x00000008#32 ∧ csrRead t 0x343#12 = 0x00000000#32 ∧ t.hart.priv = .m ∧ t.hart.pc = 0x80000400#32) := by decide  -- R262
theorem test_step_ebreak : (let t := after (State.reset) 32 0x00100073
    t.hart.halted = true ∧ t.hart.pc = 0x20000000#32 ∧ t.hart.cycle = 0#64) := by decide  -- R263
theorem test_step_mret : (let t := after (State.reset |> csrWrite 0x341#12 0x80000040#32 |> csrWrite 0x300#12 0x00000080#32) 32 0x30200073
    t.hart.pc = 0x80000040#32 ∧ t.hart.priv = .u ∧ csrRead t 0x300#12 = 0x00000088#32) := by decide  -- R264
theorem test_step_sret : (let t := after (State.reset |>.withPriv .s |> csrWrite 0x141#12 0x00010000#32 |> csrWrite 0x300#12 0x00000002#32) 32 0x10200073
    t.hart.pc = 0x00010000#32 ∧ t.hart.priv = .u ∧ csrRead t 0x300#12 = 0x00000020#32) := by decide  -- R265
theorem test_step_uret : (let t := after (State.reset |> csrWrite 0x041#12 0x00004000#32 |> csrWrite 0x300#12 0x00000010#32) 32 0x00200073
    t.hart.pc = 0x00004000#32 ∧ t.hart.priv = .u ∧ csrRead t 0x300#12 = 0x00000011#32) := by decide  -- R268
theorem test_step_csrrw : (let t := after (State.reset |>.withX [(6, 0x00000022#32)] |> csrWrite 0x340#12 0x11#32) 32 0x340312F3
    t.readX 5 = 0x00000011#32 ∧ csrRead t 0x340#12 = 0x00000022#32) := by decide  -- R283
theorem test_step_csrrs : (let t := after (State.reset |>.withPriv .u) 32 0x300022F3
    t.readX 5 = 0x00000000#32 ∧ csrRead t 0x342#12 = 0x00000002#32 ∧ csrRead t 0x343#12 = 0x300022F3#32) := by decide  -- R284
theorem test_step_csrrc : (let t := after (State.reset |>.withX [(6, 0x00000008#32)] |> csrWrite 0x300#12 0x88#32) 32 0x300332F3
    t.readX 5 = 0x00000088#32 ∧ csrRead t 0x300#12 = 0x00000080#32) := by decide  -- R285
theorem test_step_csrrwi : (let t := after (State.reset) 32 0x3402D073
    csrRead t 0x340#12 = 0x00000005#32) := by decide  -- R286
theorem test_step_csrrsi : (let t := after (State.reset) 32 0x300462F3
    t.readX 5 = 0x00000000#32 ∧ csrRead t 0x300#12 = 0x00000008#32) := by decide  -- R287
theorem test_step_csrrci : (let t := after (State.reset |> csrWrite 0x300#12 0x88#32) 32 0x300472F3
    t.readX 5 = 0x00000088#32 ∧ csrRead t 0x300#12 = 0x00000080#32) := by decide  -- R288
theorem test_step_mul : (let t := after (State.reset |>.withX [(5, 0x00010000#32), (6, 0x00010001#32)]) 32 0x026283B3
    t.readX 7 = 0x00010000#32) := by decide  -- R301
theorem test_step_mulh : (let t := after (State.reset |>.withX [(5, 0x80000000#32), (6, 0x80000000#32)]) 32 0x026293B3
    t.readX 7 = 0x40000000#32) := by decide  -- R302
theorem test_step_mulhsu : (let t := after (State.reset |>.withX [(5, 0xFFFFFFFF#32), (6, 0xFFFFFFFF#32)]) 32 0x0262A3B3
    t.readX 7 = 0xFFFFFFFF#32) := by decide  -- R303
theorem test_step_mulhu : (let t := after (State.reset |>.withX [(5, 0xFFFFFFFF#32), (6, 0xFFFFFFFF#32)]) 32 0x0262B3B3
    t.readX 7 = 0xFFFFFFFE#32) := by decide  -- R304
theorem test_step_div : (let t := after (State.reset |>.withX [(5, 0xFFFFFFF9#32), (6, 0x00000002#32)]) 32 0x0262C3B3
    t.readX 7 = 0xFFFFFFFD#32) := by decide  -- R305
theorem test_step_divu : (let t := after (State.reset |>.withX [(5, 0xFFFFFFF9#32), (6, 0x00000002#32)]) 32 0x0262D3B3
    t.readX 7 = 0x7FFFFFFC#32) := by decide  -- R306
theorem test_step_rem : (let t := after (State.reset |>.withX [(5, 0xFFFFFFF9#32), (6, 0x00000002#32)]) 32 0x0262E3B3
    t.readX 7 = 0xFFFFFFFF#32) := by decide  -- R307
theorem test_step_remu : (let t := after (State.reset |>.withX [(5, 0xFFFFFFF9#32), (6, 0x00000002#32)]) 32 0x0262F3B3
    t.readX 7 = 0x00000001#32) := by decide  -- R308
theorem test_step_amoswapW : (let t := after (State.reset |>.withX [(5, 0x80000008#32), (6, 0x00000001#32), (7, 0x000000AB#32)] |>.withBytes 0x80000008#32 [0x00#8, 0x00#8, 0x00#8, 0x00#8]) 32 0x0862A3AF
    t.readX 7 = 0x00000000#32 ∧ [Memory.read t.mem 0x80000008#32, Memory.read t.mem 0x80000009#32, Memory.read t.mem 0x8000000A#32, Memory.read t.mem 0x8000000B#32] = [0x01#8, 0x00#8, 0x00#8, 0x00#8]) := by decide  -- R322
theorem test_step_amoaddW : (let t := after (State.reset |>.withX [(5, 0x80000008#32), (6, 0x00000002#32), (7, 0x000000AB#32)] |>.withBytes 0x80000008#32 [0xFF#8, 0xFF#8, 0xFF#8, 0xFF#8]) 32 0x0062A3AF
    t.readX 7 = 0xFFFFFFFF#32 ∧ [Memory.read t.mem 0x80000008#32, Memory.read t.mem 0x80000009#32, Memory.read t.mem 0x8000000A#32, Memory.read t.mem 0x8000000B#32] = [0x01#8, 0x00#8, 0x00#8, 0x00#8]) := by decide  -- R323
theorem test_step_amoxorW : (let t := after (State.reset |>.withX [(5, 0x80000008#32), (6, 0xFFFF0000#32), (7, 0x000000AB#32)] |>.withBytes 0x80000008#32 [0x0F#8, 0x0F#8, 0x0F#8, 0x0F#8]) 32 0x2062A3AF
    t.readX 7 = 0x0F0F0F0F#32 ∧ [Memory.read t.mem 0x80000008#32, Memory.read t.mem 0x80000009#32, Memory.read t.mem 0x8000000A#32, Memory.read t.mem 0x8000000B#32] = [0x0F#8, 0x0F#8, 0xF0#8, 0xF0#8]) := by decide  -- R324
theorem test_step_amoandW : (let t := after (State.reset |>.withX [(5, 0x80000008#32), (6, 0xFFFF0000#32), (7, 0x000000AB#32)] |>.withBytes 0x80000008#32 [0x0F#8, 0x0F#8, 0x0F#8, 0x0F#8]) 32 0x6062A3AF
    t.readX 7 = 0x0F0F0F0F#32 ∧ [Memory.read t.mem 0x80000008#32, Memory.read t.mem 0x80000009#32, Memory.read t.mem 0x8000000A#32, Memory.read t.mem 0x8000000B#32] = [0x00#8, 0x00#8, 0x0F#8, 0x0F#8]) := by decide  -- R325
theorem test_step_amoorW : (let t := after (State.reset |>.withX [(5, 0x80000008#32), (6, 0xFFFF0000#32), (7, 0x000000AB#32)] |>.withBytes 0x80000008#32 [0x0F#8, 0x0F#8, 0x0F#8, 0x0F#8]) 32 0x4062A3AF
    t.readX 7 = 0x0F0F0F0F#32 ∧ [Memory.read t.mem 0x80000008#32, Memory.read t.mem 0x80000009#32, Memory.read t.mem 0x8000000A#32, Memory.read t.mem 0x8000000B#32] = [0x0F#8, 0x0F#8, 0xFF#8, 0xFF#8]) := by decide  -- R326
theorem test_step_amominW : (let t := after (State.reset |>.withX [(5, 0x80000008#32), (6, 0xFFFFFFFF#32), (7, 0x000000AB#32)] |>.withBytes 0x80000008#32 [0x01#8, 0x00#8, 0x00#8, 0x00#8]) 32 0x8062A3AF
    t.readX 7 = 0x00000001#32 ∧ [Memory.read t.mem 0x80000008#32, Memory.read t.mem 0x80000009#32, Memory.read t.mem 0x8000000A#32, Memory.read t.mem 0x8000000B#32] = [0xFF#8, 0xFF#8, 0xFF#8, 0xFF#8]) := by decide  -- R327
theorem test_step_amomaxW : (let t := after (State.reset |>.withX [(5, 0x80000008#32), (6, 0xFFFFFFFF#32), (7, 0x000000AB#32)] |>.withBytes 0x80000008#32 [0x01#8, 0x00#8, 0x00#8, 0x00#8]) 32 0xA062A3AF
    t.readX 7 = 0x00000001#32 ∧ [Memory.read t.mem 0x80000008#32, Memory.read t.mem 0x80000009#32, Memory.read t.mem 0x8000000A#32, Memory.read t.mem 0x8000000B#32] = [0x01#8, 0x00#8, 0x00#8, 0x00#8]) := by decide  -- R328
theorem test_step_amominuW : (let t := after (State.reset |>.withX [(5, 0x80000008#32), (6, 0xFFFFFFFF#32), (7, 0x000000AB#32)] |>.withBytes 0x80000008#32 [0x01#8, 0x00#8, 0x00#8, 0x00#8]) 32 0xC062A3AF
    t.readX 7 = 0x00000001#32 ∧ [Memory.read t.mem 0x80000008#32, Memory.read t.mem 0x80000009#32, Memory.read t.mem 0x8000000A#32, Memory.read t.mem 0x8000000B#32] = [0x01#8, 0x00#8, 0x00#8, 0x00#8]) := by decide  -- R329
theorem test_step_amomaxuW : (let t := after (State.reset |>.withX [(5, 0x80000008#32), (6, 0xFFFFFFFF#32), (7, 0x000000AB#32)] |>.withBytes 0x80000008#32 [0x01#8, 0x00#8, 0x00#8, 0x00#8]) 32 0xE062A3AF
    t.readX 7 = 0x00000001#32 ∧ [Memory.read t.mem 0x80000008#32, Memory.read t.mem 0x80000009#32, Memory.read t.mem 0x8000000A#32, Memory.read t.mem 0x8000000B#32] = [0xFF#8, 0xFF#8, 0xFF#8, 0xFF#8]) := by decide  -- R330
theorem test_step_flw : (let t := after (State.reset |>.withX [(5, 0x80000008#32)] |>.withBytes 0x80000010#32 [0x00#8, 0x00#8, 0x80#8, 0x3F#8]) 32 0x0082A087
    t.readF 1 = 0xFFFFFFFF3F800000#64) := by decide  -- R346
theorem test_step_fsw : (let t := after (State.reset |>.withX [(5, 0x80000008#32)] |>.withF [(2, 0xFFFFFFFF40000000#64)]) 32 0x0022A427
    [Memory.read t.mem 0x80000010#32, Memory.read t.mem 0x80000011#32, Memory.read t.mem 0x80000012#32, Memory.read t.mem 0x80000013#32] = [0x00#8, 0x00#8, 0x00#8, 0x40#8]) := by decide  -- R347
theorem test_step_fld : (let t := after (State.reset |>.withX [(5, 0x80000008#32)] |>.withBytes 0x80000010#32 [0x00#8, 0x00#8, 0x00#8, 0x00#8, 0x00#8, 0x00#8, 0xF0#8, 0x3F#8]) 32 0x0082B087
    t.readF 1 = 0x3FF0000000000000#64) := by decide  -- R348
theorem test_step_fsd : (let t := after (State.reset |>.withX [(5, 0x80000008#32)] |>.withF [(2, 0xFFFFFFFF40000000#64)]) 32 0x0022B427
    [Memory.read t.mem 0x80000010#32, Memory.read t.mem 0x80000011#32, Memory.read t.mem 0x80000012#32, Memory.read t.mem 0x80000013#32, Memory.read t.mem 0x80000014#32, Memory.read t.mem 0x80000015#32, Memory.read t.mem 0x80000016#32, Memory.read t.mem 0x80000017#32] = [0x00#8, 0x00#8, 0x00#8, 0x40#8, 0xFF#8, 0xFF#8, 0xFF#8, 0xFF#8]) := by decide  -- R349
theorem test_step_faddS : (let t := after (State.reset |>.withF [(1, 0xFFFFFFFF3F800000#64), (2, 0xFFFFFFFF40000000#64)]) 32 0x0020F1D3
    t.readF 3 = 0xFFFFFFFF40400000#64) := by decide  -- R350
theorem test_step_fsubS : (let t := after (State.reset |>.withF [(1, 0xFFFFFFFF40400000#64), (2, 0xFFFFFFFF3F800000#64)]) 32 0x0820F1D3
    t.readF 3 = 0xFFFFFFFF40000000#64) := by decide  -- R351
theorem test_step_fmulS : (let t := after (State.reset |>.withF [(1, 0xFFFFFFFF3FC00000#64), (2, 0xFFFFFFFF3FC00000#64)]) 32 0x1020F1D3
    t.readF 3 = 0xFFFFFFFF40100000#64) := by decide  -- R352
theorem test_step_fdivS : (let t := after (State.reset |>.withF [(1, 0xFFFFFFFF3F800000#64), (2, 0xFFFFFFFF40400000#64)]) 32 0x1820F1D3
    t.readF 3 = 0xFFFFFFFF3EAAAAAB#64) := by decide  -- R353
theorem test_step_fsqrtS : (let t := after (State.reset |>.withF [(1, 0xFFFFFFFF40000000#64)]) 32 0x5800F1D3
    t.readF 3 = 0xFFFFFFFF3FB504F3#64) := by decide +kernel  -- R354
theorem test_step_fsgnjS : (let t := after (State.reset |>.withF [(1, 0xFFFFFFFF3F800000#64), (2, 0xFFFFFFFF80000000#64)]) 32 0x202081D3
    t.readF 3 = 0xFFFFFFFFBF800000#64) := by decide  -- R355
theorem test_step_fsgnjnS : (let t := after (State.reset |>.withF [(1, 0xFFFFFFFF3F800000#64), (2, 0xFFFFFFFF3F800000#64)]) 32 0x202091D3
    t.readF 3 = 0xFFFFFFFFBF800000#64) := by decide  -- R356
theorem test_step_fsgnjxS : (let t := after (State.reset |>.withF [(1, 0xFFFFFFFFBF800000#64), (2, 0xFFFFFFFFBF800000#64)]) 32 0x2020A1D3
    t.readF 3 = 0xFFFFFFFF3F800000#64) := by decide  -- R357
theorem test_step_fminS : (let t := after (State.reset |>.withF [(1, 0xFFFFFFFF7FC00000#64), (2, 0xFFFFFFFF40000000#64)]) 32 0x282081D3
    t.readF 3 = 0xFFFFFFFF40000000#64) := by decide  -- R358
theorem test_step_fmaxS : (let t := after (State.reset |>.withF [(1, 0xFFFFFFFF3F800000#64), (2, 0xFFFFFFFFBF800000#64)]) 32 0x282091D3
    t.readF 3 = 0xFFFFFFFF3F800000#64) := by decide  -- R359
theorem test_step_fcvtWS : (let t := after (State.reset |>.withF [(1, 0xFFFFFFFF40600000#64)]) 32 0xC000F3D3
    t.readX 7 = 0x00000004#32) := by decide  -- R360
theorem test_step_fcvtWuS : (let t := after (State.reset |>.withX [(7, 0x00000009#32)] |>.withF [(1, 0xFFFFFFFFBF800000#64)]) 32 0xC01093D3
    t.readX 7 = 0x00000000#32) := by decide  -- R361
theorem test_step_fmvXW : (let t := after (State.reset |>.withF [(1, 0xFFFFFFFFBF800000#64)]) 32 0xE00083D3
    t.readX 7 = 0xBF800000#32) := by decide  -- R362
theorem test_step_fclassS : (let t := after (State.reset |>.withF [(1, 0xFFFFFFFF7F800001#64)]) 32 0xE00093D3
    t.readX 7 = 0x00000100#32) := by decide  -- R363
theorem test_step_fcvtSW : (let t := after (State.reset |>.withX [(5, 0xFFFFFFFF#32)]) 32 0xD002F1D3
    t.readF 3 = 0xFFFFFFFFBF800000#64) := by decide  -- R364
theorem test_step_fcvtSWu : (let t := after (State.reset |>.withX [(5, 0x00000001#32)]) 32 0xD012F1D3
    t.readF 3 = 0xFFFFFFFF3F800000#64) := by decide  -- R365
theorem test_step_fmvWX : (let t := after (State.reset |>.withX [(5, 0x4048F5C3#32)]) 32 0xF00281D3
    t.readF 3 = 0xFFFFFFFF4048F5C3#64) := by decide  -- R366
theorem test_step_feqS : (let t := after (State.reset |>.withF [(1, 0xFFFFFFFF00000000#64), (2, 0xFFFFFFFF80000000#64)]) 32 0xA020A3D3
    t.readX 7 = 0x00000001#32) := by decide  -- R367
theorem test_step_fltS : (let t := after (State.reset |>.withX [(7, 0x00000009#32)] |>.withF [(1, 0xFFFFFFFF80000000#64), (2, 0xFFFFFFFF00000000#64)]) 32 0xA02093D3
    t.readX 7 = 0x00000000#32) := by decide  -- R368
theorem test_step_fleS : (let t := after (State.reset |>.withX [(7, 0x00000009#32)] |>.withF [(1, 0xFFFFFFFF3F800000#64), (2, 0xFFFFFFFF7FC00000#64)]) 32 0xA02083D3
    t.readX 7 = 0x00000000#32) := by decide  -- R369
theorem test_step_cAddi4spn : (let t := after (State.reset |>.withX [(2, 0x80000008#32)]) 16 0x0800
    t.readX 8 = 0x80000018#32 ∧ t.hart.pc = 0x20000002#32) := by decide  -- R392
theorem test_step_cFld : (let t := after (State.reset |>.withX [(9, 0x80000008#32)] |>.withBytes 0x80000010#32 [0x00#8, 0x00#8, 0x00#8, 0x00#8, 0x00#8, 0x00#8, 0xF0#8, 0x3F#8]) 16 0x2480
    t.readF 8 = 0x3FF0000000000000#64) := by decide  -- R393
theorem test_step_cLw : (let t := after (State.reset |>.withX [(11, 0x80000008#32)] |>.withBytes 0x8000000C#32 [0x78#8, 0x56#8, 0x34#8, 0x12#8]) 16 0x41D0
    t.readX 12 = 0x12345678#32) := by decide  -- R394
theorem test_step_cFlw : (let t := after (State.reset |>.withX [(11, 0x80000008#32)] |>.withBytes 0x8000000C#32 [0x00#8, 0x00#8, 0x80#8, 0x3F#8]) 16 0x61C8
    t.readF 10 = 0xFFFFFFFF3F800000#64) := by decide  -- R395
theorem test_step_cFsd : (let t := after (State.reset |>.withX [(9, 0x80000008#32)] |>.withF [(8, 0xFFFFFFFF40000000#64)]) 16 0xA480
    [Memory.read t.mem 0x80000010#32, Memory.read t.mem 0x80000011#32, Memory.read t.mem 0x80000012#32, Memory.read t.mem 0x80000013#32, Memory.read t.mem 0x80000014#32, Memory.read t.mem 0x80000015#32, Memory.read t.mem 0x80000016#32, Memory.read t.mem 0x80000017#32] = [0x00#8, 0x00#8, 0x00#8, 0x40#8, 0xFF#8, 0xFF#8, 0xFF#8, 0xFF#8]) := by decide  -- R396
theorem test_step_cSw : (let t := after (State.reset |>.withX [(11, 0x80000008#32), (12, 0x12345678#32)]) 16 0xC1B0
    [Memory.read t.mem 0x80000048#32, Memory.read t.mem 0x80000049#32, Memory.read t.mem 0x8000004A#32, Memory.read t.mem 0x8000004B#32] = [0x78#8, 0x56#8, 0x34#8, 0x12#8]) := by decide  -- R397
theorem test_step_cFsw : (let t := after (State.reset |>.withX [(11, 0x80000008#32)] |>.withF [(10, 0xFFFFFFFF3F800000#64)]) 16 0xE1C8
    [Memory.read t.mem 0x8000000C#32, Memory.read t.mem 0x8000000D#32, Memory.read t.mem 0x8000000E#32, Memory.read t.mem 0x8000000F#32] = [0x00#8, 0x00#8, 0x80#8, 0x3F#8]) := by decide  -- R398
theorem test_step_cNop : (let t := after (State.reset) 16 0x0015
    t.hart.pc = 0x20000002#32 ∧ t.hart.cycle = 1#64) := by decide  -- R400
theorem test_step_cAddi : (let t := after (State.reset |>.withX [(2, 0x80000008#32)]) 16 0x1141
    t.readX 2 = 0x7FFFFFF8#32) := by decide  -- R401
theorem test_step_cJal : (let t := after (State.reset) 16 0x2021
    t.readX 1 = 0x20000002#32 ∧ t.hart.pc = 0x20000008#32) := by decide  -- R402
theorem test_step_cLi : (let t := after (State.reset) 16 0x557D
    t.readX 10 = 0xFFFFFFFF#32) := by decide  -- R403
theorem test_step_cAddi16sp : (let t := after (State.reset |>.withX [(2, 0x80000008#32)]) 16 0x7139
    t.readX 2 = 0x7FFFFFC8#32) := by decide  -- R404
theorem test_step_cLui : (let t := after (State.reset) 16 0x7501
    t.readX 10 = 0xFFFE0000#32) := by decide  -- R405
theorem test_step_cSrli : (let t := after (State.reset |>.withX [(10, 0x80000010#32)]) 16 0x8111
    t.readX 10 = 0x08000001#32) := by decide  -- R406
theorem test_step_cSrai : (let t := after (State.reset |>.withX [(8, 0x80000000#32)]) 16 0x847D
    t.readX 8 = 0xFFFFFFFF#32) := by decide  -- R407
theorem test_step_cAndi : (let t := after (State.reset |>.withX [(10, 0x12345678#32)]) 16 0x893D
    t.readX 10 = 0x00000008#32) := by decide  -- R408
theorem test_step_cSub : (let t := after (State.reset |>.withX [(10, 0x00000003#32), (11, 0x00000005#32)]) 16 0x8D0D
    t.readX 10 = 0xFFFFFFFE#32) := by decide  -- R409
theorem test_step_cXor : (let t := after (State.reset |>.withX [(10, 0xFF00FF00#32), (11, 0x0FF00FF0#32)]) 16 0x8D2D
    t.readX 10 = 0xF0F0F0F0#32) := by decide  -- R410
theorem test_step_cOr : (let t := after (State.reset |>.withX [(10, 0xF0F00000#32), (11, 0x00000F0F#32)]) 16 0x8D4D
    t.readX 10 = 0xF0F00F0F#32) := by decide  -- R411
theorem test_step_cAnd : (let t := after (State.reset |>.withX [(10, 0xFFFF0000#32), (11, 0x0FF00FF0#32)]) 16 0x8D6D
    t.readX 10 = 0x0FF00000#32) := by decide  -- R412
theorem test_step_cJ : (let t := after (State.reset |>.setPc 0x20000020#32) 16 0xBFD5
    t.hart.pc = 0x20000014#32) := by decide  -- R413
theorem test_step_cBeqz : (let t := after (State.reset) 16 0xC501
    t.hart.pc = 0x20000008#32) := by decide  -- R414
theorem test_step_cBnez : (let t := after (State.reset |>.withX [(10, 0x00000001#32)] |>.setPc 0x20000020#32) 16 0xFD75
    t.hart.pc = 0x2000001C#32) := by decide  -- R415
theorem test_step_cSlli : (let t := after (State.reset |>.withX [(10, 0xF000000F#32)]) 16 0x0512
    t.readX 10 = 0x000000F0#32) := by decide  -- R420
theorem test_step_cFldsp : (let t := after (State.reset |>.withX [(2, 0x80000008#32)] |>.withBytes 0x80000010#32 [0x00#8, 0x00#8, 0x00#8, 0x00#8, 0x00#8, 0x00#8, 0xF0#8, 0x3F#8]) 16 0x20A2
    t.readF 1 = 0x3FF0000000000000#64) := by decide  -- R421
theorem test_step_cLwsp : (let t := after (State.reset |>.withX [(2, 0x80000008#32)] |>.withBytes 0x80000014#32 [0x78#8, 0x56#8, 0x34#8, 0x12#8]) 16 0x40B2
    t.readX 1 = 0x12345678#32) := by decide  -- R422
theorem test_step_cFlwsp : (let t := after (State.reset |>.withX [(2, 0x80000008#32)] |>.withBytes 0x80000014#32 [0x00#8, 0x00#8, 0x80#8, 0x3F#8]) 16 0x60B2
    t.readF 1 = 0xFFFFFFFF3F800000#64) := by decide  -- R423
theorem test_step_cJr : (let t := after (State.reset |>.withX [(10, 0x00002001#32)]) 16 0x8502
    t.hart.pc = 0x00002000#32) := by decide  -- R424
theorem test_step_cMv : (let t := after (State.reset |>.withX [(11, 0x00000007#32)]) 16 0x852E
    t.readX 10 = 0x00000007#32) := by decide  -- R425
theorem test_step_cEbreak : (let t := after (State.reset |>.setPc 0x20000006#32) 16 0x9002
    t.hart.halted = true ∧ t.hart.pc = 0x20000006#32) := by decide  -- R431
theorem test_step_cJalr : (let t := after (State.reset |>.withX [(10, 0x00002001#32)]) 16 0x9502
    t.hart.pc = 0x00002000#32 ∧ t.readX 1 = 0x20000002#32) := by decide  -- R426
theorem test_step_cAdd : (let t := after (State.reset |>.withX [(10, 0x00000005#32), (11, 0x00000007#32)]) 16 0x952E
    t.readX 10 = 0x0000000C#32) := by decide  -- R427
theorem test_step_cFsdsp : (let t := after (State.reset |>.withX [(2, 0x80000008#32)] |>.withF [(1, 0xFFFFFFFF40000000#64)]) 16 0xA406
    [Memory.read t.mem 0x80000010#32, Memory.read t.mem 0x80000011#32, Memory.read t.mem 0x80000012#32, Memory.read t.mem 0x80000013#32, Memory.read t.mem 0x80000014#32, Memory.read t.mem 0x80000015#32, Memory.read t.mem 0x80000016#32, Memory.read t.mem 0x80000017#32] = [0x00#8, 0x00#8, 0x00#8, 0x40#8, 0xFF#8, 0xFF#8, 0xFF#8, 0xFF#8]) := by decide  -- R428
theorem test_step_cSwsp : (let t := after (State.reset |>.withX [(2, 0x80000008#32), (1, 0x12345678#32)]) 16 0xC606
    [Memory.read t.mem 0x80000014#32, Memory.read t.mem 0x80000015#32, Memory.read t.mem 0x80000016#32, Memory.read t.mem 0x80000017#32] = [0x78#8, 0x56#8, 0x34#8, 0x12#8]) := by decide  -- R429
theorem test_step_cFswsp : (let t := after (State.reset |>.withX [(2, 0x80000008#32)] |>.withF [(1, 0xFFFFFFFF3F800000#64)]) 16 0xE606
    [Memory.read t.mem 0x80000014#32, Memory.read t.mem 0x80000015#32, Memory.read t.mem 0x80000016#32, Memory.read t.mem 0x80000017#32] = [0x00#8, 0x00#8, 0x80#8, 0x3F#8]) := by decide  -- R430

/-! ## Witnesses: for each statement with hypotheses, states and operands that meet them -/

/-- A hart with `x5` in RAM; its last word and its last byte, and a ROM's last word, are the boundaries used below. -/
def ram : State := State.reset.withX [(5, 0x80000008#32)]
def ramEnd : State := State.reset.withX [(5, 0x807FFFFC#32), (2, 0x807FFFFC#32), (8, 0x807FFFFC#32)]
def ramEnd8 : State := State.reset.withX [(5, 0x807FFFF8#32), (2, 0x807FFFF8#32), (8, 0x807FFFF8#32)]
def romEnd : State := State.reset.withX [(5, 0x2000FFFC#32)]

/-- S mode with paging on; the root table is the first page of RAM, all zero. -/
def paged : State :=
  { State.reset with hart := { State.reset.hart with priv := .s, satp := 0x80080000#32, pc := 0x00400000#32 } }

def Access.isOk {α : Type} : Access α → Bool
  | .ok _ _ => true
  | .raise _ _ _ => false

theorem exists_ok {α : Type} {r : Access α} (h : Access.isOk r = true) : ∃ v s, r = .ok v s := by
  cases r with
  | ok v s => exact ⟨v, s, rfl⟩
  | raise e t s => cases h

theorem exists_raise {α : Type} {r : Access α} (h : Access.isOk r = false) : ∃ e t s, r = .raise e t s := by
  cases r with
  | ok v s => cases h
  | raise e t s => exact ⟨e, t, s, rfl⟩

theorem bare {s : State} {acc : AccessKind} {va : Word} (h : s.hart.translates = false) :
    Machine.translate acc va s = .ok va s := by unfold Machine.translate; rw [h]; rfl

theorem bareAt {s : State} {acc : AccessKind} {va pa : Word} (h : s.hart.translates = false) (e : va = pa) :
    Machine.translate acc va s = .ok pa s := by subst e; exact bare h

theorem witness_DecodeOfEncode : Config.default.wf = true ∧ Instr.wellFormed Config.default (.cAddi 1 (-32)) = true ∧
    Instr.wellFormed Config.default (.slt 0 1 0) = true ∧ Instr.wellFormed Config.default .breakHint = true := by decide

theorem witness_EncodeOfDecode : Config.default.wf = true ∧
    decodeRaw Config.default (.word 0x00102033#32) = some .breakHint ∧
    decodeRaw Config.default (.half 0x1141#16) = some (.cAddi 2 (-16)) := by decide

theorem witness_IllegalHalfwords : (decodeRaw Config.default (.half 0x0000#16) = none ∧
    decodeRaw Config.default (.half 0x8000#16) = none ∧ decodeRaw Config.default (.half 0x6101#16) = none ∧
    decodeRaw Config.default (.half 0x6501#16) = none ∧ decodeRaw Config.default (.half 0x9101#16) = none ∧
    decodeRaw Config.default (.half 0x9501#16) = none ∧ decodeRaw Config.default (.half 0x1502#16) = none ∧
    decodeRaw Config.default (.half 0x9D0D#16) = none ∧ decodeRaw Config.default (.half 0x4002#16) = none ∧
    decodeRaw Config.default (.half 0x8002#16) = none ∧ decodeRaw noDouble (.half 0x2480#16) = none ∧
    decodeRaw noDouble (.half 0xA406#16) = none ∧ decodeRaw Config.default (.half 0x0001#16) ≠ none) ∧
    (0x8002#16 : Half).extractLsb' 0 2 ≠ 3#2 := by decide

theorem witness_UnimplementedWords : Config.default.wf = true ∧
    (0x1002A3AF#32 : Word).extractLsb' 27 5 = 2#5 ∧ (0x1862A3AF#32 : Word).extractLsb' 27 5 = 3#5 ∧
    (0x18208043#32 : Word).extractLsb' 0 7 = 0x43#7 ∧ (0x18208047#32 : Word).extractLsb' 0 7 = 0x47#7 ∧
    (0x1820804B#32 : Word).extractLsb' 0 7 = 0x4B#7 ∧ (0x1820804F#32 : Word).extractLsb' 0 7 = 0x4F#7 ∧
    (0x022081D3#32 : Word).extractLsb' 25 2 ≠ 0#2 ∧ (0x10500073#32 : Word).extractLsb' 12 3 = 0#3 ∧
    (0x0020D1D3#32 : Word).extractLsb' 12 3 = 5#3 ∧ (0x0020E1D3#32 : Word).extractLsb' 12 3 = 6#3 := by decide

/-- A reserved `rm` in FSUB.S, FMUL.S, FDIV.S, FSQRT.S, FCVT.WU.S and FCVT.S.W; the same words with DYN are instructions. -/
theorem witness_UnimplementedWords_rm : [0x0820D1D3#32, 0x1020E1D3#32, 0x1820D1D3#32, 0x5800E1D3#32, 0xC010D1D3#32,
    0xD00161D3#32].all (fun w => decodeRaw Config.default (.word w) = none &&
      decodeRaw Config.default (.word (w ||| 0x00007000#32)) ≠ none &&
      [0x04#7, 0x08#7, 0x0C#7, 0x2C#7, 0x60#7, 0x68#7].contains ((w : Word).extractLsb' 25 7)) = true := by decide +kernel

theorem witness_RegisterZero : (31#5 : Reg) ≠ 0#5 := by decide

theorem witness_DivisionLaws : (let s := State.reset.withX [(5, 0x80000000#32), (6, 0xFFFFFFFF#32)]
    s.readX 5 = 0x80000000#32 ∧ s.readX 6 = 0xFFFFFFFF#32 ∧ s.readX 7 = 0#32 ∧ s.readX 6 ≠ 0#32) ∧
    (let s := State.reset.withX [(5, 0xFFFFFFF9#32), (6, 2#32)]
    s.readX 6 ≠ 0#32 ∧ ¬ (s.readX 5 = 0x80000000#32 ∧ s.readX 6 = 0xFFFFFFFF#32) ∧ (s.readX 5).toInt ≤ 0) := by decide

theorem witness_IntegerLoads_ram : ∃ pa s1, Machine.translate .r (ramEnd.readX 5 + signedImm 1 0#12) ramEnd = .ok pa s1 ∧
    ramEnd.holdsBytes pa 4 := ⟨_, _, bare rfl, .inl ⟨_, rfl, rfl, by decide, by decide⟩⟩

theorem witness_IntegerLoads_rom : ∃ pa s1, Machine.translate .r (romEnd.readX 5 + signedImm 1 0#12) romEnd = .ok pa s1 ∧
    romEnd.holdsBytes pa 4 := ⟨_, _, bare rfl, .inr ⟨_, rfl, rfl, by decide, by decide⟩⟩

theorem witness_IntegerLoads_sp : ∃ pa s1, Machine.translate .r (ramEnd.readX 2 + unsignedImm 4 0#6) ramEnd = .ok pa s1 ∧
    ramEnd.holdsBytes pa 4 := ⟨_, _, bare rfl, .inl ⟨_, rfl, rfl, by decide, by decide⟩⟩

theorem witness_IntegerLoads_prime :
    ∃ pa s1, Machine.translate .r (ramEnd.readX (primeReg 0) + unsignedImm 4 0#5) ramEnd = .ok pa s1 ∧
    ramEnd.holdsBytes pa 4 := ⟨_, _, bare rfl, .inl ⟨_, rfl, rfl, by decide, by decide⟩⟩

theorem witness_FloatLoads : ramEnd8.cfg.hasFldFsd = true ∧
    (∃ pa s1, Machine.translate .r (ramEnd8.readX 5 + signedImm 1 0#12) ramEnd8 = .ok pa s1 ∧ ramEnd8.holdsBytes pa 8) ∧
    (∃ pa s1, Machine.translate .r (ramEnd8.readX (primeReg 0) + unsignedImm 8 0#5) ramEnd8 = .ok pa s1 ∧
      ramEnd8.holdsBytes pa 8) ∧
    (∃ pa s1, Machine.translate .r (ramEnd8.readX 2 + unsignedImm 8 0#6) ramEnd8 = .ok pa s1 ∧
      ramEnd8.holdsBytes pa 8) :=
  ⟨rfl, ⟨_, _, bare rfl, .inl ⟨_, rfl, rfl, by decide, by decide⟩⟩,
    ⟨_, _, bare rfl, .inl ⟨_, rfl, rfl, by decide, by decide⟩⟩,
    ⟨_, _, bare rfl, .inl ⟨_, rfl, rfl, by decide, by decide⟩⟩⟩

theorem witness_IntegerStores_ram : Memory.wf ramEnd.mem = true ∧
    ∃ pa s1, Machine.translate .w (ramEnd.readX 5 + signedImm 1 0#12) ramEnd = .ok pa s1 ∧ ramEnd.holds .ram pa 4 :=
  ⟨rfl, _, _, bare rfl, ⟨_, rfl, rfl, by decide, by decide⟩⟩

theorem witness_IntegerStores_rom : Memory.wf romEnd.mem = true ∧
    ∃ pa s1, Machine.translate .w (romEnd.readX 5 + signedImm 1 0#12) romEnd = .ok pa s1 ∧ romEnd.holds .rom pa 4 :=
  ⟨rfl, _, _, bare rfl, ⟨_, rfl, rfl, by decide, by decide⟩⟩

theorem witness_FloatStores : ramEnd8.cfg.hasFldFsd = true ∧ Memory.wf ramEnd8.mem = true ∧
    (∃ pa s1, Machine.translate .w (ramEnd8.readX 5 + signedImm 1 0#12) ramEnd8 = .ok pa s1 ∧ ramEnd8.holds .ram pa 8) ∧
    (∃ pa s1, Machine.translate .w (ramEnd8.readX (primeReg 0) + unsignedImm 8 0#5) ramEnd8 = .ok pa s1 ∧
      ramEnd8.holds .ram pa 8) ∧
    (∃ pa s1, Machine.translate .w (ramEnd8.readX 2 + unsignedImm 8 0#6) ramEnd8 = .ok pa s1 ∧
      ramEnd8.holds .ram pa 8) :=
  ⟨rfl, rfl, ⟨_, _, bare rfl, ⟨_, rfl, rfl, by decide, by decide⟩⟩,
    ⟨_, _, bare rfl, ⟨_, rfl, rfl, by decide, by decide⟩⟩,
    ⟨_, _, bare rfl, ⟨_, rfl, rfl, by decide, by decide⟩⟩⟩

/-- The last eight bytes of ROM. -/
def romEnd8 : State := State.reset.withX [(5, 0x2000FFF8#32), (2, 0x2000FFF8#32), (8, 0x2000FFF8#32)]

theorem witness_FloatStores_rom : romEnd8.cfg.hasFldFsd = true ∧ Memory.wf romEnd8.mem = true ∧
    romEnd8.holds .rom (romEnd8.readX 5) 8 ∧
    (∃ pa s1, Machine.translate .w (romEnd8.readX 5 + signedImm 1 0#12) romEnd8 = .ok pa s1 ∧ romEnd8.holds .rom pa 8) :=
  ⟨rfl, rfl, ⟨_, rfl, rfl, by decide, by decide⟩, ⟨_, _, bare rfl, ⟨_, rfl, rfl, by decide, by decide⟩⟩⟩

theorem witness_AmoResults_rom : Memory.wf romEnd.mem = true ∧
    ∃ pa s1, Machine.translate .w (romEnd.readX 5) romEnd = .ok pa s1 ∧ romEnd.holds .rom pa 4 :=
  ⟨rfl, _, _, bare rfl, ⟨_, rfl, rfl, by decide, by decide⟩⟩

theorem witness_AmoResults : Memory.wf ramEnd.mem = true ∧ ramEnd.amoLock = false ∧
    ∃ pa s1, Machine.translate .w (ramEnd.readX 5) ramEnd = .ok pa s1 ∧ ramEnd.holds .ram pa 4 :=
  ⟨rfl, rfl, _, _, bare rfl, ⟨_, rfl, rfl, by decide, by decide⟩⟩

theorem witness_NoLostUpdate : ∃ a1 a2 b1, Machine.translate .w (ram.readX 5) ram = .ok 0x80000008#32 a1 ∧
    exec (.amoaddW 7 5 6 false false) ram = .next a2 ∧
    Machine.translate .w (a2.readX 5) a2 = .ok 0x80000008#32 b1 ∧ ram.holds .ram 0x80000008#32 4 :=
  ⟨_, _, _, bare rfl, rfl, bare rfl, ⟨_, rfl, rfl, by decide, by decide⟩⟩

/-- Nothing lies at address 0; a word that runs over the end of RAM lies in no device; neither does one at the top. -/
theorem no_device {s : State} {pa : Word} {n : Nat} (h : claim s.cfg.devices pa n = none) : ∀ k, ¬ s.holds k pa n := by
  intro k hk
  obtain ⟨d, hd, -⟩ := claim_of_holds hk
  rw [h] at hd
  cases hd

theorem witness_AccessFaultsRaise_no_device : ∃ s1,
    Machine.translate .r (State.reset.readX 5 + signedImm 1 0#12) State.reset = .ok 0x00000000#32 s1 ∧
    (∀ k, ¬ State.reset.holds k 0x00000000#32 1) ∧ (∀ k, ¬ State.reset.holds k 0x807FFFFE#32 4) ∧
    (∀ k, ¬ State.reset.holds k 0xFFFFFFFE#32 4) :=
  ⟨_, bareAt (by decide) (by decide), no_device (by decide), no_device (by decide), no_device (by decide)⟩

theorem witness_AccessFaultsRaise_page : (∃ e tv s1, Machine.translate .r (paged.readX 5 + signedImm 1 0#12) paged =
      .raise e tv s1) ∧ (∃ e tv s1, Machine.translate .w (paged.readX 5 + signedImm 1 0#12) paged = .raise e tv s1) :=
  ⟨exists_raise (by decide), exists_raise (by decide)⟩

theorem witness_AmoAndDoubleFaults : paged.amoLock = false ∧ paged.cfg.hasFldFsd = true ∧
    (∃ e tv s1, Machine.translate .w (paged.readX 5) paged = .raise e tv s1) ∧
    (∃ s1, Machine.translate .w (State.reset.readX 5) State.reset = .ok 0x00000000#32 s1) ∧
    (∀ k, ¬ State.reset.holds k 0x00000000#32 4) ∧ (∀ k, ¬ State.reset.holds k 0x807FFFFC#32 8) :=
  ⟨by decide, by decide, exists_raise (by decide), ⟨_, bareAt (by decide) (by decide)⟩,
    no_device (by decide), no_device (by decide)⟩

theorem witness_DoubleFormsIllegal : (State.reset.withCfg noDouble).cfg.hasFldFsd = false := rfl

/-- The entry of S-mode reads remembers the first page. -/
def cached : State :=
  { paged with hart := { paged.hart with tlb := paged.hart.tlb.put .s .r { valid := true, vpage := 0#20, ppage := 0x80001#20 } } }

theorem witness_TranslationWithoutWalk : State.reset.hart.priv = .m ∧ (State.reset.withPriv .u).hart.satp.toNat < 2 ^ 31 ∧
    cached.hart.priv ≠ .m ∧ 2 ^ 31 ≤ cached.hart.satp.toNat ∧ (cached.hart.tlb.get .s .r).valid = true ∧
    (cached.hart.tlb.get .s .r).vpage = (0x00000FFF#32 : Word).extractLsb' 12 20 := by decide

/-- A root table whose entry 0 is a superpage, 1 a pointer to the table at 0x80001000, 2 a misaligned superpage, 3 a page of
execute permission alone, 4 a pointer to a table nothing holds; in the second table entry 0 is a user page, 1 a writable one,
2 is invalid. -/
def tables : State :=
  paged.withBytes 0x80000000#32
    [0xCF#8, 0x00#8, 0x00#8, 0x20#8, 0x01#8, 0x04#8, 0x00#8, 0x20#8, 0xCF#8, 0x04#8, 0x00#8, 0x20#8,
     0xC9#8, 0x00#8, 0x00#8, 0x20#8, 0x01#8, 0x00#8, 0x00#8, 0x00#8]
  |>.withBytes 0x80001000#32 [0xD7#8, 0x08#8, 0x00#8, 0x20#8, 0xC7#8, 0x08#8, 0x00#8, 0x20#8, 0x00#8]

theorem bytesAt {s : State} {a : Word} (h : claim s.cfg.devices a 4 = some { base := 0x80000000#32, size := 0x800000#32, kind := .ram }) :
    s.holdsBytes a 4 := .inl (holds_of_claim h)

theorem witness_WalkThroughRam_common : tables.hart.priv ≠ .m ∧ 2 ^ 31 ≤ tables.hart.satp.toNat ∧
    (tables.hart.tlb.get .s .r).valid = false ∧ BitVec.ofNat 32 (tables.hart.satp.toNat % 2 ^ 22 * 4096) = 0x80000000#32 ∧
    tables.holdsBytes 0x80000000#32 4 ∧ tables.holdsBytes 0x80000FFC#32 4 :=
  ⟨by decide, by decide, by decide, by decide, bytesAt (by decide), bytesAt (by decide)⟩

/-- The root table at address 0, where no device is. -/
def noRoot : State := { paged with hart := { paged.hart with satp := 0x80000000#32 } }

theorem witness_WalkThroughRam_no_root : noRoot.hart.priv ≠ .m ∧ 2 ^ 31 ≤ noRoot.hart.satp.toNat ∧
    (noRoot.hart.tlb.get .s .r).valid = false ∧ BitVec.ofNat 32 (noRoot.hart.satp.toNat % 2 ^ 22 * 4096) = 0#32 ∧
    (∀ k, ¬ noRoot.holds k 0x00000004#32 4) := ⟨by decide, by decide, by decide, by decide, no_device (by decide)⟩

theorem witness_WalkThroughRam_superpage : bytesValue tables.mem 0x80000000#32 4 = 0x200000CF ∧
    (0x200000CF#32 : Word).extractLsb' 1 3 ≠ 0#3 ∧ (0x200000CF#32 : Word).extractLsb' 10 10 = 0#10 ∧
    ptePermits 0x200000CF#32 tables.hart .r = true := by decide

theorem witness_WalkThroughRam_misaligned : bytesValue tables.mem 0x80000008#32 4 = 0x200004CF ∧
    (0x200004CF#32 : Word).getLsbD 0 = true ∧ (0x200004CF#32 : Word).extractLsb' 10 10 ≠ 0#10 := by decide

theorem witness_WalkThroughRam_refused : bytesValue tables.mem 0x8000000C#32 4 = 0x200000C9 ∧
    (0x200000C9#32 : Word).extractLsb' 10 10 = 0#10 ∧ ptePermits 0x200000C9#32 tables.hart .r = false := by decide

theorem witness_WalkThroughRam_invalid : bytesValue tables.mem 0x80000FFC#32 4 = 0 ∧
    (0#32 : Word).getLsbD 0 = false := by decide

theorem witness_WalkThroughRam_leaf : bytesValue tables.mem 0x80000004#32 4 = 0x20000401 ∧
    (0x20000401#32 : Word).extractLsb' 1 3 = 0#3 ∧
    BitVec.ofNat 32 ((0x20000401#32 : Word).toNat / 2 ^ 10 * 4096) = 0x80001000#32 ∧
    bytesValue tables.mem 0x80001000#32 4 = 0x200008D7 ∧ ptePermits 0x200008D7#32 tables.hart .r = false ∧
    bytesValue tables.mem 0x80001004#32 4 = 0x200008C7 ∧ ptePermits 0x200008C7#32 tables.hart .r = true ∧
    bytesValue tables.mem 0x80001008#32 4 = 0 := by decide

theorem witness_WalkThroughRam_leaf_held : tables.holdsBytes 0x80001000#32 4 := bytesAt (by decide)

theorem witness_WalkThroughRam_no_table : bytesValue tables.mem 0x80000010#32 4 = 1 ∧
    (∀ k, ¬ tables.holds k 0x00000000#32 4) := ⟨by decide, no_device (by decide)⟩

theorem witness_TranslationEffects : (∃ pa s1, Machine.translate .r 0x00400000#32 State.reset = .ok pa s1) ∧
    (∃ pa s1, Machine.translate .r 0x00000000#32 cached = .ok pa s1) ∧
    (∃ pa s1, Machine.translate .r 0x00000000#32 tables = .ok pa s1) ∧
    (∃ e tv s1, Machine.translate .r 0x00C00000#32 tables = .raise e tv s1) ∧
    (∃ e tv s1, Machine.translate .r 0x01000000#32 tables = .raise e tv s1) :=
  ⟨exists_ok (by decide), exists_ok (by decide), exists_ok (by decide), exists_raise (by decide), exists_raise (by decide)⟩

theorem witness_PermissionRules : (State.reset.withPriv .u).hart.priv = .u ∧ paged.hart.priv = .s ∧
    (0x200008D7#32 : Word).getLsbD 4 = true := by decide

theorem witness_PortWrites : Memory.wf State.reset.mem = true ∧
    (∃ t, physWrite 0x807FFFF8#32 8 1#64 State.reset = some t) ∧ State.reset.holds .ram 0x807FFFF8#32 8 ∧
    (∃ t, physWrite 0x20000000#32 4 1#64 State.reset = some t) ∧ ¬ State.reset.holds .ram 0x20000000#32 4 :=
  ⟨rfl, ⟨_, rfl⟩, ⟨_, rfl, rfl, by decide, by decide⟩, ⟨_, rfl⟩,
    fun h => by obtain ⟨d, hd, hk, -⟩ := h; cases hd; cases hk⟩

theorem witness_ClintRegisters : ∀ off, off < 0x10000 → State.reset.cfg.devices.find?
    (claims (0x02000000#32 + BitVec.ofNat 32 off)) = some { base := 0x02000000#32, size := 0x10000#32, kind := .clint } := by
  intro off h
  have ha : (0x02000000#32 + BitVec.ofNat 32 off : Word).toNat = 0x02000000 + off := by
    rw [BitVec.toNat_add, BitVec.toNat_ofNat, BitVec.toNat_ofNat]; omega
  have hc : ∀ d : Device, claims (0x02000000#32 + BitVec.ofNat 32 off) d =
      (decide (d.base.toNat ≤ 0x02000000 + off) && decide (0x02000000 + off < d.base.toNat + d.size.toNat)) := by
    intro d; unfold claims; rw [ha]
  show List.find? _ [_, _, _] = _
  simp only [List.find?, hc]
  have h1 : ¬ (0x20000000#32 : Word).toNat ≤ 0x02000000 + off := by simp; omega
  have h2 : ¬ (0x80000000#32 : Word).toNat ≤ 0x02000000 + off := by simp; omega
  have h3 : (0x02000000#32 : Word).toNat ≤ 0x02000000 + off := by simp
  have h4 : 0x02000000 + off < (0x02000000#32 : Word).toNat + (0x10000#32 : Word).toNat := by simp; omega
  simp only [h1, h2, h3, h4, decide_false, decide_true, Bool.false_and, Bool.true_and]

/-- Two harts. -/
def twoHarts : State := State.resetWith { Config.default with numHarts := 2 }

theorem witness_ClintRegisters_harts : twoHarts.cfg.numHarts ≤ 4095 ∧
    (twoHarts.harts.map (fun h => h.hartid)).Perm (List.range twoHarts.cfg.numHarts) ∧ 1 < twoHarts.cfg.numHarts ∧
    twoHarts.cfg.devices = State.reset.cfg.devices ∧
    (∃ h ∈ twoHarts.harts, h.hartid = 1) ∧ (0x02000000#32 : Word).toNat + 0x10000 ≤ 2 ^ 32 := by decide

/-- A debug-print device and a device of unknown insides. -/
def withDevices : State := State.reset.withCfg { Config.default with
  devices := Config.default.devices ++ [⟨0x10000000#32, 1#32, .debugPrint⟩, ⟨0x10001000#32, 16#32, .other⟩] }

theorem witness_PortAccesses_clint : ∃ v s2 s3,
    Machine.translate .r (0x0200BFF8#32 : Word) State.reset = .ok 0x0200BFF8#32 State.reset ∧
    physRead 0x0200BFF8#32 4 State.reset = some (v, s2) ∧ physWrite 0x0200BFF8#32 4 5#64 s2 = some s3 ∧
    State.reset.amoLock = false := ⟨_, _, _, bare rfl, rfl, rfl, rfl⟩

theorem witness_PortAccesses_double : State.reset.cfg.hasFldFsd = true ∧ (∃ v s2,
    physRead 0x02004000#32 8 State.reset = some (v, s2)) ∧ (∃ s2, physWrite 0x02004000#32 8 5#64 State.reset = some s2) :=
  ⟨rfl, ⟨_, _, rfl⟩, ⟨_, rfl⟩⟩

theorem witness_PortAccesses_devices : withDevices.holds .other 0x10001008#32 8 ∧
    withDevices.holds .debugPrint 0x10000000#32 1 ∧ withDevices.cfg.wf = true ∧
    romEnd.holds .rom 0x2000FFFC#32 4 :=
  ⟨⟨_, rfl, rfl, by decide, by decide⟩, ⟨_, rfl, rfl, by decide, by decide⟩, by decide,
    ⟨_, rfl, rfl, by decide, by decide⟩⟩

theorem witness_TrapReturns : mppField State.reset.hart.mstatus ≠ 2#2 ∧ State.reset.hart.priv = .m ∧ (State.reset.withPriv .s).hart.priv ≠ .m ∧
    (State.reset.withPriv .s).hart.priv ≠ .u ∧ (State.reset.withPriv .u).hart.priv = .u := by decide

theorem witness_BreakHalts : State.reset.others = [] ∧ State.reset.cfg.ebreakTraps = false ∧
    (State.reset.withCfg { Config.default with ebreakTraps := true }).cfg.ebreakTraps = true := by decide

theorem witness_CsrInstructions : ((0x340#12 : CsrNum).toNat / 256 % 4 ≤ State.reset.hart.priv.level ∧
      ¬ (true = true ∧ (0x340#12 : CsrNum).toNat / 1024 = 3)) ∧
    (State.reset.withPriv .u).hart.priv.level < (0x100#12 : CsrNum).toNat / 256 % 4 ∧
    (0xC00#12 : CsrNum).toNat / 1024 = 3 ∧ (0xBFF#12 : CsrNum).toNat / 1024 ≠ 3 := by decide

theorem witness_PlainCsrs : sparseWf 0#32 State.reset.hart.csrs = true ∧ csrName 0x3A0#12 = none ∧
    (0x3A0#12 : CsrNum) ≠ 0x340#12 := by decide

theorem witness_SatpWrites : State.reset.cfg.tlbFlushOnSatpWrite = false ∧
    (State.reset.withCfg { Config.default with tlbFlushOnSatpWrite := true }).cfg.tlbFlushOnSatpWrite = true := by decide

/-- A hart whose `frm` is `n`. -/
def frmIs (n : Nat) : State := { State.reset with hart := { State.reset.hart with fcsr := BitVec.ofNat 8 (32 * n) } }

theorem witness_FloatArithmetic : (frmIs 1).roundingMode .dyn = some .rtz ∧ (frmIs 5).roundingMode .dyn = none ∧
    State.reset.roundingMode .rup = some .rup := by decide

theorem witness_RoundingModeChoice : State.reset.cfg.frmWired = true ∧
    (State.reset.withCfg { Config.default with frmWired := false }).cfg.frmWired = false ∧
    (frmIs 0).hart.fcsr.toNat / 32 = 0 ∧ (frmIs 1).hart.fcsr.toNat / 32 = 1 ∧ (frmIs 2).hart.fcsr.toNat / 32 = 2 ∧
    (frmIs 3).hart.fcsr.toNat / 32 = 3 ∧ (frmIs 4).hart.fcsr.toNat / 32 = 4 ∧ 5 ≤ (frmIs 7).hart.fcsr.toNat / 32 := by decide

theorem witness_FloatSpecialCases : isNan 0x7F800001#32 = true ∧ isNan 0x7F800000#32 = false ∧
    isFinite 0x00000001#32 = true ∧ (0x00000001#32 : Word).toNat % 2 ^ 31 ≠ 0 ∧ isFinite 0xFF7FFFFF#32 = true ∧
    (0xFF7FFFFF#32 : Word).getLsbD 31 = true := by decide

theorem realValue_one : realValue 0x3F800000#32 = 1 := by
  unfold realValue magValue
  rw [if_neg (by decide)]
  norm_num

theorem witness_CorrectRounding : isFinite 0x3F800000#32 = true ∧ realValue 0x3F800000#32 ≠ 0 ∧
    0 < realValue 0x3F800000#32 := by
  rw [realValue_one]; exact ⟨by decide, one_ne_zero, one_pos⟩

theorem witness_FloatToInteger : isNan 0x7FC00000#32 = true ∧ isFinite 0xCF000000#32 = true := by decide

theorem realValue_zero : realValue 0x00000000#32 = 0 := by
  unfold realValue magValue
  rw [if_neg (by decide)]
  norm_num

theorem witness_FloatOrder : isNan 0x7FC00000#32 = true ∧ isNan 0x3F800000#32 = false ∧
    realValue 0x00000000#32 < realValue 0x3F800000#32 ∧ isFinite 0x00000000#32 = true ∧
    (0x7F7FFFFF#32 : Word) ≠ 0x7F800000#32 ∧ isNan 0xFF800000#32 = false ∧ isNan 0x7F800000#32 = false := by
  rw [realValue_one, realValue_zero]; exact ⟨by decide, by decide, one_pos, by decide, by decide, by decide, by decide⟩

theorem witness_FlagsChangeOnlyByCsrWrite : isCsrInstr (.faddS 3 1 2 .rne) = false ∧
    ∃ t, exec (.faddS 3 1 2 .rne) State.reset = .next t := ⟨rfl, _, rfl⟩

theorem witness_ModeChanges : State.reset.hart.pc.getLsbD 0 = false ∧
    (∃ t, exec .mret State.reset = .next t ∧ t.hart.priv ≠ State.reset.hart.priv) ∧
    (∃ t, exec .ecall (State.reset.withPriv .u) = .next t ∧ t.hart.priv ≠ .u) :=
  ⟨by decide, ⟨_, rfl, by decide⟩, ⟨_, rfl, by decide⟩⟩

theorem witness_UserModeIsolation : sparseWf 0#32 (State.reset.withPriv .u).hart.csrs = true ∧
    (∃ t, exec (.csrrw 5 6 0x800) (State.reset.withPriv .u) = .next t ∧ t.hart.priv = .u) ∧
    (∃ t, exec .uret (State.reset.withPriv .u) = .next t ∧ t.hart.priv = .u) :=
  ⟨rfl, ⟨_, rfl, by decide⟩, ⟨_, rfl, by decide⟩⟩

/-- A program of one instruction, ADDI x1, x0, 5, where a step fetches it. -/
def placed : State := State.reset.withFetchWord 32 0x00500093

theorem noInterrupt {s : State} (h : s.pendingInterrupt = none) : s.interruptTaken = none := by
  unfold State.interruptTaken; rw [h]

theorem witness_StepRunsDecoded : ∃ s1, placed.selectHart = some s1 ∧ s1.environment.interruptTaken = none ∧
    (∃ u1, fetchInstr s1.environment.afterCheck.environment = .ok (.word 0x00500093#32) u1 ∧
      decodeRaw u1.cfg (.word 0x00500093#32) = some (.addi 1 0 5)) ∧
    s1.hart.priv = .m ∧ s1.holdsBytes s1.hart.pc 2 ∧ s1.holdsBytes (s1.hart.pc + 2#32) 2 ∧
    decode s1.cfg [Memory.read s1.mem s1.hart.pc, Memory.read s1.mem (s1.hart.pc + 1#32),
      Memory.read s1.mem (s1.hart.pc + 2#32), Memory.read s1.mem (s1.hart.pc + 3#32)] = .ok (.addi 1 0 5, []) :=
  ⟨placed, rfl, noInterrupt rfl, ⟨_, rfl, rfl⟩, rfl, .inr ⟨_, rfl, rfl, by decide, by decide⟩,
    .inr ⟨_, rfl, rfl, by decide, by decide⟩, rfl⟩

theorem witness_StepRaisesFetchFaults : ∃ s1, State.reset.selectHart = some s1 ∧
    s1.environment.interruptTaken = none ∧
    (∃ u1, fetchInstr s1.environment.afterCheck.environment = .ok (.half 0#16) u1 ∧ decodeRaw u1.cfg (.half 0#16) = none) ∧
    (∃ e tv u1, fetchInstr (State.reset.setPc 0x00000000#32).environment.afterCheck.environment = .raise e tv u1) :=
  ⟨State.reset, rfl, noInterrupt rfl, ⟨_, rfl, rfl⟩, exists_raise rfl⟩

/-- A hart with the software interrupt pending and enabled, and a check due. -/
def interrupted : State :=
  { State.reset with hart := { State.reset.hart with mstatus := 0x8#32, mie := 0x2#32, mipSw := 0x2#32, sinceCheck := 1 } }

theorem witness_InterruptDelivery : ∃ s1, interrupted.selectHart = some s1 ∧
    s1.environment.interruptTaken = some .supervisorSoftware ∧ interrupted.pendingInterrupt = some .supervisorSoftware ∧
    State.reset.environment.interruptTaken = none :=
  ⟨interrupted, rfl, rfl, rfl, noInterrupt rfl⟩

theorem witness_StepCounting : interrupted.cfg.irqCheckPeriod ≤ interrupted.hart.sinceCheck ∧
    placed.hart.halted = false ∧ (∃ t, instructionStep placed = .next t ∧ t.hart.halted = false) ∧
    (∃ t, instructionStep (State.reset.withFetchWord 32 0x00100073) = .next t ∧ t.hart.halted = true) :=
  ⟨by decide, by decide, ⟨_, rfl, by decide⟩, ⟨_, rfl, by decide⟩⟩

/-- A read of the counter, and a write of it in U mode, are counted; the write in M mode is the excluded case. -/
theorem witness_StepCounting_csr : csrWritten (.csrrs 5 0 0xB00) = none ∧ csrWritten (.csrrw 0 5 0xB00) = some 0xB00#12 ∧
    (State.reset.withPriv .u).hart.priv ≠ .m ∧
    (after State.reset 32 0xB00022F3).hart.cycle = 1#64 ∧
    (after (State.reset.withPriv .u) 32 0xB0029073).hart.cycle = 1#64 := by decide

theorem witness_StepCounting_optional {s : State} (h : s.pendingInterrupt = some .supervisorSoftware)
    (hc : s.checkHappens = false) : s.interruptTaken = none ∧ s.pendingInterrupt ≠ none :=
  ⟨by unfold State.interruptTaken; rw [h, hc]; rfl, by rw [h]; exact Option.some_ne_none _⟩

theorem witness_InvariantKept : placed.Inv ∧ ∃ t, step placed = .next t := by
  refine ⟨⟨by decide, by decide, rfl, by decide, ?_⟩, _, rfl⟩
  intro h hh
  rcases List.mem_cons.1 hh with he | he
  on_goal 2 => cases he
  subst he
  exact
    { x0 := by decide, pcEven := by decide, statusMask := by decide, mppLegal := by decide, mieMask := by decide
      mipMask := by decide, epcEven := fun l => by cases l <;> decide, csrsWf := by decide
      csrsPlain := fun e he => by cases he
      tlbM := fun a => by cases a <;> decide }

theorem witness_RunningStateSteps : State.reset.running ∧
    ¬ (haltHart State.reset).running :=
  ⟨⟨State.reset.hart, List.mem_cons_self, rfl⟩, fun ⟨h, hm, hr⟩ => by
    rcases List.mem_cons.1 hm with he | he
    · subst he; cases hr
    · cases he⟩

theorem witness_ResetState : Config.default.wf = true ∧ Hart.reset Config.default 0 ∈ (State.resetWith Config.default).harts :=
  ⟨by decide, List.mem_cons_self⟩

/-! ## The host's moves (R83, R512) -/

/-- A byte beyond the RAM's end: `resize` to 9 MiB makes it fresh RAM, which reads zero. -/
theorem test_resizeRam : Memory.read ({ State.reset with mem := [(0x80800000, 7#8)] }.resizeRam 0x80000000#32 0x900000#32).mem
    0x80800000#32 = 0#8 := by decide

/-- RAM grown over a device listed after it: the bytes it newly answers for read zero, whatever lay there. -/
theorem test_resizeRam_over : Memory.read (({ State.reset with mem := [(0x80800000, 7#8)] }.withCfg { Config.default with
    devices := Config.default.devices ++ [Device.mk 0x80800000#32 0x1000#32 .ram] }).resizeRam 0x80000000#32 0x900000#32).mem
    0x80800000#32 = 0#8 := by decide

/-- The host writes `satp` with `TLB_FLUSH_ON_SATP_WRITE`: the cache stays. -/
theorem test_hostWrite : ((cached.withCfg { Config.default with tlbFlushOnSatpWrite := true }).hostWrite 0
    (.csr 0x180 5#32)).hart.tlb = cached.hart.tlb ∧ (cached.hostWrite 0 (.csr 0x180 5#32)).hart.satp = 5#32 := by decide
end Sys2Proof.Tests
end

section
/-! SUPPORT. The status and interrupt CSRs: what a read and a write of each number is, and what the masked write, the
MPP legalisation and the assembled `mip` hold bit by bit (spec/10_state.md R34-R36, R41-R44). -/

namespace Sys2Proof.Machine

/-! ## Numbers with a function -/

theorem csrRead_named {n : CsrNum} {c : CsrName} (h : csrName n = some c) (s : State) :
    csrRead s n = csrReadNamed s c := by
  unfold csrRead; rw [h]

theorem csrWrite_named {n : CsrNum} {c : CsrName} (h : csrName n = some c) (v : Word) (s : State) :
    csrWrite n v s = { s with hart := csrWriteNamed s.cfg v s.hart c } := by
  unfold csrWrite; rw [h]

theorem csrRead_mstatus (s : State) : csrRead s 0x300#12 = mstatusRead s.hart.mstatus :=
  csrRead_named (c := .mstatus) (by rfl) s

theorem csrRead_sstatus (s : State) : csrRead s 0x100#12 = csrRead s 0x300#12 &&& 0x800DE133#32 := by
  rw [csrRead_mstatus]; exact csrRead_named (c := .sstatus) (by rfl) s

theorem csrRead_ustatus (s : State) : csrRead s 0x000#12 = csrRead s 0x300#12 &&& 0x00000011#32 := by
  rw [csrRead_mstatus]; exact csrRead_named (c := .ustatus) (by rfl) s

theorem csrRead_mie (s : State) : csrRead s 0x304#12 = s.hart.mie := csrRead_named (c := .mie) (by rfl) s

theorem csrRead_sie (s : State) : csrRead s 0x104#12 = csrRead s 0x304#12 &&& 0x333#32 := by
  rw [csrRead_mie]; exact csrRead_named (c := .sie) (by rfl) s

theorem csrRead_uie (s : State) : csrRead s 0x004#12 = csrRead s 0x304#12 &&& 0x111#32 := by
  rw [csrRead_mie]; exact csrRead_named (c := .uie) (by rfl) s

theorem csrRead_mip (s : State) : csrRead s 0x344#12 = s.mip := csrRead_named (c := .mip) (by rfl) s

theorem csrRead_sip (s : State) : csrRead s 0x144#12 = csrRead s 0x344#12 &&& 0x333#32 := by
  rw [csrRead_mip]; exact csrRead_named (c := .sip) (by rfl) s

theorem csrRead_uip (s : State) : csrRead s 0x044#12 = csrRead s 0x344#12 &&& 0x111#32 := by
  rw [csrRead_mip]; exact csrRead_named (c := .uip) (by rfl) s

theorem csrWrite_mstatus (v : Word) (s : State) :
    csrWrite 0x300#12 v s = { s with hart := { s.hart with mstatus := mstatusWrite s.hart.mstatus v } } :=
  csrWrite_named (c := .mstatus) (by rfl) v s

theorem csrWrite_sstatus (v : Word) (s : State) :
    csrWrite 0x100#12 v s =
      { s with hart := { s.hart with mstatus := maskedWrite 0x000C6133#32 s.hart.mstatus v } } :=
  csrWrite_named (c := .sstatus) (by rfl) v s

theorem csrWrite_ustatus (v : Word) (s : State) :
    csrWrite 0x000#12 v s =
      { s with hart := { s.hart with mstatus := maskedWrite 0x00000011#32 s.hart.mstatus v } } :=
  csrWrite_named (c := .ustatus) (by rfl) v s

theorem csrWrite_mie (v : Word) (s : State) :
    csrWrite 0x304#12 v s = { s with hart := { s.hart with mie := v &&& 0xBBB#32 } } :=
  csrWrite_named (c := .mie) (by rfl) v s

theorem csrWrite_sie (v : Word) (s : State) :
    csrWrite 0x104#12 v s = { s with hart := { s.hart with mie := maskedWrite 0x333#32 s.hart.mie v } } :=
  csrWrite_named (c := .sie) (by rfl) v s

theorem csrWrite_uie (v : Word) (s : State) :
    csrWrite 0x004#12 v s = { s with hart := { s.hart with mie := maskedWrite 0x111#32 s.hart.mie v } } :=
  csrWrite_named (c := .uie) (by rfl) v s

theorem csrWrite_mip (v : Word) (s : State) :
    csrWrite 0x344#12 v s = { s with hart := { s.hart with mipSw := v &&& 0x333#32 } } :=
  csrWrite_named (c := .mip) (by rfl) v s

theorem csrWrite_sip (v : Word) (s : State) :
    csrWrite 0x144#12 v s = { s with hart := { s.hart with mipSw := maskedWrite 0x103#32 s.hart.mipSw v } } :=
  csrWrite_named (c := .sip) (by rfl) v s

theorem csrWrite_uip (v : Word) (s : State) :
    csrWrite 0x044#12 v s = { s with hart := { s.hart with mipSw := maskedWrite 0x001#32 s.hart.mipSw v } } :=
  csrWrite_named (c := .uip) (by rfl) v s

/-! ## The masked write -/

theorem getLsbD_maskedWrite (mask old v : Word) (k : Nat) :
    (maskedWrite mask old v).getLsbD k = if mask.getLsbD k then v.getLsbD k else old.getLsbD k := by
  have hold : old.getLsbD k = true → k < 32 := BitVec.lt_of_getLsbD
  unfold maskedWrite
  cases hm : mask.getLsbD k with
  | true => simp [hm]
  | false => simpa [hm] using hold

/-- The write mask of `uip` (R44). -/
theorem getLsbD_maskedWrite_one (old v : Word) (k : Nat) :
    (maskedWrite 0x001#32 old v).getLsbD k = if k = 0 then v.getLsbD k else old.getLsbD k := by
  rw [getLsbD_maskedWrite]
  exact if_congr (by simp) rfl rfl

/-! ## MPP and SD (R34) -/

theorem mppField_maskedWrite {mask : Word} (hmask : mppField mask = 3#2) (old v : Word) :
    mppField (maskedWrite mask old v) = mppField v := by
  apply BitVec.eq_of_getLsbD_eq
  intro i hi
  have hbit : mask.getLsbD (11 + i) = true := by
    have h3 := congrArg (BitVec.getLsbD · i) hmask
    interval_cases i <;> simpa [mppField] using h3
  simp only [mppField, BitVec.getLsbD_extractLsb', getLsbD_maskedWrite, hbit, if_true]

theorem mppField_setMpp (w : Word) (p : BitVec 2) : mppField (setMpp w p) = p := by
  have hshift : ∀ p : BitVec 2, mppField (p.setWidth 32 <<< 11) = p := by decide
  unfold setMpp
  rw [mppField_maskedWrite (by decide), hshift]

theorem getLsbD_setMpp {k : Nat} (h11 : k ≠ 11) (h12 : k ≠ 12) (w : Word) (p : BitVec 2) :
    (setMpp w p).getLsbD k = w.getLsbD k := by
  have hlow : ∀ k < 32, k ≠ 11 → k ≠ 12 → (0x1800#32).getLsbD k = false := by decide
  have hmask : (0x1800#32).getLsbD k = false :=
    (Nat.lt_or_ge k 32).elim (fun hk => hlow k hk h11 h12) (BitVec.getLsbD_of_ge _ k)
  unfold setMpp
  rw [getLsbD_maskedWrite, hmask]; rfl

theorem mppField_legalizeMpp (w : Word) :
    mppField (legalizeMpp w) = if mppField w = 2#2 then 0#2 else mppField w := by
  unfold legalizeMpp
  split
  · exact mppField_setMpp w 0#2
  · rfl

theorem getLsbD_legalizeMpp {k : Nat} (h11 : k ≠ 11) (h12 : k ≠ 12) (w : Word) :
    (legalizeMpp w).getLsbD k = w.getLsbD k := by
  unfold legalizeMpp
  split
  · exact getLsbD_setMpp h11 h12 w 0#2
  · rfl

theorem mppField_mstatusWrite (old v : Word) :
    mppField (mstatusWrite old v) = if mppField v = 2#2 then 0#2 else mppField v := by
  unfold mstatusWrite
  rw [mppField_legalizeMpp, mppField_maskedWrite (by decide)]

theorem getLsbD_mstatusWrite {k : Nat} (h11 : k ≠ 11) (h12 : k ≠ 12) (old v : Word) :
    (mstatusWrite old v).getLsbD k = if mstatusMask.getLsbD k then v.getLsbD k else old.getLsbD k := by
  unfold mstatusWrite
  rw [getLsbD_legalizeMpp h11 h12, getLsbD_maskedWrite]

theorem mstatusRead_eq_or (w : Word) :
    mstatusRead w = w ||| (if w.extractLsb' 13 2 = 3#2 then 0x80000000#32 else 0#32) := by
  unfold mstatusRead
  split
  · rfl
  · exact (BitVec.or_zero).symm

/-! ## The assembled `mip` (R42) -/

theorem getLsbD_ofBool_shiftLeft (b : Bool) {i : Nat} (hi : i < 32) (k : Nat) :
    ((BitVec.ofBool b).setWidth 32 <<< i).getLsbD k = (decide (k = i) && b) := by
  rw [BitVec.getLsbD_shiftLeft, BitVec.getLsbD_setWidth, BitVec.getLsbD_ofBool]
  by_cases hk : k = i
  · subst hk; simp [hi]
  · obtain hlt | hne : k < i ∨ k - i ≠ 0 := by omega
    · simp [hlt, hk]
    · simp [hne, hk]

theorem getLsbD_mip (s : State) (k : Nat) :
    s.mip.getLsbD k = if k = 3 then s.hart.msip else if k = 7 then s.mtip else if k = 11 then s.hart.meip
      else ((0x333#32 : Word).getLsbD k && s.hart.mipSw.getLsbD k) := by
  unfold State.mip
  rw [BitVec.getLsbD_or, BitVec.getLsbD_or, BitVec.getLsbD_or, BitVec.getLsbD_and,
    getLsbD_ofBool_shiftLeft _ (by decide), getLsbD_ofBool_shiftLeft _ (by decide),
    getLsbD_ofBool_shiftLeft _ (by decide)]
  split_ifs with e3 e7 e11
  · subst e3; simp
  · subst e7; simp
  · subst e11; simp
  · simp [e3, e7, e11, Bool.and_comm]

/-! ## The obligations -/

/-- Settles O38: the three writes are masked writes of `mstatus` alone, the one of `mstatus` itself legalised in MPP. -/
theorem statusRegisters : Obligations.StatusRegisters := by
  unfold Obligations.StatusRegisters
  intro s v k
  rw [csrWrite_mstatus]
  refine ⟨fun h11 h12 => getLsbD_mstatusWrite h11 h12 _ v, mppField_mstatusWrite _ v, rfl, ?_, csrRead_sstatus s,
    csrRead_ustatus s, ⟨_, csrWrite_sstatus v s, getLsbD_maskedWrite _ _ v⟩,
    ⟨_, csrWrite_ustatus v s, getLsbD_maskedWrite _ _ v⟩⟩
  rw [csrRead_mstatus]
  exact mstatusRead_eq_or _

/-- Settles O39, by the bits of the assembled `mip` and of the masked write. -/
theorem interruptRegisters : Obligations.InterruptRegisters := by
  unfold Obligations.InterruptRegisters
  intro s v k
  rw [csrWrite_sie, csrWrite_uie, csrWrite_sip, csrWrite_uip]
  refine ⟨?_, csrRead_sip s, csrRead_uip s, csrRead_sie s, csrRead_uie s, csrWrite_mie v s, csrWrite_mip v s,
    getLsbD_maskedWrite _ _ v k, getLsbD_maskedWrite _ _ v k, getLsbD_maskedWrite _ _ v k,
    getLsbD_maskedWrite_one _ v k⟩
  rw [csrRead_mip]
  exact getLsbD_mip s k

end Sys2Proof.Machine
end

section
/-! SUPPORT. The translation cache and the ways a translation answers (spec/20_memory.md R95-R103). -/

namespace Sys2Proof.Machine

/-! ## The translation cache -/

theorem TlbRow.get_put (t : TlbRow) (a b : AccessKind) (e : TlbEntry) :
    (t.put b e).get a = if a = b then e else t.get a := by
  cases b <;> cases a <;> rfl

theorem Tlb.row_put (t : Tlb) (p q : Priv) (b : AccessKind) (e : TlbEntry) :
    (t.put q b e).row p = if p = q then (t.row p).put b e else t.row p := by
  cases q <;> cases p <;> rfl

@[simp] theorem Tlb.get_put_same (t : Tlb) (p : Priv) (a : AccessKind) (e : TlbEntry) :
    (t.put p a e).get p a = e := by
  unfold Tlb.get
  rw [Tlb.row_put, if_pos rfl, TlbRow.get_put, if_pos rfl]

theorem Tlb.get_put_other {p q : Priv} {a b : AccessKind} (h : (p, a) ≠ (q, b)) (t : Tlb) (e : TlbEntry) :
    (t.put q b e).get p a = t.get p a := by
  unfold Tlb.get
  rw [Tlb.row_put]
  split
  · next hp =>
    have ha : a ≠ b := fun hab => h (Prod.ext hp hab)
    rw [TlbRow.get_put, if_neg ha]
  · rfl

theorem fillTlb_tlb (acc : AccessKind) (va pa : Word) (s : State) :
    (fillTlb acc va pa s).hart.tlb = s.hart.tlb.put s.hart.priv acc
      { valid := true, vpage := va.extractLsb' 12 20, ppage := pa.extractLsb' 12 20 } := rfl

theorem TlbEntry.hits_iff (e : TlbEntry) (va : Word) :
    e.hits va = true ↔ e.valid = true ∧ e.vpage = va.extractLsb' 12 20 := by
  unfold TlbEntry.hits pageOf
  rw [Bool.and_eq_true, beq_iff_eq]

theorem TlbEntry.physical_offset (e : TlbEntry) (va : Word) :
    (e.physical va).extractLsb' 0 12 = va.extractLsb' 0 12 :=
  BitVec.extractLsb'_append_eq_right

/-! ## When an address is translated, and how -/

/-- Paging is off in M mode and where `satp.MODE`, the top bit, is 0 (R95). -/
theorem Hart.translates_eq_false_iff (h : Hart) :
    h.translates = false ↔ h.priv = .m ∨ h.satp.toNat < 2 ^ 31 := by
  have hmode : h.satp.getLsbD 31 = decide (2 ^ 31 ≤ h.satp.toNat) := BitVec.msb_eq_decide h.satp
  unfold Hart.translates
  rw [hmode, Bool.and_eq_false_iff, bne_eq_false_iff_eq, decide_eq_false_iff_not, Nat.not_le]

theorem translate_identity {s : State} (h : s.hart.translates = false) (acc : AccessKind) (va : Word) :
    translate acc va s = .ok va s := by
  unfold translate
  rw [h]; rfl

theorem translate_hit {acc : AccessKind} {va : Word} {s : State} (h : s.hart.translates = true)
    (hit : (s.hart.tlb.get s.hart.priv acc).hits va = true) :
    translate acc va s = .ok ((s.hart.tlb.get s.hart.priv acc).physical va) s := by
  unfold translate
  rw [h]
  exact if_pos hit

theorem translate_miss {acc : AccessKind} {va : Word} {s : State} (h : s.hart.translates = true)
    (miss : (s.hart.tlb.get s.hart.priv acc).hits va = false) : translate acc va s = walk acc va s := by
  unfold translate
  rw [h]
  exact if_neg (Bool.not_eq_true _ ▸ miss)

/-- Every way a translation answers keeps the offset in the page: the identity or a hit, in the state unchanged; or a walk,
whose page-table reads leave their traces and whose end fills the entry. -/
theorem translate_ok_cases {acc : AccessKind} {va pa : Word} {s s1 : State} (h : translate acc va s = .ok pa s1) :
    pa.extractLsb' 0 12 = va.extractLsb' 0 12 ∧
      ((s.hart.translates = false ∨ (s.hart.tlb.get s.hart.priv acc).hits va = true) ∧ s1 = s ∨
        s.hart.translates = true ∧ (s.hart.tlb.get s.hart.priv acc).hits va = false ∧
          ∃ s0, ReadFrame s s0 ∧ s1 = fillTlb acc va pa s0) := by
  cases hon : s.hart.translates with
  | false =>
    rw [translate_identity hon] at h
    cases h
    exact ⟨rfl, .inl ⟨.inl rfl, rfl⟩⟩
  | true =>
    cases hhit : (s.hart.tlb.get s.hart.priv acc).hits va with
    | true =>
      rw [translate_hit hon hhit] at h
      cases h
      exact ⟨TlbEntry.physical_offset _ va, .inl ⟨.inr rfl, rfl⟩⟩
    | false =>
      rw [translate_miss hon hhit] at h
      obtain ⟨s0, hread, ⟨q, hoff, hq⟩ | hq | hq⟩ := walk_cases acc va s <;> rw [hq] at h <;> cases h
      exact ⟨hoff, .inr ⟨rfl, rfl, s0, hread, rfl⟩⟩

/-- The condition under which a translation makes no walk, in R95's and R96's words. -/
theorem translates_false_or_hits_iff (acc : AccessKind) (va : Word) (h : Hart) :
    (h.translates = false ∨ (h.tlb.get h.priv acc).hits va = true) ↔
      h.priv = .m ∨ h.satp.toNat < 2 ^ 31 ∨
        ((h.tlb.get h.priv acc).valid = true ∧ (h.tlb.get h.priv acc).vpage = va.extractLsb' 12 20) := by
  rw [Hart.translates_eq_false_iff, TlbEntry.hits_iff, or_assoc]

theorem ReadFrame.hart {s t : State} (h : ReadFrame s t) : t.hart = s.hart := by
  have hh := congrArg State.hart h.rest; exact hh

/-! ## The obligations -/

/-- Settles O24: the identity and the hit of `translate`, with R95's and R96's conditions on `satp` and the entry. -/
theorem translationWithoutWalk : Obligations.TranslationWithoutWalk := by
  unfold Obligations.TranslationWithoutWalk
  intro acc va s
  refine ⟨fun hoff => translate_identity ((Hart.translates_eq_false_iff _).2 hoff) acc va, fun hm hmode hvalid hpage => ?_⟩
  have hon : s.hart.translates = true := by
    rw [← Bool.not_eq_false, Hart.translates_eq_false_iff, not_or, Nat.not_lt]
    exact ⟨hm, hmode⟩
  exact translate_hit hon ((TlbEntry.hits_iff _ va).2 ⟨hvalid, hpage⟩)

/-- Settles O25: an answer comes unchanged from the identity or a hit, or from a walk, which keeps the hart but for the
filled entry; a raise is `translate_raise`. -/
theorem translationEffects : Obligations.TranslationEffects := by
  unfold Obligations.TranslationEffects
  intro acc va s
  refine ⟨fun pa s1 h => ?_, fun e tv s1 h => ?_⟩
  · have hwhen := translates_false_or_hits_iff acc va s.hart
    obtain ⟨hoff, ⟨hfast, rfl⟩ | ⟨hon, hmiss, s0, hread, rfl⟩⟩ := translate_ok_cases h
    · rw [if_pos (hwhen.1 hfast)]
      exact ⟨rfl, Nat.le_refl _, rfl, fun _ _ _ => rfl, rfl, hoff⟩
    · have hslow : ¬ (s.hart.translates = false ∨ (s.hart.tlb.get s.hart.priv acc).hits va = true) := by
        simp [hon, hmiss]
      have hrest : { s0 with hart := s.hart, mtime := s.mtime, io := s.io, draws := s.draws } = s := by
        rw [← hread.hart]; exact hread.rest
      rw [if_neg (mt hwhen.2 hslow), fillTlb_tlb, hread.hart]
      refine ⟨hrest, hread.clock, ?_, fun p a hne => Tlb.get_put_other hne _ _, Tlb.get_put_same _ _ _ _, hoff⟩
      exact congrArg (fun g : Hart => { g with tlb := s.hart.tlb }) hread.hart
  · obtain ⟨htv, he, hread⟩ := translate_raise h
    exact ⟨htv, he, hread.rest, hread.clock⟩

end Sys2Proof.Machine
end

section
/-! SUPPORT. Two AMOs in sequence (spec/20_memory.md R111): the word a write leaves, and the canonical form of memory
after an instruction. -/

namespace Sys2Proof.Machine

/-! ## Memory after an instruction -/

theorem csrWrite_mem (n : CsrNum) (v : Word) (s : State) : (csrWrite n v s).mem = s.mem := by
  unfold csrWrite; split <;> rfl

/-- Only computation and stores write memory, and stores keep its canonical form. -/
theorem Effect.memWf {i : Instr} {s t : State} (h : Effect i s t) (hw : Memory.wf s.mem = true) :
    Memory.wf t.mem = true := by
  cases h with
  | plain hp _ => exact hp.wf hw
  | raised e tv hp _ => rw [raise_mem]; exact hp.wf hw
  | returned l _ _ => exact hw
  | halted => exact hw
  | csr n v w rd _ _ => rw [State.advance_mem, State.setX_mem, csrWrite_mem]; exact hw

theorem exec_memWf {i : Instr} {s t : State} (h : exec i s = .next t) (hw : Memory.wf s.mem = true) :
    Memory.wf t.mem = true := by
  obtain ⟨u, hu, he⟩ := exec_cases i s
  rw [h] at hu
  cases hu
  exact he.memWf hw

/-! ## The word an AMO leaves -/

/-- The little-endian number of the bytes of `v` is `v`, cut to their number. -/
theorem bytesValue_of_bytes (m : Memory) (pa : Word) (n v : Nat)
    (h : ∀ k < n, (Memory.read m (pa + BitVec.ofNat 32 k)).toNat = v / 256 ^ k % 256) :
    bytesValue m pa n = v % 256 ^ n := by
  induction n generalizing pa v with
  | zero => rw [Nat.pow_zero, Nat.mod_one]; rfl
  | succ n ih =>
    have hlow : (Memory.read m pa).toNat = v % 256 := by simpa using h 0 (Nat.succ_pos n)
    have hhigh : bytesValue m (pa + 1#32) n = v / 256 % 256 ^ n := by
      refine ih (pa + 1#32) (v / 256) fun k hk => ?_
      have haddr : pa + 1#32 + BitVec.ofNat 32 k = pa + BitVec.ofNat 32 (k + 1) := by
        rw [BitVec.add_assoc, ← BitVec.ofNat_add, Nat.add_comm 1 k]
      rw [haddr, h (k + 1) (Nat.succ_lt_succ hk), Nat.pow_succ', Nat.div_div_eq_div_mul]
    unfold bytesValue
    rw [hlow, hhigh, Nat.pow_succ', Nat.mod_mul]

/-- The word in memory after an AMO whose write took all four bytes. -/
theorem AmoDone.bytesValue_eq {s t : State} {rd : Reg} {pa old new pc : Word} (h : AmoDone s t rd pa 4 old new pc)
    (hp : pa.toNat + 4 ≤ 2 ^ 32) : bytesValue t.mem pa 4 = new.toNat := by
  refine (bytesValue_of_bytes t.mem pa 4 new.toNat fun k hk => ?_).trans (Nat.mod_eq_of_lt new.isLt)
  have haddr : (pa + BitVec.ofNat 32 k).toNat = pa.toNat + k := by
    rw [BitVec.toNat_add, BitVec.toNat_ofNat]; omega
  rw [h.memory, haddr, if_pos (by omega), Nat.add_sub_cancel_left]

theorem AmoDone.cfg {s t : State} {rd : Reg} {pa old new pc : Word} {n : Nat} (h : AmoDone s t rd pa n old new pc) :
    t.cfg = s.cfg := by
  have hh := congrArg State.cfg h.rest; exact hh

/-- An AMOADD.W on a word of RAM adds its operand to the word, modulo 2^32. -/
theorem exec_amoaddW_ram {s s1 : State} {pa : Word} {rs1 : Reg} (hm : Memory.wf s.mem = true)
    (h : translate .w (s.readX rs1) s = .ok pa s1) (hb : s.holds .ram pa 4) (rd rs2 : Reg) (aq rl : Bool) :
    ∃ t, exec (.amoaddW rd rs1 rs2 aq rl) s = .next t ∧ t.cfg = s.cfg ∧
      bytesValue t.mem pa 4 = (bytesValue s.mem pa 4 + (s.readX rs2).toNat) % 2 ^ 32 := by
  obtain ⟨t, ht, hdone, -⟩ := amo_bytes (op := amoAddOp) (rd := rd) (rs2 := rs2) hm h (.ram, 4) (by simp) hb
  obtain ⟨_, _, _, _, hp⟩ := hb
  refine ⟨t, ht, hdone.cfg, ?_⟩
  rw [hdone.bytesValue_eq hp, amoAddOp, BitVec.toNat_add, BitVec.toNat_ofNat, Nat.mod_add_mod]

/-! ## The obligation -/

/-- Settles O19: each AMO-add adds to the word it finds, and the second finds the word the first left. -/
theorem noLostUpdate : Obligations.NoLostUpdate := by
  unfold Obligations.NoLostUpdate
  intro rd rs1 rs2 rd' rs1' rs2' aq rl aq' rl' a a1 b pa hm ha hram
  obtain ⟨a2, hexec, hcfg, hfirst⟩ := exec_amoaddW_ram hm ha hram rd rs2 aq rl
  refine ⟨a2, hexec, fun hmem hcfg' b1 hb => ?_⟩
  have hwf : Memory.wf b.mem = true := hmem ▸ exec_memWf hexec hm
  have hram' : b.holds .ram pa 4 := (State.holds_congr (hcfg'.trans hcfg) .ram pa 4).2 hram
  obtain ⟨b2, hexec', -, hsecond⟩ := exec_amoaddW_ram hwf hb hram' rd' rs2' aq' rl'
  refine ⟨b2, hexec', ?_⟩
  rw [hsecond, hmem, hfirst, Nat.mod_add_mod]

end Sys2Proof.Machine
end

section
/-! SUPPORT. The two ways a memory read ends, and a load into `x0` beside the same load into another register
(spec/42_load_store.md R241). -/

namespace Sys2Proof.Machine

/-! ## A memory read -/

/-- A memory read answers with what the port reads at the translated address. -/
theorem memRead_ok_cases {va : Word} {n : Nat} {v : DWord} {s s2 : State} (h : memRead va n s = .ok v s2) :
    ∃ pa s1, translate .r va s = .ok pa s1 ∧ physRead pa n s1 = some (v, s2) := by
  unfold memRead readVia at h
  split at h
  · cases h
  · next pa s1 htr =>
    split at h
    · cases h
    · next hread => cases h; exact ⟨pa, s1, htr, hread⟩

/-- A memory read raises the translation's fault, or an access fault where no device answers. -/
theorem memRead_raise_cases {va tv : Word} {n : Nat} {e : Exception} {s s1 : State}
    (h : memRead va n s = .raise e tv s1) :
    translate .r va s = .raise e tv s1 ∨
      (e = .loadAccessFault ∧ tv = va ∧ ∃ pa, translate .r va s = .ok pa s1 ∧ physRead pa n s1 = none) := by
  unfold memRead readVia at h
  split at h
  · next htr => cases h; exact .inl htr
  · next pa s' htr =>
    split at h
    · next hnone => cases h; exact .inr ⟨rfl, rfl, pa, htr, hnone⟩
    · cases h

theorem memRead_ok_x {va : Word} {n : Nat} {v : DWord} {s s2 : State} (h : memRead va n s = .ok v s2) :
    s2.hart.x = s.hart.x := by
  obtain ⟨pa, s1, htr, hread⟩ := memRead_ok_cases h
  rw [(physRead_frame hread).hart, (translate_ok_frame htr).x]

theorem memRead_raise_x {va tv : Word} {n : Nat} {e : Exception} {s s1 : State}
    (h : memRead va n s = .raise e tv s1) : s1.hart.x = s.hart.x := by
  obtain htr | ⟨-, -, pa, htr, -⟩ := memRead_raise_cases h
  · rw [(translate_raise htr).2.2.hart]
  · exact (translate_ok_frame htr).x

/-! ## Writing a register -/

@[simp] theorem State.setX_zero (s : State) (v : Word) : s.setX 0#5 v = s := rfl

/-- With the registers put back, nothing is left of a write to one. -/
theorem State.setX_advance_restore (s : State) (rd : Reg) (v ilen : Word) :
    { (s.setX rd v).advance ilen with hart := { ((s.setX rd v).advance ilen).hart with x := s.hart.x } } =
      s.advance ilen := by
  unfold State.setX; split <;> rfl

/-! ## The load -/

/-- Both loads make one and the same `memRead`: where it answers they differ in the register written, where it raises
not at all. -/
theorem loadX_zero (rd : Reg) (va : Word) (n : Nat) (ext : DWord → Word) (ilen : Word) (s : State) :
    ∃ t t0, loadX rd va n ext ilen s = .next t ∧ loadX 0#5 va n ext ilen s = .next t0 ∧
      { t with hart := { t.hart with x := t0.hart.x } } = t0 ∧ ∀ r, t0.readX r = s.readX r := by
  unfold loadX
  cases hread : memRead va n s with
  | ok v s1 =>
    refine ⟨_, _, rfl, rfl, State.setX_advance_restore s1 rd (ext v) ilen, fun r => ?_⟩
    rw [State.setX_zero, State.readX_advance]
    exact State.readX_eq_of_x (memRead_ok_x hread) r
  | raise e tv s1 =>
    refine ⟨_, _, rfl, rfl, rfl, fun r => ?_⟩
    rw [State.readX_raise]
    exact State.readX_eq_of_x (memRead_raise_x hread) r

/-! ## The obligation -/

/-- Settles O23: each of the five loads is `loadX` at its width and extension. -/
theorem loadToZero : Obligations.LoadToZero := by
  unfold Obligations.LoadToZero
  intro rd rs1 imm s p hp
  simp only [List.mem_cons, List.not_mem_nil, or_false] at hp
  rcases hp with rfl | rfl | rfl | rfl | rfl
  · exact loadX_zero rd (s.ea rs1 (imm12 imm)) 1 sext8 ilen32 s
  · exact loadX_zero rd (s.ea rs1 (imm12 imm)) 2 sext16 ilen32 s
  · exact loadX_zero rd (s.ea rs1 (imm12 imm)) 4 word32 ilen32 s
  · exact loadX_zero rd (s.ea rs1 (imm12 imm)) 1 zext8 ilen32 s
  · exact loadX_zero rd (s.ea rs1 (imm12 imm)) 2 zext16 ilen32 s

end Sys2Proof.Machine
end

section
/-! SUPPORT. The fields of a word of the I format, and the decoder on the MISC-MEM and SYSTEM words (spec/30_encoding.md
R132, R140, R144, R145). -/

namespace Sys2Proof

/-! ## The fields of a word of the I format (R132) -/

theorem bits_append_high {n m : Nat} (x : BitVec n) (y : BitVec m) {lo : Nat} (len : Nat) (h : m ≤ lo) :
    bits (x ++ y) lo len = bits x (lo - m) len := BitVec.extractLsb'_append_eq_of_le h

theorem bits_append_low {n m : Nat} (x : BitVec n) (y : BitVec m) {lo len : Nat} (h : lo + len ≤ m) :
    bits (x ++ y) lo len = bits y lo len := BitVec.extractLsb'_append_eq_of_add_le h

@[simp] theorem bits_self {n : Nat} (v : BitVec n) : bits v 0 n = v := BitVec.extractLsb'_eq_self

section
variable (imm : BitVec 12) (rs1 : Reg) (funct3 : BitVec 3) (rd : Reg) (opcode : BitVec 7)

theorem bits_encI_high {lo : Nat} (len : Nat) (h : 20 ≤ lo) :
    bits (encI imm rs1 funct3 rd opcode) lo len = bits imm (lo - 20) len := by
  unfold encI
  rw [bits_append_high _ _ _ (by omega), bits_append_high _ _ _ (by omega), bits_append_high _ _ _ (by omega),
    bits_append_high _ _ _ (by omega)]
  exact congrArg (bits imm · len) (by omega)

@[simp] theorem fieldImmI_encI : fieldImmI (encI imm rs1 funct3 rd opcode) = imm :=
  (bits_encI_high imm rs1 funct3 rd opcode 12 (by decide)).trans (bits_self imm)

@[simp] theorem fieldRs1_encI : fieldRs1 (encI imm rs1 funct3 rd opcode) = rs1 := by
  unfold fieldRs1 encI
  rw [bits_append_high _ _ _ (by decide), bits_append_high _ _ _ (by decide), bits_append_high _ _ _ (by decide),
    bits_append_low _ _ (by decide)]
  exact bits_self rs1

@[simp] theorem fieldFunct3_encI : fieldFunct3 (encI imm rs1 funct3 rd opcode) = funct3 := by
  unfold fieldFunct3 encI
  rw [bits_append_high _ _ _ (by decide), bits_append_high _ _ _ (by decide), bits_append_low _ _ (by decide)]
  exact bits_self funct3

@[simp] theorem fieldRd_encI : fieldRd (encI imm rs1 funct3 rd opcode) = rd := by
  unfold fieldRd encI
  rw [bits_append_high _ _ _ (by decide), bits_append_low _ _ (by decide)]
  exact bits_self rd

@[simp] theorem fieldOpcode_encI : fieldOpcode (encI imm rs1 funct3 rd opcode) = opcode := by
  unfold fieldOpcode encI
  rw [bits_append_low _ _ (by decide)]
  exact bits_self opcode

end

/-! ## The major opcodes (R140) -/

/-- The Break hint is a word of opcode `0x33` (R163), so the decoder's first test is false of every other word. -/
theorem breakHintWord_ne {cfg : Config} {w : Word} (hcfg : cfg.wf = true) (hop : fieldOpcode w ≠ 0x33#7) :
    cfg.breakHintWord ≠ some w := by
  intro hhint
  have hslt : Config.isSltWord w = true := by
    simp only [Config.wf, hhint, Bool.and_eq_true] at hcfg
    obtain ⟨⟨-, hslt⟩, -⟩ := hcfg
    exact hslt
  simp only [Config.isSltWord, Bool.and_eq_true, beq_iff_eq] at hslt
  obtain ⟨⟨hop33, -⟩, -⟩ := hslt
  exact hop hop33

theorem decode32_miscMem {cfg : Config} {w : Word} (hcfg : cfg.wf = true) (hop : fieldOpcode w = 0x0F#7) :
    decode32 cfg w = decodeMiscMem w := by
  unfold decode32
  rw [if_neg (breakHintWord_ne hcfg (by rw [hop]; decide)), hop]; rfl

theorem decode32_system {cfg : Config} {w : Word} (hcfg : cfg.wf = true) (hop : fieldOpcode w = 0x73#7) :
    decode32 cfg w = decodeSystem w := by
  unfold decode32
  rw [if_neg (breakHintWord_ne hcfg (by rw [hop]; decide)), hop]; rfl

theorem decodeRaw_fence {cfg : Config} (hcfg : cfg.wf = true) (fm pred succ : BitVec 4) (rs1 rd : Reg) :
    decodeRaw cfg (.word (encI (fm ++ pred ++ succ) rs1 0#3 rd 0x0F#7)) = some (.fence fm pred succ rs1 rd) := by
  have hfm : bits (fm ++ pred ++ succ) 8 4 = fm := by
    rw [bits_append_high _ _ _ (by decide), bits_append_high _ _ _ (by decide)]; exact bits_self fm
  have hpred : bits (fm ++ pred ++ succ) 4 4 = pred := by
    rw [bits_append_high _ _ _ (by decide), bits_append_low _ _ (by decide)]; exact bits_self pred
  have hsucc : bits (fm ++ pred ++ succ) 0 4 = succ := by
    rw [bits_append_low _ _ (by decide)]; exact bits_self succ
  refine (decode32_miscMem hcfg (fieldOpcode_encI _ _ _ _ _)).trans ?_
  simp [decodeMiscMem, bits_encI_high, hfm, hpred, hsucc]

theorem decodeRaw_fenceI {cfg : Config} (hcfg : cfg.wf = true) (imm : BitVec 12) (rs1 rd : Reg) :
    decodeRaw cfg (.word (encI imm rs1 1#3 rd 0x0F#7)) = some (.fenceI imm rs1 rd) := by
  refine (decode32_miscMem hcfg (fieldOpcode_encI _ _ _ _ _)).trans ?_
  simp [decodeMiscMem]

end Sys2Proof
end

section
/-! SUPPORT. What a trap entry and a trap return write, and the fences, ECALL and the returns on top of them
(spec/60_exceptions.md R450-R455, spec/43_fence_system.md R260-R268). -/

namespace Sys2Proof.Machine

/-! ## The bits of `mstatus` on entry and on return (R452, R455) -/

theorem getLsbD_setBit (w : Word) {i : Nat} (hi : i < 32) (b : Bool) (k : Nat) :
    (setBit w i b).getLsbD k = if k = i then b else w.getLsbD k := by
  have hone : (1#32 <<< i).getLsbD k = decide (k = i) :=
    (getLsbD_ofBool_shiftLeft true hi k).trans (Bool.and_true _)
  have hk : w.getLsbD k = true → k < 32 := BitVec.lt_of_getLsbD
  unfold setBit
  cases b with
  | false =>
    rw [if_neg (by decide), BitVec.getLsbD_and, BitVec.getLsbD_not, hone]
    split_ifs with e
    · simp [e]
    · simpa [e] using hk
  | true =>
    rw [if_pos rfl, BitVec.getLsbD_or, hone]
    split_ifs with e <;> simp [e]

/-- The bits that hold the previous mode of a level: MPP, SPP, and none for U (R34). -/
def Priv.xppBits : Priv → List Nat
  | .m => [11, 12]
  | .s => [8]
  | .u => []

theorem statusBits_eq (l : Priv) : statusBits l = l.iePos :: l.piePos :: l.xppBits := by
  cases l <;> rfl

theorem Priv.iePos_not_mem_xppBits (l : Priv) : l.iePos ∉ l.xppBits := by cases l <;> decide

theorem Priv.piePos_not_mem_xppBits (l : Priv) : l.piePos ∉ l.xppBits := by cases l <;> decide

theorem Priv.piePos_ne_iePos (l : Priv) : l.piePos ≠ l.iePos := by cases l <;> decide

theorem Priv.iePos_lt (l : Priv) : l.iePos < 32 := by cases l <;> decide

theorem Priv.piePos_lt (l : Priv) : l.piePos < 32 := by cases l <;> decide

/-- `w` with `p` as the previous mode of level `l`: the last write of entry and of return alike. -/
def withPrevious (l p : Priv) (w : Word) : Word :=
  match l with
  | .m => setMpp w p.toBits
  | .s => setBit w 8 (p == .s)
  | .u => w

theorem mstatusOnEntry_eq (tgt p : Priv) (w : Word) : mstatusOnEntry tgt p w =
    withPrevious tgt p (setBit (setBit w tgt.piePos (w.getLsbD tgt.iePos)) tgt.iePos false) := by
  cases tgt <;> rfl

theorem mstatusOnReturn_eq (l : Priv) (w : Word) : mstatusOnReturn l w =
    withPrevious l .u (setBit (setBit w l.iePos (w.getLsbD l.piePos)) l.piePos true) := by
  cases l <;> rfl

theorem mppField_withPrevious (p : Priv) (w : Word) : mppField (withPrevious .m p w) = p.toBits :=
  mppField_setMpp w p.toBits

theorem getLsbD_withPrevious_spp (p : Priv) (w : Word) : (withPrevious .s p w).getLsbD 8 = (p == .s) :=
  (getLsbD_setBit w (by decide) _ 8).trans (if_pos rfl)

theorem getLsbD_withPrevious_other {l : Priv} (p : Priv) (w : Word) {k : Nat} (hk : k ∉ l.xppBits) :
    (withPrevious l p w).getLsbD k = w.getLsbD k := by
  cases l with
  | m =>
    simp only [Priv.xppBits, List.mem_cons, List.not_mem_nil, or_false, not_or] at hk
    obtain ⟨h11, h12⟩ := hk
    exact getLsbD_setMpp h11 h12 w _
  | s =>
    simp only [Priv.xppBits, List.mem_cons, List.not_mem_nil, or_false] at hk
    exact (getLsbD_setBit w (by decide) _ k).trans (if_neg hk)
  | u => rfl

theorem getLsbD_mstatusOnEntry (tgt p : Priv) (w : Word) {k : Nat} (hk : k ∉ tgt.xppBits) :
    (mstatusOnEntry tgt p w).getLsbD k =
      if k = tgt.iePos then false else if k = tgt.piePos then w.getLsbD tgt.iePos else w.getLsbD k := by
  rw [mstatusOnEntry_eq, getLsbD_withPrevious_other _ _ hk, getLsbD_setBit _ tgt.iePos_lt,
    getLsbD_setBit _ tgt.piePos_lt]

theorem getLsbD_mstatusOnReturn (l : Priv) (w : Word) {k : Nat} (hk : k ∉ l.xppBits) :
    (mstatusOnReturn l w).getLsbD k =
      if k = l.piePos then true else if k = l.iePos then w.getLsbD l.piePos else w.getLsbD k := by
  rw [mstatusOnReturn_eq, getLsbD_withPrevious_other _ _ hk, getLsbD_setBit _ l.piePos_lt,
    getLsbD_setBit _ l.iePos_lt]

theorem not_mem_statusBits_iff (l : Priv) (k : Nat) :
    k ∉ statusBits l ↔ k ≠ l.iePos ∧ k ≠ l.piePos ∧ k ∉ l.xppBits := by
  rw [statusBits_eq, List.mem_cons, List.mem_cons, not_or, not_or]

/-! ## The handler's address and the cause word (R452) -/

theorem trapVector_eq (cfg : Config) (tvec : Word) (c : Cause) :
    trapVector cfg tvec c = handlerAddress cfg tvec c := by
  have hbase : tvec &&& 0xFFFFFFFC#32 = BitVec.ofNat 32 (tvec.toNat / 4 * 4) := by
    have hshift : tvec &&& 0xFFFFFFFC#32 = tvec >>> 2 <<< 2 :=
      (BitVec.shiftLeft_ushiftRight (x := tvec) (n := 2)).symm
    rw [hshift]
    apply BitVec.eq_of_toNat_eq
    simp [Nat.shiftLeft_eq, Nat.shiftRight_eq_div_pow]
  have hmode : tvec.extractLsb' 0 2 = 1#2 ↔ tvec.toNat % 4 = 1 := by
    rw [← BitVec.toNat_inj]; simp
  unfold trapVector handlerAddress
  simp only [hbase, hmode, Bool.or_eq_true, ← BitVec.ofNat_add]

theorem Cause.toNat_word (c : Cause) : c.word.toNat = (if c.isInterrupt then 2 ^ 31 else 0) + c.code := by
  cases c with
  | exception e => cases e <;> rfl
  | interrupt i => cases i <;> rfl

/-! ## Taking a trap (R450-R453) -/

@[simp] theorem takeTrap_priv_hart (c : Cause) (epc tval : Word) (s : State) :
    (takeTrap c epc tval s).hart.priv = s.hart.trapTarget c := rfl

@[simp] theorem takeTrap_mstatus_hart (c : Cause) (epc tval : Word) (s : State) :
    (takeTrap c epc tval s).hart.mstatus = mstatusOnEntry (s.hart.trapTarget c) s.hart.priv s.hart.mstatus := rfl

@[simp] theorem takeTrap_pc_hart (c : Cause) (epc tval : Word) (s : State) :
    (takeTrap c epc tval s).hart.pc = trapVector s.cfg (s.hart.trapRegs (s.hart.trapTarget c)).tvec c := rfl

theorem takeTrap_trapRegs (c : Cause) (epc tval : Word) (s : State) (l : Priv) :
    (takeTrap c epc tval s).hart.trapRegs l =
      if l = s.hart.trapTarget c then
        { s.hart.trapRegs l with epc := epc &&& 0xFFFFFFFE#32, cause := c.word, tval := tval }
      else s.hart.trapRegs l := by
  unfold takeTrap Hart.enterTrap
  generalize s.hart.trapTarget c = tgt
  cases l <;> cases tgt <;> rfl

/-- Entry to the target level writes what R452 says. -/
theorem takeTrap_trapEntry (s : State) (c : Cause) (epc tval : Word) :
    TrapEntry s (takeTrap c epc tval s) (s.hart.trapTarget c) c epc tval where
  epc := by rw [takeTrap_trapRegs, if_pos rfl]
  cause := by rw [takeTrap_trapRegs, if_pos rfl]; exact c.toNat_word
  tval := by rw [takeTrap_trapRegs, if_pos rfl]
  tvec := by rw [takeTrap_trapRegs, if_pos rfl]
  scratch := by rw [takeTrap_trapRegs, if_pos rfl]
  otherLevels l hl := by rw [takeTrap_trapRegs, if_neg hl]
  pie := by
    rw [takeTrap_mstatus_hart, getLsbD_mstatusOnEntry _ _ _ (Priv.piePos_not_mem_xppBits _),
      if_neg (Priv.piePos_ne_iePos _), if_pos rfl]
  ie := by
    rw [takeTrap_mstatus_hart, getLsbD_mstatusOnEntry _ _ _ (Priv.iePos_not_mem_xppBits _), if_pos rfl]
  mpp h := by rw [takeTrap_mstatus_hart, h, mstatusOnEntry_eq, mppField_withPrevious]
  spp h := by rw [takeTrap_mstatus_hart, h, mstatusOnEntry_eq, getLsbD_withPrevious_spp]
  status k hk := by
    obtain ⟨hie, hpie, hxpp⟩ := (not_mem_statusBits_iff _ k).1 hk
    rw [takeTrap_mstatus_hart, getLsbD_mstatusOnEntry _ _ _ hxpp, if_neg hie, if_neg hpie]
  priv := rfl
  pc := trapVector_eq _ _ _
  x := State.readX_takeTrap c epc tval s
  f := State.readF_takeTrap c epc tval s
  memory _ := rfl
  rest := by
    unfold takeTrap Hart.enterTrap
    cases s.hart.trapTarget c <;> rfl

theorem raise_raised (s : State) (e : Exception) (tval : Word) : Raised s (raise e tval s) e tval :=
  takeTrap_trapEntry s (.exception e) s.hart.pc tval

theorem illegal_raised (s : State) (w : Word) :
    ∃ t, illegal w s = .next t ∧ Raised s t .illegalInstruction w :=
  ⟨_, rfl, raise_raised s _ w⟩

/-- An exception raised in M is handled in M (R451). -/
theorem Hart.trapTarget_exception_of_m {h : Hart} (hm : h.priv = .m) (e : Exception) :
    h.trapTarget (.exception e) = .m := by
  have hmax : ∀ l : Priv, Priv.max l .m = .m := fun l => by cases l <;> rfl
  calc h.trapTarget (.exception e)
    _ = Priv.max (h.delegatedLevel (.exception e)) h.priv := rfl
    _ = .m := by rw [hm, hmax]

/-! ## Returning from a trap (R455) -/

theorem Priv.toBits_ofBits {b : BitVec 2} (hb : b ≠ 2#2) : (Priv.ofBits b).toBits = b := by
  revert b; decide

@[simp] theorem trapReturn_mstatus_hart (l : Priv) (s : State) :
    (trapReturn l s).hart.mstatus = mstatusOnReturn l s.hart.mstatus := rfl

/-- `Return(l)` does what R455 says. -/
theorem trapReturn_trapReturned (s : State) (l : Priv) : TrapReturned s (trapReturn l s) l where
  pc := rfl
  ie := by
    rw [trapReturn_mstatus_hart, getLsbD_mstatusOnReturn l _ l.iePos_not_mem_xppBits,
      if_neg l.piePos_ne_iePos.symm, if_pos rfl]
  pie := by
    rw [trapReturn_mstatus_hart, getLsbD_mstatusOnReturn l _ l.piePos_not_mem_xppBits, if_pos rfl]
  mpp h := by rw [trapReturn_mstatus_hart, h, mstatusOnReturn_eq, mppField_withPrevious]; rfl
  spp h := by rw [trapReturn_mstatus_hart, h, mstatusOnReturn_eq, getLsbD_withPrevious_spp]; rfl
  status k hk := by
    obtain ⟨hie, hpie, hxpp⟩ := (not_mem_statusBits_iff l k).1 hk
    rw [trapReturn_mstatus_hart, getLsbD_mstatusOnReturn l _ hxpp, if_neg hpie, if_neg hie]
  toM h hmpp := by subst h; exact Priv.toBits_ofBits hmpp
  toS h := by subst h; rfl
  toU h := by subst h; rfl
  x _ := rfl
  f _ := rfl
  memory _ := rfl
  rest := rfl

/-! ## The instructions -/

theorem exec_fence (fm pred succ : BitVec 4) (rs1 rd : Reg) (s : State) :
    exec (.fence fm pred succ rs1 rd) s = .next (s.setPc (s.hart.pc + 4#32)) := rfl

theorem exec_fenceI (imm : BitVec 12) (rs1 rd : Reg) (s : State) :
    exec (.fenceI imm rs1 rd) s = .next (s.setPc (s.hart.pc + 4#32)) := rfl

theorem exec_ecall (s : State) : exec .ecall s = .next (raise (envCall s.hart.priv) 0#32 s) := rfl

theorem exec_uret (s : State) : exec .uret s = .next (trapReturn .u s) := rfl

theorem exec_mret (s : State) : exec .mret s =
    if s.hart.priv = .m then .next (trapReturn .m s) else illegal 0x30200073#32 s := rfl

theorem exec_sret (s : State) : exec .sret s =
    if s.hart.priv = .u then illegal 0x10200073#32 s else .next (trapReturn .s s) := rfl

/-! ## The obligations -/

/-- Settles O30: the words decode by their opcode and funct3, and both meanings only set `pc`. -/
theorem fencesDoNothing : Obligations.FencesDoNothing := by
  unfold Obligations.FencesDoNothing
  intro cfg fm pred succ imm rs1 rd hcfg
  exact ⟨decodeRaw_fence hcfg fm pred succ rs1 rd, decodeRaw_fenceI hcfg imm rs1 rd,
    fun s => ⟨_, exec_fence fm pred succ rs1 rd s, pcResult_of_setPc s _⟩,
    fun s => ⟨_, exec_fenceI imm rs1 rd s, pcResult_of_setPc s _⟩⟩

/-- Settles O31: ECALL raises `envCall` of the mode, and an exception raised in M is handled in M. -/
theorem ecallTraps : Obligations.EcallTraps := by
  unfold Obligations.EcallTraps
  intro cfg s hcfg
  refine ⟨(decode32_system hcfg rfl).trans rfl, _, exec_ecall s, raise_raised s _ 0#32, fun hm => ?_⟩
  exact Hart.trapTarget_exception_of_m hm _

/-- Settles O35: where the mode allows the return it is `trapReturn` of its level, and elsewhere an illegal instruction
with the instruction's own word. -/
theorem trapReturns : Obligations.TrapReturns := by
  unfold Obligations.TrapReturns
  intro cfg s hcfg
  refine ⟨(decode32_system hcfg rfl).trans rfl, (decode32_system hcfg rfl).trans rfl,
    (decode32_system hcfg rfl).trans rfl, fun hm => ?_, fun hu => ?_, ?_, fun hm => ?_, fun hu => ?_⟩
  · exact ⟨_, (exec_mret s).trans (if_pos hm), trapReturn_trapReturned s .m⟩
  · exact ⟨_, (exec_sret s).trans (if_neg hu), trapReturn_trapReturned s .s⟩
  · exact ⟨_, exec_uret s, trapReturn_trapReturned s .u⟩
  · rw [exec_mret, if_neg hm]; exact illegal_raised s _
  · rw [exec_sret, if_pos hu]; exact illegal_raised s _

end Sys2Proof.Machine
end

section
/-! SUPPORT. The access checks on a CSR number, what a CSR write keeps, and the access procedure of the six CSR
instructions (spec/10_state.md R32, spec/44_zicsr.md R281-R288). -/

namespace Sys2Proof.Machine

/-! ## The access checks (R32) -/

theorem csrLevel_eq (n : CsrNum) : csrLevel n = n.toNat / 256 % 4 := by
  unfold csrLevel
  rw [BitVec.extractLsb'_toNat, Nat.shiftRight_eq_div_pow]

theorem csrReadOnly_iff (n : CsrNum) : csrReadOnly n = true ↔ n.toNat / 1024 = 3 := by
  have hlt := n.isLt
  unfold csrReadOnly
  rw [beq_iff_eq, ← BitVec.toNat_inj, BitVec.extractLsb'_toNat, Nat.shiftRight_eq_div_pow]
  change n.toNat / 1024 % 4 = 3 ↔ n.toNat / 1024 = 3
  omega

theorem csrAllowed_iff (s : State) (n : CsrNum) (writes : Bool) : csrAllowed s n writes = true ↔
    n.toNat / 256 % 4 ≤ s.hart.priv.level ∧ ¬ (writes = true ∧ n.toNat / 1024 = 3) := by
  unfold csrAllowed
  rw [Bool.and_eq_true, decide_eq_true_iff, csrLevel_eq, Bool.not_eq_true', ← Bool.not_eq_true, Bool.and_eq_true,
    csrReadOnly_iff]

theorem csrAllowed_eq_false_iff (s : State) (n : CsrNum) (writes : Bool) : csrAllowed s n writes = false ↔
    s.hart.priv.level < n.toNat / 256 % 4 ∨ (writes = true ∧ n.toNat / 1024 = 3) := by
  rw [← Bool.not_eq_true, csrAllowed_iff, not_and_or, Nat.not_le, not_not]

/-! ## What a CSR write keeps -/

theorem csrWriteNamed_x (cfg : Config) (v : Word) (h : Hart) (c : CsrName) : (csrWriteNamed cfg v h c).x = h.x := by
  cases c <;> rfl

theorem csrWriteNamed_pc (cfg : Config) (v : Word) (h : Hart) (c : CsrName) : (csrWriteNamed cfg v h c).pc = h.pc := by
  cases c <;> rfl

theorem csrWrite_x_hart (n : CsrNum) (v : Word) (s : State) : (csrWrite n v s).hart.x = s.hart.x := by
  unfold csrWrite
  split
  · exact csrWriteNamed_x _ _ _ _
  · rfl

theorem csrWrite_pc_hart (n : CsrNum) (v : Word) (s : State) : (csrWrite n v s).hart.pc = s.hart.pc := by
  unfold csrWrite
  split
  · exact csrWriteNamed_pc _ _ _ _
  · rfl

/-! ## The access procedure (R281) -/

/-- The state in which the old value goes to `x[rd]`: the CSR is written, or nothing is. -/
theorem csrWrite_or_self_keeps (writes : Bool) (n : CsrNum) (v : Word) (s : State) :
    let s1 := if writes then csrWrite n v s else s
    s1.hart.x = s.hart.x ∧ s1.hart.pc = s.hart.pc ∧ s1.mem = s.mem := by
  cases writes
  · exact ⟨rfl, rfl, rfl⟩
  · exact ⟨csrWrite_x_hart n v s, csrWrite_pc_hart n v s, csrWrite_mem n v s⟩

theorem csrAccess_allowed {s : State} {n : CsrNum} {writes : Bool} (h : csrAllowed s n writes = true) (w : Word)
    (rd : Reg) (new : Word → Word) : csrAccess w rd n writes new s =
      intResult rd (csrRead s n) 4#32 (if writes then csrWrite n (new (csrRead s n)) s else s) := by
  unfold csrAccess; exact if_pos h

theorem csrAccess_refused {s : State} {n : CsrNum} {writes : Bool} (h : csrAllowed s n writes = false) (w : Word)
    (rd : Reg) (new : Word → Word) : csrAccess w rd n writes new s = illegal w s := by
  unfold csrAccess; exact if_neg (ne_true_of_eq_false h)

/-- An instruction whose meaning is the access procedure accesses the CSR as R281 says: an integer result on top of the
write, or an illegal instruction. -/
theorem accessesCsr_of_exec {i : Instr} {w : Word} {rd : Reg} {n : CsrNum} {writes : Bool} {new : State → Word → Word}
    (hexec : ∀ s, exec i s = csrAccess w rd n writes (new s) s) : AccessesCsr i w rd n writes new := by
  refine ⟨fun s hlevel hro => ?_, fun s hrefused => ?_⟩
  · obtain ⟨hx, hpc, hmem⟩ := csrWrite_or_self_keeps writes n (new s (csrRead s n)) s
    rw [hexec, csrAccess_allowed ((csrAllowed_iff s n writes).2 ⟨hlevel, hro⟩)]
    obtain ⟨t, ht, hres⟩ := intResult_spec rd (csrRead s n) 4#32
      (if writes then csrWrite n (new s (csrRead s n)) s else s)
    refine ⟨t, ht, fun r => ?_, ?_, fun a => ?_, ?_⟩
    · rw [hres.x, State.readX_eq_of_x hx]
    · rw [hres.pc, hpc]
    · rw [hres.memory, hmem]
    · rw [← hx, ← hpc]; exact hres.rest
  · rw [hexec, csrAccess_refused ((csrAllowed_eq_false_iff s n writes).2 hrefused)]
    exact illegal_raised s w

/-! ## The obligation -/

/-- Settles O36: each of the six is the access procedure, with its own word, source and new value. -/
theorem csrInstructions : Obligations.CsrInstructions := by
  unfold Obligations.CsrInstructions
  intro rd rs1 uimm n
  rw [← csrUimm_eq]
  exact ⟨accessesCsr_of_exec fun _ => rfl, accessesCsr_of_exec fun _ => rfl, accessesCsr_of_exec fun _ => rfl,
    accessesCsr_of_exec fun _ => rfl, accessesCsr_of_exec fun _ => rfl, accessesCsr_of_exec fun _ => rfl⟩

end Sys2Proof.Machine
end

section
/-! SUPPORT. The division functions of the M extension as the divisions of `BitVec`, and the laws and the corner table
they meet (spec/45_m_muldiv.md R305-R310). -/

namespace Sys2Proof.Machine

/-! ## A nonzero divisor: the divisions of the library -/

theorem sdiv_eq_ofInt (a b : Word) : a.sdiv b = BitVec.ofInt 32 (a.toInt.tdiv b.toInt) :=
  BitVec.eq_of_toInt_eq (by rw [BitVec.toInt_sdiv, BitVec.toInt_ofInt])

section
variable {a b : Word}

/-- The overflow row of R305 is the wrapped quotient `2^31`, so it is no exception modulo `2^32`. -/
theorem divWord_eq_sdiv (hb : b ≠ 0#32) : divWord a b = a.sdiv b := by
  rw [divWord, if_neg hb]
  split
  · next hrow => obtain ⟨rfl, rfl⟩ := hrow; decide
  · exact (sdiv_eq_ofInt a b).symm

theorem remWord_eq_srem (hb : b ≠ 0#32) : remWord a b = a.srem b := by
  rw [remWord, if_neg hb]
  split
  · next hrow => obtain ⟨rfl, rfl⟩ := hrow; decide
  · rw [← Int.tmod_def, ← BitVec.toInt_srem, BitVec.ofInt_toInt]

theorem divuWord_eq_udiv (hb : b ≠ 0#32) : divuWord a b = a / b := by
  rw [divuWord, if_neg hb, BitVec.udiv_def]

theorem remuWord_eq_umod (hb : b ≠ 0#32) : remuWord a b = a % b := by
  rw [remuWord, if_neg hb, BitVec.umod_def]

/-- Without overflow the quotient is exact. -/
theorem toInt_divWord (hb : b ≠ 0#32) (hov : ¬ (a = 0x80000000#32 ∧ b = 0xFFFFFFFF#32)) :
    (divWord a b).toInt = a.toInt.tdiv b.toInt := by
  rw [divWord_eq_sdiv hb]
  exact BitVec.toInt_sdiv_of_ne_or_ne a b (not_and_or.mp hov)

theorem toInt_remWord (hb : b ≠ 0#32) : (remWord a b).toInt = a.toInt.tmod b.toInt := by
  rw [remWord_eq_srem hb, BitVec.toInt_srem]

/-! ## The laws (R310) -/

theorem tmod_nonpos {m : Int} (k : Int) (hm : m ≤ 0) : m.tmod k ≤ 0 := by
  have hneg : 0 ≤ (-m).tmod k := Int.tmod_nonneg k (by omega)
  rw [Int.neg_tmod] at hneg
  omega

/-- The signed identity modulo `2^32`, the overflow row included. -/
theorem divWord_mul_add_remWord (hb : b ≠ 0#32) : divWord a b * b + remWord a b = a := by
  have hq : divWord a b = BitVec.ofInt 32 (a.toInt.tdiv b.toInt) := (divWord_eq_sdiv hb).trans (sdiv_eq_ofInt a b)
  have hr : remWord a b = BitVec.ofInt 32 (a.toInt.tmod b.toInt) := by
    rw [← toInt_remWord hb, BitVec.ofInt_toInt]
  calc divWord a b * b + remWord a b
      = BitVec.ofInt 32 (a.toInt.tdiv b.toInt) * BitVec.ofInt 32 b.toInt + BitVec.ofInt 32 (a.toInt.tmod b.toInt) := by
        rw [hq, hr, BitVec.ofInt_toInt]
    _ = BitVec.ofInt 32 (a.toInt.tdiv b.toInt * b.toInt + a.toInt.tmod b.toInt) := by
        rw [BitVec.ofInt_add, BitVec.ofInt_mul]
    _ = a := by rw [Int.tdiv_mul_add_tmod, BitVec.ofInt_toInt]

/-- The signed identity over the integers, with the size and the sign of the remainder. -/
theorem signed_division_laws (hb : b ≠ 0#32) (hov : ¬ (a = 0x80000000#32 ∧ b = 0xFFFFFFFF#32)) :
    (divWord a b).toInt * b.toInt + (remWord a b).toInt = a.toInt ∧
    (remWord a b).toInt.natAbs < b.toInt.natAbs ∧
    (0 ≤ a.toInt → 0 ≤ (remWord a b).toInt) ∧ (a.toInt ≤ 0 → (remWord a b).toInt ≤ 0) := by
  have hb' : b.toInt ≠ 0 := BitVec.toInt_ne.mpr hb
  rw [toInt_divWord hb hov, toInt_remWord hb, Int.natAbs_tmod]
  exact ⟨Int.tdiv_mul_add_tmod _ _, Nat.mod_lt _ (Int.natAbs_pos.mpr hb'), Int.tmod_nonneg _, tmod_nonpos _⟩

/-- The unsigned identity, with the size of the remainder. -/
theorem unsigned_division_laws (hb : b ≠ 0#32) :
    (divuWord a b).toNat * b.toNat + (remuWord a b).toNat = a.toNat ∧ (remuWord a b).toNat < b.toNat := by
  have hb' : b.toNat ≠ 0 := BitVec.toNat_ne.mp hb
  rw [divuWord_eq_udiv hb, remuWord_eq_umod hb, BitVec.toNat_udiv, BitVec.toNat_umod]
  exact ⟨Nat.div_add_mod' _ _, Nat.mod_lt _ (Nat.pos_of_ne_zero hb')⟩

/-! ## The rows of the corner table (R310) -/

theorem division_by_zero (a : Word) :
    divWord a 0#32 = 0xFFFFFFFF#32 ∧ remWord a 0#32 = a ∧ divuWord a 0#32 = 0xFFFFFFFF#32 ∧ remuWord a 0#32 = a :=
  ⟨if_pos rfl, if_pos rfl, if_pos rfl, if_pos rfl⟩

theorem division_overflow :
    divWord 0x80000000#32 0xFFFFFFFF#32 = 0x80000000#32 ∧ remWord 0x80000000#32 0xFFFFFFFF#32 = 0#32 ∧
    divuWord 0x80000000#32 0xFFFFFFFF#32 = 0#32 ∧ remuWord 0x80000000#32 0xFFFFFFFF#32 = 0x80000000#32 := by decide

theorem division_of_zero (hb : b ≠ 0#32) :
    divWord 0#32 b = 0#32 ∧ remWord 0#32 b = 0#32 ∧ divuWord 0#32 b = 0#32 ∧ remuWord 0#32 b = 0#32 := by
  rw [divWord_eq_sdiv hb, remWord_eq_srem hb, divuWord_eq_udiv hb, remuWord_eq_umod hb]
  exact ⟨BitVec.zero_sdiv, BitVec.zero_srem, BitVec.zero_udiv, BitVec.zero_umod⟩

end

/-! ## The obligation -/

/-- Settles O10: the four instructions write `divWord`, `remWord`, `divuWord` and `remuWord` of the operands, which are the
divisions of `BitVec` for a nonzero divisor. -/
theorem divisionLaws : Obligations.DivisionLaws := by
  unfold Obligations.DivisionLaws
  intro rd rs1 rs2 s
  obtain ⟨t1, hdiv, hq⟩ := intResult_spec rd (divWord (s.readX rs1) (s.readX rs2)) ilen32 s
  obtain ⟨t2, hrem, hr⟩ := intResult_spec rd (remWord (s.readX rs1) (s.readX rs2)) ilen32 s
  obtain ⟨t3, hdivu, hqu⟩ := intResult_spec rd (divuWord (s.readX rs1) (s.readX rs2)) ilen32 s
  obtain ⟨t4, hremu, hru⟩ := intResult_spec rd (remuWord (s.readX rs1) (s.readX rs2)) ilen32 s
  refine ⟨_, _, _, _, t1, t2, t3, t4, hdiv, hq, hrem, hr, hdivu, hqu, hremu, hru, divWord_mul_add_remWord,
    signed_division_laws, fun hmin hneg => ?_, fun hzero => ?_, fun hzero hne => ?_, unsigned_division_laws⟩
  · rw [hmin, hneg]; exact division_overflow
  · rw [hzero]; exact division_by_zero _
  · rw [hzero]; exact division_of_zero hne

end Sys2Proof.Machine
end

section
/-! SUPPORT. Binary32 arithmetic is correctly rounded (spec/47_f_float.md R341-R345, R350-R354, R364, R365): the
magnitudes of the model as reals, the rounding of an exact or stood-in magnitude, and each operation's exact result. -/

namespace Sys2Proof.Machine

/-! ## Magnitudes as reals (R341) -/

/-- The magnitudes from `n * 2^23` on step by `2^(n-149)`: the subnormals and the first binade for `n = 0`, one binade
for every other `n`. -/
theorem magValue_block {n q : ℕ} (hlo : n = 0 ∨ 2 ^ 23 ≤ q) (hhi : q ≤ 2 ^ 24) :
    magValue (n * 2 ^ 23 + q) = q * 2 ^ (n - 149 : ℤ) := by
  unfold magValue
  split
  next hsub =>
    obtain rfl : n = 0 := by omega
    simp
  next hnormal =>
    obtain hq | rfl := Nat.lt_or_eq_of_le hhi
    · have hfrac : 2 ^ 23 + (n * 2 ^ 23 + q) % 2 ^ 23 = q := by omega
      have hexp : (n * 2 ^ 23 + q) / 2 ^ 23 = n + 1 := by omega
      rw [hfrac, hexp]
      congr 2; push_cast; ring
    · have hfrac : 2 ^ 23 + (n * 2 ^ 23 + 2 ^ 24) % 2 ^ 23 = 2 ^ 23 := by omega
      have hexp : ((n * 2 ^ 23 + 2 ^ 24) / 2 ^ 23 : ℕ) - 150 = (n - 149 : ℤ) + 1 := by omega
      rw [hfrac, hexp, zpow_add_one₀ two_ne_zero]
      push_cast; ring

/-- A magnitude on the grid of a power of two not above both exponents. -/
theorem mul_zpow_eq_shift (m : ℕ) (e u : ℤ) :
    (m * 2 ^ e : ℝ) = (m * 2 ^ (e - u).toNat : ℕ) * 2 ^ (u - (u - e).toNat : ℤ) := by
  have hexp : e = ((e - u).toNat : ℤ) + (u - (u - e).toNat) := by omega
  conv_lhs => rw [hexp, zpow_add₀ two_ne_zero, zpow_natCast]
  push_cast; ring

theorem natCast_cmp (a b : ℕ) : cmp (a : ℝ) b = cmp a b := Nat.strictMono_cast.cmp_map_eq a b

/-! ## The rounding of a magnitude (R342, R343) -/

theorem roundToInt_eq_roundShift (mode : RoundingMode) (neg : Bool) (m : ℕ) (e : ℤ) :
    roundToInt mode neg m e = roundShift mode neg (m * 2 ^ e.toNat) (-e).toNat := by
  unfold roundToInt
  split
  next he =>
    have hshift : (-e).toNat = 0 := by omega
    cases mode <;> simp [hshift, roundShift, roundsUp, Nat.mod_one]
  next he =>
    have hscale : e.toNat = 0 := by omega
    rw [hscale, pow_zero, mul_one]

/-- The magnitude `roundsUp` picks is the one the mode selects: it matters only whether the remainder is zero, how it
compares with one half, and which of the two magnitudes is even. -/
theorem selects_of_roundsUp {mode : RoundingMode} {neg : Bool} {v : ℝ} {k q r s : ℕ}
    (hexact : v = magValue k ↔ r = 0) (hhalf : cmp (2 * v) (magValue k + magValue (k + 1)) = cmp (2 * r) (2 ^ s))
    (hparity : k % 2 = q % 2) :
    Selects mode neg v k (k + if roundsUp mode neg q r s then 1 else 0) := by
  have hbelow := lt_iff_lt_of_cmp_eq_cmp hhalf
  have habove := lt_iff_lt_of_cmp_eq_cmp (cmp_eq_cmp_symm.mp hhalf)
  have htie := eq_iff_eq_of_cmp_eq_cmp hhalf
  have hpos : 0 < 2 ^ s := by positivity
  refine ⟨fun hv => ?_, fun hv => ?_⟩
  · obtain rfl : r = 0 := hexact.mp hv
    cases mode <;> simp [roundsUp, hpos.ne]
  · have hr : r ≠ 0 := mt hexact.mpr hv
    cases mode with
    | rtz => simp [roundsUp]
    | rdn => cases neg <;> simp [roundsUp, hr]
    | rup => cases neg <;> simp [roundsUp, hr]
    | rne =>
      simp only [hbelow, habove, htie, roundsUp]
      refine ⟨fun h => ?_, fun h => ?_, fun h => ?_⟩
      · simp [h.not_gt, h.ne]
      · simp [h]
      · simp only [h, lt_irrefl, decide_false, decide_true, Bool.false_or, Bool.true_and, beq_iff_eq]
        split <;> omega
    | rmm =>
      simp only [hbelow, ← not_lt, roundsUp]
      exact ⟨fun h => by simp [h], fun h => by simp [h]⟩

/-- `v` lies as `m * 2^e` does with respect to every multiple of half a unit in the last place. -/
def SameHalfUlps (v : ℝ) (m : ℕ) (e : ℤ) : Prop :=
  ∀ j : ℕ, cmp (2 * v) (j * 2 ^ ulpExp m e) = cmp (2 * (m * 2 ^ e : ℝ)) (j * 2 ^ ulpExp m e)

/-- The comparison on the integers of `roundShift`. -/
theorem SameHalfUlps.cmp_eq {v : ℝ} {m : ℕ} {e u : ℤ} (h : SameHalfUlps v m e) (hu : u = ulpExp m e) (j : ℕ) :
    cmp (2 * v) (j * 2 ^ u) = cmp (2 * (m * 2 ^ (e - u).toNat)) (j * 2 ^ (u - e).toNat) := by
  set s := (u - e).toNat with hs
  have hpos : (0 : ℝ) < 2 ^ (u - s : ℤ) := by positivity
  have hunit : (2 ^ u : ℝ) = 2 ^ s * 2 ^ (u - s : ℤ) := by
    rw [← zpow_natCast, ← zpow_add₀ two_ne_zero]; congr 1; omega
  calc cmp (2 * v) (j * 2 ^ u)
      = cmp (2 * (m * 2 ^ e : ℝ)) (j * 2 ^ u) := by rw [hu]; exact h j
    _ = cmp (((2 * (m * 2 ^ (e - u).toNat) : ℕ) : ℝ) * 2 ^ (u - s : ℤ)) ((j * 2 ^ s : ℕ) * 2 ^ (u - s : ℤ)) := by
        rw [mul_zpow_eq_shift m e u, hunit]; push_cast; simp only [mul_assoc, hs]
    _ = _ := by rw [cmp_mul_pos_right hpos, natCast_cmp]

theorem neg149_le_ulpExp (m : ℕ) (e : ℤ) : -149 ≤ ulpExp m e := le_max_right _ _

/-- At the unit in the last place, a magnitude's integer part has at most 24 bits, and 24 unless it is subnormal. -/
theorem integerPart_bounds {m : ℕ} {e u : ℤ} (hm : m ≠ 0) (hu : u = ulpExp m e) :
    m * 2 ^ (e - u).toNat / 2 ^ (u - e).toNat < 2 ^ 24 ∧
    (u = -149 ∨ 2 ^ 23 ≤ m * 2 ^ (e - u).toNat / 2 ^ (u - e).toNat) := by
  have hlo : 2 ^ m.log2 ≤ m := Nat.log2_self_le hm
  have hhi : m < 2 ^ (m.log2 + 1) := Nat.lt_log2_self
  have hulp : u = max (e + m.log2 - 23) (-149) := hu
  constructor
  · rw [Nat.div_lt_iff_lt_mul (by positivity), ← pow_add]
    calc m * 2 ^ (e - u).toNat
        < 2 ^ (m.log2 + 1) * 2 ^ (e - u).toNat := by gcongr
      _ ≤ 2 ^ (24 + (u - e).toNat) := by rw [← pow_add]; exact Nat.pow_le_pow_right two_pos (by omega)
  · refine or_iff_not_imp_left.mpr fun hnormal => ?_
    rw [Nat.le_div_iff_mul_le (by positivity), ← pow_add]
    calc 2 ^ (23 + (u - e).toNat)
        ≤ 2 ^ m.log2 * 2 ^ (e - u).toNat := by rw [← pow_add]; exact Nat.pow_le_pow_right two_pos (by omega)
      _ ≤ m * 2 ^ (e - u).toNat := by gcongr

/-- What the comparisons with all multiples of half a unit say of the integer part `a / p` and the remainder `a % p`. -/
theorem integerPart_spec {v unit : ℝ} {a p : ℕ} (hp : 0 < p)
    (h : ∀ j : ℕ, cmp (2 * v) (j * unit) = cmp (2 * a) (j * p)) :
    (a / p : ℕ) * unit ≤ v ∧ v < ((a / p : ℕ) + 1) * unit ∧ (v = (a / p : ℕ) * unit ↔ a % p = 0) ∧
    cmp (2 * v) ((a / p : ℕ) * unit + ((a / p : ℕ) + 1) * unit) = cmp (2 * (a % p)) p := by
  have hdiv : a / p * p + a % p = a := Nat.div_add_mod' a p
  have hmod : a % p < p := Nat.mod_lt a hp
  generalize a / p = q at hdiv ⊢
  generalize a % p = r at hdiv hmod ⊢
  have hfloor := h (2 * q)
  have hnext := lt_iff_lt_of_cmp_eq_cmp (h (2 * q + 2))
  have hmiddle := h (2 * q + 1)
  have hle := le_iff_le_of_cmp_eq_cmp (cmp_eq_cmp_symm.mp hfloor)
  have heq := eq_iff_eq_of_cmp_eq_cmp hfloor
  push_cast at hle heq hnext hmiddle
  refine ⟨?_, ?_, ?_, ?_⟩
  · linarith [hle.mpr (by rw [← hdiv, mul_assoc]; omega)]
  · linarith [hnext.mpr (by rw [← hdiv, add_mul, mul_assoc]; omega)]
  · rw [← mul_right_inj' two_ne_zero, ← mul_assoc, heq, ← hdiv, mul_assoc]; omega
  · have hreal : (q * unit + (q + 1) * unit : ℝ) = (2 * q + 1) * unit := by ring
    have hnat : 2 * a = 2 * q * p + 2 * r := by rw [← hdiv]; ring
    rw [hreal, hmiddle, hnat, add_mul, one_mul, cmp_add_left]

/-- The model's magnitude for the integer part `q` at the unit `2^u` and a remainder `r / 2^s`. -/
theorem isRounded_of_integerPart {v : ℝ} {u : ℤ} {q r s : ℕ} (mode : RoundingMode) (neg : Bool) (hu : -149 ≤ u)
    (hq24 : q < 2 ^ 24) (hq23 : u = -149 ∨ 2 ^ 23 ≤ q) (hlo : q * 2 ^ u ≤ v) (hhi : v < (q + 1) * 2 ^ u)
    (hexact : v = q * 2 ^ u ↔ r = 0) (hhalf : cmp (2 * v) (q * 2 ^ u + (q + 1) * 2 ^ u) = cmp (2 * r) (2 ^ s)) :
    IsRounded mode neg v (f32Word neg (
      let mag := (u + 149).toNat * 2 ^ 23 + (q + if roundsUp mode neg q r s then 1 else 0)
      if 0x7F800000 ≤ mag then overflowMag mode neg else mag)) := by
  have hexp : ((u + 149).toNat - 149 : ℤ) = u := by omega
  have hblock : (u + 149).toNat = 0 ∨ 2 ^ 23 ≤ q := hq23.imp_left fun h => by omega
  have hk : magValue ((u + 149).toNat * 2 ^ 23 + q) = q * 2 ^ u := by
    rw [magValue_block hblock hq24.le, hexp]
  have hk1 : magValue ((u + 149).toNat * 2 ^ 23 + q + 1) = (q + 1) * 2 ^ u := by
    rw [add_assoc, magValue_block (hblock.imp_right (by omega)) (by omega), hexp, Nat.cast_add_one]
  rw [← hk] at hlo hexact hhalf
  rw [← hk1] at hhi hhalf
  refine ⟨_, _, hlo, hhi, selects_of_roundsUp hexact hhalf (q := q) (by omega), ?_⟩
  simp only [← add_assoc, f32Word, ← not_lt, ite_not]
  cases mode <;> rfl

/-- `round32` rounds correctly every real that lies as its magnitude does. -/
theorem isRounded_round32 {v : ℝ} {m : ℕ} {e : ℤ} (mode : RoundingMode) (neg : Bool) (hm : m ≠ 0)
    (h : SameHalfUlps v m e) : IsRounded mode neg v (round32 mode neg m e) := by
  obtain ⟨hq24, hq23⟩ := integerPart_bounds hm rfl
  obtain ⟨hlo, hhi, hexact, hhalf⟩ := integerPart_spec (by positivity) (h.cmp_eq rfl)
  have hround := isRounded_of_integerPart mode neg (neg149_le_ulpExp m e) hq24 hq23 hlo hhi hexact hhalf
  simpa only [round32, roundMag, roundToInt_eq_roundShift, neg_sub, roundShift] using hround

/-! ## Exact magnitudes and stand-ins (log entry 17) -/

theorem isRounded_exact (mode : RoundingMode) (neg : Bool) {m : ℕ} (hm : m ≠ 0) (e : ℤ) :
    IsRounded mode neg (m * 2 ^ e) (round32 mode neg m e) :=
  isRounded_round32 mode neg hm fun _ => rfl

/-- Strictly between two neighbours of at least 25 bits lies no multiple of half a unit in the last place. -/
theorem sameHalfUlps_between {v : ℝ} {q : ℕ} {e : ℤ} (hq : 2 ^ 24 ≤ q) (hlo : q * 2 ^ e < v)
    (hhi : v < (q + 1) * 2 ^ e) : SameHalfUlps v (2 * q + 1) (e - 1) := by
  intro j
  have hlog : 25 ≤ (2 * q + 1).log2 := (Nat.le_log2 (by omega)).mpr (by omega)
  have hulp : e + 1 ≤ ulpExp (2 * q + 1) (e - 1) := le_max_of_le_left (by rw [Int.ofNat_eq_natCast]; omega)
  obtain ⟨d, hd⟩ := Int.le.dest hulp
  have hcut : (j * 2 ^ ulpExp (2 * q + 1) (e - 1) : ℝ) = 2 * ((j * 2 ^ d : ℕ) * 2 ^ e) := by
    rw [← hd, zpow_add₀ two_ne_zero, zpow_add_one₀ two_ne_zero, zpow_natCast]; push_cast; ring
  have hmiddle : (((2 * q + 1 : ℕ) : ℝ) * 2 ^ (e - 1)) = (q + 1 / 2) * 2 ^ e := by
    rw [zpow_sub_one₀ two_ne_zero]; push_cast; ring
  have hpos : (0 : ℝ) < 2 ^ e := by positivity
  rw [hcut, hmiddle, cmp_mul_pos_left two_pos, cmp_mul_pos_left two_pos, cmp_mul_pos_right hpos]
  generalize j * 2 ^ d = c
  obtain hc | hc := Nat.lt_or_ge q c
  · have hc' : (q + 1 : ℝ) ≤ c := by exact_mod_cast hc
    have hv : v < c * 2 ^ e := hhi.trans_le (by gcongr)
    rw [hv.cmp_eq_lt, LT.lt.cmp_eq_lt (by linarith)]
  · have hc' : (c : ℝ) ≤ q := by exact_mod_cast hc
    have hv : c * 2 ^ e < v := hlo.trans_le' (by gcongr)
    rw [hv.cmp_eq_gt, LT.lt.cmp_eq_gt (by linarith)]

/-- A quotient or a root stood in by `inexact` is rounded as the real itself. -/
theorem isRounded_inexact (mode : RoundingMode) (neg : Bool) {x : ℝ} {exact : Bool} {q : ℕ} (e : ℤ) (hq : 2 ^ 24 ≤ q)
    (hexact : exact = true → x = q) (hbetween : exact = false → q < x ∧ x < q + 1) :
    IsRounded mode neg (x * 2 ^ e) (round32 mode neg (inexact exact q e).1 (inexact exact q e).2) := by
  cases exact with
  | true => rw [hexact rfl]; exact isRounded_exact mode neg (by omega) e
  | false =>
    obtain ⟨hlo, hhi⟩ := hbetween rfl
    exact isRounded_round32 mode neg (Nat.succ_ne_zero _) (sameHalfUlps_between hq (by gcongr) (by gcongr))

/-! ## Words as signed reals (R341) -/

/-- The sign as a factor. -/
def signFactor (neg : Bool) : ℝ := if neg then -1 else 1

theorem signFactor_xor (n1 n2 : Bool) : signFactor (n1 ^^ n2) = signFactor n1 * signFactor n2 := by
  cases n1 <;> cases n2 <;> norm_num [signFactor]

theorem signFactor_not (neg : Bool) : signFactor (!neg) = -signFactor neg := by
  cases neg <;> norm_num [signFactor]

theorem signFactor_inv (neg : Bool) : (signFactor neg)⁻¹ = signFactor neg := by
  cases neg <;> norm_num [signFactor]

theorem signedMag_cast (neg : Bool) (m : ℕ) : (signedMag neg m : ℝ) = signFactor neg * m := by
  cases neg <;> simp [signedMag, signFactor]

theorem realValue_eq (w : Word) : realValue w = signFactor (f32Sign w) * magValue (w.toNat % 2 ^ 31) := rfl

/-- A finite word is a sign, at most 24 bits and an exponent, whose real value is the word's. -/
theorem ofWord_of_isFinite {w : Word} (h : isFinite w = true) :
    ∃ m e, F32.ofWord w = .fin (f32Sign w) m e ∧ m < 2 ^ 24 ∧ realValue w = signFactor (f32Sign w) * (m * 2 ^ e) := by
  have hexp : f32Exp w = w.toNat / 2 ^ 23 % 2 ^ 8 := by simp [f32Exp, Nat.shiftRight_eq_div_pow]
  have hfrac : f32Frac w = w.toNat % 2 ^ 23 := by simp [f32Frac]
  have hmag : w.toNat % 2 ^ 31 = f32Exp w * 2 ^ 23 + f32Frac w := by omega
  have hfrac_lt : f32Frac w < 2 ^ 23 := by omega
  have hfinite : f32Exp w ≠ 255 := by simpa [isFinite, hexp] using h
  have hvalue : realValue w = signFactor (f32Sign w) * magValue (f32Exp w * 2 ^ 23 + f32Frac w) := by
    rw [← hmag]; exact realValue_eq w
  unfold F32.ofWord
  rw [if_neg hfinite]
  split
  next hzero =>
    refine ⟨_, _, rfl, by omega, ?_⟩
    rw [hvalue, hzero, magValue_block (.inl rfl) (by omega)]; norm_num
  next hpos =>
    refine ⟨_, _, rfl, by omega, ?_⟩
    obtain ⟨n, hn⟩ := Nat.exists_eq_succ_of_ne_zero hpos
    have hshift : f32Exp w * 2 ^ 23 + f32Frac w = n * 2 ^ 23 + (2 ^ 23 + f32Frac w) := by omega
    have hunit : (Int.ofNat (f32Exp w) - 150 : ℤ) = n - 149 := by rw [hn, Int.ofNat_eq_natCast]; omega
    rw [hvalue, hshift, magValue_block (.inr (by omega)) (by omega), hunit]

theorem f32Sign_f32Neg (w : Word) : f32Sign (f32Neg w) = !f32Sign w := by
  simp [f32Sign, f32Neg]

theorem f32Neg_magnitude (w : Word) : (f32Neg w).toNat % 2 ^ 31 = w.toNat % 2 ^ 31 := by
  rw [f32Neg, BitVec.toNat_xor, Nat.xor_mod_two_pow]
  exact Nat.xor_zero _

theorem isFinite_f32Neg (w : Word) : isFinite (f32Neg w) = isFinite w := by
  have hmag := f32Neg_magnitude w
  have hexp : (f32Neg w).toNat / 2 ^ 23 % 2 ^ 8 = w.toNat / 2 ^ 23 % 2 ^ 8 := by omega
  rw [isFinite, isFinite, hexp]

theorem realValue_f32Neg (w : Word) : realValue (f32Neg w) = -realValue w := by
  rw [realValue_eq, realValue_eq, f32Sign_f32Neg, f32Neg_magnitude, signFactor_not, neg_mul]

/-! ## Rounding a signed real -/

theorem roundsReal_zero (mode : RoundingMode) (w : Word) : RoundsReal mode 0 w :=
  ⟨fun h => absurd h (lt_irrefl _), fun h => absurd h (lt_irrefl _)⟩

theorem roundsReal_signFactor {mode : RoundingMode} {neg : Bool} {x : ℝ} {w : Word} (hx : 0 < x)
    (h : IsRounded mode neg x w) : RoundsReal mode (signFactor neg * x) w := by
  cases neg with
  | false => rw [signFactor, if_neg Bool.false_ne_true, one_mul]; exact ⟨fun _ => h, fun hneg => absurd hneg hx.not_gt⟩
  | true =>
    rw [signFactor, if_pos rfl, neg_one_mul]
    exact ⟨fun hpos => absurd hpos (by linarith), fun _ => by rwa [neg_neg]⟩

theorem roundsReal_intMul (mode : RoundingMode) {i : ℤ} (hi : i ≠ 0) (e : ℤ) :
    RoundsReal mode (i * 2 ^ e) (round32 mode (decide (i < 0)) i.natAbs e) := by
  have hne : i.natAbs ≠ 0 := Int.natAbs_ne_zero.mpr hi
  have hsign : (i : ℝ) = signFactor (decide (i < 0)) * i.natAbs := by
    rw [Nat.cast_natAbs, signFactor]
    obtain hneg | hpos := lt_or_gt_of_ne hi
    · simp [hneg, abs_of_neg hneg]
    · simp [hpos.not_gt, abs_of_pos hpos]
  rw [hsign, mul_assoc]
  exact roundsReal_signFactor (by positivity) (isRounded_exact mode _ hne e)

/-! ## The operations -/

/-- A signed magnitude on the grid of a power of two not above its own. -/
theorem signFactor_mul_eq_signedMag (neg : Bool) (m : ℕ) {e g : ℤ} (hg : g ≤ e) :
    signFactor neg * (m * 2 ^ e) = signedMag neg (m * 2 ^ (e - g).toNat) * 2 ^ g := by
  have hgrid : (g - (g - e).toNat : ℤ) = g := by omega
  rw [mul_zpow_eq_shift m e g, hgrid, signedMag_cast, mul_assoc]

theorem roundsReal_addFinite (mode : RoundingMode) (n1 n2 : Bool) (m1 m2 : ℕ) (e1 e2 : ℤ) :
    RoundsReal mode (signFactor n1 * (m1 * 2 ^ e1) + signFactor n2 * (m2 * 2 ^ e2))
      (addFinite mode n1 m1 e1 n2 m2 e2) := by
  rw [signFactor_mul_eq_signedMag n1 m1 (min_le_left e1 e2), signFactor_mul_eq_signedMag n2 m2 (min_le_right e1 e2),
    ← add_mul, ← Int.cast_add, addFinite]
  split
  next hzero => rw [hzero, Int.cast_zero, zero_mul]; exact roundsReal_zero mode _
  next hne => exact roundsReal_intMul mode hne _

theorem roundsReal_f32Add (mode : RoundingMode) {a b : Word} (ha : isFinite a = true) (hb : isFinite b = true) :
    RoundsReal mode (realValue a + realValue b) (f32Add mode a b) := by
  obtain ⟨m1, e1, ha', -, hva⟩ := ofWord_of_isFinite ha
  obtain ⟨m2, e2, hb', -, hvb⟩ := ofWord_of_isFinite hb
  rw [hva, hvb, f32Add, ha', hb']
  exact roundsReal_addFinite ..

theorem roundsReal_f32Sub (mode : RoundingMode) {a b : Word} (ha : isFinite a = true) (hb : isFinite b = true) :
    RoundsReal mode (realValue a - realValue b) (f32Sub mode a b) := by
  rw [sub_eq_add_neg, ← realValue_f32Neg]
  exact roundsReal_f32Add mode ha ((isFinite_f32Neg b).trans hb)

theorem roundsReal_f32Mul (mode : RoundingMode) {a b : Word} (ha : isFinite a = true) (hb : isFinite b = true) :
    RoundsReal mode (realValue a * realValue b) (f32Mul mode a b) := by
  obtain ⟨m1, e1, ha', -, hva⟩ := ofWord_of_isFinite ha
  obtain ⟨m2, e2, hb', -, hvb⟩ := ofWord_of_isFinite hb
  have hprod : realValue a * realValue b =
      signFactor (f32Sign a ^^ f32Sign b) * ((m1 * m2 : ℕ) * 2 ^ (e1 + e2)) := by
    rw [hva, hvb, signFactor_xor, zpow_add₀ two_ne_zero]; push_cast; ring
  rw [hprod, f32Mul, ha', hb']
  dsimp only
  split
  next hzero => rw [hzero]; simpa using roundsReal_zero mode _
  next hne => exact roundsReal_signFactor (by positivity) (isRounded_exact mode _ hne _)

theorem isRounded_quotient (mode : RoundingMode) (neg : Bool) {m1 m2 : ℕ} (h1 : m1 ≠ 0) (h2 : m2 ≠ 0)
    (h2' : m2 < 2 ^ 24) (e1 e2 : ℤ) :
    IsRounded mode neg (m1 * 2 ^ e1 / (m2 * 2 ^ e2))
      (round32 mode neg (quotient m1 e1 m2 e2).1 (quotient m1 e1 m2 e2).2) := by
  have hscaled : (m1 * 2 ^ e1 / (m2 * 2 ^ e2) : ℝ) = (m1 * 2 ^ 50 : ℕ) / m2 * 2 ^ (e1 - e2 - 50) := by
    rw [zpow_sub₀ two_ne_zero, zpow_sub₀ two_ne_zero]
    rw [Nat.cast_mul, Nat.cast_pow, Nat.cast_ofNat]; field_simp
  have hpos : 0 < m2 := Nat.pos_of_ne_zero h2
  have hdiv := Nat.div_add_mod' (m1 * 2 ^ 50) m2
  have hmod := Nat.mod_lt (m1 * 2 ^ 50) hpos
  have hbits : 2 ^ 24 ≤ m1 * 2 ^ 50 / m2 := (Nat.le_div_iff_mul_le hpos).mpr (by omega)
  have hpos' : (0 : ℝ) < m2 := Nat.cast_pos.mpr hpos
  rw [hscaled]
  refine isRounded_inexact mode neg _ hbits (fun h => ?_) (fun h => ⟨?_, ?_⟩)
  · exact (Nat.cast_div (Nat.dvd_of_mod_eq_zero (of_decide_eq_true h)) hpos'.ne').symm
  · have hrem := of_decide_eq_false h
    rw [lt_div_iff₀ hpos']
    exact_mod_cast (by omega : m1 * 2 ^ 50 / m2 * m2 < m1 * 2 ^ 50)
  · rw [div_lt_iff₀ hpos']
    exact_mod_cast (by rw [add_mul]; omega : m1 * 2 ^ 50 < (m1 * 2 ^ 50 / m2 + 1) * m2)

theorem roundsReal_f32Div (mode : RoundingMode) {a b : Word} (ha : isFinite a = true) (hb : isFinite b = true)
    (hne : realValue b ≠ 0) : RoundsReal mode (realValue a / realValue b) (f32Div mode a b) := by
  obtain ⟨m1, e1, ha', -, hva⟩ := ofWord_of_isFinite ha
  obtain ⟨m2, e2, hb', hm2, hvb⟩ := ofWord_of_isFinite hb
  have h2 : m2 ≠ 0 := by rintro rfl; exact hne (by simp [hvb])
  have hquot : realValue a / realValue b =
      signFactor (f32Sign a ^^ f32Sign b) * (m1 * 2 ^ e1 / (m2 * 2 ^ e2)) := by
    rw [hva, hvb, mul_div_mul_comm, div_eq_mul_inv (signFactor _), signFactor_inv, signFactor_xor]
  rw [hquot, f32Div, ha', hb']
  dsimp only
  rw [if_neg h2]
  split
  next hzero => rw [hzero]; simpa using roundsReal_zero mode _
  next h1 => exact roundsReal_signFactor (by positivity) (isRounded_quotient mode _ h1 h2 hm2 e1 e2)

/-! ## Square roots (R354) -/

/-- One bit of the root at a time: the root lies below `r + 2^k` and at least at `r`. -/
theorem isqrtFrom_eq_sqrt {n k r : ℕ} (hlo : r ≤ n.sqrt) (hhi : n.sqrt < r + 2 ^ k) : isqrtFrom n k r = n.sqrt := by
  induction k generalizing r with
  | zero => simp only [isqrtFrom]; omega
  | succ k ih =>
    rw [pow_succ] at hhi
    simp only [isqrtFrom, ← Nat.le_sqrt]
    split
    next hbit => exact ih hbit (by omega)
    next hbit => exact ih hlo (by omega)

theorem isqrt_eq_sqrt {n : ℕ} (hn : n < 2 ^ 80) : isqrt n = n.sqrt :=
  isqrtFrom_eq_sqrt (Nat.zero_le _) (by rw [Nat.sqrt_lt]; omega)

/-- The root of a magnitude scaled by a power of two that leaves an even exponent. -/
theorem sqrt_mul_zpow (m k : ℕ) {e : ℤ} (heven : (e - k) % 2 = 0) :
    Real.sqrt (m * 2 ^ e) = Real.sqrt (m * 2 ^ k : ℕ) * 2 ^ ((e - k) / 2) := by
  have hexp : e = k + ((e - k) / 2 + (e - k) / 2) := by omega
  have hsplit : (m * 2 ^ e : ℝ) = (m * 2 ^ k : ℕ) * (2 ^ ((e - k) / 2) * 2 ^ ((e - k) / 2)) := by
    conv_lhs => rw [hexp, zpow_add₀ two_ne_zero, zpow_add₀ two_ne_zero, zpow_natCast]
    push_cast; ring
  rw [hsplit, Real.sqrt_mul (Nat.cast_nonneg _), Real.sqrt_mul_self (by positivity)]

theorem isRounded_scaledRoot (mode : RoundingMode) {n : ℕ} (hlo : 2 ^ 54 ≤ n) (hhi : n < 2 ^ 80) (e : ℤ) :
    IsRounded mode false (Real.sqrt n * 2 ^ e)
      (round32 mode false (inexact (decide (isqrt n * isqrt n = n)) (isqrt n) e).1
        (inexact (decide (isqrt n * isqrt n = n)) (isqrt n) e).2) := by
  rw [isqrt_eq_sqrt hhi]
  have hbits : 2 ^ 24 ≤ n.sqrt := Nat.le_sqrt.mpr (by omega)
  refine isRounded_inexact mode false e hbits (fun h => ?_) (fun h => ⟨?_, ?_⟩)
  · have hsquare : (n : ℝ) = n.sqrt * n.sqrt := by exact_mod_cast (of_decide_eq_true h).symm
    rw [hsquare, Real.sqrt_mul_self (Nat.cast_nonneg _)]
  · have hne := of_decide_eq_false h
    rw [Real.lt_sqrt (Nat.cast_nonneg _), sq]
    exact_mod_cast lt_of_le_of_ne (Nat.sqrt_le n) hne
  · rw [Real.sqrt_lt' (by positivity), sq]
    exact_mod_cast Nat.lt_succ_sqrt n

theorem isRounded_squareRoot (mode : RoundingMode) {m : ℕ} (hm : m ≠ 0) (hm' : m < 2 ^ 24) (e : ℤ) :
    IsRounded mode false (Real.sqrt (m * 2 ^ e))
      (round32 mode false (squareRoot m e).1 (squareRoot m e).2) := by
  simp only [squareRoot]
  generalize hk : (if e % 2 = 0 then 54 else 55) = k
  have hk54 : 54 ≤ k := by split at hk <;> omega
  have hk55 : k ≤ 55 := by split at hk <;> omega
  have heven : (e - k) % 2 = 0 := by split at hk <;> omega
  have hlo : 2 ^ 54 ≤ m * 2 ^ k := (Nat.pow_le_pow_right two_pos hk54).trans (Nat.le_mul_of_pos_left _ (by omega))
  have hhi : m * 2 ^ k < 2 ^ 80 := calc
    m * 2 ^ k < 2 ^ 24 * 2 ^ k := by gcongr
    _ ≤ 2 ^ 80 := by rw [← pow_add]; exact Nat.pow_le_pow_right two_pos (by omega)
  rw [sqrt_mul_zpow m k heven]
  exact isRounded_scaledRoot mode hlo hhi _

theorem isRounded_f32Sqrt (mode : RoundingMode) {a : Word} (ha : isFinite a = true) (hpos : 0 < realValue a) :
    IsRounded mode false (Real.sqrt (realValue a)) (f32Sqrt mode a) := by
  obtain ⟨m, e, ha', hm, hva⟩ := ofWord_of_isFinite ha
  have hne : m ≠ 0 := by rintro rfl; simp [hva] at hpos
  have hsign : f32Sign a = false := by
    by_contra hneg
    have hle : 0 ≤ (m : ℝ) * 2 ^ e := by positivity
    rw [hva, Bool.eq_true_of_not_eq_false hneg, signFactor, if_pos rfl] at hpos
    linarith
  rw [hva, f32Sqrt, ha', hsign]
  simpa [signFactor, hne] using isRounded_squareRoot mode hne hm e

/-! ## Conversions (R364, R365) -/

theorem roundsReal_ofIntRounded (mode : RoundingMode) (i : ℤ) : RoundsReal mode i (ofIntRounded mode i) := by
  unfold ofIntRounded
  split
  next hzero => rw [hzero, Int.cast_zero]; exact roundsReal_zero mode _
  next hne => simpa using roundsReal_intMul mode hne 0

/-! ## The obligation -/

/-- Settles O45: each operation rounds its exact result, or a stand-in that no multiple of half a unit in
the last place tells from it. -/
theorem correctRounding : Obligations.CorrectRounding := by
  unfold Obligations.CorrectRounding
  intro mode a b
  refine ⟨fun ha hb => ⟨roundsReal_f32Add mode ha hb, roundsReal_f32Sub mode ha hb, roundsReal_f32Mul mode ha hb,
    roundsReal_f32Div mode ha hb⟩, isRounded_f32Sqrt mode, roundsReal_ofIntRounded mode a.toInt, ?_, rfl, rfl⟩
  exact roundsReal_ofIntRounded mode (Int.ofNat a.toNat)

end Sys2Proof.Machine
end

section
/-! SUPPORT. Which 16-bit words each quadrant of the decoder gives to no instruction (spec/30_encoding.md R149-R152,
spec/48_c_compressed.md R435). -/

namespace Sys2Proof

/-! ## Adjacent fields -/

theorem extractLsb'_eq_bits {n : Nat} (v : BitVec n) (lo len : Nat) : v.extractLsb' lo len = bits v lo len := rfl

theorem append_inj_iff {n m : Nat} {x x' : BitVec n} {y y' : BitVec m} : x ++ y = x' ++ y' ↔ x = x' ∧ y = y' := by
  refine ⟨fun h => ⟨?_, ?_⟩, fun ⟨hx, hy⟩ => by rw [hx, hy]⟩
  · simpa only [BitVec.extractLsb'_append_eq_left] using congrArg (BitVec.extractLsb' m n) h
  · simpa only [BitVec.extractLsb'_append_eq_right] using congrArg (BitVec.extractLsb' 0 m) h

theorem append_eq_zero_iff {n m : Nat} {x : BitVec n} {y : BitVec m} : x ++ y = 0#(n + m) ↔ x = 0#n ∧ y = 0#m := by
  rw [← BitVec.zero_append_zero, append_inj_iff]

/-- A field is its high part above its low part. -/
theorem bits_eq_append_iff {n k m : Nat} {v : BitVec n} (lo : Nat) (x : BitVec k) (y : BitVec m) :
    bits v lo (k + m) = x ++ y ↔ bits v (lo + m) k = x ∧ bits v lo m = y := by
  rw [← append_inj_iff]
  exact (BitVec.extractLsb'_append_extractLsb'_eq_extractLsb' rfl).symm.congr_left

theorem bits_eq_zero_iff {n : Nat} {v : BitVec n} (lo k m : Nat) :
    bits v lo (k + m) = 0#(k + m) ↔ bits v (lo + m) k = 0#k ∧ bits v lo m = 0#m := by
  rw [← BitVec.zero_append_zero, bits_eq_append_iff]

section
variable (h : Half)

/-! ## Immediates that are zero, and the listed words as fields (R151, R435) -/

theorem cImm4spn_eq_zero_iff : cImm4spn h = 0#8 ↔ bits h 5 8 = 0#8 := by
  rw [bits_eq_zero_iff 5 2 6, bits_eq_zero_iff 5 4 2, bits_eq_zero_iff 5 1 1]
  rw [cImm4spn, append_eq_zero_iff, append_eq_zero_iff, append_eq_zero_iff]
  tauto

theorem cImmCi_eq_zero_iff : cImmCi h = 0#6 ↔ bits h 12 1 = 0#1 ∧ bits h 2 5 = 0#5 := append_eq_zero_iff

theorem cImm16sp_eq_zero_iff : cImm16sp h = 0#6 ↔ bits h 12 1 = 0#1 ∧ bits h 2 5 = 0#5 := by
  rw [bits_eq_zero_iff 2 1 4, bits_eq_zero_iff 2 1 3, bits_eq_zero_iff 2 2 1]
  rw [cImm16sp, append_eq_zero_iff, append_eq_zero_iff, append_eq_zero_iff, append_eq_zero_iff]
  tauto

/-- `h[15:10] = 100111`: the reserved half of the row of C.SUB, C.XOR, C.OR and C.AND. -/
theorem high6_eq_0x27_iff :
    bits h 10 6 = 0x27#6 ↔ bits h 13 3 = 4#3 ∧ bits h 12 1 = 1#1 ∧ bits h 10 2 = 3#2 := by
  rw [← bits_eq_append_iff 10 1#1 3#2]
  exact bits_eq_append_iff 10 4#3 7#3

/-- `0x8002`, C.JR with `rs1 = 0`, by its fields. -/
theorem half_eq_0x8002_iff : h = 0x8002#16 ↔
    bits h 13 3 = 4#3 ∧ bits h 12 1 = 0#1 ∧ bits h 7 5 = 0#5 ∧ bits h 2 5 = 0#5 ∧ bits h 0 2 = 2#2 := by
  have hfields : h = 0x8002#16 ↔
      bits h 0 (3 + (1 + (5 + (5 + 2)))) = 4#3 ++ (0#1 ++ (0#5 ++ (0#5 ++ 2#2))) := Eq.congr_left (bits_self h).symm
  rw [hfields, bits_eq_append_iff, bits_eq_append_iff, bits_eq_append_iff, bits_eq_append_iff]

/-! ## The words a quadrant gives to no instruction (R152) -/

@[simp] theorem guardInstr_eq_none_iff (ok : Bool) (i : Instr) : guardInstr ok i = none ↔ ok = false := by
  cases ok <;> simp [guardInstr]

theorem not_bit_zero_iff (b : BitVec 1) : ¬ b = 0#1 ↔ b = 1#1 := by decide +revert

theorem bitVec2_cases (f : BitVec 2) : f = 0#2 ∨ f = 1#2 ∨ f = 2#2 ∨ f = 3#2 := by decide +revert

theorem bitVec3_cases (f : BitVec 3) :
    f = 0#3 ∨ f = 1#3 ∨ f = 2#3 ∨ f = 3#3 ∨ f = 4#3 ∨ f = 5#3 ∨ f = 6#3 ∨ f = 7#3 := by decide +revert

theorem decodeQ0_eq_none_iff (cfg : Config) : decodeQ0 cfg h = none ↔
    (bits h 13 3 = 0#3 ∧ bits h 5 8 = 0#8) ∨ bits h 13 3 = 4#3 ∨
    (cfg.hasFldFsd = false ∧ (bits h 13 3 = 1#3 ∨ bits h 13 3 = 5#3)) := by
  rcases bitVec3_cases (bits h 13 3) with hf | hf | hf | hf | hf | hf | hf | hf <;>
    simp [decodeQ0, hf, cImm4spn_eq_zero_iff]

theorem decodeQ1Alu_eq_none_iff : decodeQ1Alu h = none ↔
    (bits h 12 1 = 1#1 ∧ (bits h 10 2 = 0#2 ∨ bits h 10 2 = 1#2)) ∨ (bits h 12 1 = 1#1 ∧ bits h 10 2 = 3#2) := by
  rcases bitVec2_cases (bits h 10 2) with hf | hf | hf | hf
  · simp [decodeQ1Alu, hf, not_bit_zero_iff]
  · simp [decodeQ1Alu, hf, not_bit_zero_iff]
  · simp [decodeQ1Alu, hf]
  · rcases BitVec.eq_zero_or_eq_one (bits h 12 1) with hb | hb
    · rcases bitVec2_cases (bits h 5 2) with hop | hop | hop | hop <;> simp [decodeQ1Alu, hf, hb, hop]
    · simp [decodeQ1Alu, hf, hb]

theorem decodeQ1_eq_none_iff : decodeQ1 h = none ↔
    (bits h 13 3 = 3#3 ∧ bits h 12 1 = 0#1 ∧ bits h 2 5 = 0#5) ∨
    (bits h 13 3 = 4#3 ∧ bits h 12 1 = 1#1 ∧ (bits h 10 2 = 0#2 ∨ bits h 10 2 = 1#2)) ∨
    (bits h 13 3 = 4#3 ∧ bits h 12 1 = 1#1 ∧ bits h 10 2 = 3#2) := by
  rcases bitVec3_cases (bits h 13 3) with hf | hf | hf | hf | hf | hf | hf | hf
  · by_cases hrd : cFieldRd h = 0#5 <;> simp [decodeQ1, hf, hrd]
  · simp [decodeQ1, hf]
  · simp [decodeQ1, hf]
  · by_cases hrd : cFieldRd h = 2#5
    · simp [decodeQ1, hf, hrd, cImm16sp_eq_zero_iff]
    · simp [decodeQ1, hf, hrd, cImmCi_eq_zero_iff]
  · simp [decodeQ1, hf, decodeQ1Alu_eq_none_iff]
  all_goals simp [decodeQ1, hf]

theorem decodeQ2Cr_eq_none_iff :
    decodeQ2Cr h = none ↔ bits h 12 1 = 0#1 ∧ bits h 7 5 = 0#5 ∧ bits h 2 5 = 0#5 := by
  by_cases hb : bits h 12 1 = 0#1 <;> by_cases hrs2 : bits h 2 5 = 0#5
  · simp [decodeQ2Cr, cFieldRd, cFieldRs2, hb, hrs2]
  · simp [decodeQ2Cr, cFieldRs2, hb, hrs2]
  · by_cases hrd : bits h 7 5 = 0#5 <;> simp [decodeQ2Cr, cFieldRd, cFieldRs2, hb, hrs2, hrd]
  · simp [decodeQ2Cr, cFieldRs2, hb, hrs2]

theorem decodeQ2_eq_none_iff (cfg : Config) : decodeQ2 cfg h = none ↔
    (bits h 13 3 = 0#3 ∧ bits h 12 1 = 1#1) ∨ (bits h 13 3 = 2#3 ∧ bits h 7 5 = 0#5) ∨
    (bits h 13 3 = 4#3 ∧ bits h 12 1 = 0#1 ∧ bits h 7 5 = 0#5 ∧ bits h 2 5 = 0#5) ∨
    (cfg.hasFldFsd = false ∧ (bits h 13 3 = 1#3 ∨ bits h 13 3 = 5#3)) := by
  rcases bitVec3_cases (bits h 13 3) with hf | hf | hf | hf | hf | hf | hf | hf <;>
    simp [decodeQ2, hf, decodeQ2Cr_eq_none_iff, cFieldRd, not_bit_zero_iff]

end

/-! ## The quadrant of a word (R149) -/

section
variable {cfg : Config} {h : Half}

theorem decodeRaw_of_quadrant0 (hq : bits h 0 2 = 0#2) : decodeRaw cfg (.half h) = decodeQ0 cfg h := by
  simp [decodeRaw, decode16, hq]

theorem decodeRaw_of_quadrant1 (hq : bits h 0 2 = 1#2) : decodeRaw cfg (.half h) = decodeQ1 h := by
  simp [decodeRaw, decode16, hq]

theorem decodeRaw_of_quadrant2 (hq : bits h 0 2 = 2#2) : decodeRaw cfg (.half h) = decodeQ2 cfg h := by
  simp [decodeRaw, decode16, hq]

end

/-! ## The obligation -/

/-- Settles O4: each quadrant refuses the rows of R435's list that lie in it, and the other rows lie elsewhere. -/
theorem illegalHalfwords : Obligations.IllegalHalfwords := by
  unfold Obligations.IllegalHalfwords
  intro cfg h hq
  simp only [extractLsb'_eq_bits, high6_eq_0x27_iff, half_eq_0x8002_iff] at hq ⊢
  rcases bitVec2_cases (bits h 0 2) with h0 | h1 | h2 | h3
  · simp [decodeRaw_of_quadrant0 h0, decodeQ0_eq_none_iff, h0]
  · simp [decodeRaw_of_quadrant1 h1, decodeQ1_eq_none_iff, h1]
  · simp [decodeRaw_of_quadrant2 h2, decodeQ2_eq_none_iff, h2]
  · exact absurd h3 hq

end Sys2Proof
end

section
/-! SUPPORT. The level a trap is taken to, which interrupt a check finds, and the step that delivers it
(spec/60_exceptions.md R451, R452, R470). -/

namespace Sys2Proof.Machine

/-! ## The target level (R451) -/

theorem Hart.delegatedLevel_eq (h : Hart) (c : Cause) : h.delegatedLevel c =
    if (if c.isInterrupt then h.mideleg.getLsbD c.code else h.medeleg.getLsbD c.code) = false then .m
    else if (if c.isInterrupt then h.sideleg.getLsbD c.code else h.sedeleg.getLsbD c.code) = false then .s
    else .u := by
  unfold Hart.delegatedLevel
  cases c <;> simp [Cause.isInterrupt]

theorem Hart.trapTarget_interrupt (h : Hart) (i : Interrupt) :
    h.trapTarget (.interrupt i) = h.delegatedLevel (.interrupt i) := rfl

theorem Hart.trapTarget_exception (h : Hart) (e : Exception) :
    h.trapTarget (.exception e) = Priv.max (h.delegatedLevel (.exception e)) h.priv := rfl

theorem Priv.level_le_level_max (a b : Priv) : b.level ≤ (Priv.max a b).level := by
  unfold Priv.max
  split <;> omega

/-! ## The interrupt a check finds (R470) -/

/-- The bit of the assembled `mip` is the source's own pending bit (R42, R460). -/
theorem getLsbD_mip_code (s : State) (i : Interrupt) : s.mip.getLsbD i.code = s.pending i := by
  rw [getLsbD_mip]
  cases i <;> simp [Interrupt.code, State.pending]

theorem Hart.levelTakes_iff (h : Hart) (tgt : Priv) : h.levelTakes tgt = true ↔
    h.priv.level < tgt.level ∨ (tgt = h.priv ∧ h.mstatus.getLsbD tgt.iePos = true) := by
  unfold Hart.levelTakes Hart.xie
  rw [Bool.or_eq_true, decide_eq_true_iff, Bool.and_eq_true, beq_iff_eq]

theorem State.deliverable_iff (s : State) (i : Interrupt) : s.deliverable i = true ↔
    (csrRead s 0x344#12 &&& csrRead s 0x304#12).getLsbD i.code = true ∧
    (s.hart.priv.level < (s.hart.trapTarget (.interrupt i)).level ∨
      (s.hart.trapTarget (.interrupt i) = s.hart.priv ∧
        s.hart.mstatus.getLsbD (s.hart.trapTarget (.interrupt i)).iePos = true)) := by
  rw [csrRead_mip, csrRead_mie, BitVec.getLsbD_and, getLsbD_mip_code, Hart.trapTarget_interrupt, ← Hart.levelTakes_iff,
    Bool.and_comm, ← Bool.and_eq_true]
  rfl

/-- `find?` answers the element of least index among those that satisfy the test. -/
theorem find?_eq_some_iff_idxOf_le {α : Type} [BEq α] [LawfulBEq α] (p : α → Bool) {a : α} {l : List α} (ha : a ∈ l) :
    l.find? p = some a ↔ p a = true ∧ ∀ b, p b = true → l.idxOf a ≤ l.idxOf b := by
  induction l with
  | nil => cases ha
  | cons x xs ih =>
    cases hx : p x with
    | true =>
      rw [List.find?_cons_of_pos hx, Option.some_inj]
      constructor
      · rintro rfl
        exact ⟨hx, fun b _ => by rw [List.idxOf_cons_self]; exact Nat.zero_le _⟩
      · rintro ⟨-, hmin⟩
        by_contra hne
        have hle := hmin x hx
        rw [List.idxOf_cons_self, List.idxOf_cons_ne _ hne] at hle
        exact absurd hle (Nat.not_succ_le_zero _)
    | false =>
      have hne {b : α} (hb : p b = true) : x ≠ b := fun e => by rw [e, hb] at hx; cases hx
      rw [List.find?_cons_of_neg (by rw [hx]; exact Bool.false_ne_true)]
      by_cases hpa : p a = true
      · have hmem : a ∈ xs := (List.mem_cons.1 ha).resolve_left (hne hpa).symm
        rw [ih hmem]
        refine and_congr_right fun _ => forall₂_congr fun b hb => ?_
        rw [List.idxOf_cons_ne _ (hne hpa), List.idxOf_cons_ne _ (hne hb), Nat.succ_le_succ_iff]
      · exact iff_of_false (fun h => hpa (List.find?_some h)) (fun h => hpa h.1)

theorem Interrupt.mem_searchOrder (i : Interrupt) : i ∈ Interrupt.searchOrder := by cases i <;> decide

/-- The search order is the codes' order of R470. -/
theorem Interrupt.idxOf_code (i : Interrupt) :
    [11, 3, 7, 9, 1, 5, 8, 0, 4].idxOf i.code = Interrupt.searchOrder.idxOf i := by
  cases i <;> rfl

theorem State.pendingInterrupt_eq_some_iff (s : State) (i : Interrupt) : s.pendingInterrupt = some i ↔
    s.deliverable i = true ∧
    ∀ j, s.deliverable j = true → Interrupt.searchOrder.idxOf i ≤ Interrupt.searchOrder.idxOf j :=
  find?_eq_some_iff_idxOf_le s.deliverable i.mem_searchOrder

theorem State.pendingInterrupt_of_interruptTaken {s : State} {i : Interrupt} (h : s.interruptTaken = some i) :
    s.pendingInterrupt = some i := by
  unfold State.interruptTaken at h
  split at h
  · cases h
  · next hp =>
    split at h
    · exact hp.trans h
    · cases h

/-! ## The step at a boundary (R470, R510) -/

theorem step_of_selectHart {s s1 : State} (h : s.selectHart = some s1) : step s = hartStep s1 := by
  unfold step; rw [h]

theorem hartStep_of_interrupt {s : State} {i : Interrupt} (h : s.environment.interruptTaken = some i) :
    hartStep s = .next (s.environment.deliver i) := by
  unfold hartStep; rw [h]

theorem hartStep_of_noInterrupt {s : State} (h : s.environment.interruptTaken = none) :
    hartStep s = instructionStep s.environment.afterCheck.environment := by
  unfold hartStep; rw [h]

@[simp] theorem State.environment_trapTarget_hart (s : State) (c : Cause) :
    s.environment.hart.trapTarget c = s.hart.trapTarget c := rfl

/-- A delivery is a trap entry from the state whose `since_check` the check has set to 0 (R452, R470, R471). -/
theorem State.deliver_trapEntry (s : State) (i : Interrupt) :
    TrapEntry { s with hart := { s.hart with sinceCheck := 0 }, draws := s.draws + 1 } (s.deliver i)
      (s.hart.trapTarget (.interrupt i)) (.interrupt i) s.hart.pc 0#32 :=
  takeTrap_trapEntry _ _ _ _

theorem State.deliver_cycle_hart (s : State) (i : Interrupt) : (s.deliver i).hart.cycle = s.hart.cycle :=
  takeTrap_cycle_hart _ _ _ _

theorem State.deliver_sinceCheck_hart (s : State) (i : Interrupt) : (s.deliver i).hart.sinceCheck = 0 :=
  takeTrap_sinceCheck_hart _ _ _ _

/-! ## The obligations -/

/-- Settles O33: an interrupt goes to the delegated level, an exception to the higher of that level and the mode. -/
theorem trapTarget : Obligations.TrapTarget := by
  unfold Obligations.TrapTarget
  intro h c dm ds tgt
  have htgt : h.delegatedLevel c = tgt := h.delegatedLevel_eq c
  cases c with
  | interrupt i => exact ⟨htgt, fun hc => Bool.noConfusion hc⟩
  | exception e =>
    rw [Hart.trapTarget_exception, htgt]
    exact ⟨if_congr (and_iff_right rfl).symm rfl rfl, fun _ => Priv.level_le_level_max tgt h.priv⟩

/-- Settles O34: `takeTrap` is the one entry procedure, and its writes are those of R452. -/
theorem trapEntryState : Obligations.TrapEntryState := by
  unfold Obligations.TrapEntryState
  exact takeTrap_trapEntry

/-- Settles O54: the search answers the deliverable source of least index in its order, and a step either delivers what
the check took or runs the instruction. -/
theorem interruptDelivery : Obligations.InterruptDelivery := by
  unfold Obligations.InterruptDelivery
  constructor
  · intro s i
    simp only [← State.deliverable_iff, Interrupt.idxOf_code]
    exact s.pendingInterrupt_eq_some_iff i
  · intro s s1 hs1
    rw [step_of_selectHart hs1]
    refine ⟨fun i hi => ⟨State.pendingInterrupt_of_interruptTaken hi, _, hartStep_of_interrupt hi, ?_, ?_, ?_⟩,
      hartStep_of_noInterrupt⟩
    · exact s1.environment.deliver_trapEntry i
    · exact s1.environment.deliver_cycle_hart i
    · exact s1.environment.deliver_sinceCheck_hart i

end Sys2Proof.Machine
end

section
/-! SUPPORT. The formats of spec/30_encoding.md: a word is the encoding of its fields and of no others (R131-R139,
R148, R149, R151). -/

namespace Sys2Proof

/-! ## Fields side by side -/

theorem append_eq_bits_iff {n k m : Nat} {v : BitVec n} (lo : Nat) (x : BitVec k) (y : BitVec m) :
    x ++ y = bits v lo (k + m) ↔ x = bits v (lo + m) k ∧ y = bits v lo m := by
  rw [eq_comm, bits_eq_append_iff, eq_comm, eq_comm (a := y)]

theorem bits_eq_ofBool_iff {n : Nat} (v : BitVec n) (i : Nat) (b : Bool) :
    bits v i 1 = BitVec.ofBool b ↔ v.getLsbD i = b := by
  have hbit : bits v i 1 = BitVec.ofBool (v.getLsbD i) := by
    apply BitVec.eq_of_getLsbD_eq
    intro k hk
    obtain rfl : k = 0 := by omega
    simp [bits]
  rw [hbit, BitVec.ofBool_eq_iff_eq]

/-! ## The 32-bit formats (R132, R148) -/

section
variable (w : Word) (rd rs1 rs2 : Reg) (funct3 : BitVec 3) (opcode : BitVec 7)

theorem eq_encR_iff (funct7 : BitVec 7) : w = encR funct7 rs2 rs1 funct3 rd opcode ↔
    fieldFunct7 w = funct7 ∧ fieldRs2 w = rs2 ∧ fieldRs1 w = rs1 ∧ fieldFunct3 w = funct3 ∧ fieldRd w = rd ∧
      fieldOpcode w = opcode := by
  have hword : w = encR funct7 rs2 rs1 funct3 rd opcode ↔
      bits w 0 (7 + 5 + 5 + 3 + 5 + 7) = encR funct7 rs2 rs1 funct3 rd opcode := Eq.congr_left (bits_self w).symm
  rw [hword]
  simp only [encR, bits_eq_append_iff, and_assoc]
  exact Iff.rfl

theorem eq_encI_iff (imm : BitVec 12) : w = encI imm rs1 funct3 rd opcode ↔
    fieldImmI w = imm ∧ fieldRs1 w = rs1 ∧ fieldFunct3 w = funct3 ∧ fieldRd w = rd ∧ fieldOpcode w = opcode := by
  have hword : w = encI imm rs1 funct3 rd opcode ↔
      bits w 0 (12 + 5 + 3 + 5 + 7) = encI imm rs1 funct3 rd opcode := Eq.congr_left (bits_self w).symm
  rw [hword]
  simp only [encI, bits_eq_append_iff, and_assoc]
  exact Iff.rfl

theorem eq_encU_iff (imm : BitVec 20) : w = encU imm rd opcode ↔
    fieldImmU w = imm ∧ fieldRd w = rd ∧ fieldOpcode w = opcode := by
  have hword : w = encU imm rd opcode ↔ bits w 0 (20 + 5 + 7) = encU imm rd opcode := Eq.congr_left (bits_self w).symm
  rw [hword]
  simp only [encU, bits_eq_append_iff, and_assoc]
  exact Iff.rfl

theorem eq_encS_iff (imm : BitVec 12) : w = encS imm rs2 rs1 funct3 opcode ↔
    fieldImmS w = imm ∧ fieldRs2 w = rs2 ∧ fieldRs1 w = rs1 ∧ fieldFunct3 w = funct3 ∧ fieldOpcode w = opcode := by
  have hword : w = encS imm rs2 rs1 funct3 opcode ↔
      bits w 0 (7 + 5 + 5 + 3 + 5 + 7) = encS imm rs2 rs1 funct3 opcode := Eq.congr_left (bits_self w).symm
  have himm : fieldImmS w = imm ↔ @Eq (BitVec (7 + 5)) (fieldImmS w) (bits imm 0 (7 + 5)) :=
    Eq.congr_right (bits_self imm).symm
  rw [hword, himm]
  simp only [encS, fieldImmS, bits_eq_append_iff, append_eq_bits_iff]
  simp only [Nat.reduceAdd, fieldRs2, fieldRs1, fieldFunct3, fieldOpcode, and_comm, and_left_comm, and_assoc]

theorem eq_encB_iff (off : BitVec 12) : w = encB off rs2 rs1 funct3 ↔
    fieldImmB w = off ∧ fieldRs2 w = rs2 ∧ fieldRs1 w = rs1 ∧ fieldFunct3 w = funct3 ∧ fieldOpcode w = 0x63#7 := by
  have hword : w = encB off rs2 rs1 funct3 ↔
      bits w 0 (1 + 6 + 5 + 5 + 3 + 4 + 1 + 7) = encB off rs2 rs1 funct3 := Eq.congr_left (bits_self w).symm
  have himm : fieldImmB w = off ↔ @Eq (BitVec (1 + 1 + 6 + 4)) (fieldImmB w) (bits off 0 (1 + 1 + 6 + 4)) :=
    Eq.congr_right (bits_self off).symm
  rw [hword, himm]
  simp only [encB, fieldImmB, bits_eq_append_iff, append_eq_bits_iff]
  simp only [Nat.reduceAdd, fieldRs2, fieldRs1, fieldFunct3, fieldOpcode, and_comm, and_left_comm, and_assoc]

theorem eq_encJ_iff (off : BitVec 20) : w = encJ off rd ↔
    fieldImmJ w = off ∧ fieldRd w = rd ∧ fieldOpcode w = 0x6F#7 := by
  have hword : w = encJ off rd ↔ bits w 0 (1 + 10 + 1 + 8 + 5 + 7) = encJ off rd := Eq.congr_left (bits_self w).symm
  have himm : fieldImmJ w = off ↔ @Eq (BitVec (1 + 8 + 1 + 10)) (fieldImmJ w) (bits off 0 (1 + 8 + 1 + 10)) :=
    Eq.congr_right (bits_self off).symm
  rw [hword, himm]
  simp only [encJ, fieldImmJ, bits_eq_append_iff, append_eq_bits_iff]
  simp only [Nat.reduceAdd, fieldRd, fieldOpcode, and_comm, and_left_comm, and_assoc]

theorem eq_encAmo_iff (funct5 : BitVec 5) (aq rl : Bool) : w = encAmo funct5 aq rl rs2 rs1 rd ↔
    bits w 27 5 = funct5 ∧ w.getLsbD 26 = aq ∧ w.getLsbD 25 = rl ∧ fieldRs2 w = rs2 ∧ fieldRs1 w = rs1 ∧
      fieldFunct3 w = 2#3 ∧ fieldRd w = rd ∧ fieldOpcode w = 0x2F#7 := by
  have hword : w = encAmo funct5 aq rl rs2 rs1 rd ↔
      bits w 0 (5 + 1 + 1 + 5 + 5 + 3 + 5 + 7) = encAmo funct5 aq rl rs2 rs1 rd := Eq.congr_left (bits_self w).symm
  rw [hword]
  simp only [encAmo, bits_eq_append_iff, bits_eq_ofBool_iff, and_assoc]
  exact Iff.rfl

end

/-! ## The compressed formats (R149, R151) -/

section
variable (h : Half) (rd rs2 : Reg) (hi lo : PrimeReg) (funct3 : BitVec 3)

theorem eq_encCiw_iff (nzuimm : BitVec 8) : h = encCiw nzuimm lo ↔
    bits h 13 3 = 0#3 ∧ cImm4spn h = nzuimm ∧ cFieldLo h = lo ∧ bits h 0 2 = 0#2 := by
  have hword : h = encCiw nzuimm lo ↔ bits h 0 (3 + 2 + 4 + 1 + 1 + 3 + 2) = encCiw nzuimm lo :=
    Eq.congr_left (bits_self h).symm
  have himm : cImm4spn h = nzuimm ↔ @Eq (BitVec (4 + 2 + 1 + 1)) (cImm4spn h) (bits nzuimm 0 (4 + 2 + 1 + 1)) :=
    Eq.congr_right (bits_self nzuimm).symm
  rw [hword, himm]
  simp only [encCiw, cImm4spn, bits_eq_append_iff, append_eq_bits_iff]
  simp only [Nat.reduceAdd, cFieldLo, and_comm, and_left_comm, and_assoc]

theorem eq_encClW_iff (uimm : BitVec 5) : h = encClW funct3 uimm hi lo ↔
    bits h 13 3 = funct3 ∧ cUimmW h = uimm ∧ cFieldHi h = hi ∧ cFieldLo h = lo ∧ bits h 0 2 = 0#2 := by
  have hword : h = encClW funct3 uimm hi lo ↔ bits h 0 (3 + 3 + 3 + 1 + 1 + 3 + 2) = encClW funct3 uimm hi lo :=
    Eq.congr_left (bits_self h).symm
  have himm : cUimmW h = uimm ↔ @Eq (BitVec (1 + 3 + 1)) (cUimmW h) (bits uimm 0 (1 + 3 + 1)) :=
    Eq.congr_right (bits_self uimm).symm
  rw [hword, himm]
  simp only [encClW, cUimmW, bits_eq_append_iff, append_eq_bits_iff]
  simp only [Nat.reduceAdd, cFieldHi, cFieldLo, and_comm, and_left_comm, and_assoc]

theorem eq_encClD_iff (uimm : BitVec 5) : h = encClD funct3 uimm hi lo ↔
    bits h 13 3 = funct3 ∧ cUimmD h = uimm ∧ cFieldHi h = hi ∧ cFieldLo h = lo ∧ bits h 0 2 = 0#2 := by
  have hword : h = encClD funct3 uimm hi lo ↔ bits h 0 (3 + 3 + 3 + 2 + 3 + 2) = encClD funct3 uimm hi lo :=
    Eq.congr_left (bits_self h).symm
  have himm : cUimmD h = uimm ↔ @Eq (BitVec (2 + 3)) (cUimmD h) (bits uimm 0 (2 + 3)) :=
    Eq.congr_right (bits_self uimm).symm
  rw [hword, himm]
  simp only [encClD, cUimmD, bits_eq_append_iff, append_eq_bits_iff]
  simp only [Nat.reduceAdd, cFieldHi, cFieldLo, and_comm, and_left_comm, and_assoc]

theorem eq_encCi_iff (imm : BitVec 6) (op : BitVec 2) : h = encCi funct3 imm rd op ↔
    bits h 13 3 = funct3 ∧ cImmCi h = imm ∧ cFieldRd h = rd ∧ bits h 0 2 = op := by
  have hword : h = encCi funct3 imm rd op ↔ bits h 0 (3 + 1 + 5 + 5 + 2) = encCi funct3 imm rd op :=
    Eq.congr_left (bits_self h).symm
  have himm : cImmCi h = imm ↔ @Eq (BitVec (1 + 5)) (cImmCi h) (bits imm 0 (1 + 5)) :=
    Eq.congr_right (bits_self imm).symm
  rw [hword, himm]
  simp only [encCi, cImmCi, bits_eq_append_iff, append_eq_bits_iff]
  simp only [Nat.reduceAdd, cFieldRd, and_comm, and_left_comm, and_assoc]

/-- A shift amount below a zero bit (R151). -/
theorem eq_encCi_shift_iff (bit12 : BitVec 1) (shamt : BitVec 5) (op : BitVec 2) :
    h = encCi funct3 (bit12 ++ shamt) rd op ↔
      bits h 13 3 = funct3 ∧ bits h 12 1 = bit12 ∧ cFieldRd h = rd ∧ cFieldRs2 h = shamt ∧ bits h 0 2 = op := by
  rw [eq_encCi_iff, cImmCi, append_inj_iff, and_assoc, and_left_comm (a := bits h 2 5 = shamt)]
  exact Iff.rfl

theorem eq_encC16sp_iff (imm : BitVec 6) : h = encC16sp imm ↔
    bits h 13 3 = 3#3 ∧ cImm16sp h = imm ∧ cFieldRd h = 2#5 ∧ bits h 0 2 = 1#2 := by
  have hword : h = encC16sp imm ↔ bits h 0 (3 + 1 + 5 + 1 + 1 + 2 + 1 + 2) = encC16sp imm :=
    Eq.congr_left (bits_self h).symm
  have himm : cImm16sp h = imm ↔ @Eq (BitVec (1 + 2 + 1 + 1 + 1)) (cImm16sp h) (bits imm 0 (1 + 2 + 1 + 1 + 1)) :=
    Eq.congr_right (bits_self imm).symm
  rw [hword, himm]
  simp only [encC16sp, cImm16sp, bits_eq_append_iff, append_eq_bits_iff]
  simp only [Nat.reduceAdd, cFieldRd, and_comm, and_left_comm, and_assoc]

theorem eq_encCj_iff (off : BitVec 11) : h = encCj funct3 off ↔
    bits h 13 3 = funct3 ∧ cImmCj h = off ∧ bits h 0 2 = 1#2 := by
  have hword : h = encCj funct3 off ↔ bits h 0 (3 + 1 + 1 + 2 + 1 + 1 + 1 + 3 + 1 + 2) = encCj funct3 off :=
    Eq.congr_left (bits_self h).symm
  have himm : cImmCj h = off ↔
      @Eq (BitVec (1 + 1 + 2 + 1 + 1 + 1 + 1 + 3)) (cImmCj h) (bits off 0 (1 + 1 + 2 + 1 + 1 + 1 + 1 + 3)) :=
    Eq.congr_right (bits_self off).symm
  rw [hword, himm]
  simp only [encCj, cImmCj, bits_eq_append_iff, append_eq_bits_iff]
  simp only [Nat.reduceAdd, and_comm, and_left_comm, and_assoc]

theorem eq_encCb_iff (off : BitVec 8) : h = encCb funct3 off hi ↔
    bits h 13 3 = funct3 ∧ cImmCb h = off ∧ cFieldHi h = hi ∧ bits h 0 2 = 1#2 := by
  have hword : h = encCb funct3 off hi ↔ bits h 0 (3 + 1 + 2 + 3 + 2 + 2 + 1 + 2) = encCb funct3 off hi :=
    Eq.congr_left (bits_self h).symm
  have himm : cImmCb h = off ↔ @Eq (BitVec (1 + 2 + 1 + 2 + 2)) (cImmCb h) (bits off 0 (1 + 2 + 1 + 2 + 2)) :=
    Eq.congr_right (bits_self off).symm
  rw [hword, himm]
  simp only [encCb, cImmCb, bits_eq_append_iff, append_eq_bits_iff]
  simp only [Nat.reduceAdd, cFieldHi, and_comm, and_left_comm, and_assoc]

theorem eq_encCbAlu_iff (bit12 : BitVec 1) (funct2 : BitVec 2) (low : BitVec 5) : h = encCbAlu bit12 funct2 hi low ↔
    bits h 13 3 = 4#3 ∧ bits h 12 1 = bit12 ∧ bits h 10 2 = funct2 ∧ cFieldHi h = hi ∧ cFieldRs2 h = low ∧
      bits h 0 2 = 1#2 := by
  have hword : h = encCbAlu bit12 funct2 hi low ↔ bits h 0 (3 + 1 + 2 + 3 + 5 + 2) = encCbAlu bit12 funct2 hi low :=
    Eq.congr_left (bits_self h).symm
  rw [hword]
  simp only [encCbAlu, bits_eq_append_iff, and_assoc]
  exact Iff.rfl

/-- `funct6` is `100 0 11` (R149). -/
theorem eq_encCa_iff (funct2 : BitVec 2) : h = encCa funct2 hi lo ↔
    bits h 13 3 = 4#3 ∧ bits h 12 1 = 0#1 ∧ bits h 10 2 = 3#2 ∧ cFieldHi h = hi ∧ bits h 5 2 = funct2 ∧
      cFieldLo h = lo ∧ bits h 0 2 = 1#2 := by
  have hword : h = encCa funct2 hi lo ↔
      bits h 0 (3 + 1 + 2 + 3 + 2 + 3 + 2) = 4#3 ++ 0#1 ++ 3#2 ++ hi ++ funct2 ++ lo ++ 1#2 :=
    Eq.congr_left (bits_self h).symm
  rw [hword]
  simp only [bits_eq_append_iff, and_assoc]
  exact Iff.rfl

theorem eq_encCLwsp_iff (uimm : BitVec 6) : h = encCLwsp funct3 uimm rd ↔
    bits h 13 3 = funct3 ∧ cUimmLwsp h = uimm ∧ cFieldRd h = rd ∧ bits h 0 2 = 2#2 := by
  have hword : h = encCLwsp funct3 uimm rd ↔ bits h 0 (3 + 1 + 5 + 3 + 2 + 2) = encCLwsp funct3 uimm rd :=
    Eq.congr_left (bits_self h).symm
  have himm : cUimmLwsp h = uimm ↔ @Eq (BitVec (2 + 1 + 3)) (cUimmLwsp h) (bits uimm 0 (2 + 1 + 3)) :=
    Eq.congr_right (bits_self uimm).symm
  rw [hword, himm]
  simp only [encCLwsp, cUimmLwsp, bits_eq_append_iff, append_eq_bits_iff]
  simp only [Nat.reduceAdd, cFieldRd, and_comm, and_left_comm, and_assoc]

theorem eq_encCLdsp_iff (uimm : BitVec 6) : h = encCLdsp uimm rd ↔
    bits h 13 3 = 1#3 ∧ cUimmLdsp h = uimm ∧ cFieldRd h = rd ∧ bits h 0 2 = 2#2 := by
  have hword : h = encCLdsp uimm rd ↔ bits h 0 (3 + 1 + 5 + 2 + 3 + 2) = encCLdsp uimm rd :=
    Eq.congr_left (bits_self h).symm
  have himm : cUimmLdsp h = uimm ↔ @Eq (BitVec (3 + 1 + 2)) (cUimmLdsp h) (bits uimm 0 (3 + 1 + 2)) :=
    Eq.congr_right (bits_self uimm).symm
  rw [hword, himm]
  simp only [encCLdsp, cUimmLdsp, bits_eq_append_iff, append_eq_bits_iff]
  simp only [Nat.reduceAdd, cFieldRd, and_comm, and_left_comm, and_assoc]

theorem eq_encCSwsp_iff (uimm : BitVec 6) : h = encCSwsp funct3 uimm rs2 ↔
    bits h 13 3 = funct3 ∧ cUimmSwsp h = uimm ∧ cFieldRs2 h = rs2 ∧ bits h 0 2 = 2#2 := by
  have hword : h = encCSwsp funct3 uimm rs2 ↔ bits h 0 (3 + 4 + 2 + 5 + 2) = encCSwsp funct3 uimm rs2 :=
    Eq.congr_left (bits_self h).symm
  have himm : cUimmSwsp h = uimm ↔ @Eq (BitVec (2 + 4)) (cUimmSwsp h) (bits uimm 0 (2 + 4)) :=
    Eq.congr_right (bits_self uimm).symm
  rw [hword, himm]
  simp only [encCSwsp, cUimmSwsp, bits_eq_append_iff, append_eq_bits_iff]
  simp only [Nat.reduceAdd, cFieldRs2, and_comm, and_assoc]

theorem eq_encCSdsp_iff (uimm : BitVec 6) : h = encCSdsp uimm rs2 ↔
    bits h 13 3 = 5#3 ∧ cUimmSdsp h = uimm ∧ cFieldRs2 h = rs2 ∧ bits h 0 2 = 2#2 := by
  have hword : h = encCSdsp uimm rs2 ↔ bits h 0 (3 + 3 + 3 + 5 + 2) = encCSdsp uimm rs2 :=
    Eq.congr_left (bits_self h).symm
  have himm : cUimmSdsp h = uimm ↔ @Eq (BitVec (3 + 3)) (cUimmSdsp h) (bits uimm 0 (3 + 3)) :=
    Eq.congr_right (bits_self uimm).symm
  rw [hword, himm]
  simp only [encCSdsp, cUimmSdsp, bits_eq_append_iff, append_eq_bits_iff]
  simp only [Nat.reduceAdd, cFieldRs2, and_comm, and_assoc]

/-- `funct4` is `100` and a bit (R149). -/
theorem eq_encCr_iff (bit12 : BitVec 1) : h = encCr (4#3 ++ bit12) rd rs2 ↔
    bits h 13 3 = 4#3 ∧ bits h 12 1 = bit12 ∧ cFieldRd h = rd ∧ cFieldRs2 h = rs2 ∧ bits h 0 2 = 2#2 := by
  have hword : h = encCr (4#3 ++ bit12) rd rs2 ↔ bits h 0 (3 + 1 + 5 + 5 + 2) = 4#3 ++ bit12 ++ rd ++ rs2 ++ 2#2 :=
    Eq.congr_left (bits_self h).symm
  rw [hword]
  simp only [bits_eq_append_iff, and_assoc]
  exact Iff.rfl

end

end Sys2Proof
end

section
/-! SUPPORT. The decoder by major opcode and by quadrant, and its answer on every encoding (spec/30_encoding.md R130,
R140-R152). -/

namespace Sys2Proof

/-! ## The fields of an encoding -/

section
variable (rd rs1 rs2 : Reg) (funct3 : BitVec 3) (opcode : BitVec 7)

@[simp] theorem fields_encR (funct7 : BitVec 7) : let w := encR funct7 rs2 rs1 funct3 rd opcode
    fieldFunct7 w = funct7 ∧ fieldRs2 w = rs2 ∧ fieldRs1 w = rs1 ∧ fieldFunct3 w = funct3 ∧ fieldRd w = rd ∧
      fieldOpcode w = opcode := (eq_encR_iff ..).1 rfl

@[simp] theorem fields_encU (imm : BitVec 20) : let w := encU imm rd opcode
    fieldImmU w = imm ∧ fieldRd w = rd ∧ fieldOpcode w = opcode := (eq_encU_iff ..).1 rfl

@[simp] theorem fields_encS (imm : BitVec 12) : let w := encS imm rs2 rs1 funct3 opcode
    fieldImmS w = imm ∧ fieldRs2 w = rs2 ∧ fieldRs1 w = rs1 ∧ fieldFunct3 w = funct3 ∧ fieldOpcode w = opcode :=
  (eq_encS_iff ..).1 rfl

@[simp] theorem fields_encB (off : BitVec 12) : let w := encB off rs2 rs1 funct3
    fieldImmB w = off ∧ fieldRs2 w = rs2 ∧ fieldRs1 w = rs1 ∧ fieldFunct3 w = funct3 ∧ fieldOpcode w = 0x63#7 :=
  (eq_encB_iff ..).1 rfl

@[simp] theorem fields_encJ (off : BitVec 20) : let w := encJ off rd
    fieldImmJ w = off ∧ fieldRd w = rd ∧ fieldOpcode w = 0x6F#7 := (eq_encJ_iff ..).1 rfl

@[simp] theorem fields_encAmo (funct5 : BitVec 5) (aq rl : Bool) : let w := encAmo funct5 aq rl rs2 rs1 rd
    bits w 27 5 = funct5 ∧ w[26] = aq ∧ w[25] = rl ∧ fieldRs2 w = rs2 ∧ fieldRs1 w = rs1 ∧
      fieldFunct3 w = 2#3 ∧ fieldRd w = rd ∧ fieldOpcode w = 0x2F#7 := (eq_encAmo_iff ..).1 rfl

end

section
variable (rd rs2 : Reg) (hi lo : PrimeReg) (funct3 : BitVec 3)

@[simp] theorem fields_encCiw (nzuimm : BitVec 8) : let h := encCiw nzuimm lo
    bits h 13 3 = 0#3 ∧ cImm4spn h = nzuimm ∧ cFieldLo h = lo ∧ bits h 0 2 = 0#2 := (eq_encCiw_iff ..).1 rfl

@[simp] theorem fields_encClW (uimm : BitVec 5) : let h := encClW funct3 uimm hi lo
    bits h 13 3 = funct3 ∧ cUimmW h = uimm ∧ cFieldHi h = hi ∧ cFieldLo h = lo ∧ bits h 0 2 = 0#2 :=
  (eq_encClW_iff ..).1 rfl

@[simp] theorem fields_encClD (uimm : BitVec 5) : let h := encClD funct3 uimm hi lo
    bits h 13 3 = funct3 ∧ cUimmD h = uimm ∧ cFieldHi h = hi ∧ cFieldLo h = lo ∧ bits h 0 2 = 0#2 :=
  (eq_encClD_iff ..).1 rfl

@[simp] theorem fields_encCi (imm : BitVec 6) (op : BitVec 2) : let h := encCi funct3 imm rd op
    bits h 13 3 = funct3 ∧ cImmCi h = imm ∧ cFieldRd h = rd ∧ bits h 0 2 = op := (eq_encCi_iff ..).1 rfl

@[simp] theorem fields_encCi_shift (bit12 : BitVec 1) (shamt : BitVec 5) (op : BitVec 2) :
    let h := encCi funct3 (bit12 ++ shamt) rd op
    bits h 12 1 = bit12 ∧ cFieldRs2 h = shamt :=
  have ⟨_, h12, _, hshamt, _⟩ := (eq_encCi_shift_iff ..).1 rfl
  ⟨h12, hshamt⟩

@[simp] theorem fields_encC16sp (imm : BitVec 6) : let h := encC16sp imm
    bits h 13 3 = 3#3 ∧ cImm16sp h = imm ∧ cFieldRd h = 2#5 ∧ bits h 0 2 = 1#2 := (eq_encC16sp_iff ..).1 rfl

@[simp] theorem fields_encCj (off : BitVec 11) : let h := encCj funct3 off
    bits h 13 3 = funct3 ∧ cImmCj h = off ∧ bits h 0 2 = 1#2 := (eq_encCj_iff ..).1 rfl

@[simp] theorem fields_encCb (off : BitVec 8) : let h := encCb funct3 off hi
    bits h 13 3 = funct3 ∧ cImmCb h = off ∧ cFieldHi h = hi ∧ bits h 0 2 = 1#2 := (eq_encCb_iff ..).1 rfl

@[simp] theorem fields_encCbAlu (bit12 : BitVec 1) (funct2 : BitVec 2) (low : BitVec 5) :
    let h := encCbAlu bit12 funct2 hi low
    bits h 13 3 = 4#3 ∧ bits h 12 1 = bit12 ∧ bits h 10 2 = funct2 ∧ cFieldHi h = hi ∧ cFieldRs2 h = low ∧
      bits h 0 2 = 1#2 := (eq_encCbAlu_iff ..).1 rfl

/-- C.ANDI's immediate stands in bit 12 and the low field of the format (R151). -/
theorem cImmCi_encCbAlu (funct2 : BitVec 2) (imm : BitVec 6) :
    cImmCi (encCbAlu (bits imm 5 1) funct2 hi (bits imm 0 5)) = imm := by
  obtain ⟨-, h12, -, -, hlow, -⟩ := fields_encCbAlu hi (bits imm 5 1) funct2 (bits imm 0 5)
  calc cImmCi (encCbAlu (bits imm 5 1) funct2 hi (bits imm 0 5))
    _ = bits imm 5 1 ++ bits imm 0 5 := congrArg₂ (· ++ ·) h12 hlow
    _ = imm := ((bits_eq_append_iff 0 _ _).2 ⟨rfl, rfl⟩).symm.trans (bits_self imm)

@[simp] theorem fields_encCa (funct2 : BitVec 2) : let h := encCa funct2 hi lo
    bits h 13 3 = 4#3 ∧ bits h 12 1 = 0#1 ∧ bits h 10 2 = 3#2 ∧ cFieldHi h = hi ∧ bits h 5 2 = funct2 ∧
      cFieldLo h = lo ∧ bits h 0 2 = 1#2 := (eq_encCa_iff ..).1 rfl

@[simp] theorem fields_encCLwsp (uimm : BitVec 6) : let h := encCLwsp funct3 uimm rd
    bits h 13 3 = funct3 ∧ cUimmLwsp h = uimm ∧ cFieldRd h = rd ∧ bits h 0 2 = 2#2 := (eq_encCLwsp_iff ..).1 rfl

@[simp] theorem fields_encCLdsp (uimm : BitVec 6) : let h := encCLdsp uimm rd
    bits h 13 3 = 1#3 ∧ cUimmLdsp h = uimm ∧ cFieldRd h = rd ∧ bits h 0 2 = 2#2 := (eq_encCLdsp_iff ..).1 rfl

@[simp] theorem fields_encCSwsp (uimm : BitVec 6) : let h := encCSwsp funct3 uimm rs2
    bits h 13 3 = funct3 ∧ cUimmSwsp h = uimm ∧ cFieldRs2 h = rs2 ∧ bits h 0 2 = 2#2 := (eq_encCSwsp_iff ..).1 rfl

@[simp] theorem fields_encCSdsp (uimm : BitVec 6) : let h := encCSdsp uimm rs2
    bits h 13 3 = 5#3 ∧ cUimmSdsp h = uimm ∧ cFieldRs2 h = rs2 ∧ bits h 0 2 = 2#2 := (eq_encCSdsp_iff ..).1 rfl

theorem fields_encCr (bit12 : BitVec 1) : let h := encCr (4#3 ++ bit12) rd rs2
    bits h 13 3 = 4#3 ∧ bits h 12 1 = bit12 ∧ cFieldRd h = rd ∧ cFieldRs2 h = rs2 ∧ bits h 0 2 = 2#2 :=
  (eq_encCr_iff ..).1 rfl

@[simp] theorem fields_encCr_8 : let h := encCr 8#4 rd rs2
    bits h 13 3 = 4#3 ∧ bits h 12 1 = 0#1 ∧ cFieldRd h = rd ∧ cFieldRs2 h = rs2 ∧ bits h 0 2 = 2#2 :=
  fields_encCr rd rs2 0#1

@[simp] theorem fields_encCr_9 : let h := encCr 9#4 rd rs2
    bits h 13 3 = 4#3 ∧ bits h 12 1 = 1#1 ∧ cFieldRd h = rd ∧ cFieldRs2 h = rs2 ∧ bits h 0 2 = 2#2 :=
  fields_encCr rd rs2 1#1

end

theorem Rm.ofBits_toBits (rm : Rm) : Rm.ofBits rm.toBits = some rm := by cases rm <;> rfl

/-! ## Decoding an encoding -/

theorem isSltWord_eq (w : Word) :
    Config.isSltWord w = (fieldOpcode w == 0x33#7 && fieldFunct3 w == 2#3 && fieldFunct7 w == 0#7) := rfl

/-- Outside the SLT row a word is not the Break hint (R163). -/
theorem breakHintWord_ne_of_not_slt {cfg : Config} (hcfg : cfg.wf = true) {w : Word}
    (h : ¬ (fieldOpcode w = 0x33#7 ∧ fieldFunct3 w = 2#3 ∧ fieldFunct7 w = 0#7)) : cfg.breakHintWord ≠ some w := by
  have hslt : Config.isSltWord w = false := by
    rw [← Bool.not_eq_true]
    simpa [isSltWord_eq, and_assoc] using h
  intro hhint
  simp [Config.wf, hhint, hslt] at hcfg

theorem decodeRaw_encode {cfg : Config} (hcfg : cfg.wf = true) {i : Instr} (hwf : i.wellFormed cfg = true) :
    decodeRaw cfg (encode cfg i) = some i := by
  have hne {w : Word} := breakHintWord_ne_of_not_slt hcfg (w := w)
  cases i with
  | lui | auipc | jal | jalr => simp [encode, decodeRaw, decode32, hne]
  | beq | bne | blt | bge | bltu | bgeu => simp [encode, decodeRaw, decode32, hne, decodeBranch]
  | lb | lh | lw | lbu | lhu => simp [encode, decodeRaw, decode32, hne, decodeLoad]
  | sb | sh | sw => simp [encode, decodeRaw, decode32, hne, decodeStore]
  | addi | slti | sltiu | xori | ori | andi | slli | srli | srai =>
    simp [encode, decodeRaw, decode32, hne, decodeOpImm]
  | add | sub | sll => simp [encode, decodeRaw, decode32, hne, decodeOp]
  | slt rd rs1 rs2 =>
    have hnot : cfg.breakHintWord ≠ some (encR 0x00#7 rs2 rs1 2#3 rd 0x33#7) := of_decide_eq_true hwf
    simp [encode, decodeRaw, decode32, hnot, decodeOp]
  | sltu | xor | srl | sra | or | and => simp [encode, decodeRaw, decode32, hne, decodeOp]
  | breakHint =>
    cases hhint : cfg.breakHintWord with
    | none => simp [Instr.wellFormed, hhint] at hwf
    | some w => simp [encode, decodeRaw, decode32, hhint]
  | mul | mulh | mulhsu | mulhu | div | divu | rem | remu => simp [encode, decodeRaw, decode32, hne, decodeOp]
  | fence fm pred succ rs1 rd => exact decodeRaw_fence hcfg fm pred succ rs1 rd
  | fenceI => simp [encode, decodeRaw, decode32, hne, decodeMiscMem]
  | ecall | ebreak | uret | sret | mret => simp [encode, decodeRaw, decode32, hne, decodeSystem, decodePriv]
  | csrrw | csrrs | csrrc | csrrwi | csrrsi | csrrci => simp [encode, decodeRaw, decode32, hne, decodeSystem]
  | amoswapW | amoaddW | amoxorW | amoandW | amoorW | amominW | amomaxW | amominuW | amomaxuW =>
    simp [encode, decodeRaw, decode32, hne, decodeAmo]
  | flw => simp [encode, decodeRaw, decode32, hne, decodeLoadFp]
  | fsw => simp [encode, decodeRaw, decode32, hne, decodeStoreFp]
  | fld => simpa [encode, decodeRaw, decode32, hne, decodeLoadFp, Instr.wellFormed] using hwf
  | fsd => simpa [encode, decodeRaw, decode32, hne, decodeStoreFp, Instr.wellFormed] using hwf
  | faddS | fsubS | fmulS | fdivS | fsqrtS => simp [encode, decodeRaw, decode32, hne, decodeOpFp, Rm.ofBits_toBits]
  | fsgnjS | fsgnjnS | fsgnjxS | fminS | fmaxS => simp [encode, decodeRaw, decode32, hne, decodeOpFp]
  | fcvtWS | fcvtWuS => simp [encode, decodeRaw, decode32, hne, decodeOpFp, Rm.ofBits_toBits]
  | fmvXW | fclassS | feqS | fltS | fleS => simp [encode, decodeRaw, decode32, hne, decodeOpFp]
  | fcvtSW | fcvtSWu => simp [encode, decodeRaw, decode32, hne, decodeOpFp, Rm.ofBits_toBits]
  | fmvWX => simp [encode, decodeRaw, decode32, hne, decodeOpFp]
  | cAddi4spn | cFld => simpa [encode, decodeRaw, decode16, guardInstr, decodeQ0, Instr.wellFormed] using hwf
  | cLw | cFlw => simp [encode, decodeRaw, decode16, decodeQ0]
  | cFsd => simpa [encode, decodeRaw, decode16, guardInstr, decodeQ0, Instr.wellFormed] using hwf
  | cSw | cFsw => simp [encode, decodeRaw, decode16, decodeQ0]
  | cNop => simp [encode, decodeRaw, decode16, decodeQ1]
  | cAddi => simpa [encode, decodeRaw, decode16, decodeQ1, Instr.wellFormed] using hwf
  | cJal | cLi => simp [encode, decodeRaw, decode16, decodeQ1]
  | cAddi16sp => simpa [encode, decodeRaw, decode16, guardInstr, decodeQ1, Instr.wellFormed] using hwf
  | cLui rd imm =>
    obtain ⟨hsp, hnz⟩ : rd ≠ 2#5 ∧ imm ≠ 0#6 := by simpa [Instr.wellFormed] using hwf
    simp [encode, decodeRaw, decode16, guardInstr, decodeQ1, hsp, hnz]
  | cSrli | cSrai => simp [encode, decodeRaw, decode16, guardInstr, decodeQ1, decodeQ1Alu]
  | cAndi => simp [encode, decodeRaw, decode16, decodeQ1, decodeQ1Alu, cImmCi_encCbAlu]
  | cSub | cXor | cOr | cAnd => simp [encode, decodeRaw, decode16, decodeQ1, decodeQ1Alu]
  | cJ | cBeqz | cBnez => simp [encode, decodeRaw, decode16, decodeQ1]
  | cSlli => simp [encode, decodeRaw, decode16, guardInstr, decodeQ2]
  | cFldsp | cLwsp => simpa [encode, decodeRaw, decode16, guardInstr, decodeQ2, Instr.wellFormed] using hwf
  | cFlwsp => simp [encode, decodeRaw, decode16, decodeQ2]
  | cJr => simpa [encode, decodeRaw, decode16, guardInstr, decodeQ2, decodeQ2Cr, Instr.wellFormed] using hwf
  | cMv rd rs2 =>
    have hnz : rs2 ≠ 0#5 := by simpa [Instr.wellFormed] using hwf
    simp [encode, decodeRaw, decode16, decodeQ2, decodeQ2Cr, hnz]
  | cEbreak => simp [encode, decodeRaw, decode16, decodeQ2, decodeQ2Cr]
  | cJalr => simpa [encode, decodeRaw, decode16, decodeQ2, decodeQ2Cr, Instr.wellFormed] using hwf
  | cAdd rd rs2 =>
    have hnz : rs2 ≠ 0#5 := by simpa [Instr.wellFormed] using hwf
    simp [encode, decodeRaw, decode16, decodeQ2, decodeQ2Cr, hnz]
  | cFsdsp => simpa [encode, decodeRaw, decode16, guardInstr, decodeQ2, Instr.wellFormed] using hwf
  | cSwsp | cFswsp => simp [encode, decodeRaw, decode16, decodeQ2]

/-! ## Decoding bytes (R81, R93, R130) -/

theorem low_of_opcode {w : Word} {n : Nat} (hop : (fieldOpcode w).toNat = n) : bits w 0 2 = BitVec.ofNat 2 n := by
  subst hop
  apply BitVec.eq_of_toNat_eq
  simp [bits, fieldOpcode]

theorem low_of_decode16 {cfg : Config} {h : Half} {i : Instr} (hd : decode16 cfg h = some i) : bits h 0 2 ≠ 3#2 := by
  intro h3
  simp [decode16, h3] at hd

/-- The two low bits of every major opcode, that of the Break hint among them, are 11. -/
theorem low_of_decode32 {cfg : Config} (hcfg : cfg.wf = true) {w : Word} {i : Instr} (hd : decode32 cfg w = some i) :
    bits w 0 2 = 3#2 := by
  by_cases hop : fieldOpcode w = 0x33#7
  · rw [low_of_opcode (congrArg BitVec.toNat hop)]; rfl
  unfold decode32 at hd
  rw [if_neg (breakHintWord_ne hcfg hop)] at hd
  split at hd
  case h_16 => cases hd
  all_goals
    rename_i hcode
    exact (low_of_opcode hcode).trans rfl

/-- A word that decodes does so from its bytes, whatever follows them. -/
theorem decode_bytes {cfg : Config} (hcfg : cfg.wf = true) {r : RawInstr} {i : Instr} (hd : decodeRaw cfg r = some i)
    (rest : List Byte) : decode cfg (r.bytes ++ rest) = .ok (i, rest) := by
  cases r with
  | half h =>
    have hparcel : bits h 8 8 ++ bits h 0 8 = h := ((bits_eq_append_iff 0 _ _).2 ⟨rfl, rfl⟩).symm.trans (bits_self h)
    have hshort : isShort h = true := bne_iff_ne.2 (low_of_decode16 hd)
    have hd16 : decode16 cfg h = some i := hd
    simp [RawInstr.bytes, decode, hparcel, hshort, hd16]
  | word w =>
    have hword : bits w 24 8 ++ bits w 16 8 ++ bits w 8 8 ++ bits w 0 8 = w := by
      refine Eq.trans (Eq.symm ?_) (bits_self w)
      change bits w 0 (8 + 8 + 8 + 8) = _
      simp only [bits_eq_append_iff, and_self]
    have hlong : isShort (bits w 8 8 ++ bits w 0 8 : Half) = false := by
      have hlow : bits (bits w 8 8 ++ bits w 0 8 : Half) 0 2 = 3#2 := by
        rw [bits_append_low _ _ (by decide), ← low_of_decode32 hcfg hd]
        ext k hk
        simp [bits]
      rw [isShort, hlow]; rfl
    have hd32 : decode32 cfg w = some i := hd
    simp [RawInstr.bytes, decode, hword, hlong, hd32]

/-! ## The obligation -/

/-- Settles O1: each constructor's encoding has the fields its decoder looks at, and a word that decodes does so from its
bytes. -/
theorem decodeOfEncode : Obligations.DecodeOfEncode := by
  unfold Obligations.DecodeOfEncode
  intro cfg i hcfg hwf
  exact ⟨decodeRaw_encode hcfg hwf, decode_bytes hcfg (decodeRaw_encode hcfg hwf)⟩

end Sys2Proof
end

section
/-! SUPPORT. A word that decodes is the encoding of a well-formed instruction, decoder by decoder
(spec/30_encoding.md R140-R152). -/

namespace Sys2Proof

/-- The instruction is well-formed and the word is its encoding. -/
def Encodes (cfg : Config) (i : Instr) (r : RawInstr) : Prop := i.wellFormed cfg = true ∧ encode cfg i = r

section
variable {cfg : Config} {w v : Word} {h g : Half} {i : Instr}

theorem Rm.eq_toBits_of_ofBits {f : BitVec 3} {rm : Rm} (h : Rm.ofBits f = some rm) : f = rm.toBits := by
  unfold Rm.ofBits at h
  split at h <;> cases h
  all_goals exact BitVec.eq_of_toNat_eq (by assumption)

/-! ## The decoders of 32-bit words (R140-R148) -/

theorem decodeLoad_encodes (hop : fieldOpcode w = 0x03#7) (hd : decodeLoad w = some i) : Encodes cfg i (.word w) := by
  unfold decodeLoad at hd
  split at hd <;> cases hd
  all_goals exact ⟨rfl, congrArg RawInstr.word
    ((eq_encI_iff ..).2 ⟨rfl, rfl, BitVec.eq_of_toNat_eq (by assumption), rfl, hop⟩).symm⟩

theorem decodeLoadFp_encodes (hop : fieldOpcode w = 0x07#7) (hd : decodeLoadFp cfg w = some i) :
    Encodes cfg i (.word w) := by
  unfold decodeLoadFp at hd
  split at hd
  case h_1 =>
    cases hd
    exact ⟨rfl, congrArg RawInstr.word
    ((eq_encI_iff ..).2 ⟨rfl, rfl, BitVec.eq_of_toNat_eq (by assumption), rfl, hop⟩).symm⟩
  case h_2 =>
    split at hd <;> cases hd
    exact ⟨‹_›, congrArg RawInstr.word
    ((eq_encI_iff ..).2 ⟨rfl, rfl, BitVec.eq_of_toNat_eq (by assumption), rfl, hop⟩).symm⟩
  case h_3 => cases hd

theorem decodeMiscMem_encodes (hop : fieldOpcode w = 0x0F#7) (hd : decodeMiscMem w = some i) :
    Encodes cfg i (.word w) := by
  unfold decodeMiscMem at hd
  split at hd <;> cases hd
  case h_1 =>
    have himm : fieldImmI w = bits w 28 4 ++ bits w 24 4 ++ bits w 20 4 := by
      change bits w 20 (4 + 4 + 4) = _
      simp only [bits_eq_append_iff, and_self]
    exact ⟨rfl, congrArg RawInstr.word
    ((eq_encI_iff ..).2 ⟨himm, rfl, BitVec.eq_of_toNat_eq (by assumption), rfl, hop⟩).symm⟩
  case h_2 => exact ⟨rfl, congrArg RawInstr.word
    ((eq_encI_iff ..).2 ⟨rfl, rfl, BitVec.eq_of_toNat_eq (by assumption), rfl, hop⟩).symm⟩

theorem decodeOpImm_encodes (hop : fieldOpcode w = 0x13#7) (hd : decodeOpImm w = some i) :
    Encodes cfg i (.word w) := by
  unfold decodeOpImm at hd
  split at hd
  case h_2 =>
    split at hd <;> cases hd
    exact ⟨rfl, congrArg RawInstr.word ((eq_encR_iff ..).2 ⟨BitVec.eq_of_toNat_eq (by assumption), rfl, rfl,
      BitVec.eq_of_toNat_eq (by assumption), rfl, hop⟩).symm⟩
  case h_6 =>
    split at hd <;> cases hd
    all_goals exact ⟨rfl, congrArg RawInstr.word ((eq_encR_iff ..).2 ⟨BitVec.eq_of_toNat_eq (by assumption), rfl,
      rfl, BitVec.eq_of_toNat_eq (by assumption), rfl, hop⟩).symm⟩
  case h_9 => cases hd
  all_goals
    cases hd
    exact ⟨rfl, congrArg RawInstr.word
    ((eq_encI_iff ..).2 ⟨rfl, rfl, BitVec.eq_of_toNat_eq (by assumption), rfl, hop⟩).symm⟩

theorem decodeStore_encodes (hop : fieldOpcode w = 0x23#7) (hd : decodeStore w = some i) :
    Encodes cfg i (.word w) := by
  unfold decodeStore at hd
  split at hd <;> cases hd
  all_goals exact ⟨rfl, congrArg RawInstr.word
    ((eq_encS_iff ..).2 ⟨rfl, rfl, rfl, BitVec.eq_of_toNat_eq (by assumption), hop⟩).symm⟩

theorem decodeStoreFp_encodes (hop : fieldOpcode w = 0x27#7) (hd : decodeStoreFp cfg w = some i) :
    Encodes cfg i (.word w) := by
  unfold decodeStoreFp at hd
  split at hd
  case h_1 =>
    cases hd
    exact ⟨rfl, congrArg RawInstr.word
    ((eq_encS_iff ..).2 ⟨rfl, rfl, rfl, BitVec.eq_of_toNat_eq (by assumption), hop⟩).symm⟩
  case h_2 =>
    split at hd <;> cases hd
    exact ⟨‹_›, congrArg RawInstr.word
    ((eq_encS_iff ..).2 ⟨rfl, rfl, rfl, BitVec.eq_of_toNat_eq (by assumption), hop⟩).symm⟩
  case h_3 => cases hd

theorem decodeAmo_encodes (hop : fieldOpcode w = 0x2F#7) (hd : decodeAmo w = some i) : Encodes cfg i (.word w) := by
  unfold decodeAmo at hd
  split at hd
  case h_2 => cases hd
  split at hd <;> cases hd
  all_goals exact ⟨rfl, congrArg RawInstr.word ((eq_encAmo_iff ..).2 ⟨BitVec.eq_of_toNat_eq (by assumption), rfl, rfl,
    rfl, rfl, BitVec.eq_of_toNat_eq (by assumption), rfl, hop⟩).symm⟩

/-- The SLT row asks that the word is not the Break hint (R142, R163). -/
theorem decodeOp_encodes (hhint : cfg.breakHintWord ≠ some w) (hop : fieldOpcode w = 0x33#7)
    (hd : decodeOp w = some i) : Encodes cfg i (.word w) := by
  have hword {f3 : BitVec 3} {f7 : BitVec 7} (h7 : (fieldFunct7 w).toNat = f7.toNat)
      (h3 : (fieldFunct3 w).toNat = f3.toNat) : encR f7 (fieldRs2 w) (fieldRs1 w) f3 (fieldRd w) 0x33#7 = w :=
    ((eq_encR_iff ..).2 ⟨BitVec.eq_of_toNat_eq h7, rfl, rfl, BitVec.eq_of_toNat_eq h3, rfl, hop⟩).symm
  unfold decodeOp at hd
  split at hd
  case h_1 h7 =>
    split at hd <;> cases hd
    case h_3 h3 =>
      have hslt : sltWord (fieldRd w) (fieldRs1 w) (fieldRs2 w) = w := hword (f7 := 0#7) (f3 := 2#3) h7 h3
      exact ⟨decide_eq_true (by rwa [hslt]), congrArg _ hslt⟩
    all_goals exact ⟨rfl, congrArg _ (hword (by assumption) (by assumption))⟩
  case h_2 | h_3 =>
    split at hd <;> cases hd
    all_goals exact ⟨rfl, congrArg _ (hword (by assumption) (by assumption))⟩
  case h_4 => cases hd

/-- The rounding rows keep their rm field, the other rows have none (R147). -/
theorem decodeOpFp_encodes (hop : fieldOpcode w = 0x53#7) (hd : decodeOpFp w = some i) : Encodes cfg i (.word w) := by
  have hword {f3 : BitVec 3} {rs2 : Reg} {f7 : BitVec 7} (h7 : (fieldFunct7 w).toNat = f7.toNat)
      (h2 : (fieldRs2 w).toNat = rs2.toNat) (h3 : (fieldFunct3 w).toNat = f3.toNat) :
      encR f7 rs2 (fieldRs1 w) f3 (fieldRd w) 0x53#7 = w :=
    ((eq_encR_iff ..).2 ⟨BitVec.eq_of_toNat_eq h7, BitVec.eq_of_toNat_eq h2, rfl, BitVec.eq_of_toNat_eq h3, rfl,
      hop⟩).symm
  have hrm {rm : Rm} (h : Rm.ofBits (fieldFunct3 w) = some rm) : (fieldFunct3 w).toNat = rm.toBits.toNat :=
    congrArg _ (Rm.eq_toBits_of_ofBits h)
  unfold decodeOpFp at hd
  split at hd
  case h_1 | h_2 | h_3 | h_4 =>
    obtain ⟨rm, hm, rfl⟩ := Option.map_eq_some_iff.1 hd
    exact ⟨rfl, congrArg _ (hword (by assumption) rfl (hrm hm))⟩
  case h_5 =>
    split at hd
    case h_2 => cases hd
    obtain ⟨rm, hm, rfl⟩ := Option.map_eq_some_iff.1 hd
    exact ⟨rfl, congrArg _ (hword (by assumption) (by assumption) (hrm hm))⟩
  case h_8 | h_11 =>
    split at hd
    case h_3 => cases hd
    all_goals
      obtain ⟨rm, hm, rfl⟩ := Option.map_eq_some_iff.1 hd
      exact ⟨rfl, congrArg _ (hword (by assumption) (by assumption) (hrm hm))⟩
  case h_6 | h_7 | h_10 =>
    split at hd <;> cases hd
    all_goals exact ⟨rfl, congrArg _ (hword (by assumption) rfl (by assumption))⟩
  case h_9 | h_12 =>
    split at hd
    case h_2 => cases hd
    split at hd <;> cases hd
    all_goals exact ⟨rfl, congrArg _ (hword (by assumption) (by assumption) (by assumption))⟩
  case h_13 => cases hd

theorem decodeBranch_encodes (hop : fieldOpcode w = 0x63#7) (hd : decodeBranch w = some i) :
    Encodes cfg i (.word w) := by
  unfold decodeBranch at hd
  split at hd <;> cases hd
  all_goals exact ⟨rfl, congrArg RawInstr.word
    ((eq_encB_iff ..).2 ⟨rfl, rfl, rfl, BitVec.eq_of_toNat_eq (by assumption), hop⟩).symm⟩

theorem decodePriv_encodes (hop : fieldOpcode w = 0x73#7) (hf3 : fieldFunct3 w = 0#3) (hd : decodePriv w = some i) :
    Encodes cfg i (.word w) := by
  unfold decodePriv at hd
  split at hd <;> cases hd
  all_goals
    exact ⟨rfl, congrArg RawInstr.word ((eq_encI_iff ..).2 ⟨BitVec.eq_of_toNat_eq (by assumption),
      BitVec.eq_of_toNat_eq (by assumption), hf3, BitVec.eq_of_toNat_eq (by assumption), hop⟩).symm⟩

theorem decodeSystem_encodes (hop : fieldOpcode w = 0x73#7) (hd : decodeSystem w = some i) :
    Encodes cfg i (.word w) := by
  unfold decodeSystem at hd
  split at hd
  case h_1 hf3 => exact decodePriv_encodes hop (BitVec.eq_of_toNat_eq hf3) hd
  case h_8 => cases hd
  all_goals
    cases hd
    exact ⟨rfl, congrArg RawInstr.word
      ((eq_encI_iff ..).2 ⟨rfl, rfl, BitVec.eq_of_toNat_eq (by assumption), rfl, hop⟩).symm⟩

theorem decode32_encodes (hcfg : cfg.wf = true) (hd : decode32 cfg w = some i) : Encodes cfg i (.word w) := by
  unfold decode32 at hd
  split at hd
  case isTrue hhint =>
    cases hd
    have hslt : Config.isSltWord w = true := by
      simp only [Config.wf, hhint, Bool.and_eq_true] at hcfg
      exact hcfg.1.2
    exact ⟨by simpa [Instr.wellFormed, hhint] using hslt, by simp [encode, hhint]⟩
  case isFalse hhint =>
    split at hd
    case h_1 => exact decodeLoad_encodes (BitVec.eq_of_toNat_eq (by assumption)) hd
    case h_2 => exact decodeLoadFp_encodes (BitVec.eq_of_toNat_eq (by assumption)) hd
    case h_3 => exact decodeMiscMem_encodes (BitVec.eq_of_toNat_eq (by assumption)) hd
    case h_4 => exact decodeOpImm_encodes (BitVec.eq_of_toNat_eq (by assumption)) hd
    case h_6 => exact decodeStore_encodes (BitVec.eq_of_toNat_eq (by assumption)) hd
    case h_7 => exact decodeStoreFp_encodes (BitVec.eq_of_toNat_eq (by assumption)) hd
    case h_8 => exact decodeAmo_encodes (BitVec.eq_of_toNat_eq (by assumption)) hd
    case h_9 => exact decodeOp_encodes hhint (BitVec.eq_of_toNat_eq (by assumption)) hd
    case h_11 => exact decodeOpFp_encodes (BitVec.eq_of_toNat_eq (by assumption)) hd
    case h_12 => exact decodeBranch_encodes (BitVec.eq_of_toNat_eq (by assumption)) hd
    case h_15 => exact decodeSystem_encodes (BitVec.eq_of_toNat_eq (by assumption)) hd
    case h_5 | h_10 =>
      cases hd
      exact ⟨rfl, congrArg RawInstr.word
        ((eq_encU_iff ..).2 ⟨rfl, rfl, BitVec.eq_of_toNat_eq (by assumption)⟩).symm⟩
    case h_13 =>
      split at hd <;> cases hd
      exact ⟨rfl, congrArg RawInstr.word ((eq_encI_iff ..).2
        ⟨rfl, rfl, BitVec.eq_of_toNat_eq (by assumption), rfl, BitVec.eq_of_toNat_eq (by assumption)⟩).symm⟩
    case h_14 =>
      cases hd
      exact ⟨rfl, congrArg RawInstr.word
        ((eq_encJ_iff ..).2 ⟨rfl, rfl, BitVec.eq_of_toNat_eq (by assumption)⟩).symm⟩
    case h_16 => cases hd

/-! ## The decoders of 16-bit words (R149-R152) -/

theorem guardInstr_eq_some_iff {ok : Bool} {j : Instr} : guardInstr ok j = some i ↔ ok = true ∧ j = i := by
  cases ok <;> simp [guardInstr]

theorem decodeQ0_encodes (hq : bits h 0 2 = 0#2) (hd : decodeQ0 cfg h = some i) : Encodes cfg i (.half h) := by
  unfold decodeQ0 at hd
  split at hd
  case h_1 =>
    obtain ⟨hnz, rfl⟩ := guardInstr_eq_some_iff.1 hd
    exact ⟨hnz, congrArg RawInstr.half
      ((eq_encCiw_iff ..).2 ⟨BitVec.eq_of_toNat_eq (by assumption), rfl, rfl, hq⟩).symm⟩
  case h_2 | h_5 =>
    obtain ⟨hfld, rfl⟩ := guardInstr_eq_some_iff.1 hd
    exact ⟨hfld, congrArg RawInstr.half
      ((eq_encClD_iff ..).2 ⟨BitVec.eq_of_toNat_eq (by assumption), rfl, rfl, rfl, hq⟩).symm⟩
  case h_3 | h_4 | h_6 | h_7 =>
    cases hd
    exact ⟨rfl, congrArg RawInstr.half
      ((eq_encClW_iff ..).2 ⟨BitVec.eq_of_toNat_eq (by assumption), rfl, rfl, rfl, hq⟩).symm⟩
  case h_8 => cases hd

/-- The last row of a two-bit field's match is its value 11. -/
theorem eq_last_of_ne {v : BitVec 2} (h0 : v.toNat = 0 → False) (h1 : v.toNat = 1 → False)
    (h2 : v.toNat = 2 → False) : v = 3#2 := by
  rcases bitVec2_cases v with rfl | rfl | rfl | rfl
  · exact (h0 rfl).elim
  · exact (h1 rfl).elim
  · exact (h2 rfl).elim
  · rfl

theorem decodeQ1Alu_encodes (hq : bits h 0 2 = 1#2) (hf3 : bits h 13 3 = 4#3) (hd : decodeQ1Alu h = some i) :
    Encodes cfg i (.half h) := by
  have hcbAlu {bit12 : BitVec 1} {funct2 : BitVec 2} (h12 : bits h 12 1 = bit12)
      (h10 : (bits h 10 2).toNat = funct2.toNat) : encCbAlu bit12 funct2 (cFieldHi h) (cFieldRs2 h) = h :=
    ((eq_encCbAlu_iff ..).2 ⟨hf3, h12, BitVec.eq_of_toNat_eq h10, rfl, rfl, hq⟩).symm
  have hca {funct2 : BitVec 2} (h12 : bits h 12 1 = 0#1) (h10 : bits h 10 2 = 3#2)
      (h5 : bits h 5 2 = funct2) : encCa funct2 (cFieldHi h) (cFieldLo h) = h :=
    ((eq_encCa_iff ..).2 ⟨hf3, h12, h10, rfl, h5, rfl, hq⟩).symm
  unfold decodeQ1Alu at hd
  split at hd
  case h_1 | h_2 =>
    obtain ⟨h12, rfl⟩ := guardInstr_eq_some_iff.1 hd
    exact ⟨rfl, congrArg _ (hcbAlu (beq_iff_eq.1 h12) (by assumption))⟩
  case h_3 h10 =>
    cases hd
    have hhi : bits (cImmCi h) 5 1 = bits h 12 1 := (bits_append_high _ _ _ (by decide)).trans (bits_self _)
    have hlo : bits (cImmCi h) 0 5 = cFieldRs2 h := (bits_append_low _ _ (by decide)).trans (bits_self _)
    have hword : encCbAlu (bits (cImmCi h) 5 1) 2#2 (cFieldHi h) (bits (cImmCi h) 0 5) = h := by
      rw [hhi, hlo]
      exact hcbAlu rfl h10
    exact ⟨rfl, congrArg _ hword⟩
  case h_4 h0 h1 h2 =>
    have h10 : bits h 10 2 = 3#2 := eq_last_of_ne h0 h1 h2
    split at hd
    case isFalse => cases hd
    case isTrue h12 =>
      split at hd <;> cases hd
      case h_4 h0 h1 h2 =>
        exact ⟨rfl, congrArg _ (hca (beq_iff_eq.1 h12) h10 (eq_last_of_ne h0 h1 h2))⟩
      all_goals exact ⟨rfl, congrArg _ (hca (beq_iff_eq.1 h12) h10 (BitVec.eq_of_toNat_eq (by assumption)))⟩

theorem decodeQ1_encodes (hq : bits h 0 2 = 1#2) (hd : decodeQ1 h = some i) : Encodes cfg i (.half h) := by
  unfold decodeQ1 at hd
  split at hd
  case h_1 =>
    split at hd <;> cases hd
    case isTrue hrd => exact ⟨rfl, congrArg RawInstr.half
      ((eq_encCi_iff ..).2 ⟨BitVec.eq_of_toNat_eq (by assumption), rfl, beq_iff_eq.1 hrd, hq⟩).symm⟩
    case isFalse hrd => exact ⟨bne_iff_ne.2 (mt beq_iff_eq.2 hrd), congrArg RawInstr.half
      ((eq_encCi_iff ..).2 ⟨BitVec.eq_of_toNat_eq (by assumption), rfl, rfl, hq⟩).symm⟩
  case h_2 | h_6 =>
    cases hd
    exact ⟨rfl, congrArg RawInstr.half
      ((eq_encCj_iff ..).2 ⟨BitVec.eq_of_toNat_eq (by assumption), rfl, hq⟩).symm⟩
  case h_3 =>
    cases hd
    exact ⟨rfl, congrArg RawInstr.half
      ((eq_encCi_iff ..).2 ⟨BitVec.eq_of_toNat_eq (by assumption), rfl, rfl, hq⟩).symm⟩
  case h_4 =>
    split at hd
    case isTrue hrd =>
      obtain ⟨hnz, rfl⟩ := guardInstr_eq_some_iff.1 hd
      exact ⟨hnz, congrArg RawInstr.half
        ((eq_encC16sp_iff ..).2 ⟨BitVec.eq_of_toNat_eq (by assumption), rfl, beq_iff_eq.1 hrd, hq⟩).symm⟩
    case isFalse hrd =>
      obtain ⟨hnz, rfl⟩ := guardInstr_eq_some_iff.1 hd
      exact ⟨by rw [Instr.wellFormed, bne, Bool.eq_false_of_not_eq_true hrd]; exact hnz, congrArg RawInstr.half
        ((eq_encCi_iff ..).2 ⟨BitVec.eq_of_toNat_eq (by assumption), rfl, rfl, hq⟩).symm⟩
  case h_5 hf3 => exact decodeQ1Alu_encodes hq (BitVec.eq_of_toNat_eq hf3) hd
  case h_7 | h_8 =>
    cases hd
    exact ⟨rfl, congrArg RawInstr.half
      ((eq_encCb_iff ..).2 ⟨BitVec.eq_of_toNat_eq (by assumption), rfl, rfl, hq⟩).symm⟩
  case h_9 => cases hd

theorem decodeQ2Cr_encodes (hq : bits h 0 2 = 2#2) (hf3 : bits h 13 3 = 4#3) (hd : decodeQ2Cr h = some i) :
    Encodes cfg i (.half h) := by
  have hcr {bit12 : BitVec 1} {rd rs2 : Reg} (h12 : bits h 12 1 = bit12) (hrd : cFieldRd h = rd)
      (hrs2 : cFieldRs2 h = rs2) : encCr (4#3 ++ bit12) rd rs2 = h :=
    ((eq_encCr_iff ..).2 ⟨hf3, h12, hrd, hrs2, hq⟩).symm
  have hset (h12 : ¬ (bits h 12 1 == 0#1) = true) : bits h 12 1 = 1#1 :=
    (BitVec.eq_zero_or_eq_one _).resolve_left (mt beq_iff_eq.2 h12)
  unfold decodeQ2Cr at hd
  split at hd
  case isTrue h12 =>
    split at hd
    case isTrue hrs2 =>
      obtain ⟨hnz, rfl⟩ := guardInstr_eq_some_iff.1 hd
      exact ⟨hnz, congrArg _ (hcr (beq_iff_eq.1 h12) rfl (beq_iff_eq.1 hrs2))⟩
    case isFalse hrs2 =>
      cases hd
      exact ⟨bne_iff_ne.2 (mt beq_iff_eq.2 hrs2), congrArg _ (hcr (beq_iff_eq.1 h12) rfl rfl)⟩
  case isFalse h12 =>
    split at hd
    case isTrue hrs2 =>
      split at hd <;> cases hd
      case isTrue hrd => exact ⟨rfl, congrArg _ (hcr (hset h12) (beq_iff_eq.1 hrd) (beq_iff_eq.1 hrs2))⟩
      case isFalse hrd =>
        exact ⟨bne_iff_ne.2 (mt beq_iff_eq.2 hrd), congrArg _ (hcr (hset h12) rfl (beq_iff_eq.1 hrs2))⟩
    case isFalse hrs2 =>
      cases hd
      exact ⟨bne_iff_ne.2 (mt beq_iff_eq.2 hrs2), congrArg _ (hcr (hset h12) rfl rfl)⟩

theorem decodeQ2_encodes (hq : bits h 0 2 = 2#2) (hd : decodeQ2 cfg h = some i) : Encodes cfg i (.half h) := by
  unfold decodeQ2 at hd
  split at hd
  case h_1 =>
    obtain ⟨h12, rfl⟩ := guardInstr_eq_some_iff.1 hd
    exact ⟨rfl, congrArg RawInstr.half ((eq_encCi_shift_iff ..).2
      ⟨BitVec.eq_of_toNat_eq (by assumption), beq_iff_eq.1 h12, rfl, rfl, hq⟩).symm⟩
  case h_2 =>
    obtain ⟨hfld, rfl⟩ := guardInstr_eq_some_iff.1 hd
    exact ⟨hfld, congrArg RawInstr.half
      ((eq_encCLdsp_iff ..).2 ⟨BitVec.eq_of_toNat_eq (by assumption), rfl, rfl, hq⟩).symm⟩
  case h_3 =>
    obtain ⟨hnz, rfl⟩ := guardInstr_eq_some_iff.1 hd
    exact ⟨hnz, congrArg RawInstr.half
      ((eq_encCLwsp_iff ..).2 ⟨BitVec.eq_of_toNat_eq (by assumption), rfl, rfl, hq⟩).symm⟩
  case h_4 =>
    cases hd
    exact ⟨rfl, congrArg RawInstr.half
      ((eq_encCLwsp_iff ..).2 ⟨BitVec.eq_of_toNat_eq (by assumption), rfl, rfl, hq⟩).symm⟩
  case h_5 hf3 => exact decodeQ2Cr_encodes hq (BitVec.eq_of_toNat_eq hf3) hd
  case h_6 =>
    obtain ⟨hfld, rfl⟩ := guardInstr_eq_some_iff.1 hd
    exact ⟨hfld, congrArg RawInstr.half
      ((eq_encCSdsp_iff ..).2 ⟨BitVec.eq_of_toNat_eq (by assumption), rfl, rfl, hq⟩).symm⟩
  case h_7 | h_8 =>
    cases hd
    exact ⟨rfl, congrArg RawInstr.half
      ((eq_encCSwsp_iff ..).2 ⟨BitVec.eq_of_toNat_eq (by assumption), rfl, rfl, hq⟩).symm⟩
  case h_9 => cases hd

theorem decode16_encodes (hd : decode16 cfg h = some i) : Encodes cfg i (.half h) := by
  unfold decode16 at hd
  split at hd
  case h_1 hq => exact decodeQ0_encodes (BitVec.eq_of_toNat_eq hq) hd
  case h_2 hq => exact decodeQ1_encodes (BitVec.eq_of_toNat_eq hq) hd
  case h_3 hq => exact decodeQ2_encodes (BitVec.eq_of_toNat_eq hq) hd
  case h_4 => cases hd

end

/-! ## The obligation -/

/-- Settles O2: each decoder's row fixes every field its format does not hand to the instruction. -/
theorem encodeOfDecode : Obligations.EncodeOfDecode := by
  unfold Obligations.EncodeOfDecode
  intro cfg r i hcfg hd
  cases r with
  | half h => exact decode16_encodes hd
  | word w => exact decode32_encodes hcfg hd

end Sys2Proof
end

section
/-! SUPPORT. Words that decode to no instruction (R270, R331, R342, R370), and the example words of the rules. -/

namespace Sys2Proof

/-! ## The major opcodes of the reserved words -/

section
variable {cfg : Config} {w : Word}

theorem decode32_amo (hcfg : cfg.wf = true) (hop : fieldOpcode w = 0x2F#7) : decode32 cfg w = decodeAmo w := by
  unfold decode32
  rw [if_neg (breakHintWord_ne hcfg (by rw [hop]; decide)), hop]; rfl

theorem decode32_opFp (hcfg : cfg.wf = true) (hop : fieldOpcode w = 0x53#7) : decode32 cfg w = decodeOpFp w := by
  unfold decode32
  rw [if_neg (breakHintWord_ne hcfg (by rw [hop]; decide)), hop]; rfl

theorem decode32_fusedMultiplyAdd (hcfg : cfg.wf = true)
    (hop : fieldOpcode w = 0x43#7 ∨ fieldOpcode w = 0x47#7 ∨ fieldOpcode w = 0x4B#7 ∨ fieldOpcode w = 0x4F#7) :
    decode32 cfg w = none := by
  have hne : fieldOpcode w ≠ 0x33#7 := by rintro h; rw [h] at hop; simp at hop
  unfold decode32
  rw [if_neg (breakHintWord_ne hcfg hne)]
  rcases hop with hop | hop | hop | hop <;> rw [hop] <;> rfl

/-- The funct5 of LR.W and SC.W are in no row of AMO. -/
theorem decodeAmo_eq_none (h : bits w 27 5 = 2#5 ∨ bits w 27 5 = 3#5) : decodeAmo w = none := by
  unfold decodeAmo
  split
  · rcases h with h | h <;> rw [h] <;> rfl
  · rfl

/-- Every row of OP-FP has the format 00 in the low bits of funct7. -/
theorem decodeOpFp_eq_none_of_format (h : bits w 25 2 ≠ 0#2) : decodeOpFp w = none := by
  have hfmt : (fieldFunct7 w).toNat % 4 ≠ 0 := by
    refine mt (fun h0 => BitVec.eq_of_toNat_eq ?_) h
    simpa [fieldFunct7, bits, Nat.mod_mod_of_dvd] using h0
  unfold decodeOpFp
  split
  case h_13 => rfl
  all_goals omega

/-- A rounding row with a reserved rounding mode. -/
theorem decodeOpFp_eq_none_of_rm (h7 : fieldFunct7 w ∈ [0x00#7, 0x04#7, 0x08#7, 0x0C#7, 0x2C#7, 0x60#7, 0x68#7])
    (hrm : fieldFunct3 w = 5#3 ∨ fieldFunct3 w = 6#3) : decodeOpFp w = none := by
  have hmap (f : Rm → Instr) : (Rm.ofBits (fieldFunct3 w)).map f = none := by
    rcases hrm with h | h <;> rw [h] <;> rfl
  have hrow : (fieldFunct7 w).toNat ∈ [0x00, 0x04, 0x08, 0x0C, 0x2C, 0x60, 0x68] := List.mem_map_of_mem h7
  unfold decodeOpFp
  split
  case h_1 | h_2 | h_3 | h_4 => exact hmap _
  case h_5 =>
    split
    · exact hmap _
    · rfl
  case h_8 | h_11 =>
    split
    · exact hmap _
    · exact hmap _
    · rfl
  case h_6 | h_7 | h_9 | h_10 | h_12 =>
    rename_i hother
    simp [hother] at hrow
  case h_13 => rfl

/-- A word of SYSTEM, funct3 000, that decodes is one of the five. -/
theorem decodePriv_eq_none (hop : fieldOpcode w = 0x73#7) (hf3 : fieldFunct3 w = 0#3)
    (h : w ≠ 0x00000073#32 ∧ w ≠ 0x00100073#32 ∧ w ≠ 0x00200073#32 ∧ w ≠ 0x10200073#32 ∧ w ≠ 0x30200073#32) :
    decodePriv w = none := by
  obtain ⟨hecall, hebreak, huret, hsret, hmret⟩ := h
  refine Option.eq_none_iff_forall_ne_some.2 fun i hd => ?_
  obtain ⟨-, henc⟩ := decodePriv_encodes (cfg := Config.default) hop hf3 hd
  unfold decodePriv at hd
  split at hd <;> cases hd
  · exact hecall (RawInstr.word.inj henc).symm
  · exact hebreak (RawInstr.word.inj henc).symm
  · exact huret (RawInstr.word.inj henc).symm
  · exact hsret (RawInstr.word.inj henc).symm
  · exact hmret (RawInstr.word.inj henc).symm

end

/-! ## The obligations -/

/-- Settles O5: the reserved fields of each major opcode are in no row of its decoder. -/
theorem unimplementedWords : Obligations.UnimplementedWords := by
  unfold Obligations.UnimplementedWords
  intro cfg w hcfg h
  change decode32 cfg w = none
  rcases h with ⟨hop, hf5⟩ | hop | hop | hop | hop | ⟨hop, hfmt⟩ | ⟨hop, hf3, hw⟩ | ⟨hop, hf7, hrm⟩
  · rw [decode32_amo hcfg hop, decodeAmo_eq_none hf5]
  · exact decode32_fusedMultiplyAdd hcfg (.inl hop)
  · exact decode32_fusedMultiplyAdd hcfg (.inr (.inl hop))
  · exact decode32_fusedMultiplyAdd hcfg (.inr (.inr (.inl hop)))
  · exact decode32_fusedMultiplyAdd hcfg (.inr (.inr (.inr hop)))
  · rw [decode32_opFp hcfg hop, decodeOpFp_eq_none_of_format hfmt]
  · have hpriv : decodeSystem w = decodePriv w := by
      rw [decodeSystem, show fieldFunct3 w = 0#3 from hf3]; rfl
    rw [decode32_system hcfg hop, hpriv, decodePriv_eq_none hop hf3 hw]
  · rw [decode32_opFp hcfg hop, decodeOpFp_eq_none_of_rm hf7 hrm]

/-- Settles O3: the decoder run on each word. -/
theorem exampleWordsDecode : Obligations.ExampleWordsDecode := by
  unfold Obligations.ExampleWordsDecode
  decide

end Sys2Proof
end

section
/-! SUPPORT. The invariant of one hart under CSR writes, trap entry, trap return and everything that computes
(spec/10_state.md R21, R31, R34, R41, R42, R47; spec/60_exceptions.md R452, R455). -/

namespace Sys2Proof.Machine

/-! ## Words within a mask -/

theorem and_not_eq_zero_iff {v mask : Word} :
    v &&& ~~~mask = 0#32 ↔ ∀ k, mask.getLsbD k = false → v.getLsbD k = false := by
  constructor
  · intro h k hk
    rcases Nat.lt_or_ge k 32 with hlt | hge
    · have hbit := congrArg (BitVec.getLsbD · k) h
      simpa [hlt, hk, ← BitVec.getLsbD_eq_getElem] using hbit
    · exact BitVec.getLsbD_of_ge v k hge
  · intro h
    refine BitVec.eq_of_getLsbD_eq fun k hk => ?_
    cases hm : mask.getLsbD k with
    | true => simp [hm]
    | false => simp [h k hm]

theorem maskedWrite_within {m mask old : Word} (hm : m &&& ~~~mask = 0#32) (hold : old &&& ~~~mask = 0#32) (v : Word) :
    maskedWrite m old v &&& ~~~mask = 0#32 := by
  rw [and_not_eq_zero_iff] at *
  intro k hk
  rw [getLsbD_maskedWrite, hm k hk, hold k hk]
  rfl

theorem setBit_within {mask w : Word} {i : Nat} (hi : i < 32) (hmask : mask.getLsbD i = true)
    (hw : w &&& ~~~mask = 0#32) (b : Bool) : setBit w i b &&& ~~~mask = 0#32 := by
  rw [and_not_eq_zero_iff] at *
  intro k hk
  have hne : k ≠ i := by rintro rfl; rw [hmask] at hk; cases hk
  rw [getLsbD_setBit w hi, if_neg hne, hw k hk]

theorem and_within (mask v : Word) : (v &&& mask) &&& ~~~mask = 0#32 := by simp [BitVec.and_assoc]

/-! ## mstatus -/

/-- What the invariant asks of `mstatus` (R34). -/
def StatusLegal (w : Word) : Prop := w &&& ~~~mstatusMask = 0#32 ∧ mppField w ≠ 2#2

theorem mppField_congr {a b : Word} (h11 : a.getLsbD 11 = b.getLsbD 11) (h12 : a.getLsbD 12 = b.getLsbD 12) :
    mppField a = mppField b := by
  apply BitVec.eq_of_getLsbD_eq
  intro i hi
  obtain rfl | rfl : i = 0 ∨ i = 1 := by omega
  · simpa [mppField] using h11
  · simpa [mppField] using h12

theorem StatusLegal.setMpp {w : Word} (h : w &&& ~~~mstatusMask = 0#32) {p : BitVec 2} (hp : p ≠ 2#2) :
    StatusLegal (setMpp w p) :=
  ⟨maskedWrite_within (by decide) h _, by rwa [mppField_setMpp]⟩

theorem StatusLegal.setBit {w : Word} (h : StatusLegal w) {i : Nat} (hi : i < 32) (hmask : mstatusMask.getLsbD i = true)
    (h11 : i ≠ 11) (h12 : i ≠ 12) (b : Bool) : StatusLegal (setBit w i b) := by
  refine ⟨setBit_within hi hmask h.1 b, ?_⟩
  rw [mppField_congr (b := w)]
  · exact h.2
  · rw [getLsbD_setBit w hi, if_neg h11.symm]
  · rw [getLsbD_setBit w hi, if_neg h12.symm]

/-- The views of mstatus have no MPP (R35, R36). -/
theorem StatusLegal.maskedWrite {w mask : Word} (h : StatusLegal w) (hmask : mask &&& ~~~mstatusMask = 0#32)
    (h11 : mask.getLsbD 11 = false) (h12 : mask.getLsbD 12 = false) (v : Word) : StatusLegal (maskedWrite mask w v) := by
  refine ⟨maskedWrite_within hmask h.1 v, ?_⟩
  rw [mppField_congr (b := w)]
  · exact h.2
  · rw [getLsbD_maskedWrite, h11]; rfl
  · rw [getLsbD_maskedWrite, h12]; rfl

theorem StatusLegal.mstatusWrite {w : Word} (h : StatusLegal w) (v : Word) : StatusLegal (mstatusWrite w v) := by
  have hw : Machine.maskedWrite mstatusMask w v &&& ~~~mstatusMask = 0#32 := maskedWrite_within (by decide) h.1 v
  unfold Machine.mstatusWrite legalizeMpp
  split
  · exact .setMpp hw (by decide)
  · next hne => exact ⟨hw, hne⟩

theorem StatusLegal.withPrevious {w : Word} (h : StatusLegal w) (l p : Priv) : StatusLegal (withPrevious l p w) := by
  cases l with
  | m => exact .setMpp h.1 (by cases p <;> decide)
  | s => exact h.setBit (by decide) (by decide) (by decide) (by decide) _
  | u => exact h

theorem StatusLegal.setIePie {w : Word} (h : StatusLegal w) (l : Priv) (i : Nat) (hi : i = l.iePos ∨ i = l.piePos)
    (b : Bool) : StatusLegal (Machine.setBit w i b) := by
  cases l <;> rcases hi with rfl | rfl <;> exact h.setBit (by decide) (by decide) (by decide) (by decide) b

theorem StatusLegal.onEntry {w : Word} (h : StatusLegal w) (tgt p : Priv) : StatusLegal (mstatusOnEntry tgt p w) := by
  rw [mstatusOnEntry_eq]
  exact ((h.setIePie tgt _ (.inr rfl) _).setIePie tgt _ (.inl rfl) _).withPrevious tgt p

theorem StatusLegal.onReturn {w : Word} (h : StatusLegal w) (l : Priv) : StatusLegal (mstatusOnReturn l w) := by
  rw [mstatusOnReturn_eq]
  exact ((h.setIePie l _ (.inl rfl) _).setIePie l _ (.inr rfl) _).withPrevious l .u

theorem Hart.Legal.status {h : Hart} (hl : h.Legal) : StatusLegal h.mstatus := ⟨hl.statusMask, hl.mppLegal⟩

/-! ## Trap entry and return -/

theorem even_and {a b : Word} (hb : b.getLsbD 0 = false) : (a &&& b).getLsbD 0 = false := by
  rw [BitVec.getLsbD_and, hb, Bool.and_false]

theorem trapVector_even (cfg : Config) (tvec : Word) (c : Cause) : (trapVector cfg tvec c).getLsbD 0 = false := by
  have hbase : (tvec &&& 0xFFFFFFFC#32).getLsbD 0 = false := even_and (by decide)
  have hoff : (BitVec.ofNat 32 (4 * c.code)).getLsbD 0 = false := by
    rw [BitVec.getLsbD_ofNat, Nat.testBit_zero]
    simp [Nat.mul_mod]
  unfold trapVector
  dsimp only
  split
  · exact even_add hbase hoff
  · exact hbase

theorem Hart.Legal.setTrapRegs {h : Hart} (hl : h.Legal) (l : Priv) {t : TrapRegs} (ht : t.epc.getLsbD 0 = false) :
    (h.setTrapRegs l t).Legal := by
  cases l with
  | u => exact { hl with epcEven := fun q => by cases q; exacts [ht, hl.epcEven .s, hl.epcEven .m] }
  | s => exact { hl with epcEven := fun q => by cases q; exacts [hl.epcEven .u, ht, hl.epcEven .m] }
  | m => exact { hl with epcEven := fun q => by cases q; exacts [hl.epcEven .u, hl.epcEven .s, ht] }

theorem Hart.Legal.enterTrap {h : Hart} (hl : h.Legal) (cfg : Config) (tgt : Priv) (c : Cause) (epc tval : Word) :
    (h.enterTrap cfg tgt c epc tval).Legal :=
  { hl.setTrapRegs tgt (t := { h.trapRegs tgt with epc := epc &&& 0xFFFFFFFE#32, cause := c.word, tval := tval })
      (even_and (by decide)) with
    pcEven := trapVector_even cfg (h.trapRegs tgt).tvec c
    statusMask := (hl.status.onEntry tgt h.priv).1
    mppLegal := (hl.status.onEntry tgt h.priv).2 }

theorem Hart.Legal.leaveTrap {h : Hart} (hl : h.Legal) (l : Priv) : (h.leaveTrap l).Legal :=
  { hl with
    pcEven := hl.epcEven l
    statusMask := (hl.status.onReturn l).1
    mppLegal := (hl.status.onReturn l).2 }

/-! ## CSR writes -/

theorem Tlb.valid_flush (t : Tlb) (p : Priv) (a : AccessKind) : (t.flush.get p a).valid = false := by
  cases p <;> cases a <;> rfl

/-- A named CSR's write keeps its field within its mask, and no CSR is `x`, `pc` or the plain storage. -/
theorem Hart.Legal.csrWriteNamed {h : Hart} (hl : h.Legal) (cfg : Config) (v : Word) (c : CsrName) :
    (csrWriteNamed cfg v h c).Legal := by
  have hepc : (epcValue v).getLsbD 0 = false := even_and (by decide)
  cases c with
  | mstatus => exact { hl with statusMask := (hl.status.mstatusWrite v).1, mppLegal := (hl.status.mstatusWrite v).2 }
  | sstatus =>
    have hs := hl.status.maskedWrite (mask := 0x000C6133#32) (by decide) (by decide) (by decide) v
    exact { hl with statusMask := hs.1, mppLegal := hs.2 }
  | ustatus =>
    have hs := hl.status.maskedWrite (mask := 0x00000011#32) (by decide) (by decide) (by decide) v
    exact { hl with statusMask := hs.1, mppLegal := hs.2 }
  | uie | sie => exact { hl with mieMask := maskedWrite_within (by decide) hl.mieMask v }
  | mie => exact { hl with mieMask := and_within _ v }
  | uip | sip => exact { hl with mipMask := maskedWrite_within (by decide) hl.mipMask v }
  | mip => exact { hl with mipMask := and_within _ v }
  | uepc => exact hl.setTrapRegs .u (t := { h.utrap with epc := epcValue v }) hepc
  | sepc => exact hl.setTrapRegs .s (t := { h.strap with epc := epcValue v }) hepc
  | mepc => exact hl.setTrapRegs .m (t := { h.mtrap with epc := epcValue v }) hepc
  | utvec => exact hl.setTrapRegs .u (t := { h.utrap with tvec := v }) (hl.epcEven .u)
  | uscratch => exact hl.setTrapRegs .u (t := { h.utrap with scratch := v }) (hl.epcEven .u)
  | ucause => exact hl.setTrapRegs .u (t := { h.utrap with cause := v }) (hl.epcEven .u)
  | utval => exact hl.setTrapRegs .u (t := { h.utrap with tval := v }) (hl.epcEven .u)
  | stvec => exact hl.setTrapRegs .s (t := { h.strap with tvec := v }) (hl.epcEven .s)
  | sscratch => exact hl.setTrapRegs .s (t := { h.strap with scratch := v }) (hl.epcEven .s)
  | scause => exact hl.setTrapRegs .s (t := { h.strap with cause := v }) (hl.epcEven .s)
  | stval => exact hl.setTrapRegs .s (t := { h.strap with tval := v }) (hl.epcEven .s)
  | mtvec => exact hl.setTrapRegs .m (t := { h.mtrap with tvec := v }) (hl.epcEven .m)
  | mscratch => exact hl.setTrapRegs .m (t := { h.mtrap with scratch := v }) (hl.epcEven .m)
  | mcause => exact hl.setTrapRegs .m (t := { h.mtrap with cause := v }) (hl.epcEven .m)
  | mtval => exact hl.setTrapRegs .m (t := { h.mtrap with tval := v }) (hl.epcEven .m)
  | satp =>
    refine { hl with tlbM := fun a => ?_ }
    simp only [Machine.csrWriteNamed]
    split
    · exact Tlb.valid_flush _ _ _
    · exact hl.tlbM a
  | fflags | frm | fcsr | sedeleg | sideleg | scounteren | medeleg | mideleg | mcounteren | mcycle | mcycleh | minstret
  | minstreth => exact { hl with }
  | misa | cycle | cycleh | time | timeh | instret | instreth | mvendorid | marchid | mimpid | mhartid => exact hl

theorem Hart.Legal.csrWrite {s : State} (hl : s.hart.Legal) (n : CsrNum) (v : Word) : (csrWrite n v s).hart.Legal := by
  unfold Machine.csrWrite
  split
  · exact hl.csrWriteNamed _ _ _
  · next hn =>
    refine { hl with csrsWf := sparseWf_sparseSet _ _ _ _ hl.csrsWf, csrsPlain := fun e he => ?_ }
    rcases key_of_mem_sparseSet _ _ _ _ _ he with hk | hk
    · rw [hk]
      exact ⟨n.isLt, by rwa [BitVec.ofNat_toNat, BitVec.setWidth_eq]⟩
    · exact hl.csrsPlain e hk

/-! ## Computation and accesses -/

/-- A hart that differs only in what the CLINT holds of it. -/
theorem Hart.Legal.of_clintDiffers {h g : Hart} (hl : h.Legal) (hd : ClintDiffers h g) : g.Legal := by
  have hg : Hart.Legal { g with mtimecmp := h.mtimecmp, msip := h.msip } := (congrArg Hart.Legal hd).mpr hl
  exact { hg with }

theorem Hart.Legal.of_plain {s t : State} (hl : s.hart.Legal) (h : Plain s t) (hpc : t.hart.pc.getLsbD 0 = false) :
    t.hart.Legal := by
  have hsame : Hart.Legal { t.hart with
      x := s.hart.x, f := s.hart.f, pc := s.hart.pc, tlb := s.hart.tlb, mtimecmp := s.hart.mtimecmp,
      msip := s.hart.msip } := (congrArg Hart.Legal h.hart).mpr hl
  refine { hsame with x0 := h.x0.trans hl.x0, pcEven := hpc, tlbM := fun a => ?_ }
  by_cases hp : s.hart.priv = .m
  · rw [h.tlbM hp]; exact hl.tlbM a
  · rw [h.tlbOther .m a (Ne.symm hp)]; exact hl.tlbM a

end Sys2Proof.Machine
end

section
/-! SUPPORT. The invariant of the machine under one instruction, the choice of a hart, an interrupt delivery and one step
(spec/10_state.md R10, R38, R66; spec/70_reset_and_hazards.md R510). -/

namespace Sys2Proof.Machine

/-! ## States that keep the invariant -/

/-- The invariant holds and the parameters are those of `s`. -/
def State.InvFrom (s t : State) : Prop := t.Inv ∧ t.cfg = s.cfg

theorem State.InvFrom.trans {s t u : State} (h : s.InvFrom t) (g : t.InvFrom u) : s.InvFrom u :=
  ⟨g.1, g.2.trans h.2⟩

theorem ClintDiffers.hartid {h g : Hart} (c : ClintDiffers h g) : g.hartid = h.hartid := by
  have hh := congrArg Hart.hartid c; exact hh

theorem hartids_of_clintDiffers {l m : List Hart} (h : List.Forall₂ ClintDiffers l m) :
    m.map (fun h => h.hartid) = l.map (fun h => h.hartid) := by
  induction h with
  | nil => rfl
  | cons hd _ ih => rw [List.map_cons, List.map_cons, hd.hartid, ih]

theorem legal_of_clintDiffers {l m : List Hart} (h : List.Forall₂ ClintDiffers l m) (hl : ∀ h ∈ l, h.Legal) :
    ∀ h ∈ m, h.Legal := by
  induction h with
  | nil => exact hl
  | cons hd _ ih =>
    rw [List.forall_mem_cons] at *
    exact ⟨hl.1.of_clintDiffers hd, ih hl.2⟩

theorem State.Inv.hart_legal {s : State} (hs : s.Inv) : s.hart.Legal := hs.harts _ (by simp [State.harts])

/-- One hart's part of a step: the others differ at most in their CLINT words. -/
theorem State.Inv.of_hart {s t : State} (hs : s.Inv) (hcfg : t.cfg = s.cfg) (hmem : Memory.wf t.mem = true)
    (hlock : t.amoLock = false) (hid : t.hart.hartid = s.hart.hartid)
    (hothers : List.Forall₂ ClintDiffers s.others t.others) (hlegal : t.hart.Legal) : s.InvFrom t := by
  refine ⟨⟨hcfg ▸ hs.cfg, hmem, hlock, ?_, ?_⟩, hcfg⟩
  · rw [hcfg, State.harts, List.map_cons, hid, hartids_of_clintDiffers hothers]
    exact hs.numbers
  · rw [State.harts, List.forall_mem_cons]
    exact ⟨hlegal, legal_of_clintDiffers hothers fun h hh => hs.harts h (List.mem_cons_of_mem _ hh)⟩

/-- As `of_hart`, where only the hart, the clock and the draws differ. -/
theorem State.Inv.of_hart_only {s t : State} (hs : s.Inv) (hcfg : t.cfg = s.cfg) (hmem : t.mem = s.mem)
    (hlock : t.amoLock = s.amoLock) (hid : t.hart.hartid = s.hart.hartid) (hothers : t.others = s.others)
    (hlegal : t.hart.Legal) : s.InvFrom t :=
  hs.of_hart hcfg (hmem ▸ hs.mem) (hlock.trans hs.lock) hid (hothers ▸ clintDiffers_list _) hlegal

/-! ## Computation, traps and CSR writes -/

theorem Plain.hartid {s t : State} (h : Plain s t) : t.hart.hartid = s.hart.hartid := by
  have hh := congrArg Hart.hartid h.hart; exact hh

theorem State.Inv.of_plain {s t : State} (hs : s.Inv) (h : Plain s t) (hpc : t.hart.pc.getLsbD 0 = false) :
    s.InvFrom t :=
  hs.of_hart h.cfg (h.wf hs.mem) (h.lock hs.lock) h.hartid h.others (hs.hart_legal.of_plain h hpc)

theorem State.Inv.takeTrap {s : State} (hs : s.Inv) (c : Cause) (epc tval : Word) :
    s.InvFrom (takeTrap c epc tval s) :=
  hs.of_hart_only rfl rfl rfl (by simp) rfl (hs.hart_legal.enterTrap ..)

/-- An exception after what the accesses before it left. -/
theorem State.Inv.raise_of_plain {s s1 : State} (hs : s.Inv) (h : Plain s s1) (hpc : s1.hart.pc = s.hart.pc)
    (e : Exception) (tv : Word) : s.InvFrom (raise e tv s1) :=
  have h1 := hs.of_plain h (hpc ▸ hs.hart_legal.pcEven)
  h1.trans (h1.1.takeTrap ..)

theorem csrWriteNamed_hartid (cfg : Config) (v : Word) (h : Hart) (c : CsrName) :
    (csrWriteNamed cfg v h c).hartid = h.hartid := by
  cases c <;> rfl

theorem State.Inv.csrWrite {s : State} (hs : s.Inv) (n : CsrNum) (v : Word) : s.InvFrom (csrWrite n v s) := by
  have hl := hs.hart_legal.csrWrite n v
  unfold Machine.csrWrite at *
  split
  · next c hc =>
    rw [hc] at hl
    exact hs.of_hart_only rfl rfl rfl (csrWriteNamed_hartid ..) rfl hl
  · next hc =>
    rw [hc] at hl
    exact hs.of_hart_only rfl rfl rfl rfl rfl hl

/-- Each effect an instruction can have keeps the invariant. -/
theorem State.Inv.of_effect {s t : State} {i : Instr} (hs : s.Inv) (h : Effect i s t) : s.InvFrom t := by
  cases h with
  | plain h hpc => exact hs.of_plain h (hpc hs.hart_legal.pcEven)
  | raised e tv h hpc => exact hs.raise_of_plain h hpc e tv
  | returned l _ _ => exact hs.of_hart_only rfl rfl rfl rfl rfl (hs.hart_legal.leaveTrap l)
  | halted => exact hs.of_hart_only rfl rfl rfl rfl rfl { hs.hart_legal with }
  | csr n v w rd _ _ =>
    have hw := hs.csrWrite n v
    refine hw.trans (hw.1.of_plain ((Plain.setX _ rd w).trans (.setPc _ _)) ?_)
    rw [State.advance, State.setX_pc_hart]
    exact even_add hw.1.hart_legal.pcEven (by decide)

/-! ## The step -/

theorem State.Inv.countStep {s : State} (hs : s.Inv) : s.InvFrom s.countStep :=
  hs.of_hart_only rfl rfl rfl rfl rfl { hs.hart_legal with }

theorem State.Inv.endStep {s : State} (hs : s.Inv) : s.InvFrom s.endStep := by
  unfold State.endStep
  split
  · exact ⟨hs, rfl⟩
  · exact hs.countStep

theorem State.Inv.environment {s : State} (hs : s.Inv) : s.InvFrom s.environment :=
  hs.of_hart_only rfl rfl rfl rfl rfl { hs.hart_legal with }

theorem State.Inv.afterCheck {s : State} (hs : s.Inv) : s.InvFrom s.afterCheck :=
  hs.of_hart_only rfl rfl rfl rfl rfl { hs.hart_legal with }

theorem State.Inv.deliver {s : State} (hs : s.Inv) (i : Interrupt) : s.InvFrom (s.deliver i) :=
  have h1 : s.InvFrom { s with hart := { s.hart with sinceCheck := 0 }, draws := s.draws + 1 } :=
    hs.of_hart_only rfl rfl rfl rfl rfl { hs.hart_legal with }
  h1.trans (h1.1.takeTrap ..)

/-- The chosen hart and the rest are a rearrangement of the list. -/
theorem pickRunning_perm {k : Nat} {l rest : List Hart} {h : Hart} (hp : pickRunning k l = some (h, rest)) :
    (h :: rest).Perm l := by
  induction l generalizing k rest with
  | nil => cases hp
  | cons a l ih =>
    have hskip {k : Nat} (hm : (pickRunning k l).map (fun p => (p.1, a :: p.2)) = some (h, rest)) :
        (h :: rest).Perm (a :: l) := by
      obtain ⟨⟨g, r⟩, hpick, heq⟩ := Option.map_eq_some_iff.1 hm
      cases heq
      exact (List.Perm.swap a g r).trans ((ih hpick).cons a)
    unfold pickRunning at hp
    split at hp
    · exact hskip hp
    · cases k with
      | zero => cases hp; exact .refl _
      | succ k => exact hskip hp

theorem State.Inv.selectHart {s t : State} (hs : s.Inv) (h : s.selectHart = some t) : s.InvFrom t := by
  unfold State.selectHart at h
  split at h
  · split at h <;> cases h
    exact ⟨hs, rfl⟩
  · split at h
    · cases h
    · next hpick =>
      cases h
      have hperm := pickRunning_perm hpick
      exact ⟨⟨hs.cfg, hs.mem, hs.lock, (hperm.map _).trans hs.numbers, fun h hh => hs.harts h (hperm.subset hh)⟩, rfl⟩

theorem State.Inv.instructionStep {s t : State} (hs : s.Inv) (h : instructionStep s = .next t) : s.InvFrom t := by
  have hf := fetchInstr_leaves s
  unfold Machine.instructionStep at h
  split at h
  · next he =>
    cases h
    rw [he] at hf
    have hr := hs.raise_of_plain hf.1 hf.2
    exact (hr _ _).trans (hr _ _).1.countStep
  · next s1 he =>
    rw [he] at hf
    split at h
    · cases h
      have hr := hs.raise_of_plain hf.1 hf.2
      exact (hr _ _).trans (hr _ _).1.countStep
    · next i _ =>
      have h1 := hs.of_plain hf.1 (hf.2 ▸ hs.hart_legal.pcEven)
      obtain ⟨s2, hexec, heff⟩ := exec_cases i s1
      rw [hexec] at h
      cases h
      have h2 := h1.1.of_effect heff
      exact (h1.trans h2).trans h2.1.endStep

theorem State.Inv.hartStep {s t : State} (hs : s.Inv) (h : hartStep s = .next t) : s.InvFrom t := by
  have henv := hs.environment
  unfold Machine.hartStep at h
  split at h
  · cases h
    exact henv.trans (henv.1.deliver _)
  · have hcheck := henv.trans henv.1.afterCheck
    have henv2 := hcheck.trans hcheck.1.environment
    exact henv2.trans (henv2.1.instructionStep h)

/-! ## The obligation -/

/-- Settles O57: choosing a hart rearranges the harts, and each effect of an instruction keeps the chosen one legal. -/
theorem invariantKept : Obligations.InvariantKept := by
  unfold Obligations.InvariantKept
  intro s t hs h
  unfold step at h
  split at h
  · cases h
  · next s1 hsel =>
    have h1 := hs.selectHart hsel
    exact h1.trans (h1.1.hartStep h)

end Sys2Proof.Machine
end

section
/-! SUPPORT. Integer computation and control transfer: the values the instructions write (spec/40_integer_alu.md R171-R191,
spec/45_m_muldiv.md R300-R308, spec/41_control_transfer.md R222-R229, spec/48_c_compressed.md R392, R400-R427). -/

namespace Sys2Proof.Machine

/-! ## Values -/

section
variable (a b : Word) (n : Nat)

theorem shiftLeft_eq_ofNat : a <<< n = BitVec.ofNat 32 (a.toNat * 2 ^ n) :=
  BitVec.eq_of_toNat_eq (by rw [BitVec.toNat_shiftLeft, Nat.shiftLeft_eq, BitVec.toNat_ofNat])

theorem ushiftRight_eq_ofNat : a >>> n = BitVec.ofNat 32 (a.toNat / 2 ^ n) :=
  BitVec.eq_of_toNat_eq (by
    rw [BitVec.toNat_ushiftRight, Nat.shiftRight_eq_div_pow, BitVec.toNat_ofNat,
      Nat.mod_eq_of_lt (lt_of_le_of_lt (Nat.div_le_self _ _) a.isLt)])

theorem sshiftRight_eq_ofInt : a.sshiftRight n = BitVec.ofInt 32 (a.toInt / 2 ^ n) := by
  rw [BitVec.sshiftRight, Int.shiftRight_eq_div_pow]; rfl

theorem boolWord_slt : boolWord (a.slt b) = truth (a.toInt < b.toInt) := boolWord_decide _

theorem boolWord_ult : boolWord (a.ult b) = truth (a.toNat < b.toNat) := boolWord_decide _

theorem sub_eq_ofInt : a - b = BitVec.ofInt 32 (a.toNat - b.toNat) := by
  apply BitVec.eq_of_toNat_eq
  rw [BitVec.toNat_sub, BitVec.toNat_ofInt]
  omega

theorem mul_eq_ofInt : a * b = BitVec.ofInt 32 (a.toInt * b.toInt) := by
  rw [BitVec.ofInt_mul, BitVec.ofInt_toInt, BitVec.ofInt_toInt]

/-- The upper half of a product's 64 bits is the product divided by 2^32, rounded down (R302-R304). -/
theorem highHalf_eq (p : Int) : highHalf p = BitVec.ofInt 32 (p / 2 ^ 32) := by
  apply BitVec.eq_of_toNat_eq
  rw [highHalf, BitVec.extractLsb'_toNat, BitVec.toNat_ofInt, BitVec.toNat_ofInt, Nat.shiftRight_eq_div_pow]
  omega

theorem divWord_eq_tdiv :
    divWord a b = if b.toInt = 0 then 0xFFFFFFFF#32 else BitVec.ofInt 32 (a.toInt.tdiv b.toInt) := by
  split
  · next h => rw [divWord, if_pos (BitVec.toInt_inj.1 h)]
  · next h => rw [divWord_eq_sdiv (mt (congrArg BitVec.toInt) h), sdiv_eq_ofInt]

theorem remWord_eq_tmod :
    remWord a b = if b.toInt = 0 then a else BitVec.ofInt 32 (a.toInt.tmod b.toInt) := by
  split
  · next h => rw [remWord, if_pos (BitVec.toInt_inj.1 h)]
  · next h =>
    rw [remWord_eq_srem (mt (congrArg BitVec.toInt) h), ← BitVec.toInt_srem, BitVec.ofInt_toInt]

theorem divuWord_eq_div :
    divuWord a b = if b.toNat = 0 then 0xFFFFFFFF#32 else BitVec.ofNat 32 (a.toNat / b.toNat) :=
  if_congr BitVec.toNat_inj.symm rfl rfl

theorem remuWord_eq_mod :
    remuWord a b = if b.toNat = 0 then a else BitVec.ofNat 32 (a.toNat % b.toNat) :=
  if_congr BitVec.toNat_inj.symm rfl rfl

end

/-! ## The shapes -/

theorem writesX_of_intResult {i : Instr} {rd : Reg} {v v' : State → Word} {len : Word}
    (hexec : ∀ s, exec i s = intResult rd (v' s) len s) (hv : ∀ s, v' s = v s) : WritesX i rd v len := by
  intro s
  rw [hexec, hv]
  exact intResult_spec rd (v s) len s

theorem setsPc_of_branchTo {i : Instr} {c : State → Bool} {off len : Word} {pc : State → Word}
    (hexec : ∀ s, exec i s = branchTo (c s) off len s)
    (hpc : ∀ s, (s.hart.pc + if c s then off else len) = pc s) : SetsPc i pc := by
  intro s
  rw [hexec, ← hpc]
  exact branchTo_spec (c s) off len s

/-! ## The obligations -/

/-- Settles O7: the result of each instruction, by the value lemma of its operation and its immediate. -/
theorem immediateResults : Obligations.ImmediateResults := by
  unfold Obligations.ImmediateResults
  intro rd rs1 imm imm20 shamt
  refine ⟨?lui, ?auipc, ?addi, ?slti, ?sltiu, ?xori, ?ori, ?andi, ?slli, ?srli, ?srai⟩
  case lui => exact writesX_of_intResult (fun _ => rfl) fun _ => immU_eq imm20
  case auipc => exact writesX_of_intResult (fun _ => rfl) fun s => congrArg (s.hart.pc + ·) (immU_eq imm20)
  case addi => exact writesX_of_intResult (fun _ => rfl) fun s => congrArg (s.readX rs1 + ·) (imm12_eq imm)
  case slti =>
    refine writesX_of_intResult (fun _ => rfl) fun s => ?_
    rw [boolWord_slt, imm12, BitVec.toInt_signExtend_of_le (by decide)]
  case sltiu =>
    refine writesX_of_intResult (fun _ => rfl) fun s => ?_
    rw [boolWord_ult, imm12_eq]
  case xori => exact writesX_of_intResult (fun _ => rfl) fun s => congrArg (s.readX rs1 ^^^ ·) (imm12_eq imm)
  case ori => exact writesX_of_intResult (fun _ => rfl) fun s => congrArg (s.readX rs1 ||| ·) (imm12_eq imm)
  case andi => exact writesX_of_intResult (fun _ => rfl) fun s => congrArg (s.readX rs1 &&& ·) (imm12_eq imm)
  case slli => exact writesX_of_intResult (fun _ => rfl) fun _ => shiftLeft_eq_ofNat _ _
  case srli => exact writesX_of_intResult (fun _ => rfl) fun _ => ushiftRight_eq_ofNat _ _
  case srai => exact writesX_of_intResult (fun _ => rfl) fun _ => sshiftRight_eq_ofInt _ _

/-- Settles O8: the result of each instruction, the shift amount read as `x[rs2] mod 32`. -/
theorem registerResults : Obligations.RegisterResults := by
  unfold Obligations.RegisterResults
  intro rd rs1 rs2
  refine ⟨?add, ?sub, ?sll, ?slt, ?sltu, ?xor, ?srl, ?sra, ?or, ?and⟩
  case add => exact writesX_of_intResult (fun _ => rfl) fun _ => BitVec.add_def ..
  case sub => exact writesX_of_intResult (fun _ => rfl) fun _ => sub_eq_ofInt _ _
  case sll => exact writesX_of_intResult (fun _ => rfl) fun _ => by rw [shiftLeft_eq_ofNat, shiftAmount_eq]
  case slt => exact writesX_of_intResult (fun _ => rfl) fun _ => boolWord_slt _ _
  case sltu => exact writesX_of_intResult (fun _ => rfl) fun _ => boolWord_ult _ _
  case xor => exact writesX_of_intResult (fun _ => rfl) fun _ => rfl
  case srl => exact writesX_of_intResult (fun _ => rfl) fun _ => by rw [ushiftRight_eq_ofNat, shiftAmount_eq]
  case sra => exact writesX_of_intResult (fun _ => rfl) fun _ => by rw [sshiftRight_eq_ofInt, shiftAmount_eq]
  case or => exact writesX_of_intResult (fun _ => rfl) fun _ => rfl
  case and => exact writesX_of_intResult (fun _ => rfl) fun _ => rfl

/-- Settles O9: the product halves and the divisions, by the value lemma of each. -/
theorem mulDivResults : Obligations.MulDivResults := by
  unfold Obligations.MulDivResults
  intro rd rs1 rs2
  refine ⟨?mul, ?mulh, ?mulhsu, ?mulhu, ?div, ?divu, ?rem, ?remu⟩
  case mul => exact writesX_of_intResult (fun _ => rfl) fun _ => mul_eq_ofInt _ _
  case mulh => exact writesX_of_intResult (fun _ => rfl) fun _ => highHalf_eq _
  case mulhsu => exact writesX_of_intResult (fun _ => rfl) fun _ => highHalf_eq _
  case mulhu => exact writesX_of_intResult (fun _ => rfl) fun _ => (highHalf_eq _).trans (BitVec.ofInt_natCast ..)
  case div => exact writesX_of_intResult (fun _ => rfl) fun _ => divWord_eq_tdiv _ _
  case divu => exact writesX_of_intResult (fun _ => rfl) fun _ => divuWord_eq_div _ _
  case rem => exact writesX_of_intResult (fun _ => rfl) fun _ => remWord_eq_tmod _ _
  case remu => exact writesX_of_intResult (fun _ => rfl) fun _ => remuWord_eq_mod _ _

/-- Settles O11: the result of each equivalent, with `ilen = 2`. -/
theorem compressedResults : Obligations.CompressedResults := by
  unfold Obligations.CompressedResults
  intro rd rs2 rd' rs2' nz imm shamt
  simp only [← prime_eq]
  refine ⟨?cAddi4spn, ?cNop, ?cAddi, ?cLi, ?cAddi16sp, ?cLui, ?cSrli, ?cSrai, ?cAndi, ?cSub, ?cXor, ?cOr, ?cAnd, ?cSlli,
    ?cMv, ?cAdd⟩
  case cAddi4spn => exact writesX_of_intResult (fun _ => rfl) fun s => congrArg (s.readX 2#5 + ·) (imm4spn_eq nz)
  case cNop => exact fun s => ⟨_, rfl, pcResult_of_setPc s _⟩
  case cAddi => exact writesX_of_intResult (fun _ => rfl) fun s => congrArg (s.readX rd + ·) (immCi_eq imm)
  case cLi => exact writesX_of_intResult (fun _ => rfl) fun _ => immCi_eq imm
  case cAddi16sp => exact writesX_of_intResult (fun _ => rfl) fun s => congrArg (s.readX 2#5 + ·) (imm16sp_eq imm)
  case cLui => exact writesX_of_intResult (fun _ => rfl) fun _ => immCLui_eq imm
  case cSrli => exact writesX_of_intResult (fun _ => rfl) fun _ => ushiftRight_eq_ofNat _ _
  case cSrai => exact writesX_of_intResult (fun _ => rfl) fun _ => sshiftRight_eq_ofInt _ _
  case cAndi => exact writesX_of_intResult (fun _ => rfl) fun s => congrArg (s.readX (prime rd') &&& ·) (immCi_eq imm)
  case cSlli => exact writesX_of_intResult (fun _ => rfl) fun _ => shiftLeft_eq_ofNat _ _
  case cSub | cXor | cOr | cAnd | cMv | cAdd => exact writesX_of_intResult (fun _ => rfl) fun _ => rfl

/-- Settles O12: the target is computed before the link is written. -/
theorem jumpResults : Obligations.JumpResults := by
  unfold Obligations.JumpResults
  intro rd rs1 off imm coff s
  simp only [← immJ_eq, ← immCj_eq, ← imm12_eq, ← evenTarget_eq]
  exact ⟨jumpAndLink_spec .., jumpAndLink_spec .., jumpAndLink_spec .., jumpAndLink_spec ..,
    branchTo_spec true (immCj coff) 2#32 s, _, rfl, pcResult_of_setPc ..⟩

/-- Settles O13: each branch is `branchTo` of its condition. -/
theorem branchResults : Obligations.BranchResults := by
  unfold Obligations.BranchResults
  intro rs1 rs2 off rs1' coff
  simp only [← prime_eq, ← immB_eq, ← immCb_eq]
  refine ⟨?beq, ?bne, ?blt, ?bge, ?bltu, ?bgeu, ?cBeqz, ?cBnez⟩
  case beq | bne => exact setsPc_of_branchTo (fun _ => rfl) fun s => by simp [ilen32]
  case cBeqz | cBnez => exact setsPc_of_branchTo (fun _ => rfl) fun s => by simp [ilen16]
  case blt => exact setsPc_of_branchTo (fun _ => rfl) fun s => by simp [BitVec.slt, ilen32]
  case bge => exact setsPc_of_branchTo (fun _ => rfl) fun s => by simp [BitVec.slt, ilen32]
  case bltu => exact setsPc_of_branchTo (fun _ => rfl) fun s => by simp [BitVec.ult, ilen32]
  case bgeu => exact setsPc_of_branchTo (fun _ => rfl) fun s => by simp [BitVec.ult, ilen32]

end Sys2Proof.Machine
end

section
/-! SUPPORT. Loads, stores and AMOs: the instructions of each shape, on bytes of RAM and ROM, through the port of any
device, and where the access cannot be made (spec/42_load_store.md R240-R249, spec/46_a_atomics.md R320-R330,
spec/47_f_float.md R346-R349, spec/48_c_compressed.md R393-R430, spec/20_memory.md R85, R86, R103). -/

namespace Sys2Proof.Machine

/-! ## The values loaded -/

section
variable {v : DWord}

theorem sext8_eq (v : DWord) : sext8 v = BitVec.ofInt 32 (BitVec.ofNat 8 v.toNat).toInt := by
  rw [BitVec.ofNat_toNat]; rfl

theorem sext16_eq (v : DWord) : sext16 v = BitVec.ofInt 32 (BitVec.ofNat 16 v.toNat).toInt := by
  rw [BitVec.ofNat_toNat]; rfl

theorem zext8_eq (hv : v.toNat < 2 ^ (8 * 1)) : zext8 v = BitVec.ofNat 32 v.toNat := by
  apply BitVec.eq_of_toNat_eq
  rw [zext8, BitVec.toNat_setWidth, BitVec.toNat_setWidth, BitVec.toNat_ofNat, Nat.mod_eq_of_lt (a := v.toNat) hv]

theorem zext16_eq (hv : v.toNat < 2 ^ (8 * 2)) : zext16 v = BitVec.ofNat 32 v.toNat := by
  apply BitVec.eq_of_toNat_eq
  rw [zext16, BitVec.toNat_setWidth, BitVec.toNat_setWidth, BitVec.toNat_ofNat, Nat.mod_eq_of_lt (a := v.toNat) hv]

theorem word32_eq (v : DWord) : word32 v = BitVec.ofNat 32 v.toNat := (BitVec.ofNat_toNat ..).symm

theorem boxLoaded_eq (v : DWord) : boxLoaded v = 0xFFFFFFFF#32 ++ BitVec.ofNat 32 v.toNat := by
  rw [boxLoaded, word32_eq]; rfl

theorem word32_eq_extractLsb' (v : DWord) : word32 v = v.extractLsb' 0 32 := BitVec.setWidth_eq_extractLsb' (by decide)

end

theorem ofNat_toNat_self {n : Nat} (v : BitVec n) : BitVec.ofNat n v.toNat = v := by
  rw [BitVec.ofNat_toNat, BitVec.setWidth_eq]

theorem toNat_setWidth_word (v : Word) : (v.setWidth 64).toNat = v.toNat :=
  BitVec.toNat_setWidth_of_le (by decide)

theorem toNat_setWidth_f32 (s : State) (r : Reg) : ((s.f32 r).setWidth 64).toNat = (s.readF r).toNat % 2 ^ 32 := by
  rw [toNat_setWidth_word, State.f32, BitVec.toNat_setWidth]

theorem f32_eq_extractLsb' (s : State) (r : Reg) : s.f32 r = (s.readF r).extractLsb' 0 32 :=
  BitVec.setWidth_eq_extractLsb' (by decide)

/-! ## The shapes on RAM and ROM -/

theorem loadsX_of_loadX {i : Instr} {rd : Reg} {ea : State → Word} {n : Nat} {ext : Nat → Word} {ext' : DWord → Word}
    {len : Word} (hexec : ∀ s, exec i s = loadX rd (ea s) n ext' len s) (hn : n ≤ 8)
    (hext : ∀ v : DWord, v.toNat < 2 ^ (8 * n) → ext' v = ext v.toNat) : LoadsX i rd ea n ext len := by
  intro s pa s1 htr hb
  obtain ⟨hval, hlt⟩ := Memory.toNat_readN s.mem pa n hn
  have hload := loadX_bytes (rd := rd) (ext := ext') (ilen := len) htr hb
  rwa [← hexec, hext _ (hval ▸ hlt), hval] at hload

theorem loadsF_of_loadF {i : Instr} {rd : Reg} {ea : State → Word} {n : Nat} {ext : Nat → DWord}
    {ext' : DWord → DWord} {len : Word} (hexec : ∀ s, exec i s = loadF rd (ea s) n ext' len s) (hn : n ≤ 8)
    (hext : ∀ v, ext' v = ext v.toNat) : LoadsF i rd ea n ext len := by
  intro s pa s1 htr hb
  have hload := loadF_bytes (rd := rd) (ext := ext') (ilen := len) htr hb
  rwa [← hexec, hext, (Memory.toNat_readN s.mem pa n hn).1] at hload

/-- The 64-bit forms load all eight bytes. -/
theorem loadF_double {rd : Reg} {va pa ilen : Word} {s s1 : State} (htr : translate .r va s = .ok pa s1)
    (hb : s.holdsBytes pa 8) : ∃ t, loadF rd va 8 id ilen s = .next t ∧
      FpLoaded s t rd (BitVec.ofNat 64 (bytesValue s.mem pa 8)) (s.hart.pc + ilen) ∧ t.traces = s1.traces := by
  have hload := loadF_bytes (rd := rd) (ext := id) (ilen := ilen) htr hb
  rwa [id_eq, ← ofNat_toNat_self (s.mem.readN pa 8), (Memory.toNat_readN s.mem pa 8 (by decide)).1] at hload

theorem storesN_of_storeN {i : Instr} {ea : State → Word} {n : Nat} {v : State → Nat} {v' : State → DWord}
    {len : Word} (hexec : ∀ s, exec i s = storeN (ea s) n (v' s) len s) (hv : ∀ s, (v' s).toNat = v s) :
    StoresN i ea n v len := by
  intro s pa s1 hm htr
  rw [hexec, ← hv]
  exact ⟨fun hb => storeN_ram hm htr hb, fun hb => storeN_rom htr hb _⟩

theorem storeN_double {va pa ilen : Word} {v : DWord} {s s1 : State} (hm : Memory.wf s.mem = true)
    {kn : DeviceKind × Nat} (hk : kn ∈ [(DeviceKind.ram, 8), (.rom, 0)]) (hb : s.holds kn.1 pa 8)
    (htr : translate .w va s = .ok pa s1) :
    ∃ t, storeN va 8 v ilen s = .next t ∧ Stored s t pa kn.2 v.toNat (s.hart.pc + ilen) ∧ t.traces = s1.traces := by
  simp only [List.mem_cons, List.not_mem_nil, or_false] at hk
  rcases hk with rfl | rfl
  · exact storeN_ram hm htr hb
  · exact storeN_rom htr hb _

theorem amo_of_amo {i : Instr} {rd rs1 rs2 : Reg} {op op' : Word → Word → Word}
    (hexec : ∀ s, exec i s = amo op' rd rs1 rs2 s) (hop : ∀ a b, op' a b = op a b) : Amo i rd rs1 rs2 op := by
  intro s pa s1 hm htr kn hk hb
  rw [hexec, ← hop]
  exact amo_bytes hm htr kn hk hb

/-! ## The 64-bit forms (R348, R349, R393, R396, R421, R428) -/

section
variable {s : State} (frd rs1 frs2 : Reg) (imm : BitVec 12) (frd' rs1' frs2' : PrimeReg) (u5 : BitVec 5) (u6 : BitVec 6)

section
variable (h : s.cfg.hasFldFsd = true)
include h

theorem exec_fld : exec (.fld frd rs1 imm) s = loadF frd (s.ea rs1 (imm12 imm)) 8 id ilen32 s := if_pos h

theorem exec_cFld :
    exec (.cFld frd' rs1' u5) s = loadF (prime frd') (s.ea (prime rs1') (uimmD u5)) 8 id ilen16 s := if_pos h

theorem exec_cFldsp : exec (.cFldsp frd u6) s = loadF frd (s.ea sp (uimmDsp u6)) 8 id ilen16 s := if_pos h

theorem exec_fsd : exec (.fsd rs1 frs2 imm) s = storeN (s.ea rs1 (imm12 imm)) 8 (s.readF frs2) ilen32 s := if_pos h

theorem exec_cFsd :
    exec (.cFsd rs1' frs2' u5) s = storeN (s.ea (prime rs1') (uimmD u5)) 8 (s.readF (prime frs2')) ilen16 s := if_pos h

theorem exec_cFsdsp : exec (.cFsdsp frs2 u6) s = storeN (s.ea sp (uimmDsp u6)) 8 (s.readF frs2) ilen16 s := if_pos h

end

/-- Without `HAS_FLD_FSD` each is illegal with its own word. -/
theorem exec_double_illegal (h : s.cfg.hasFldFsd = false) {i : Instr}
    (hi : i ∈ [Instr.fld frd rs1 imm, .fsd rs1 frs2 imm, .cFld frd' rs1' u5, .cFsd rs1' frs2' u5, .cFldsp frd u6,
      .cFsdsp frs2 u6]) : exec i s = illegal (s.bitsOf i) s := by
  have hne : ¬ s.cfg.hasFldFsd = true := Bool.eq_false_iff.1 h
  simp only [List.mem_cons, List.not_mem_nil, or_false] at hi
  rcases hi with rfl | rfl | rfl | rfl | rfl | rfl <;> exact if_neg hne

end

/-! ## The shapes through the port (R84, R89) -/

theorem loadsPortX_of_loadX {i : Instr} {rd : Reg} {ea : State → Word} {n : Nat} {ext ext' : DWord → Word} {len : Word}
    (hexec : ∀ s, exec i s = loadX rd (ea s) n ext' len s) (hext : ∀ v, ext' v = ext v) :
    LoadsPortX i rd ea n ext len := by
  intro s pa s1 v s2 htr hv
  rw [hexec, ← hext]
  exact loadX_port htr hv

theorem loadsPortF_of_loadF {i : Instr} {rd : Reg} {ea : State → Word} {n : Nat} {ext ext' : DWord → DWord} {len : Word}
    (hexec : ∀ s, (n = 8 → s.cfg.hasFldFsd = true) → exec i s = loadF rd (ea s) n ext' len s)
    (hext : ∀ v, ext' v = ext v) : LoadsPortF i rd ea n ext len := by
  intro s pa s1 v s2 hfld htr hv
  rw [hexec s hfld, ← hext]
  exact loadF_port htr hv

theorem storesPort_of_storeN {i : Instr} {ea : State → Word} {n : Nat} {v v' : State → DWord} {len : Word}
    (hexec : ∀ s, (n = 8 → s.cfg.hasFldFsd = true) → exec i s = storeN (ea s) n (v' s) len s)
    (hv : ∀ s, v' s = v s) : StoresPort i ea n v len := by
  intro s pa s1 s2 hfld htr hw
  rw [hexec s hfld, hv]
  exact storeN_port htr hw

theorem State.unlockAmo_eq_self {s : State} (h : s.amoLock = false) : s.unlockAmo = s := by
  obtain ⟨⟩ := s; cases h; rfl

/-- A walk reads tables and changes no lock. -/
theorem ReadFrame.amoLock {s t : State} (h : ReadFrame s t) : t.amoLock = s.amoLock :=
  (congrArg State.amoLock h.rest :)

theorem amoPort_of_amo {i : Instr} {rd rs1 rs2 : Reg} {op op' : Word → Word → Word}
    (hexec : ∀ s, exec i s = amo op' rd rs1 rs2 s) (hop : ∀ a b, op' a b = op a b) : AmoPort i rd rs1 rs2 op := by
  intro s pa s1 v s2 s3 hlock htr hv hw
  have hlock3 : s3.amoLock = false := by
    have hwrite : s3.amoLock = s2.amoLock := (physWrite_frame hw).1.amoLock
    rw [hwrite, (physRead_frame hv).amoLock, (translate_ok_frame htr).amoLock, hlock]
  rw [← word32_eq_extractLsb', ← hop] at hw
  rw [hexec, ← word32_eq_extractLsb', ← State.unlockAmo_eq_self hlock3]
  exact amo_port htr hv hw

/-! ## The shapes where the access cannot be made (R86, R103, R321) -/

section
variable {i : Instr} {rd : Reg} {va tv pa len : Word} {n : Nat} {s s1 : State} {e : Exception} {v : DWord}

theorem loadX_of_memRead_raise {ext : DWord → Word} (h : memRead va n s = .raise e tv s1) :
    ∃ t, loadX rd va n ext len s = .next t ∧ Raised s1 t e tv :=
  ⟨_, by rw [loadX, h], raise_raised s1 e tv⟩

theorem loadF_of_memRead_raise {ext : DWord → DWord} (h : memRead va n s = .raise e tv s1) :
    ∃ t, loadF rd va n ext len s = .next t ∧ Raised s1 t e tv :=
  ⟨_, by rw [loadF, h], raise_raised s1 e tv⟩

theorem storeN_of_memWrite_raise (h : memWrite va n v s = .raise e tv s1) :
    ∃ t, storeN va n v len s = .next t ∧ Raised s1 t e tv :=
  ⟨_, by rw [storeN, h], raise_raised s1 e tv⟩

end

theorem accessFaults_of_loadX {i : Instr} {rd : Reg} {ea : State → Word} {n : Nat} {ext : DWord → Word} {len : Word}
    (hexec : ∀ s, exec i s = loadX rd (ea s) n ext len s) : AccessFaults .r i ea n := by
  refine ⟨fun s e tv s1 htr => ?_, fun s pa s1 htr hnone => ?_⟩
  · rw [hexec]; exact loadX_of_memRead_raise (memRead_raise htr)
  · rw [hexec]; exact loadX_of_memRead_raise (memRead_no_device htr hnone)

theorem accessFaults_of_loadF {i : Instr} {rd : Reg} {ea : State → Word} {n : Nat} {ext : DWord → DWord} {len : Word}
    (hexec : ∀ s, exec i s = loadF rd (ea s) n ext len s) : AccessFaults .r i ea n := by
  refine ⟨fun s e tv s1 htr => ?_, fun s pa s1 htr hnone => ?_⟩
  · rw [hexec]; exact loadF_of_memRead_raise (memRead_raise htr)
  · rw [hexec]; exact loadF_of_memRead_raise (memRead_no_device htr hnone)

theorem accessFaults_of_storeN {i : Instr} {ea : State → Word} {n : Nat} {v : State → DWord} {len : Word}
    (hexec : ∀ s, exec i s = storeN (ea s) n (v s) len s) : AccessFaults .w i ea n := by
  refine ⟨fun s e tv s1 htr => ?_, fun s pa s1 htr hnone => ?_⟩
  · rw [hexec]; exact storeN_of_memWrite_raise (memWrite_raise htr)
  · rw [hexec]; exact storeN_of_memWrite_raise (memWrite_no_device htr hnone)

/-- The lock an AMO took is free again where it raises. -/
theorem amo_of_amoAccess_raise {op : Word → Word → Word} {rd rs1 rs2 : Reg} {s s1 : State} {e : Exception} {tv : Word}
    {b : Bool} (hlock : s1.amoLock = false)
    (h : amoAccess op (s.readX rs1) (s.readX rs2) s.lockAmo = .raise e tv { s1 with amoLock := b }) :
    ∃ t, amo op rd rs1 rs2 s = .next t ∧ Raised s1 t e tv := by
  have hfree : State.unlockAmo { s1 with amoLock := b } = s1 := State.unlockAmo_eq_self hlock
  refine ⟨_, by rw [amo, h], ?_⟩
  rw [hfree]
  exact raise_raised s1 e tv

theorem amo_raise {op : Word → Word → Word} {rd rs1 rs2 : Reg} {s s1 : State} {e : Exception} {tv : Word}
    (hlock : s.amoLock = false) (htr : translate .w (s.readX rs1) s = .raise e tv s1) :
    ∃ t, amo op rd rs1 rs2 s = .next t ∧ Raised s1 t e tv := by
  have hlock1 : s1.amoLock = false := (translate_raise htr).2.2.amoLock.trans hlock
  refine amo_of_amoAccess_raise (b := true) hlock1 ?_
  rw [amoAccess, State.lockAmo, translate_lock, htr]
  rfl

theorem amo_no_device {op : Word → Word → Word} {rd rs1 rs2 : Reg} {pa : Word} {s s1 : State}
    (hlock : s.amoLock = false) (htr : translate .w (s.readX rs1) s = .ok pa s1) (hnone : ∀ k, ¬ s.holds k pa 4) :
    ∃ t, amo op rd rs1 rs2 s = .next t ∧ Raised s1 t .storeAmoAccessFault (s.readX rs1) := by
  have hf := translate_ok_frame htr
  refine amo_of_amoAccess_raise (b := true) (hf.amoLock.trans hlock) ?_
  rw [amoAccess, State.lockAmo, translate_lock, htr]
  simp only [Access.withLock]
  rw [physRead_none (s := { s1 with amoLock := true }) fun k hk => hnone k ((State.holds_congr hf.cfg k pa 4).1 hk)]

/-! ## The functions of the AMOs (R322-R330) -/

section
variable (a b : Word)

theorem amoMinOp_eq : amoMinOp a b = BitVec.ofInt 32 (min a.toInt b.toInt) := by
  rcases lt_or_ge a.toInt b.toInt with h | h
  · rw [amoMinOp, if_pos h, min_eq_left h.le, BitVec.ofInt_toInt]
  · rw [amoMinOp, if_neg h.not_gt, min_eq_right h, BitVec.ofInt_toInt]

theorem amoMaxOp_eq : amoMaxOp a b = BitVec.ofInt 32 (max a.toInt b.toInt) := by
  rcases lt_or_ge b.toInt a.toInt with h | h
  · rw [amoMaxOp, if_pos h, max_eq_left h.le, BitVec.ofInt_toInt]
  · rw [amoMaxOp, if_neg h.not_gt, max_eq_right h, BitVec.ofInt_toInt]

theorem amoMinuOp_eq : amoMinuOp a b = BitVec.ofNat 32 (min a.toNat b.toNat) := by
  rcases lt_or_ge a.toNat b.toNat with h | h
  · rw [amoMinuOp, if_pos h, min_eq_left h.le, ofNat_toNat_self]
  · rw [amoMinuOp, if_neg h.not_gt, min_eq_right h, ofNat_toNat_self]

theorem amoMaxuOp_eq : amoMaxuOp a b = BitVec.ofNat 32 (max a.toNat b.toNat) := by
  rcases lt_or_ge b.toNat a.toNat with h | h
  · rw [amoMaxuOp, if_pos h, max_eq_left h.le, ofNat_toNat_self]
  · rw [amoMaxuOp, if_neg h.not_gt, max_eq_right h, ofNat_toNat_self]

end

/-! ## Devices whose insides the spec does not give (R89) -/

/-- A value's low `8n` bits, `n` up to 8. -/
theorem lowBytes_eq {n : Nat} (hn : n ≤ 8) (v : DWord) : lowBytes n v = BitVec.ofNat 64 (v.toNat % 2 ^ (8 * n)) := by
  have hmask : 2 ^ (8 * n) - 1 < 2 ^ 64 :=
    lt_of_lt_of_le (Nat.sub_lt (Nat.two_pow_pos _) one_pos) (Nat.pow_le_pow_right two_pos (by omega))
  have hv : v.toNat % 2 ^ (8 * n) < 2 ^ 64 := lt_of_le_of_lt (Nat.mod_le _ _) v.isLt
  apply BitVec.eq_of_toNat_eq
  rw [lowBytes, BitVec.toNat_and, BitVec.toNat_ofNat, BitVec.toNat_ofNat, Nat.mod_eq_of_lt hmask,
    Nat.mod_eq_of_lt hv, Nat.and_two_pow_sub_one_eq_mod]

theorem physRead_device {s : State} {pa : Word} {n : Nat} (h : s.holds .other pa n ∨ s.holds .debugPrint pa n) :
    physRead pa n s = some (deviceRead pa n s) := by
  rcases h with h | h <;> obtain ⟨d, hc, hk⟩ := claim_of_holds h <;> simp [physRead, hc, hk]

theorem physWrite_other {s : State} {pa : Word} {n : Nat} (v : DWord) (h : s.holds .other pa n) :
    physWrite pa n v s = some (deviceWrite pa n v s) := by
  obtain ⟨d, hc, hk⟩ := claim_of_holds h; simp [physWrite, hc, hk]

theorem physWrite_debugPrint {s : State} {pa : Word} {n : Nat} (v : DWord) (h : s.holds .debugPrint pa n) :
    physWrite pa n v s = some (printChar v s) := by
  obtain ⟨d, hc, hk⟩ := claim_of_holds h; simp [physWrite, hc, hk]

/-! ## The obligations -/

/-- Settles O14: each load is `loadX` with the extension of its width. -/
theorem integerLoads : Obligations.IntegerLoads := by
  unfold Obligations.IntegerLoads
  intro rd rs1 imm rd' rs1' u5 u6
  simp only [← prime_eq, ← imm12_eq, ← uimmW_eq, ← uimmWsp_eq]
  refine ⟨?lb, ?lh, ?lw, ?lbu, ?lhu, ?cLw, ?cLwsp⟩
  case lb => exact loadsX_of_loadX (fun _ => rfl) (by decide) fun v _ => sext8_eq v
  case lh => exact loadsX_of_loadX (fun _ => rfl) (by decide) fun v _ => sext16_eq v
  case lbu => exact loadsX_of_loadX (fun _ => rfl) (by decide) fun _ => zext8_eq
  case lhu => exact loadsX_of_loadX (fun _ => rfl) (by decide) fun _ => zext16_eq
  case lw | cLw | cLwsp => exact loadsX_of_loadX (fun _ => rfl) (by decide) fun v _ => word32_eq v

/-- Settles O15: the word forms are `loadF` of the boxed word, the double forms of all eight bytes. -/
theorem floatLoads : Obligations.FloatLoads := by
  unfold Obligations.FloatLoads
  intro frd rs1 imm frd' rs1' u5 u6
  simp only [← prime_eq, ← imm12_eq, ← uimmW_eq, ← uimmWsp_eq, ← uimmD_eq, ← uimmDsp_eq]
  refine ⟨?flw, ?cFlw, ?cFlwsp, fun s pa s1 hfld hb => ⟨fun htr => ?fld, fun htr => ?cFld, fun htr => ?cFldsp⟩⟩
  case flw | cFlw | cFlwsp => exact loadsF_of_loadF (fun _ => rfl) (by decide) boxLoaded_eq
  case fld => rw [exec_fld frd rs1 imm hfld]; exact loadF_double htr hb
  case cFld => rw [exec_cFld frd' rs1' u5 hfld]; exact loadF_double htr hb
  case cFldsp => rw [exec_cFldsp frd u6 hfld]; exact loadF_double htr hb

/-- Settles O16: each store is `storeN` of the register. -/
theorem integerStores : Obligations.IntegerStores := by
  unfold Obligations.IntegerStores
  intro rs1 rs2 imm rs1' rs2' u5 u6
  simp only [← prime_eq, ← imm12_eq, ← uimmW_eq, ← uimmWsp_eq]
  refine ⟨?sb, ?sh, ?sw, ?cSw, ?cSwsp⟩
  case sb | sh | sw | cSw | cSwsp => exact storesN_of_storeN (fun _ => rfl) fun _ => toNat_setWidth_word _

/-- Settles O17: the word forms are `storeN` of the low word, the double forms of the whole register. -/
theorem floatStores : Obligations.FloatStores := by
  unfold Obligations.FloatStores
  intro rs1 frs2 imm rs1' frs2' u5 u6
  simp only [← prime_eq, ← imm12_eq, ← uimmW_eq, ← uimmWsp_eq, ← uimmD_eq, ← uimmDsp_eq]
  refine ⟨?fsw, ?cFsw, ?cFswsp, fun s pa s1 hfld hm kn hk hb => ⟨fun htr => ?fsd, fun htr => ?cFsd, fun htr => ?cFsdsp⟩⟩
  case fsw | cFsw | cFswsp => exact storesN_of_storeN (fun _ => rfl) fun _ => toNat_setWidth_f32 _ _
  case fsd => rw [exec_fsd rs1 frs2 imm hfld]; exact storeN_double hm hk hb htr
  case cFsd => rw [exec_cFsd rs1' frs2' u5 hfld]; exact storeN_double hm hk hb htr
  case cFsdsp => rw [exec_cFsdsp frs2 u6 hfld]; exact storeN_double hm hk hb htr

/-- Settles O18: each AMO is `amo` of its function. -/
theorem amoResults : Obligations.AmoResults := by
  unfold Obligations.AmoResults
  intro rd rs1 rs2 aq rl
  refine ⟨?swap, ?add, ?xor, ?and, ?or, ?min, ?max, ?minu, ?maxu⟩
  case swap | xor | and | or => exact amo_of_amo (fun _ => rfl) fun _ _ => rfl
  case add => exact amo_of_amo (fun _ => rfl) fun _ _ => BitVec.add_def ..
  case min => exact amo_of_amo (fun _ => rfl) amoMinOp_eq
  case max => exact amo_of_amo (fun _ => rfl) amoMaxOp_eq
  case minu => exact amo_of_amo (fun _ => rfl) amoMinuOp_eq
  case maxu => exact amo_of_amo (fun _ => rfl) amoMaxuOp_eq

/-- Settles O20: each shape raises what its access raises. -/
theorem accessFaultsRaise : Obligations.AccessFaultsRaise := by
  unfold Obligations.AccessFaultsRaise
  intro r1 r2 imm p1 p2 u5 u6
  simp only [← prime_eq, ← imm12_eq, ← uimmW_eq, ← uimmWsp_eq]
  refine ⟨?lb, ?lh, ?lw, ?lbu, ?lhu, ?flw, ?cLw, ?cFlw, ?cLwsp, ?cFlwsp, ?sb, ?sh, ?sw, ?fsw, ?cSw, ?cFsw, ?cSwsp,
    ?cFswsp⟩
  case lb | lh | lw | lbu | lhu | cLw | cLwsp => exact accessFaults_of_loadX fun _ => rfl
  case flw | cFlw | cFlwsp => exact accessFaults_of_loadF fun _ => rfl
  case sb | sh | sw | fsw | cSw | cFsw | cSwsp | cFswsp => exact accessFaults_of_storeN fun _ => rfl

/-- Settles O21: `amo` frees the lock before it raises; the double forms are `loadF` and `storeN`. -/
theorem amoAndDoubleFaults : Obligations.AmoAndDoubleFaults := by
  unfold Obligations.AmoAndDoubleFaults
  intro rd rs1 rs2 aq rl imm p1 p2 u5 u6 s
  simp only [← prime_eq, ← imm12_eq, ← uimmD_eq, ← uimmDsp_eq]
  refine ⟨fun hlock i hi => ?amo, fun hfld => ⟨fun p hp => ?load, fun p hp => ?store⟩⟩
  case amo =>
    obtain ⟨op, hexec⟩ : ∃ op, exec i s = amo op rd rs1 rs2 s := by
      simp only [List.mem_cons, List.not_mem_nil, or_false] at hi
      rcases hi with rfl | rfl | rfl | rfl | rfl | rfl | rfl | rfl | rfl <;> exact ⟨_, rfl⟩
    rw [hexec]
    exact ⟨fun e tv s1 htr => amo_raise hlock htr, fun pa s1 htr hnone => amo_no_device hlock htr hnone⟩
  case load =>
    obtain ⟨r, len, hexec⟩ : ∃ r len, exec p.1 s = loadF r p.2 8 id len s := by
      simp only [List.mem_cons, List.not_mem_nil, or_false] at hp
      rcases hp with rfl | rfl | rfl
      · exact ⟨_, _, exec_fld rd rs1 imm hfld⟩
      · exact ⟨_, _, exec_cFld p1 p2 u5 hfld⟩
      · exact ⟨_, _, exec_cFldsp rd u6 hfld⟩
    rw [hexec]
    exact ⟨fun e tv s1 htr => loadF_of_memRead_raise (memRead_raise htr),
      fun pa s1 htr hnone => loadF_of_memRead_raise (memRead_no_device htr hnone)⟩
  case store =>
    obtain ⟨v, len, hexec⟩ : ∃ v len, exec p.1 s = storeN p.2 8 v len s := by
      simp only [List.mem_cons, List.not_mem_nil, or_false] at hp
      rcases hp with rfl | rfl | rfl
      · exact ⟨_, _, exec_fsd rs1 rs2 imm hfld⟩
      · exact ⟨_, _, exec_cFsd p2 p1 u5 hfld⟩
      · exact ⟨_, _, exec_cFsdsp rd u6 hfld⟩
    rw [hexec]
    exact ⟨fun e tv s1 htr => storeN_of_memWrite_raise (memWrite_raise htr),
      fun pa s1 htr hnone => storeN_of_memWrite_raise (memWrite_no_device htr hnone)⟩

/-- Settles O22: the trap value is the encoding of the instruction. -/
theorem doubleFormsIllegal : Obligations.DoubleFormsIllegal := by
  unfold Obligations.DoubleFormsIllegal
  intro rd rs1 rs2 imm p1 p2 u5 u6 s hfld p hp
  have hzero (h : Half) : h.setWidth 32 = (0#16 : Half) ++ h := BitVec.setWidth_eq_append (by decide)
  obtain ⟨hexec, hword⟩ : exec p.1 s = illegal (s.bitsOf p.1) s ∧ s.bitsOf p.1 = p.2 := by
    simp only [List.mem_cons, List.not_mem_nil, or_false] at hp
    rcases hp with rfl | rfl | rfl | rfl | rfl | rfl
    · exact ⟨exec_double_illegal rd rs1 rs2 imm p1 p2 p1 u5 u6 hfld (by simp), rfl⟩
    · exact ⟨exec_double_illegal rd rs1 rs2 imm p1 p2 p1 u5 u6 hfld (by simp), rfl⟩
    · exact ⟨exec_double_illegal rd rs1 rs2 imm p1 p2 p1 u5 u6 hfld (by simp), hzero _⟩
    · exact ⟨exec_double_illegal rd rs1 rs2 imm p1 p2 p1 u5 u6 hfld (by simp), hzero _⟩
    · exact ⟨exec_double_illegal rd rs1 rs2 imm p1 p2 p1 u5 u6 hfld (by simp), hzero _⟩
    · exact ⟨exec_double_illegal rd rs1 rd imm p1 p2 p1 u5 u6 hfld (by simp), hzero _⟩
  rw [hexec, ← hword]
  exact illegal_raised s _

/-- Settles O60: the shapes through the port, and the port's answer for each kind of device. -/
theorem portAccesses : Obligations.PortAccesses := by
  unfold Obligations.PortAccesses
  simp only [← prime_eq, ← imm12_eq, ← uimmW_eq, ← uimmWsp_eq, ← uimmD_eq, ← uimmDsp_eq]
  refine ⟨?loads, ?stores, ?amos, ?answers⟩
  case loads =>
    intro rd rs1 imm rd' rs1' u5 u6
    have hbox (v : DWord) : boxLoaded v = 0xFFFFFFFF#32 ++ v.extractLsb' 0 32 :=
      congrArg box (word32_eq_extractLsb' v)
    have hlow {n : Nat} (hn : n ≤ 64) (v : DWord) : v.setWidth n = v.extractLsb' 0 n :=
      BitVec.setWidth_eq_extractLsb' hn
    refine ⟨?lb, ?lh, ?lw, ?lbu, ?lhu, ?cLw, ?cLwsp, ?flw, ?cFlw, ?cFlwsp, ?fld, ?cFld, ?cFldsp⟩
    case lb | lh =>
      exact loadsPortX_of_loadX (fun _ => rfl) fun v => congrArg (BitVec.signExtend 32) (hlow (by decide) v)
    case lbu | lhu =>
      exact loadsPortX_of_loadX (fun _ => rfl) fun v => congrArg (BitVec.setWidth 32) (hlow (by decide) v)
    case lw | cLw | cLwsp => exact loadsPortX_of_loadX (fun _ => rfl) word32_eq_extractLsb'
    case flw | cFlw | cFlwsp => exact loadsPortF_of_loadF (fun _ _ => rfl) hbox
    case fld => exact loadsPortF_of_loadF (fun _ h => exec_fld rd rs1 imm (h rfl)) fun _ => rfl
    case cFld => exact loadsPortF_of_loadF (fun _ h => exec_cFld rd' rs1' u5 (h rfl)) fun _ => rfl
    case cFldsp => exact loadsPortF_of_loadF (fun _ h => exec_cFldsp rd u6 (h rfl)) fun _ => rfl
  case stores =>
    intro rs1 rs2 imm rs1' rs2' u5 u6
    have hlow (r : Reg) (s : State) : (s.f32 r).setWidth 64 = ((s.readF r).extractLsb' 0 32).setWidth 64 :=
      congrArg _ (f32_eq_extractLsb' s r)
    refine ⟨?sb, ?sh, ?sw, ?cSw, ?cSwsp, ?fsw, ?cFsw, ?cFswsp, ?fsd, ?cFsd, ?cFsdsp⟩
    case sb | sh | sw | cSw | cSwsp => exact storesPort_of_storeN (fun _ _ => rfl) fun _ => rfl
    case fsw | cFsw | cFswsp => exact storesPort_of_storeN (fun _ _ => rfl) (hlow _)
    case fsd => exact storesPort_of_storeN (fun _ h => exec_fsd rs1 rs2 imm (h rfl)) fun _ => rfl
    case cFsd => exact storesPort_of_storeN (fun _ h => exec_cFsd rs1' rs2' u5 (h rfl)) fun _ => rfl
    case cFsdsp => exact storesPort_of_storeN (fun _ h => exec_cFsdsp rs2 u6 (h rfl)) fun _ => rfl
  case amos =>
    intro rd rs1 rs2 aq rl
    refine ⟨?swap, ?add, ?xor, ?and, ?or, ?min, ?max, ?minu, ?maxu⟩
    case swap | xor | and | or => exact amoPort_of_amo (fun _ => rfl) fun _ _ => rfl
    case add => exact amoPort_of_amo (fun _ => rfl) fun _ _ => BitVec.add_def ..
    case min => exact amoPort_of_amo (fun _ => rfl) amoMinOp_eq
    case max => exact amoPort_of_amo (fun _ => rfl) amoMaxOp_eq
    case minu => exact amoPort_of_amo (fun _ => rfl) amoMinuOp_eq
    case maxu => exact amoPort_of_amo (fun _ => rfl) amoMaxuOp_eq
  case answers =>
    intro s pa n v
    refine ⟨fun h => ⟨_, physRead_bytes h⟩, fun h _ => ⟨_, physWrite_ram v h⟩, physWrite_rom v, fun h hn => ?read,
      fun h hn => ?write, fun h => ?print⟩
    case read =>
      refine ⟨_, ?_, physRead_device h⟩
      rw [lowBytes_eq hn, BitVec.toNat_ofNat]
      exact lt_of_le_of_lt (Nat.mod_le _ _) (Nat.mod_lt _ (Nat.two_pow_pos _))
    case write => rw [physWrite_other v h, deviceWrite, lowBytes_eq hn]
    case print => rw [physWrite_debugPrint v h, printChar, BitVec.setWidth_eq_extractLsb' (by decide)]

end Sys2Proof.Machine
end

section
/-! SUPPORT. The checks of a leaf entry and the two-level walk through tables in RAM or ROM (spec/20_memory.md R97-R102). -/

namespace Sys2Proof.Machine

/-! ## Permissions (R100) -/

theorem pteModeAllows_iff (pte : Word) (p : Priv) (sum : Bool) (acc : AccessKind) :
    pteModeAllows pte p sum acc = true ↔
      (p = .u → pte.getLsbD 4 = true) ∧ (p = .s → pte.getLsbD 4 = true → acc ≠ .x ∧ sum = true) := by
  cases p with
  | u => simp [pteModeAllows]
  | s =>
    simp only [pteModeAllows]
    cases pte.getLsbD 4 <;> simp [and_comm]
  | m => simp [pteModeAllows]

/-- Settles O26: the two checks of R100, each as an iff. -/
theorem permissionRules : Obligations.PermissionRules := by
  unfold Obligations.PermissionRules
  intro pte h acc
  have hbit : pteAllows pte acc = true ↔ (match acc with
      | .r => pte.getLsbD 1 = true
      | .w => pte.getLsbD 2 = true
      | .x => pte.getLsbD 3 = true) := by cases acc <;> exact Iff.rfl
  rw [ptePermits, Bool.and_eq_true, hbit, pteModeAllows_iff]
  exact Iff.rfl

/-! ## The addresses of the walk (R97, R99) -/

theorem append_zero_toNat {n k : Nat} (v : BitVec n) : (v ++ 0#k).toNat = v.toNat * 2 ^ k := by
  rw [BitVec.toNat_append, BitVec.toNat_zero, Nat.or_zero, Nat.shiftLeft_eq]

theorem rootTable_eq (satp : Word) : rootTable satp = BitVec.ofNat 32 (satp.toNat % 2 ^ 22 * 4096) := by
  apply BitVec.eq_of_toNat_eq
  rw [rootTable, append_zero_toNat, BitVec.extractLsb'_toNat, BitVec.toNat_ofNat, Nat.shiftRight_zero]
  omega

theorem pteBase_eq (pte : Word) : pteBase pte = BitVec.ofNat 32 (pte.toNat / 2 ^ 10 * 4096) := by
  apply BitVec.eq_of_toNat_eq
  rw [pteBase, append_zero_toNat, BitVec.extractLsb'_toNat, BitVec.toNat_ofNat, Nat.shiftRight_eq_div_pow]
  omega

theorem pteAddr_eq (a : Word) (vpn : BitVec 10) : pteAddr a vpn = a + BitVec.ofNat 32 (4 * vpn.toNat) := by
  refine congrArg (a + ·) (BitVec.eq_of_toNat_eq ?_)
  have hvpn := vpn.isLt
  rw [BitVec.toNat_setWidth, append_zero_toNat, BitVec.toNat_ofNat]
  omega

theorem toNat_vpn1 (va : Word) : (vpn1 va).toNat = va.toNat / 2 ^ 22 := by
  have hva := va.isLt
  rw [vpn1, BitVec.extractLsb'_toNat, Nat.shiftRight_eq_div_pow]
  omega

theorem toNat_vpn0 (va : Word) : (vpn0 va).toNat = va.toNat / 2 ^ 12 % 2 ^ 10 := by
  rw [vpn0, BitVec.extractLsb'_toNat, Nat.shiftRight_eq_div_pow]

/-! ## The steps of the walk (R97) -/

section
variable {acc : AccessKind} {va a p : Word} {s : State}

/-- What the walk does with the root entry. -/
theorem walk_of_root (hb : s.holdsBytes (pteAddr (rootTable s.hart.satp) (vpn1 va)) 4)
    (hp : BitVec.ofNat 32 (bytesValue s.mem (pteAddr (rootTable s.hart.satp) (vpn1 va)) 4) = p) :
    walk acc va s =
      if !pteValid p then .raise acc.pageFault va s
      else if pteIsPointer p then walkLevel0 acc va (pteBase p) s
      else if ptePpn0 p != 0#10 then .raise acc.pageFault va s
      else walkLeaf acc va p (superpageAddr p va) s := by
  rw [← word32_readN, word32] at hp
  rw [walk, physRead_bytes hb, ← hp]

theorem walkLevel0_of_entry (hb : s.holdsBytes (pteAddr a (vpn0 va)) 4)
    (hp : BitVec.ofNat 32 (bytesValue s.mem (pteAddr a (vpn0 va)) 4) = p) :
    walkLevel0 acc va a s =
      if !pteValid p then .raise acc.pageFault va s else walkLeaf acc va p (leafAddr p va) s := by
  rw [← word32_readN, word32] at hp
  rw [walkLevel0, physRead_bytes hb, ← hp]

theorem walkLeaf_refused {pa : Word} (h : ptePermits p s.hart acc = false) :
    walkLeaf acc va p pa s = .raise acc.pageFault va s := if_neg (Bool.eq_false_iff.1 h)

theorem walkLeaf_permitted {pa : Word} (h : ptePermits p s.hart acc = true) :
    walkLeaf acc va p pa s = .ok pa (fillTlb acc va pa s) := if_pos h

end

/-- Settles O27: a miss is the walk, and the entries of its tables decide it. -/
theorem walkThroughRam : Obligations.WalkThroughRam := by
  unfold Obligations.WalkThroughRam
  intro acc va p1 p0 s hpriv hmode hmiss
  have htrans : s.hart.translates = true := by
    rw [← Bool.not_eq_false, Hart.translates_eq_false_iff, not_or, Nat.not_lt]
    exact ⟨hpriv, hmode⟩
  rw [← TlbEntry.hits_iff, Bool.not_eq_true] at hmiss
  simp only [translate_miss htrans hmiss, ← rootTable_eq, ← pteBase_eq, ← toNat_vpn1, ← toNat_vpn0, ← pteAddr_eq]
  refine ⟨fun hnone => ?_, fun hroot hp1 => ?_⟩
  · rw [walk, physRead_none hnone]
  have hwalk := walk_of_root (acc := acc) hroot hp1
  refine ⟨fun hinvalid => ?_, fun hvalid hleaf => ⟨fun hppn0 => ?_, fun hppn0 => ?_⟩, fun hvalid hptr hb hp0 => ?_,
    fun hvalid hptr hnone => ?_⟩
  · have hv : pteValid p1 = false := hinvalid
    simpa [hv] using hwalk
  · have hv : pteValid p1 = true := hvalid
    have hnot : pteIsPointer p1 = false := beq_eq_false_iff_ne.2 hleaf
    have hbad : ptePpn0 p1 ≠ 0#10 := hppn0
    simpa [hv, hnot, hbad] using hwalk
  · have hv : pteValid p1 = true := hvalid
    have hnot : pteIsPointer p1 = false := beq_eq_false_iff_ne.2 hleaf
    have haligned : ptePpn0 p1 = 0#10 := hppn0
    have hsuper : walk acc va s = walkLeaf acc va p1 (superpageAddr p1 va) s := by
      simpa [hv, hnot, haligned] using hwalk
    rw [hsuper]
    exact ⟨walkLeaf_refused, walkLeaf_permitted⟩
  · have hv : pteValid p1 = true := hvalid
    have hpointer : pteIsPointer p1 = true := beq_iff_eq.2 hptr
    have hlevel0 : walk acc va s = walkLevel0 acc va (pteBase p1) s := by simpa [hv, hpointer] using hwalk
    rw [hlevel0, walkLevel0_of_entry hb hp0]
    refine ⟨fun hinvalid => ?_, fun hvalid0 => ?_⟩
    · have hv0 : pteValid p0 = false := hinvalid
      rw [hv0]; rfl
    · have hv0 : pteValid p0 = true := hvalid0
      rw [hv0]
      exact ⟨walkLeaf_refused, walkLeaf_permitted⟩
  · have hv : pteValid p1 = true := hvalid
    have hpointer : pteIsPointer p1 = true := beq_iff_eq.2 hptr
    have hlevel0 : walk acc va s = walkLevel0 acc va (pteBase p1) s := by simpa [hv, hpointer] using hwalk
    rw [hlevel0, walkLevel0, physRead_none hnone]

end Sys2Proof.Machine
end

section
/-! SUPPORT. What a port write does to memory, and the registers of the CLINT through the port (spec/20_memory.md R81,
R84-R89; spec/60_exceptions.md R461, R462). -/

namespace Sys2Proof.Machine

/-! ## Memory -/

/-- Byte `k` of a store, read back. -/
theorem read_writeN_byte {m : Memory} {pa : Word} {n k : Nat} (hm : Memory.wf m = true) (hp : pa.toNat + n ≤ 2 ^ 32)
    (v : DWord) (hk : k < n) :
    Memory.read (m.writeN pa n v) (pa + BitVec.ofNat 32 k) = v.extractLsb' (8 * k) 8 := by
  have haddr : (pa + BitVec.ofNat 32 k).toNat = pa.toNat + k := by
    rw [BitVec.toNat_add, BitVec.toNat_ofNat]; omega
  rw [Memory.read_writeN m pa n v _ hm hp, haddr, if_pos (by omega), Nat.add_sub_cancel_left]

/-- Settles O28: the port writes memory where it is RAM and nowhere else. -/
theorem portWrites : Obligations.PortWrites := by
  unfold Obligations.PortWrites
  intro pa a n v s t _ hm hw
  by_cases hram : s.holds .ram pa n
  · obtain ⟨_, _, _, _, hp⟩ := id hram
    obtain rfl : { s with mem := s.mem.writeN pa n v } = t := Option.some.inj ((physWrite_ram v hram).symm.trans hw)
    exact ⟨Memory.wf_writeN _ _ _ _ hm, fun _ k hk => read_writeN_byte hm hp v hk,
      fun ha => (Memory.read_writeN s.mem pa n v a hm hp).trans (if_neg ha), fun h => absurd hram h⟩
  · have hmem : t.mem = s.mem := (physWrite_frame hw).2.resolve_right fun h => hram h.1
    rw [hmem]
    exact ⟨hm, fun h => absurd h hram, fun _ => rfl, fun _ => rfl⟩

/-! ## The offsets of the CLINT (R462) -/

section
variable {numHarts i : Nat} (hn : numHarts ≤ 4095) (hi : i < numHarts)
include hn hi

theorem clintReg_msip : clintReg numHarts (4 * i) = some (.msip i) := by
  unfold clintReg
  rw [if_neg (by omega), if_neg (by omega), if_neg (by omega), if_pos (by omega), Nat.mul_div_cancel_left i (by decide),
    if_pos hi]

theorem clintReg_mtimecmpLo : clintReg numHarts (0x4000 + 8 * i) = some (.mtimecmpLo i) := by
  have hidx : (0x4000 + 8 * i - 0x4000) / 8 = i := by omega
  unfold clintReg
  rw [if_neg (by omega), if_neg (by omega), if_neg (by omega), if_neg (by omega), if_pos (by omega), hidx, if_pos hi,
    if_pos (by omega)]

theorem clintReg_mtimecmpHi : clintReg numHarts (0x4004 + 8 * i) = some (.mtimecmpHi i) := by
  have hidx : (0x4004 + 8 * i - 0x4000) / 8 = i := by omega
  unfold clintReg
  rw [if_neg (by omega), if_neg (by omega), if_neg (by omega), if_neg (by omega), if_pos (by omega), hidx, if_pos hi,
    if_neg (by omega)]

end

/-! ## The CLINT behind the port -/

/-- The CLINT `d` answers in its whole 64 KiB window. -/
structure ClintAnswers (cfg : Config) (d : Device) : Prop where
  kind : d.kind = .clint
  size : d.size = 0x10000#32
  fits : d.base.toNat + d.size.toNat ≤ 2 ^ 32
  find : ∀ off, off < 0x10000 → cfg.devices.find? (claims (d.base + BitVec.ofNat 32 off)) = some d

section
variable {s : State} {d : Device} {off n : Nat} (hd : ClintAnswers s.cfg d)
include hd

theorem ClintAnswers.toNat_base_add (hoff : off < 0x10000) :
    (d.base + BitVec.ofNat 32 off).toNat = d.base.toNat + off := by
  have hsize : d.size.toNat = 0x10000 := congrArg BitVec.toNat hd.size
  have hfits := hd.fits
  rw [BitVec.toNat_add, BitVec.toNat_ofNat]
  omega

theorem ClintAnswers.claim_eq (hoff : off < 0x10000) :
    claim s.cfg.devices (d.base + BitVec.ofNat 32 off) n = if off + n ≤ 0x10000 then some d else none := by
  have hsize : d.size.toNat = 0x10000 := congrArg BitVec.toNat hd.size
  have hfits := hd.fits
  unfold claim
  rw [hd.find off hoff]
  refine if_congr ?_ rfl rfl
  rw [hd.toNat_base_add hoff]
  omega

theorem ClintAnswers.physRead_eq (hoff : off < 0x10000) :
    physRead (d.base + BitVec.ofNat 32 off) n s = if off + n ≤ 0x10000 then clintRead off n s else none := by
  unfold physRead
  rw [hd.claim_eq hoff]
  by_cases hfits : off + n ≤ 0x10000
  · simp [hfits, hd.kind, hd.toNat_base_add hoff]
  · simp [hfits]

theorem ClintAnswers.physWrite_eq (hoff : off < 0x10000) (v : DWord) :
    physWrite (d.base + BitVec.ofNat 32 off) n v s = if off + n ≤ 0x10000 then clintWrite off n v s else none := by
  unfold physWrite
  rw [hd.claim_eq hoff]
  by_cases hfits : off + n ≤ 0x10000
  · simp [hfits, hd.kind, hd.toNat_base_add hoff]
  · simp [hfits]

end

theorem lowWord_setWidth (v : Word) : lowWord (v.setWidth 64) = v := by
  apply BitVec.eq_of_toNat_eq
  rw [lowWord, BitVec.extractLsb'_toNat, BitVec.toNat_setWidth_of_le (by decide), Nat.shiftRight_zero,
    Nat.mod_eq_of_lt v.isLt]

/-! ## Harts by number (R10) -/

theorem find?_hartid {l : List Hart} (hnodup : (l.map (fun h => h.hartid)).Nodup) {h : Hart} (hh : h ∈ l) :
    l.find? (fun g => g.hartid == h.hartid) = some h := by
  induction l with
  | nil => cases hh
  | cons a l ih =>
    rw [List.map_cons, List.nodup_cons] at hnodup
    rcases List.mem_cons.1 hh with rfl | htail
    · exact List.find?_cons_of_pos (beq_iff_eq.2 rfl)
    · have hne : a.hartid ≠ h.hartid := fun heq => hnodup.1 (heq ▸ List.mem_map_of_mem htail)
      rw [List.find?_cons_of_neg (by simpa using hne)]
      exact ih hnodup.2 htail

section
variable {s : State} (hnodup : (s.harts.map (fun h => h.hartid)).Nodup)
include hnodup

/-- A hart's number is no other hart's. -/
theorem hartid_ne_of_mem_others {h : Hart} (hh : h ∈ s.others) : h.hartid ≠ s.hart.hartid := by
  rw [State.harts, List.map_cons, List.nodup_cons] at hnodup
  exact fun heq => hnodup.1 (heq ▸ List.mem_map_of_mem hh)

theorem harts_modifyHart (i : Nat) (f : Hart → Hart) :
    (s.modifyHart i f).harts = s.harts.map (fun h => if h.hartid = i then f h else h) := by
  unfold State.modifyHart
  split
  · next hi =>
    have hothers : s.others.map (fun h => if h.hartid = i then f h else h) = s.others :=
      (List.map_congr_left fun h hh => if_neg (hi ▸ hartid_ne_of_mem_others hnodup hh)).trans (List.map_id _)
    rw [State.harts, State.harts, List.map_cons, if_pos hi, hothers]
  · next hi => rw [State.harts, State.harts, List.map_cons, if_neg hi]

theorem hartAt_hartid {h : Hart} (hh : h ∈ s.harts) : s.hartAt h.hartid = h := by
  unfold State.hartAt
  rcases List.mem_cons.1 hh with rfl | hother
  · exact if_pos rfl
  · rw [if_neg (hartid_ne_of_mem_others hnodup hother).symm, find?_hartid (List.nodup_cons.1 hnodup).2 hother]
    rfl

theorem hartSet_modifyHart (i : Nat) (f : Hart → Hart) : HartSet s i f (some (s.modifyHart i f)) := by
  refine ⟨_, rfl, harts_modifyHart hnodup i f, ?_⟩
  unfold State.modifyHart
  split <;> rfl

end

/-! ## The registers through the port (R87, R461, R462) -/

section
variable {s : State} {d : Device} {off : Nat} (hd : ClintAnswers s.cfg d)
include hd

theorem physWrite_clintReg {r : ClintReg} (hoff : off + 4 ≤ 0x10000) (hr : clintReg s.cfg.numHarts off = some r)
    (v : Word) :
    physWrite (d.base + BitVec.ofNat 32 off) 4 (v.setWidth 64) s = some (clintSet s v r) := by
  rw [hd.physWrite_eq (by omega), if_pos hoff, clintWrite, hr]
  exact congrArg (fun w => some (clintSet s w r)) (lowWord_setWidth v)

theorem physRead_clintReg {r : ClintReg} (hoff : off + 4 ≤ 0x10000) (hr : clintReg s.cfg.numHarts off = some r) :
    physRead (d.base + BitVec.ofNat 32 off) 4 s = some ((clintGet s r).setWidth 64, s.advanceClock) := by
  rw [hd.physRead_eq (by omega), if_pos hoff, clintRead, hr]

/-- An 8-byte write is two writes of four bytes, the low word first. -/
theorem physWrite_clint_double (hoff : off + 8 ≤ 0x10000) (v : DWord) :
    physWrite (d.base + BitVec.ofNat 32 off) 8 v s =
      (physWrite (d.base + BitVec.ofNat 32 off) 4 ((lowWord v).setWidth 64) s).bind
        fun u => physWrite (d.base + BitVec.ofNat 32 (off + 4)) 4 ((highWord v).setWidth 64) u := by
  rw [hd.physWrite_eq (by omega), if_pos hoff, clintWrite]
  cases hlo : clintReg s.cfg.numHarts off with
  | none => rw [hd.physWrite_eq (by omega), if_pos (by omega), clintWrite, hlo]; rfl
  | some lo =>
    rw [physWrite_clintReg hd (by omega) hlo, Option.bind_some]
    have hcfg := clintSet_cfg s (lowWord v) lo
    cases hhi : clintReg s.cfg.numHarts (off + 4) with
    | none =>
      rw [← hcfg] at hd hhi
      rw [hd.physWrite_eq (by omega), if_pos (by omega), clintWrite, hhi]
    | some hi =>
      rw [← hcfg] at hd hhi
      rw [physWrite_clintReg hd (by omega) hhi]

theorem physRead_clint_double (hoff : off + 8 ≤ 0x10000) :
    physRead (d.base + BitVec.ofNat 32 off) 8 s =
      (physRead (d.base + BitVec.ofNat 32 off) 4 s).bind fun lo =>
        (physRead (d.base + BitVec.ofNat 32 (off + 4)) 4 lo.2).map
          fun hi => (lowWord hi.1 ++ lowWord lo.1, hi.2) := by
  rw [hd.physRead_eq (by omega), if_pos hoff, clintRead]
  cases hlo : clintReg s.cfg.numHarts off with
  | none => rw [hd.physRead_eq (by omega), if_pos (by omega), clintRead, hlo]; rfl
  | some lo =>
    rw [physRead_clintReg hd (by omega) hlo, Option.bind_some]
    have hd1 : ClintAnswers s.advanceClock.cfg d := hd
    cases hhi : clintReg s.cfg.numHarts (off + 4) with
    | none =>
      have hhi1 : clintReg s.advanceClock.cfg.numHarts (off + 4) = none := hhi
      rw [hd1.physRead_eq (by omega), if_pos (by omega), clintRead, hhi1]; rfl
    | some hi =>
      rw [physRead_clintReg hd1 (by omega) hhi, Option.map_some, lowWord_setWidth, lowWord_setWidth]

/-- An access of 1 or 2 bytes is not answered. -/
theorem phys_clint_narrow {n : Nat} (hoff : off < 0x10000) (hn : n = 1 ∨ n = 2) (v : DWord) :
    physRead (d.base + BitVec.ofNat 32 off) n s = none ∧ physWrite (d.base + BitVec.ofNat 32 off) n v s = none := by
  rw [hd.physRead_eq hoff, hd.physWrite_eq hoff]
  rcases hn with rfl | rfl <;> exact ⟨ite_self _, ite_self _⟩

end

/-- Settles O29: the register at each offset, through the port. -/
theorem clintRegisters : Obligations.ClintRegisters := by
  unfold Obligations.ClintRegisters
  intro s d hkind hsize hfits hfind hmax hperm
  have hd : ClintAnswers s.cfg d := ⟨hkind, hsize, hfits, hfind⟩
  have hnodup : (s.harts.map (fun h => h.hartid)).Nodup := hperm.nodup_iff.2 List.nodup_range
  have hlo : clintReg s.cfg.numHarts 0xBFF8 = some .mtimeLo := by simp [clintReg]
  have hhi : clintReg s.cfg.numHarts 0xBFFC = some .mtimeHi := by simp [clintReg]
  refine ⟨fun v => ⟨physWrite_clintReg hd (by decide) hlo v, physWrite_clintReg hd (by decide) hhi v,
      fun i hi => ⟨?_, ?_, ?_⟩⟩, physRead_clintReg hd (by decide) hlo, physRead_clintReg hd (by decide) hhi,
    fun h hh => ?_, fun off v hoff => ⟨physWrite_clint_double hd hoff v, physRead_clint_double hd hoff⟩,
    fun off n v hoff hn => phys_clint_narrow hd hoff hn v⟩
  · rw [physWrite_clintReg hd (by omega) (clintReg_msip hmax hi) v]
    exact hartSet_modifyHart hnodup _ _
  · rw [physWrite_clintReg hd (by omega) (clintReg_mtimecmpLo hmax hi) v]
    exact hartSet_modifyHart hnodup _ _
  · rw [physWrite_clintReg hd (by omega) (clintReg_mtimecmpHi hmax hi) v]
    exact hartSet_modifyHart hnodup _ _
  · have hi : h.hartid < s.cfg.numHarts := List.mem_range.1 (hperm.subset (List.mem_map_of_mem hh))
    rw [physRead_clintReg hd (by omega) (clintReg_msip hmax hi),
      physRead_clintReg hd (by omega) (clintReg_mtimecmpLo hmax hi),
      physRead_clintReg hd (by omega) (clintReg_mtimecmpHi hmax hi)]
    simp only [clintGet, hartAt_hartid hnodup hh]
    refine ⟨?_, rfl, rfl⟩
    cases h.msip <;> rfl

end Sys2Proof.Machine
end

section
/-! SUPPORT. Registers, the CSRs that store what is written, the CSRs with a form of their own, and the rounding mode
(spec/10_state.md R21, R31, R37-R40, R45-R52, R60-R62; spec/20_memory.md R104; spec/47_f_float.md R342). -/

namespace Sys2Proof.Machine

/-- Settles O6: reading over writing. -/
theorem registerZero : Obligations.RegisterZero := by
  unfold Obligations.RegisterZero
  intro s r q v
  exact ⟨State.readX_zero _, fun hq => (State.readX_setX s r v q).trans (if_congr (and_iff_left hq) rfl rfl)⟩

/-! ## CSR numbers and names (R33) -/

theorem mem_csrTable_of_csrName {n : CsrNum} {c : CsrName} (h : csrName n = some c) :
    (n.toNat, c) ∈ csrTableUS ++ csrTableM := by
  obtain ⟨e, hfind, rfl⟩ := Option.map_eq_some_iff.1 h
  have hn : e.1 = n.toNat := beq_iff_eq.1 (List.find?_some hfind :)
  exact hn ▸ List.mem_of_find?_eq_some hfind

theorem csrName_injective {n m : CsrNum} {c : CsrName} (hn : csrName n = some c) (hm : csrName m = some c) : m = n := by
  have hnodup : ((csrTableUS ++ csrTableM).map Prod.snd).Nodup := by decide
  have heq := List.inj_on_of_nodup_map hnodup (mem_csrTable_of_csrName hm) (mem_csrTable_of_csrName hn) rfl
  exact BitVec.eq_of_toNat_eq (congrArg Prod.fst heq)

/-! ## Plain storage (R31, R39, R40, R45, R46, R48-R50, R52) -/

/-- The CSRs of R33 that are plain storage. -/
def plainNames : List CsrName :=
  [.utvec, .uscratch, .ucause, .utval, .sedeleg, .sideleg, .stvec, .scounteren, .sscratch, .scause, .stval, .satp,
    .medeleg, .mideleg, .mtvec, .mcounteren, .mscratch, .mcause, .mtval]

section
variable {c : CsrName} (hc : c ∈ plainNames) (s : State) (v : Word)
include hc

theorem csrReadNamed_write_plain : csrReadNamed { s with hart := csrWriteNamed s.cfg v s.hart c } c = v := by
  simp only [plainNames, List.mem_cons, List.not_mem_nil, or_false] at hc
  rcases hc with rfl | rfl | rfl | rfl | rfl | rfl | rfl | rfl | rfl | rfl | rfl | rfl | rfl | rfl | rfl | rfl | rfl |
    rfl | rfl <;> rfl

/-- Each is a field of its own, which no other CSR reads. -/
theorem csrReadNamed_write_plain_other {c' : CsrName} (hne : c' ≠ c) :
    csrReadNamed { s with hart := csrWriteNamed s.cfg v s.hart c } c' = csrReadNamed s c' := by
  simp only [plainNames, List.mem_cons, List.not_mem_nil, or_false] at hc
  rcases hc with rfl | rfl | rfl | rfl | rfl | rfl | rfl | rfl | rfl | rfl | rfl | rfl | rfl | rfl | rfl | rfl | rfl |
    rfl | rfl <;> cases c' <;> first | rfl | exact absurd rfl hne

end

theorem csrWriteNamed_csrs (cfg : Config) (v : Word) (h : Hart) (c : CsrName) :
    (csrWriteNamed cfg v h c).csrs = h.csrs := by
  cases c <;> rfl

/-- No CSR with a function reads the storage of the others. -/
theorem csrReadNamed_csrs (s : State) (l : List (Nat × Word)) (c : CsrName) :
    csrReadNamed { s with hart := { s.hart with csrs := l } } c = csrReadNamed s c := by
  cases c <;> rfl

theorem csrRead_unnamed {n : CsrNum} (h : csrName n = none) (s : State) :
    csrRead s n = sparseGet 0#32 n.toNat s.hart.csrs := by
  unfold csrRead; rw [h]

theorem csrWrite_unnamed {n : CsrNum} (h : csrName n = none) (v : Word) (s : State) :
    csrWrite n v s = { s with hart := { s.hart with csrs := sparseSet 0#32 n.toNat v s.hart.csrs } } := by
  unfold csrWrite; rw [h]

/-- Settles O37: a plain CSR is a field of its own, a number without a function a place of its own. -/
theorem plainCsrs : Obligations.PlainCsrs := by
  unfold Obligations.PlainCsrs
  intro s n m v hn hwf
  have hplain : (∃ c ∈ plainNames, csrName n = some c) ∨ csrName n = none := by
    have hnames : [0x005#12, 0x040#12, 0x042#12, 0x043#12, 0x102#12, 0x103#12, 0x105#12, 0x106#12, 0x140#12, 0x142#12,
        0x143#12, 0x180#12, 0x302#12, 0x303#12, 0x305#12, 0x306#12, 0x340#12, 0x342#12, 0x343#12].map csrName =
        plainNames.map some := by rfl
    refine hn.imp_left fun hmem => ?_
    obtain ⟨c, hc, heq⟩ := List.mem_map.1 (hnames ▸ List.mem_map_of_mem (f := csrName) hmem)
    exact ⟨c, hc, heq.symm⟩
  rcases hplain with ⟨c, hc, hname⟩ | hname
  · rw [csrWrite_named hname, csrRead_named hname]
    refine ⟨csrReadNamed_write_plain hc s v, fun hne => ?_⟩
    cases hm : csrName m with
    | some c' =>
      have hcc : c' ≠ c := by rintro rfl; exact hne (csrName_injective hname hm)
      rw [csrRead_named hm, csrRead_named hm, csrReadNamed_write_plain_other hc s v hcc]
    | none =>
      rw [csrRead_unnamed hm, csrRead_unnamed hm]
      exact congrArg _ (csrWriteNamed_csrs ..)
  · rw [csrWrite_unnamed hname, csrRead_unnamed hname]
    refine ⟨(sparseGet_sparseSet _ _ _ _ hwf _).trans (if_pos rfl), fun hne => ?_⟩
    cases hm : csrName m with
    | some c' => rw [csrRead_named hm, csrRead_named hm, csrReadNamed_csrs]
    | none =>
      rw [csrRead_unnamed hm, csrRead_unnamed hm]
      exact (sparseGet_sparseSet _ _ _ _ hwf _).trans (if_neg (mt BitVec.eq_of_toNat_eq hne))

/-! ## CSRs with a form of their own (R37, R38, R47, R51, R60-R62) -/

theorem epcValue_eq (v : Word) : epcValue v = BitVec.ofNat 32 (v.toNat / 2 * 2) := evenTarget_eq v

theorem setWidth_extract_low (v : Word) (n : Nat) :
    (v.extractLsb' 0 n).setWidth 32 = BitVec.ofNat 32 (v.toNat % 2 ^ n) := by
  apply BitVec.eq_of_toNat_eq
  rw [BitVec.toNat_setWidth, BitVec.extractLsb'_toNat, BitVec.toNat_ofNat, Nat.shiftRight_zero]

theorem fcsr_eq (f : BitVec 8) : f.setWidth 32 = ((frmOf f).setWidth 32 <<< 5) + (fflagsOf f).setWidth 32 := by
  decide +revert

theorem fflagsOf_append (a : BitVec 3) (b : BitVec 5) : fflagsOf (a ++ b) = b :=
  (bits_append_low a b (by decide)).trans (bits_self b)

theorem frmOf_append (a : BitVec 3) (b : BitVec 5) : frmOf (a ++ b) = a :=
  (bits_append_high a b 3 (by decide)).trans (bits_self a)

section
variable (s : State)

theorem csrRead_fflags : csrRead s 0x001#12 = (fflagsOf s.hart.fcsr).setWidth 32 :=
  csrRead_named (c := .fflags) (by rfl) s

theorem csrRead_frm : csrRead s 0x002#12 = (frmOf s.hart.fcsr).setWidth 32 := csrRead_named (c := .frm) (by rfl) s

theorem csrRead_fcsr : csrRead s 0x003#12 = s.hart.fcsr.setWidth 32 := csrRead_named (c := .fcsr) (by rfl) s

theorem csrWrite_fflags (v : Word) : csrWrite 0x001#12 v s =
    { s with hart := { s.hart with fcsr := frmOf s.hart.fcsr ++ v.extractLsb' 0 5 } } :=
  csrWrite_named (c := .fflags) (by rfl) v s

theorem csrWrite_frm (v : Word) : csrWrite 0x002#12 v s =
    { s with hart := { s.hart with fcsr := v.extractLsb' 0 3 ++ fflagsOf s.hart.fcsr } } :=
  csrWrite_named (c := .frm) (by rfl) v s

theorem csrWrite_fcsr (v : Word) :
    csrWrite 0x003#12 v s = { s with hart := { s.hart with fcsr := v.extractLsb' 0 8 } } :=
  csrWrite_named (c := .fcsr) (by rfl) v s

end

/-- Settles O40: the read and the write of each number. -/
theorem specialCsrs : Obligations.SpecialCsrs := by
  unfold Obligations.SpecialCsrs
  intro s v
  refine ⟨?xepc, ?fcsr, ?fcsrParts, ?fflags, ?fflagsKeepsFrm, ?frm, ?frmKeepsFflags, ?low, ?high, rfl, rfl, ?writeLow,
    ?writeHigh, rfl, rfl, rfl, rfl, rfl, rfl⟩
  case xepc =>
    rw [← epcValue_eq]
    simp only [List.forall_mem_cons, List.not_mem_nil, false_implies, implies_true, and_true]
    exact ⟨rfl, rfl, rfl⟩
  case fcsr => rw [csrRead_fcsr, csrWrite_fcsr]; exact setWidth_extract_low v _
  case fcsrParts => rw [csrRead_fcsr, csrRead_frm, csrRead_fflags]; exact fcsr_eq _
  case fflags => rw [csrRead_fflags, csrWrite_fflags, fflagsOf_append]; exact setWidth_extract_low v _
  case fflagsKeepsFrm => rw [csrRead_frm, csrRead_frm, csrWrite_fflags, frmOf_append]
  case frm => rw [csrRead_frm, csrWrite_frm, frmOf_append]; exact setWidth_extract_low v _
  case frmKeepsFflags => rw [csrRead_fflags, csrRead_fflags, csrWrite_frm, fflagsOf_append]
  case low | high =>
    simp only [List.forall_mem_cons, List.not_mem_nil, false_implies, implies_true, and_true]
    exact ⟨rfl, rfl, rfl, rfl⟩
  case writeLow | writeHigh =>
    simp only [List.forall_mem_cons, List.not_mem_nil, false_implies, implies_true, and_true]
    exact ⟨rfl, rfl⟩

theorem csrWrite_satp (v : Word) (s : State) : csrWrite 0x180#12 v s = { s with
    hart := { s.hart with satp := v, tlb := if s.cfg.tlbFlushOnSatpWrite then s.hart.tlb.flush else s.hart.tlb } } :=
  csrWrite_named (c := .satp) (by rfl) v s

/-- Settles O41: the write is the value and, under the parameter, the flush. -/
theorem satpWrites : Obligations.SatpWrites := by
  unfold Obligations.SatpWrites
  intro s v
  rw [csrWrite_satp]
  refine ⟨rfl, fun h => if_neg (Bool.eq_false_iff.1 h), fun h p a => ?_, rfl⟩
  simp only [if_pos h]
  exact Tlb.valid_flush _ p a

/-! ## The rounding mode (R62, R342) -/

/-- The modes `frm` selects, as values of `fcsr[7:5]`. -/
theorem ofFrm_frmOf (c : BitVec 8) :
    (c.toNat / 32 = 0 → RoundingMode.ofFrm (frmOf c) = some .rne) ∧
    (c.toNat / 32 = 1 → RoundingMode.ofFrm (frmOf c) = some .rtz) ∧
    (c.toNat / 32 = 2 → RoundingMode.ofFrm (frmOf c) = some .rdn) ∧
    (c.toNat / 32 = 3 → RoundingMode.ofFrm (frmOf c) = some .rup) ∧
    (c.toNat / 32 = 4 → RoundingMode.ofFrm (frmOf c) = some .rmm) ∧
    (5 ≤ c.toNat / 32 → RoundingMode.ofFrm (frmOf c) = none) := by
  decide +revert

/-- Settles O43: the dynamic mode is `frm`'s where it is wired. -/
theorem roundingModeChoice : Obligations.RoundingModeChoice := by
  unfold Obligations.RoundingModeChoice
  intro s
  refine ⟨rfl, rfl, rfl, rfl, rfl, fun h => if_neg (Bool.eq_false_iff.1 h), fun h => ?_, by decide⟩
  have hdyn : s.roundingMode .dyn = RoundingMode.ofFrm (frmOf s.hart.fcsr) := if_pos h
  rw [hdyn]
  exact ofFrm_frmOf s.hart.fcsr

end Sys2Proof.Machine
end

section
/-! SUPPORT. What the effects of an instruction leave of the CSRs and the mode (spec/10_state.md R28, R32, R61;
spec/60_exceptions.md R452, R455, R458). -/

namespace Sys2Proof.Machine

/-! ## The registers only a CSR instruction writes (R61) -/

/-- The CSR state of a hart apart from what trap entry and return write. -/
structure ControlKept (h g : Hart) : Prop where
  fcsr : g.fcsr = h.fcsr
  csrs : g.csrs = h.csrs
  satp : g.satp = h.satp
  medeleg : g.medeleg = h.medeleg
  mideleg : g.mideleg = h.mideleg
  sedeleg : g.sedeleg = h.sedeleg
  sideleg : g.sideleg = h.sideleg
  mie : g.mie = h.mie
  mipSw : g.mipSw = h.mipSw
  mcounteren : g.mcounteren = h.mcounteren
  scounteren : g.scounteren = h.scounteren
  vectors : ∀ l, (g.trapRegs l).tvec = (h.trapRegs l).tvec ∧ (g.trapRegs l).scratch = (h.trapRegs l).scratch
  cycle : g.cycle = h.cycle

theorem ControlKept.trans {h g k : Hart} (a : ControlKept h g) (b : ControlKept g k) : ControlKept h k where
  fcsr := b.fcsr.trans a.fcsr
  csrs := b.csrs.trans a.csrs
  satp := b.satp.trans a.satp
  medeleg := b.medeleg.trans a.medeleg
  mideleg := b.mideleg.trans a.mideleg
  sedeleg := b.sedeleg.trans a.sedeleg
  sideleg := b.sideleg.trans a.sideleg
  mie := b.mie.trans a.mie
  mipSw := b.mipSw.trans a.mipSw
  mcounteren := b.mcounteren.trans a.mcounteren
  scounteren := b.scounteren.trans a.scounteren
  vectors l := ⟨(b.vectors l).1.trans (a.vectors l).1, (b.vectors l).2.trans (a.vectors l).2⟩
  cycle := b.cycle.trans a.cycle

theorem Plain.control {s t : State} (h : Plain s t) : ControlKept s.hart t.hart where
  fcsr := (congrArg Hart.fcsr h.hart :)
  csrs := (congrArg Hart.csrs h.hart :)
  satp := (congrArg Hart.satp h.hart :)
  medeleg := (congrArg Hart.medeleg h.hart :)
  mideleg := (congrArg Hart.mideleg h.hart :)
  sedeleg := (congrArg Hart.sedeleg h.hart :)
  sideleg := (congrArg Hart.sideleg h.hart :)
  mie := (congrArg Hart.mie h.hart :)
  mipSw := (congrArg Hart.mipSw h.hart :)
  mcounteren := (congrArg Hart.mcounteren h.hart :)
  scounteren := (congrArg Hart.scounteren h.hart :)
  vectors l := h.trapRegs l ▸ ⟨rfl, rfl⟩
  cycle := (congrArg Hart.cycle h.hart :)

theorem TrapEntry.control {s t : State} {tgt : Priv} {c : Cause} {epc tval : Word} (h : TrapEntry s t tgt c epc tval) :
    ControlKept s.hart t.hart where
  fcsr := (congrArg (fun u : State => u.hart.fcsr) h.rest :)
  csrs := (congrArg (fun u : State => u.hart.csrs) h.rest :)
  satp := (congrArg (fun u : State => u.hart.satp) h.rest :)
  medeleg := (congrArg (fun u : State => u.hart.medeleg) h.rest :)
  mideleg := (congrArg (fun u : State => u.hart.mideleg) h.rest :)
  sedeleg := (congrArg (fun u : State => u.hart.sedeleg) h.rest :)
  sideleg := (congrArg (fun u : State => u.hart.sideleg) h.rest :)
  mie := (congrArg (fun u : State => u.hart.mie) h.rest :)
  mipSw := (congrArg (fun u : State => u.hart.mipSw) h.rest :)
  mcounteren := (congrArg (fun u : State => u.hart.mcounteren) h.rest :)
  scounteren := (congrArg (fun u : State => u.hart.scounteren) h.rest :)
  vectors l := by
    by_cases hl : l = tgt
    · subst hl; exact ⟨h.tvec, h.scratch⟩
    · rw [h.otherLevels l hl]; exact ⟨rfl, rfl⟩
  cycle := (congrArg (fun u : State => u.hart.cycle) h.rest :)

theorem controlKept_leaveTrap (l : Priv) (h : Hart) : ControlKept h (h.leaveTrap l) :=
  ⟨rfl, rfl, rfl, rfl, rfl, rfl, rfl, rfl, rfl, rfl, rfl, fun _ => ⟨rfl, rfl⟩, rfl⟩

theorem controlKept_haltHart (s : State) : ControlKept s.hart (haltHart s).hart :=
  ⟨rfl, rfl, rfl, rfl, rfl, rfl, rfl, rfl, rfl, rfl, rfl, fun _ => ⟨rfl, rfl⟩, rfl⟩

theorem Effect.control {i : Instr} {s t : State} (h : Effect i s t) (hi : isCsrInstr i = false) :
    ControlKept s.hart t.hart := by
  cases h with
  | plain h _ => exact h.control
  | raised e tv h _ => exact h.control.trans (raise_raised _ e tv).control
  | returned l _ _ => exact controlKept_leaveTrap l s.hart
  | halted => exact controlKept_haltHart s
  | csr n v w rd hn _ => rw [isCsrInstr_of_csrWritten hn] at hi; cases hi

/-- Settles O49: every effect but a CSR write keeps the control registers. -/
theorem flagsChangeOnlyByCsrWrite : Obligations.FlagsChangeOnlyByCsrWrite := by
  unfold Obligations.FlagsChangeOnlyByCsrWrite
  intro i s t hi hexec
  obtain ⟨t', hexec', heff⟩ := exec_cases i s
  obtain rfl : t' = t := Host.Outcome.next.inj (hexec'.symm.trans hexec)
  obtain ⟨h1, h2, h3, h4, h5, h6, h7, h8, h9, h10, h11, h12, h13⟩ := heff.control hi
  exact ⟨h1, h2, h3, h4, h5, h6, h7, h8, h9, h10, h11, h12, h13⟩

/-! ## The mode (R28, R458) -/

theorem Priv.eq_of_level_eq {p q : Priv} (h : p.level = q.level) : p = q := by
  cases p <;> cases q <;> first | rfl | cases h

theorem returnPriv_level_le (l : Priv) (w : Word) : (returnPriv l w).level ≤ l.level := by
  cases l with
  | u => exact Nat.le_refl _
  | s =>
    unfold returnPriv
    dsimp only
    split <;> decide
  | m => cases returnPriv .m w <;> decide

theorem csrWriteNamed_priv (cfg : Config) (v : Word) (h : Hart) (c : CsrName) :
    (csrWriteNamed cfg v h c).priv = h.priv := by
  cases c <;> rfl

theorem csrWrite_priv_hart (n : CsrNum) (v : Word) (s : State) : (csrWrite n v s).hart.priv = s.hart.priv := by
  unfold csrWrite
  split
  · exact csrWriteNamed_priv ..
  · rfl

theorem and_even_mask {v : Word} (h : v.getLsbD 0 = false) : v &&& 0xFFFFFFFE#32 = v := by
  have heven : v.toNat % 2 = 0 := by
    rw [BitVec.getLsbD, Nat.testBit_zero, decide_eq_false_iff_not] at h
    omega
  change evenTarget v = v
  rw [evenTarget_eq, Nat.div_mul_cancel (Nat.dvd_of_mod_eq_zero heven), ofNat_toNat_self]

/-- An exception is handled at the mode's level or above, and saves `pc`. -/
theorem raise_level_le (e : Exception) (tv : Word) (s : State) : s.hart.priv.level ≤ (raise e tv s).hart.priv.level := by
  rw [(raise_raised s e tv).priv, Hart.trapTarget_exception]
  exact Priv.level_le_level_max _ _

theorem raise_epc (e : Exception) (tv : Word) {s : State} (heven : s.hart.pc.getLsbD 0 = false) :
    ((raise e tv s).hart.trapRegs (raise e tv s).hart.priv).epc = s.hart.pc := by
  have hr := raise_raised s e tv
  rw [hr.priv, hr.epc, and_even_mask heven]

theorem csrEffect_priv (n : CsrNum) (v w : Word) (rd : Reg) (s : State) :
    (((csrWrite n v s).setX rd w).advance 4#32).hart.priv = s.hart.priv :=
  ((Plain.setX _ rd w).trans (.setPc _ _)).priv.trans (csrWrite_priv_hart n v s)

/-- Settles O50: a return goes to a mode not above its level, an exception to one not below the mode. -/
theorem modeChanges : Obligations.ModeChanges := by
  unfold Obligations.ModeChanges
  intro i s t heven hexec hne
  obtain ⟨t', hexec', heff⟩ := exec_cases i s
  obtain rfl : t' = t := Host.Outcome.next.inj (hexec'.symm.trans hexec)
  have hlevel : t'.hart.priv.level ≠ s.hart.priv.level := fun h => hne (Priv.eq_of_level_eq h)
  cases heff with
  | plain h _ => exact absurd h.priv hne
  | @raised s1 e tv h hpc =>
    refine .inr ⟨lt_of_le_of_ne (h.priv ▸ raise_level_le e tv s1) hlevel.symm, ?_⟩
    rw [raise_epc e tv (hpc ▸ heven), hpc]
  | returned l hi hl => exact .inl ⟨hi, lt_of_le_of_ne ((returnPriv_level_le l _).trans hl) hlevel⟩
  | halted => exact absurd rfl hne
  | csr n v w rd _ _ => exact absurd (csrEffect_priv n v w rd s) hne

/-! ## What U mode cannot touch (R32, R458) -/

/-- The state of the levels above U is the same. -/
structure UpperKept (h g : Hart) : Prop where
  mtrap : g.mtrap = h.mtrap
  strap : g.strap = h.strap
  satp : g.satp = h.satp
  medeleg : g.medeleg = h.medeleg
  mideleg : g.mideleg = h.mideleg
  sedeleg : g.sedeleg = h.sedeleg
  sideleg : g.sideleg = h.sideleg
  mcounteren : g.mcounteren = h.mcounteren
  scounteren : g.scounteren = h.scounteren
  cycle : g.cycle = h.cycle
  mstatus : ∀ k, k ≠ 0 → k ≠ 4 → g.mstatus.getLsbD k = h.mstatus.getLsbD k
  mie : ∀ k, (0x111#32 : Word).getLsbD k = false → g.mie.getLsbD k = h.mie.getLsbD k
  mipSw : ∀ k, k ≠ 0 → g.mipSw.getLsbD k = h.mipSw.getLsbD k
  csrs : ∀ n : CsrNum, 1 ≤ n.toNat / 256 % 4 → sparseGet 0#32 n.toNat g.csrs = sparseGet 0#32 n.toNat h.csrs

theorem UpperKept.trans {h g k : Hart} (a : UpperKept h g) (b : UpperKept g k) : UpperKept h k where
  mtrap := b.mtrap.trans a.mtrap
  strap := b.strap.trans a.strap
  satp := b.satp.trans a.satp
  medeleg := b.medeleg.trans a.medeleg
  mideleg := b.mideleg.trans a.mideleg
  sedeleg := b.sedeleg.trans a.sedeleg
  sideleg := b.sideleg.trans a.sideleg
  mcounteren := b.mcounteren.trans a.mcounteren
  scounteren := b.scounteren.trans a.scounteren
  cycle := b.cycle.trans a.cycle
  mstatus i h0 h4 := (b.mstatus i h0 h4).trans (a.mstatus i h0 h4)
  mie i hi := (b.mie i hi).trans (a.mie i hi)
  mipSw i hi := (b.mipSw i hi).trans (a.mipSw i hi)
  csrs n hn := (b.csrs n hn).trans (a.csrs n hn)

/-- Where the control registers are kept, the trap registers and `mstatus` remain to be seen. -/
theorem ControlKept.upper {h g : Hart} (k : ControlKept h g) (hm : g.mtrap = h.mtrap) (hs : g.strap = h.strap)
    (hst : ∀ k, k ≠ 0 → k ≠ 4 → g.mstatus.getLsbD k = h.mstatus.getLsbD k) : UpperKept h g where
  mtrap := hm
  strap := hs
  satp := k.satp
  medeleg := k.medeleg
  mideleg := k.mideleg
  sedeleg := k.sedeleg
  sideleg := k.sideleg
  mcounteren := k.mcounteren
  scounteren := k.scounteren
  cycle := k.cycle
  mstatus := hst
  mie _ _ := by rw [k.mie]
  mipSw _ _ := by rw [k.mipSw]
  csrs _ _ := by rw [k.csrs]

theorem Plain.upper {s t : State} (h : Plain s t) : UpperKept s.hart t.hart :=
  h.control.upper (h.trapRegs .m) (h.trapRegs .s) fun k _ _ => by rw [h.mstatus]

theorem TrapEntry.upper_of_u {s t : State} {c : Cause} {epc tval : Word} (h : TrapEntry s t .u c epc tval) :
    UpperKept s.hart t.hart :=
  h.control.upper (h.otherLevels .m (by decide)) (h.otherLevels .s (by decide)) fun k h0 h4 =>
    h.status k (by simp [statusBits, h0, h4])

theorem upperKept_leaveTrap_u (h : Hart) : UpperKept h (h.leaveTrap .u) :=
  (controlKept_leaveTrap .u h).upper rfl rfl fun k h0 h4 =>
    (getLsbD_mstatusOnReturn .u h.mstatus (by simp [Priv.xppBits])).trans
      ((if_neg h4).trans (if_neg h0))

theorem UpperKept.refl (h : Hart) : UpperKept h h :=
  ⟨rfl, rfl, rfl, rfl, rfl, rfl, rfl, rfl, rfl, rfl, fun _ _ _ => rfl, fun _ _ => rfl, fun _ _ => rfl, fun _ _ => rfl⟩

/-- The CSRs with a function that U mode can write. -/
def userNames : List CsrName :=
  [.ustatus, .fflags, .frm, .fcsr, .uie, .utvec, .uscratch, .uepc, .ucause, .utval, .uip]

/-- A number that needs no level and is not read-only names one of them (R32, R33). -/
theorem mem_userNames {n : CsrNum} {c : CsrName} (hname : csrName n = some c) (hlevel : n.toNat / 256 % 4 = 0)
    (hwritable : n.toNat / 1024 ≠ 3) : c ∈ userNames := by
  have htable : ∀ e ∈ csrTableUS ++ csrTableM, e.1 / 256 % 4 = 0 → e.1 / 1024 ≠ 3 → e.2 ∈ userNames := by decide
  exact htable _ (mem_csrTable_of_csrName hname) hlevel hwritable

theorem upperKept_csrWriteNamed {c : CsrName} (hc : c ∈ userNames) (cfg : Config) (v : Word) (h : Hart) :
    UpperKept h (csrWriteNamed cfg v h c) := by
  simp only [userNames, List.mem_cons, List.not_mem_nil, or_false] at hc
  rcases hc with rfl | rfl | rfl | rfl | rfl | rfl | rfl | rfl | rfl | rfl | rfl
  case inl =>
    refine { UpperKept.refl h with mstatus := fun k h0 h4 => (getLsbD_maskedWrite ..).trans (if_neg ?_) }
    have hlow : ∀ k < 32, k ≠ 0 → k ≠ 4 → (0x00000011#32).getLsbD k = false := by decide
    rcases Nat.lt_or_ge k 32 with hk | hk
    · exact Bool.eq_false_iff.1 (hlow k hk h0 h4)
    · exact Bool.eq_false_iff.1 (BitVec.getLsbD_of_ge _ k hk)
  case inr.inr.inr.inr.inl =>
    exact { UpperKept.refl h with
      mie := fun k hk => (getLsbD_maskedWrite ..).trans (if_neg (Bool.eq_false_iff.1 hk)) }
  case inr.inr.inr.inr.inr.inr.inr.inr.inr.inr =>
    exact { UpperKept.refl h with mipSw := fun k hk => (getLsbD_maskedWrite_one ..).trans (if_neg hk) }
  all_goals exact { UpperKept.refl h with }

theorem upperKept_csrWrite {n : CsrNum} {s : State} (hu : s.hart.priv = .u) (ha : csrAllowed s n true = true)
    (hwf : sparseWf 0#32 s.hart.csrs = true) (v : Word) : UpperKept s.hart (csrWrite n v s).hart := by
  obtain ⟨hlevel, hwritable⟩ := (csrAllowed_iff s n true).1 ha
  rw [hu] at hlevel
  have hzero : n.toNat / 256 % 4 = 0 := Nat.le_zero.1 hlevel
  cases hname : csrName n with
  | some c =>
    rw [csrWrite_named hname]
    exact upperKept_csrWriteNamed (mem_userNames hname hzero fun h => hwritable ⟨rfl, h⟩) s.cfg v s.hart
  | none =>
    rw [csrWrite_unnamed hname]
    refine { UpperKept.refl s.hart with csrs := fun m hm => ?_ }
    have hne : m.toNat ≠ n.toNat := fun h => by rw [h, hzero] at hm; omega
    exact (sparseGet_sparseSet _ _ _ _ hwf _).trans (if_neg hne)

/-- Settles O51: a trap taken to U writes U's registers, and the CSRs U mode may write are U's. -/
theorem userModeIsolation : Obligations.UserModeIsolation := by
  unfold Obligations.UserModeIsolation
  intro i s t hu hexec hstay hwf
  obtain ⟨t', hexec', heff⟩ := exec_cases i s
  obtain rfl : t' = t := Host.Outcome.next.inj (hexec'.symm.trans hexec)
  have hkept : UpperKept s.hart t'.hart := by
    cases heff with
    | plain h _ => exact h.upper
    | @raised s1 e tv h _ =>
      have hr := raise_raised s1 e tv
      have htgt : s1.hart.trapTarget (.exception e) = .u := hr.priv.symm.trans hstay
      rw [Raised, htgt] at hr
      exact h.upper.trans hr.upper_of_u
    | returned l _ hl =>
      obtain rfl : l = .u := by
        rw [hu] at hl
        exact Priv.eq_of_level_eq (Nat.le_zero.1 hl)
      exact upperKept_leaveTrap_u s.hart
    | halted => exact (controlKept_haltHart s).upper rfl rfl fun _ _ _ => rfl
    | csr n v w rd _ ha =>
      exact (upperKept_csrWrite hu ha hwf v).trans ((Plain.setX _ rd w).trans (.setPc _ _)).upper
  obtain ⟨h1, h2, h3, h4, h5, h6, h7, h8, h9, h10, h11, h12, h13, hcsrs⟩ := hkept
  refine ⟨h1, h2, h3, h4, h5, h6, h7, h8, h9, h10, h11, h12, h13, fun n hname hn => ?_⟩
  rw [csrRead_unnamed hname, csrRead_unnamed hname, hcsrs n hn]

end Sys2Proof.Machine
end

section
/-! SUPPORT. Reset, Break, and one step: what it runs, what a failed fetch raises, and what it counts (spec/10_state.md R29,
R75; spec/43_fence_system.md R263-R267; spec/60_exceptions.md R441-R443, R471; spec/70_reset_and_hazards.md R510). -/

namespace Sys2Proof.Machine

/-! ## Reset (R75) -/

theorem hartids_resetFrom (cfg : Config) (i n : Nat) :
    (Hart.resetFrom cfg i n).map (fun h => h.hartid) = List.range' i n := by
  induction n generalizing i with
  | zero => rfl
  | succ n ih => rw [Hart.resetFrom, List.map_cons, ih, List.range'_succ]; rfl

theorem harts_resetWith {cfg : Config} (hcfg : cfg.wf = true) :
    (State.resetWith cfg).harts = Hart.resetFrom cfg 0 cfg.numHarts := by
  have hone : 1 ≤ cfg.numHarts := by
    simp only [Config.wf, Bool.and_eq_true, decide_eq_true_eq] at hcfg
    exact hcfg.1.1.1.1
  obtain ⟨n, hn⟩ := Nat.exists_eq_add_of_le' hone
  rw [hn, Hart.resetFrom, State.harts, State.resetWith, hn]
  rfl

theorem eq_reset_of_mem_resetFrom {cfg : Config} {i n : Nat} {h : Hart} (hh : h ∈ Hart.resetFrom cfg i n) :
    ∃ j, h = Hart.reset cfg j := by
  induction n generalizing i with
  | zero => cases hh
  | succ n ih =>
    rcases List.mem_cons.1 hh with rfl | htail
    · exact ⟨i, rfl⟩
    · exact ih htail

theorem eq_reset_of_mem_harts {cfg : Config} (hcfg : cfg.wf = true) {h : Hart} (hh : h ∈ (State.resetWith cfg).harts) :
    ∃ j, h = Hart.reset cfg j := eq_reset_of_mem_resetFrom (harts_resetWith hcfg ▸ hh)

theorem Hart.legal_reset {cfg : Config} (hcfg : cfg.wf = true) (i : Nat) : (Hart.reset cfg i).Legal where
  x0 := rfl
  pcEven := by
    simp only [Config.wf, Bool.and_eq_true, Bool.not_eq_true'] at hcfg
    exact hcfg.1.1.2
  statusMask := BitVec.zero_and
  mppLegal := (by decide : mppField 0#32 ≠ 2#2)
  mieMask := BitVec.zero_and
  mipMask := BitVec.zero_and
  epcEven l := by cases l <;> exact BitVec.getLsbD_zero
  csrsWf := rfl
  csrsPlain _ he := nomatch he
  tlbM a := by cases a <;> rfl

theorem inv_resetWith {cfg : Config} (hcfg : cfg.wf = true) : (State.resetWith cfg).Inv where
  cfg := hcfg
  mem := rfl
  lock := rfl
  numbers := by
    rw [harts_resetWith hcfg, hartids_resetFrom, ← List.range_eq_range']
    exact .refl _
  harts h hh := by
    obtain ⟨j, rfl⟩ := eq_reset_of_mem_harts hcfg hh
    exact Hart.legal_reset hcfg j

/-- Settles O56: the reset values are legal, and no hart is halted. -/
theorem resetHasInvariant : Obligations.ResetHasInvariant := by
  unfold Obligations.ResetHasInvariant
  exact ⟨inv_resetWith (by decide), fun cfg hcfg => ⟨inv_resetWith hcfg, _, List.mem_cons_self, rfl⟩⟩

/-- Settles O59: every hart is a hart at its reset values. -/
theorem resetState : Obligations.ResetState := by
  unfold Obligations.ResetState
  intro cfg hcfg h hh
  obtain ⟨j, rfl⟩ := eq_reset_of_mem_harts hcfg hh
  have hlength : (State.resetWith cfg).harts.length = cfg.numHarts := by
    rw [harts_resetWith hcfg, ← List.length_map (f := fun h => h.hartid), hartids_resetFrom, List.length_range']
  refine ⟨rfl, rfl, fun k => ?_, fun k => ?_, rfl, rfl, rfl, rfl, rfl, rfl, rfl, rfl, rfl, fun l => ?_, rfl, rfl, rfl, rfl,
    fun n hn => ?_, fun p a => ?_, rfl, rfl, rfl, rfl, hlength, rfl⟩
  · exact Vector.getElem_replicate k.isLt
  · exact Vector.getElem_replicate k.isLt
  · cases l <;> rfl
  · exact csrRead_unnamed hn _
  · cases p <;> cases a <;> rfl

/-! ## Break (R263, R266, R267) -/

/-- Settles O32: `Break` sets one flag. -/
theorem breakHalts : Obligations.BreakHalts := by
  unfold Obligations.BreakHalts
  intro s
  refine ⟨⟨haltHart s, rfl, rfl, rfl, rfl, fun hothers => ?_⟩, fun htraps i hi => ?_, fun htraps i hi => ?_⟩
  · have hnone : (haltHart s).selectHart = none := by
      unfold State.selectHart
      rw [show (haltHart s).others = [] from hothers]
      rfl
    rw [step, hnone]
  · have hbreak : breakpoint s = .next (haltHart s) := by rw [breakpoint, htraps]; rfl
    simp only [List.mem_cons, List.not_mem_nil, or_false] at hi
    rcases hi with rfl | rfl <;> exact hbreak
  · have hbreak : breakpoint s = .next (raise .breakpoint s.hart.pc s) := by rw [breakpoint, htraps]; rfl
    simp only [List.mem_cons, List.not_mem_nil, or_false] at hi
    rcases hi with rfl | rfl <;> exact ⟨_, hbreak, raise_raised ..⟩

/-! ## The instruction step (R510) -/

section
variable {s u : State} {r : RawInstr} {i : Instr}

theorem instructionStep_of_exec {t : State} (hf : fetchInstr s = .ok r u) (hd : decodeRaw u.cfg r = some i)
    (he : exec i u = .next t) : instructionStep s = .next t.endStep := by
  unfold instructionStep
  rw [hf]
  simp only [hd, he]

theorem instructionStep_of_illegal (hf : fetchInstr s = .ok r u) (hd : decodeRaw u.cfg r = none) :
    instructionStep s = .next (raise .illegalInstruction r.trapValue u).countStep := by
  unfold instructionStep
  rw [hf]
  simp only [hd]

theorem instructionStep_of_fetchFault {e : Exception} {tv : Word} (hf : fetchInstr s = .raise e tv u) :
    instructionStep s = .next (raise e tv u).countStep := by
  unfold instructionStep
  rw [hf]

end

theorem step_of_noInterrupt {s s1 : State} (hsel : s.selectHart = some s1)
    (hint : s1.environment.interruptTaken = none) :
    step s = instructionStep s1.environment.afterCheck.environment :=
  (step_of_selectHart hsel).trans (hartStep_of_noInterrupt hint)

theorem instructionStep_total (s : State) : ∃ t, instructionStep s = .next t := by
  cases hf : fetchInstr s with
  | raise e tv u => exact ⟨_, instructionStep_of_fetchFault hf⟩
  | ok r u =>
    cases hd : decodeRaw u.cfg r with
    | none => exact ⟨_, instructionStep_of_illegal hf hd⟩
    | some i =>
      obtain ⟨t, he, -⟩ := exec_cases i u
      exact ⟨_, instructionStep_of_exec hf hd he⟩

theorem hartStep_total (s : State) : ∃ t, hartStep s = .next t := by
  cases hi : s.environment.interruptTaken with
  | some i => exact ⟨_, hartStep_of_interrupt hi⟩
  | none =>
    rw [hartStep_of_noInterrupt hi]
    exact instructionStep_total _

/-! ## Choosing a hart (R119, R266) -/

theorem pickRunning_isSome {k : Nat} {l : List Hart} (h : k < runningCount l) : ∃ p, pickRunning k l = some p := by
  induction l generalizing k with
  | nil => exact absurd h (Nat.not_lt_zero k)
  | cons a l ih =>
    have hskip {k : Nat} (hk : k < runningCount l) :
        ∃ p, (pickRunning k l).map (fun p => (p.1, a :: p.2)) = some p := by
      obtain ⟨p, hp⟩ := ih hk
      exact ⟨_, by rw [hp]; rfl⟩
    unfold pickRunning
    cases ha : a.halted with
    | true => exact hskip (by simpa [runningCount, ha] using h)
    | false =>
      cases k with
      | zero => exact ⟨_, rfl⟩
      | succ k => exact hskip (by simpa [runningCount, ha] using h)

theorem pickRunning_eq_none {k : Nat} {l : List Hart} (h : ∀ a ∈ l, a.halted = true) : pickRunning k l = none := by
  induction l with
  | nil => rfl
  | cons a l ih =>
    obtain ⟨ha, hl⟩ := List.forall_mem_cons.1 h
    unfold pickRunning
    rw [if_pos ha, ih hl]
    rfl

theorem selectHart_of_running {s : State} (h : s.running) : ∃ t, s.selectHart = some t := by
  unfold State.selectHart
  split
  · next hothers =>
    obtain ⟨a, ha, hrun⟩ := h
    rw [State.harts, hothers, List.mem_singleton] at ha
    exact ⟨s, by rw [← ha, hrun]; rfl⟩
  · next others =>
    have hpos : 0 < runningCount (s.hart :: s.others) := by
      obtain ⟨a, ha, hrun⟩ := h
      exact List.countP_pos_iff.2 ⟨a, ha, by rw [hrun]; rfl⟩
    obtain ⟨p, hp⟩ := pickRunning_isSome (Nat.mod_lt (Config.freeHart s.draws) hpos)
    rw [hp]
    exact ⟨_, rfl⟩

theorem selectHart_of_not_running {s : State} (h : ¬ s.running) : s.selectHart = none := by
  have hall : ∀ a ∈ s.hart :: s.others, a.halted = true := fun a ha =>
    Bool.not_eq_false _ ▸ fun hrun => h ⟨a, ha, hrun⟩
  unfold State.selectHart
  split
  · exact if_pos (hall _ List.mem_cons_self)
  · rw [pickRunning_eq_none hall]

/-- Settles O58: a running hart is chosen where there is one, and each part of a step answers. -/
theorem runningStateSteps : Obligations.RunningStateSteps := by
  unfold Obligations.RunningStateSteps
  refine ⟨fun i s => (exec_cases i s).imp fun _ h => h.1, fun s => ⟨fun hrun => ?_, fun hnot => ?_⟩⟩
  · obtain ⟨s1, hsel⟩ := selectHart_of_running hrun
    rw [step_of_selectHart hsel]
    exact hartStep_total s1
  · rw [step, selectHart_of_not_running hnot]

/-! ## The fetch (R92, R93) -/

/-- A fault of a parcel's fetch names the parcel's address. -/
theorem fetch16_raise {va tv : Word} {e : Exception} {s s1 : State} (h : fetch16 va s = .raise e tv s1) :
    tv = va ∧ (e = .instructionPageFault ∨ e = .instructionAccessFault) := by
  unfold fetch16 readVia at h
  cases htr : translate .x va s with
  | raise e' tv' s' =>
    rw [htr] at h
    cases h
    obtain ⟨htv, he, -⟩ := translate_raise htr
    exact ⟨htv, he⟩
  | ok pa s' =>
    rw [htr] at h
    cases hrd : physRead pa 2 s' with
    | none =>
      simp only [hrd] at h
      cases h
      exact ⟨rfl, .inr rfl⟩
    | some p =>
      simp only [hrd] at h
      cases h

theorem fetchInstr_raise {e : Exception} {tv : Word} {s s1 : State} (h : fetchInstr s = .raise e tv s1) :
    (e = .instructionPageFault ∨ e = .instructionAccessFault) ∧ (tv = s.hart.pc ∨ tv = s.hart.pc + 2#32) := by
  unfold fetchInstr at h
  split at h
  · next hlo =>
    cases h
    obtain ⟨htv, he⟩ := fetch16_raise hlo
    exact ⟨he, .inl htv⟩
  · split at h
    · cases h
    · split at h
      · next hhi =>
        cases h
        obtain ⟨htv, he⟩ := fetch16_raise hhi
        exact ⟨he, .inr htv⟩
      · cases h

/-- Settles O53: the exception is raised from what the fetch left, and counted. -/
theorem stepRaisesFetchFaults : Obligations.StepRaisesFetchFaults := by
  unfold Obligations.StepRaisesFetchFaults
  intro s s1 hsel hint
  rw [step_of_noInterrupt hsel hint]
  refine ⟨fun r u1 hf hd => ⟨_, instructionStep_of_illegal hf hd, ?_⟩,
    fun e tv u1 hf => ⟨_, instructionStep_of_fetchFault hf, raise_raised ..⟩, fun e tv u1 hf => fetchInstr_raise hf⟩
  cases r <;> exact raise_raised ..

theorem setWidth_readN_two (m : Memory) (a : Word) :
    (m.readN a 2).setWidth 16 = Memory.read m (a + 1#32) ++ Memory.read m a := by
  have hlo := (Memory.read m a).isLt
  have hhi := (Memory.read m (a + 1#32)).isLt
  apply BitVec.eq_of_toNat_eq
  rw [BitVec.toNat_setWidth, (Memory.toNat_readN m a 2 (by decide)).1, BitVec.toNat_append,
    ← Nat.shiftLeft_add_eq_or_of_lt hlo, Nat.shiftLeft_eq]
  simp only [bytesValue]
  omega

/-- An untranslated fetch of a parcel reads its two bytes. -/
theorem fetch16_bytes {va : Word} {s : State} (htr : s.hart.translates = false) (hb : s.holdsBytes va 2) :
    fetch16 va s = .ok (Memory.read s.mem (va + 1#32) ++ Memory.read s.mem va) s := by
  rw [fetch16, readVia, translate_identity htr]
  simp only [physRead_bytes hb, setWidth_readN_two]

/-- What the bytes at an untranslated `pc` decode to, the fetched word decodes to. -/
theorem fetchInstr_of_decode {s : State} {i : Instr} {rest : List Byte} (htr : s.hart.translates = false)
    (hlo : s.holdsBytes s.hart.pc 2) (hhi : s.holdsBytes (s.hart.pc + 2#32) 2)
    (hd : decode s.cfg [Memory.read s.mem s.hart.pc, Memory.read s.mem (s.hart.pc + 1#32),
      Memory.read s.mem (s.hart.pc + 2#32), Memory.read s.mem (s.hart.pc + 3#32)] = .ok (i, rest)) :
    ∃ r, fetchInstr s = .ok r s ∧ decodeRaw s.cfg r = some i := by
  have hpc3 : s.hart.pc + 2#32 + 1#32 = s.hart.pc + 3#32 := BitVec.add_assoc ..
  have hfetchLo := fetch16_bytes htr hlo
  have hfetchHi := fetch16_bytes htr hhi
  rw [hpc3] at hfetchHi
  generalize Memory.read s.mem s.hart.pc = b0, Memory.read s.mem (s.hart.pc + 1#32) = b1,
    Memory.read s.mem (s.hart.pc + 2#32) = b2, Memory.read s.mem (s.hart.pc + 3#32) = b3 at *
  simp only [decode] at hd
  cases hshort : isShort (b1 ++ b0 : Half) with
  | true =>
    refine ⟨.half (b1 ++ b0), by simp only [fetchInstr, hfetchLo, hshort, if_true], ?_⟩
    rw [hshort, if_pos rfl] at hd
    split at hd
    · next hdec => cases hd; exact hdec
    · cases hd
  | false =>
    refine ⟨.word ((b3 ++ b2) ++ (b1 ++ b0)), by simp [fetchInstr, hfetchLo, hshort, hfetchHi], ?_⟩
    have hword : (b3 ++ b2) ++ (b1 ++ b0) = (b3 ++ b2 ++ b1 ++ b0 : Word) := (BitVec.append_assoc ..).symm
    rw [hshort, if_neg Bool.false_ne_true, ← hword] at hd
    split at hd
    · next hdec => cases hd; exact hdec
    · cases hd

/-- Settles O52: the step's instruction is the one its fetch decodes, and the bytes at an untranslated `pc` are what the
fetch reads. -/
theorem stepRunsDecoded : Obligations.StepRunsDecoded := by
  unfold Obligations.StepRunsDecoded
  intro s s1 hsel hint
  rw [step_of_noInterrupt hsel hint]
  have hcfg : s1.environment.afterCheck.environment.cfg = s1.cfg := rfl
  have hmem : s1.environment.afterCheck.environment.mem = s1.mem := rfl
  have hpc : s1.environment.afterCheck.environment.hart.pc = s1.hart.pc := rfl
  have hmode : s1.environment.afterCheck.environment.hart.translates = s1.hart.translates := rfl
  generalize s1.environment.afterCheck.environment = u at *
  refine ⟨fun r u1 i hf hd t he => instructionStep_of_exec hf hd he, fun i rest hbare hlo hhi hd t he => ?_⟩
  have htr : u.hart.translates = false := hmode.trans ((Hart.translates_eq_false_iff s1.hart).2 hbare)
  rw [← hcfg, ← hmem, ← hpc] at hd
  rw [← hpc] at hlo hhi
  obtain ⟨r, hf, hraw⟩ := fetchInstr_of_decode htr ((State.holdsBytes_congr hcfg ..).2 hlo)
    ((State.holdsBytes_congr hcfg ..).2 hhi) hd
  exact instructionStep_of_exec hf hraw he

/-! ## Counting (R29, R51, R471) -/

/-- The machine-mode numbers of the counter's halves (R51). -/
def counterHalves : List CsrNum := [0xB00#12, 0xB02#12, 0xB80#12, 0xB82#12]

theorem csrWriteNamed_halted_sinceCheck (cfg : Config) (v : Word) (h : Hart) (c : CsrName) :
    (csrWriteNamed cfg v h c).halted = h.halted ∧ (csrWriteNamed cfg v h c).sinceCheck = h.sinceCheck := by
  cases c <;> exact ⟨rfl, rfl⟩

theorem csrWrite_halted_sinceCheck (n : CsrNum) (v : Word) (s : State) :
    (csrWrite n v s).hart.halted = s.hart.halted ∧ (csrWrite n v s).hart.sinceCheck = s.hart.sinceCheck := by
  unfold csrWrite
  split
  · exact csrWriteNamed_halted_sinceCheck ..
  · exact ⟨rfl, rfl⟩

theorem mem_counterHalves_of_csrName {n m : CsrNum} {c : CsrName} (hn : csrName n = some c) (hm : csrName m = some c)
    (hmem : m ∈ counterHalves) : n ∈ counterHalves := csrName_injective hm hn ▸ hmem

/-- A write of any other number keeps the counter. -/
theorem csrWrite_cycle {n : CsrNum} (hn : n ∉ counterHalves) (v : Word) (s : State) :
    (csrWrite n v s).hart.cycle = s.hart.cycle := by
  cases hname : csrName n with
  | none => rw [csrWrite_unnamed hname]
  | some c =>
    rw [csrWrite_named hname]
    cases c with
    | mcycle => exact absurd (mem_counterHalves_of_csrName hname (m := 0xB00#12) (by rfl) (by decide)) hn
    | minstret => exact absurd (mem_counterHalves_of_csrName hname (m := 0xB02#12) (by rfl) (by decide)) hn
    | mcycleh => exact absurd (mem_counterHalves_of_csrName hname (m := 0xB80#12) (by rfl) (by decide)) hn
    | minstreth => exact absurd (mem_counterHalves_of_csrName hname (m := 0xB82#12) (by rfl) (by decide)) hn
    | _ => rfl

/-- Only M mode may write a half of the counter. -/
theorem priv_m_of_csrAllowed {s : State} {n : CsrNum} (h : csrAllowed s n true = true) (hn : n ∈ counterHalves) :
    s.hart.priv = .m := by
  have hlevels : ∀ m ∈ counterHalves, m.toNat / 256 % 4 = 3 := by decide
  obtain ⟨hlevel, -⟩ := (csrAllowed_iff s n true).1 h
  rw [hlevels n hn] at hlevel
  cases hp : s.hart.priv with
  | m => rfl
  | s => rw [hp] at hlevel; exact absurd hlevel (by decide)
  | u => rw [hp] at hlevel; exact absurd hlevel (by decide)

/-- What an instruction does to the fields a step counts in, before it is counted. -/
structure CountKept (s t : State) (writesCounter : Prop) : Prop where
  sinceCheck : t.hart.sinceCheck = s.hart.sinceCheck
  cycleHalted : t.hart.halted = true → t.hart.cycle = s.hart.cycle
  cycle : ¬ writesCounter → t.hart.cycle = s.hart.cycle

theorem Plain.countKept {s t : State} (h : Plain s t) (p : Prop) : CountKept s t p :=
  ⟨(congrArg Hart.sinceCheck h.hart :), fun _ => h.control.cycle, fun _ => h.control.cycle⟩

theorem countKept_raise {s s1 : State} (h : Plain s s1) (e : Exception) (tv : Word) (p : Prop) :
    CountKept s (raise e tv s1) p :=
  have hcycle : (raise e tv s1).hart.cycle = s.hart.cycle := (raise_cycle_hart ..).trans h.control.cycle
  ⟨(raise_sinceCheck_hart ..).trans (h.countKept p).sinceCheck, fun _ => hcycle, fun _ => hcycle⟩

/-- An instruction that writes the counter does so in M mode and does not halt. -/
theorem Effect.countKept {i : Instr} {s t : State} (h : Effect i s t) (hrun : s.hart.halted = false) :
    CountKept s t (s.hart.priv = .m ∧ ∃ n ∈ counterHalves, csrWritten i = some n) := by
  cases h with
  | plain h _ => exact h.countKept _
  | raised e tv h _ => exact countKept_raise h e tv _
  | returned l _ _ => exact ⟨rfl, fun _ => rfl, fun _ => rfl⟩
  | halted => exact ⟨rfl, fun _ => rfl, fun _ => rfl⟩
  | csr n v w rd hi ha =>
    obtain ⟨hhalted, hsince⟩ := csrWrite_halted_sinceCheck n v s
    refine ⟨?_, fun h => ?_, fun hnot => ?_⟩
    · simpa using hsince
    · simp [hhalted, hrun] at h
    · have hn : n ∉ counterHalves := fun hmem => hnot ⟨priv_m_of_csrAllowed ha hmem, n, hmem, hi⟩
      simpa using csrWrite_cycle hn v s

/-- Part B of a step ends by counting what fetch, decoding and execution left. -/
theorem instructionStep_eq_endStep {s : State} (hrun : s.hart.halted = false) :
    ∃ u, instructionStep s = .next u.endStep ∧ CountKept s u (s.hart.priv = .m ∧
      ∃ r u1 i, fetchInstr s = .ok r u1 ∧ decodeRaw u1.cfg r = some i ∧ ∃ n ∈ counterHalves, csrWritten i = some n) := by
  have hleaves := fetchInstr_leaves s
  have hraise {e : Exception} {tv : Word} {u1 : State} (h : Plain s u1) :
      (raise e tv u1).countStep = (raise e tv u1).endStep := by
    rw [State.endStep, raise_halted_hart, h.halted, hrun]; rfl
  cases hf : fetchInstr s with
  | raise e tv u1 =>
    rw [hf] at hleaves
    exact ⟨_, (instructionStep_of_fetchFault hf).trans (congrArg _ (hraise hleaves.1)), countKept_raise hleaves.1 ..⟩
  | ok r u1 =>
    rw [hf] at hleaves
    obtain ⟨hplain, -⟩ := hleaves
    cases hd : decodeRaw u1.cfg r with
    | none => exact ⟨_, (instructionStep_of_illegal hf hd).trans (congrArg _ (hraise hplain)), countKept_raise hplain ..⟩
    | some i =>
      obtain ⟨u, he, heff⟩ := exec_cases i u1
      have hkept := heff.countKept (hplain.halted.trans hrun)
      have hcycle : u1.hart.cycle = s.hart.cycle := hplain.control.cycle
      refine ⟨u, instructionStep_of_exec hf hd he, hkept.sinceCheck.trans (hplain.countKept True).sinceCheck,
        fun h => (hkept.cycleHalted h).trans hcycle, fun hnot => (hkept.cycle fun hw => hnot ?_).trans hcycle⟩
      exact ⟨hplain.priv ▸ hw.1, r, u1, i, rfl, hd, hw.2⟩

/-- Settles O55: a due check happens, and the end of the step alone counts. -/
theorem stepCounting : Obligations.StepCounting := by
  unfold Obligations.StepCounting
  intro s
  refine ⟨fun hdue => ?_, rfl, fun hnone hpending => ?_, fun t hrun hstep => ?_⟩
  · have hcheck : s.checkHappens = true := by rw [State.checkHappens, decide_eq_true hdue, Bool.true_or]
    refine ⟨hcheck, ?_⟩
    rw [State.interruptTaken, hcheck]
    cases s.pendingInterrupt <;> rfl
  · obtain ⟨i, hi⟩ := Option.ne_none_iff_exists'.1 hpending
    have hcheck : s.checkHappens = false := by
      rw [State.interruptTaken, hi] at hnone
      cases hc : s.checkHappens with
      | false => rfl
      | true => rw [hc] at hnone; cases hnone
    rw [State.afterCheck, hcheck]
    rfl
  · obtain ⟨u, hu, hkept⟩ := instructionStep_eq_endStep hrun
    obtain rfl : u.endStep = t := Host.Outcome.next.inj (hu.symm.trans hstep)
    cases hhalted : u.hart.halted with
    | true =>
      have hend : u.endStep = u := by rw [State.endStep, hhalted]; rfl
      rw [hend, hhalted]
      exact ⟨fun _ => ⟨hkept.sinceCheck, hkept.cycleHalted hhalted⟩, nofun, nofun⟩
    | false =>
      have hend : u.endStep = u.countStep := by rw [State.endStep, hhalted]; rfl
      rw [hend, State.countStep_halted_hart, hhalted]
      refine ⟨nofun, fun _ => congrArg (· + 1) hkept.sinceCheck, fun _ hnowrite => congrArg (· + 1#64) (hkept.cycle ?_)⟩
      rintro ⟨hm, r, u1, i, hf, hd, n, hn, hw⟩
      exact hnowrite r u1 i n hf hd hw hn hm

end Sys2Proof.Machine
end

section
/-! SUPPORT. The floating-point instructions write what the arithmetic gives; the fields and the class of a word
(spec/47_f_float.md R340-R342, R350-R369). -/

namespace Sys2Proof.Machine

/-! ## The shapes (R340, R342, R350-R354) -/

theorem writesF_of_fpResult {i : Instr} {frd : Reg} {v v' : State → Word}
    (hexec : ∀ s, exec i s = fpResult frd (v' s) ilen32 s) (hv : ∀ s, v' s = v s) : WritesF i frd v := by
  intro s
  rw [hexec, hv]
  exact fpResult_spec frd (v s) ilen32 s

section
variable {s : State} {i : Instr} {rm : Rm} {f : RoundingMode → Result}

theorem withRounding_of_some {mode : RoundingMode} (h : s.roundingMode rm = some mode) : withRounding i rm f s = f mode := by
  rw [withRounding, h]

theorem withRounding_of_none (h : s.roundingMode rm = none) : withRounding i rm f s = illegal (s.bitsOf i) s := by
  rw [withRounding, h]

end

section
variable {i : Instr} {rm : Rm} {rd : Reg} {w : Word} {v v' : RoundingMode → State → Word}

theorem roundsF_of_fpResult
    (hexec : ∀ s, exec i s = withRounding i rm (fun mode => fpResult rd (v' mode s) ilen32 s) s)
    (hword : ∀ s : State, s.bitsOf i = w) (hv : ∀ mode s, v' mode s = v mode s) : RoundsF i rm rd w v := by
  refine ⟨fun s mode hmode => ?_, fun s hmode => ?_⟩
  · rw [hexec, withRounding_of_some hmode, hv]
    exact fpResult_spec rd (v mode s) ilen32 s
  · rw [hexec, withRounding_of_none hmode, hword]
    exact illegal_raised s w

theorem roundsX_of_intResult
    (hexec : ∀ s, exec i s = withRounding i rm (fun mode => intResult rd (v' mode s) ilen32 s) s)
    (hword : ∀ s : State, s.bitsOf i = w) (hv : ∀ mode s, v' mode s = v mode s) : RoundsX i rm rd w v := by
  refine ⟨fun s mode hmode => ?_, fun s hmode => ?_⟩
  · rw [hexec, withRounding_of_some hmode, hv]
    exact intResult_spec rd (v mode s) ilen32 s
  · rw [hexec, withRounding_of_none hmode, hword]
    exact illegal_raised s w

end

/-- Settles O42: the arithmetic of the low words, under the mode of the instruction. -/
theorem floatArithmetic : Obligations.FloatArithmetic := by
  unfold Obligations.FloatArithmetic
  intro frd r1 r2 rm
  simp only [← f32_eq_extractLsb']
  exact ⟨roundsF_of_fpResult (fun _ => rfl) (fun _ => rfl) fun _ _ => rfl,
    roundsF_of_fpResult (fun _ => rfl) (fun _ => rfl) fun _ _ => rfl,
    roundsF_of_fpResult (fun _ => rfl) (fun _ => rfl) fun _ _ => rfl,
    roundsF_of_fpResult (fun _ => rfl) (fun _ => rfl) fun _ _ => rfl,
    roundsF_of_fpResult (fun _ => rfl) (fun _ => rfl) fun _ _ => rfl,
    roundsF_of_fpResult (fun _ => rfl) (fun _ => rfl) fun _ _ => rfl,
    roundsF_of_fpResult (fun _ => rfl) (fun _ => rfl) fun _ _ => rfl,
    roundsX_of_intResult (fun _ => rfl) (fun _ => rfl) fun _ _ => rfl,
    roundsX_of_intResult (fun _ => rfl) (fun _ => rfl) fun _ _ => rfl⟩

/-! ## Fields of a word (R341) -/

theorem f32Exp_eq (w : Word) : f32Exp w = w.toNat / 2 ^ 23 % 2 ^ 8 := by
  simp [f32Exp, Nat.shiftRight_eq_div_pow]

theorem f32Frac_eq (w : Word) : f32Frac w = w.toNat % 2 ^ 23 := by simp [f32Frac]

/-- The magnitude is the exponent field above the fraction. -/
theorem magnitude_eq (w : Word) : w.toNat % 2 ^ 31 = f32Exp w * 2 ^ 23 + f32Frac w := by
  rw [f32Exp_eq, f32Frac_eq]; omega

theorem f32Frac_lt (w : Word) : f32Frac w < 2 ^ 23 := by rw [f32Frac_eq]; exact Nat.mod_lt _ (by decide)

theorem f32Exp_lt (w : Word) : f32Exp w < 2 ^ 8 := by rw [f32Exp_eq]; exact Nat.mod_lt _ (by decide)

theorem toNat_low31 (w : Word) : (w.extractLsb' 0 31).toNat = w.toNat % 2 ^ 31 := by simp

theorem isNan_iff (w : Word) : isNan w = true ↔ 0x7F800000 < w.toNat % 2 ^ 31 := by
  have hexp := f32Exp_lt w
  have hfrac := f32Frac_lt w
  rw [magnitude_eq, isNan, Bool.and_eq_true, beq_iff_eq, bne_iff_ne]
  omega

theorem isFinite_iff (w : Word) : isFinite w = true ↔ w.toNat % 2 ^ 31 < 0x7F800000 := by
  have hexp := f32Exp_lt w
  have hfrac := f32Frac_lt w
  rw [magnitude_eq, isFinite, ← f32Exp_eq, bne_iff_ne]
  omega

/-! ## Sign injection and classes (R355-R357, R363) -/

theorem extractLsb'_one_eq_ofBool (w : Word) (k : Nat) : w.extractLsb' k 1 = BitVec.ofBool (w.getLsbD k) := by
  ext j hj
  obtain rfl : j = 0 := by omega
  simp

theorem ofBool_f32Sign (s : State) (r : Reg) : BitVec.ofBool (f32Sign (s.f32 r)) = (s.readF r).extractLsb' 31 1 := by
  rw [f32Sign, ← extractLsb'_one_eq_ofBool]
  exact BitVec.extractLsb'_setWidth_of_le (by decide)

theorem withSign_f32 (sign : Bool) (s : State) (r : Reg) :
    withSign sign (s.f32 r) = BitVec.ofBool sign ++ (s.readF r).extractLsb' 0 31 :=
  congrArg (BitVec.ofBool sign ++ ·) (BitVec.extractLsb'_setWidth_of_le (by decide))

/-- Bit 22 tells a quiet NaN from a signaling one. -/
theorem getLsbD_22_iff (w : Word) : w.getLsbD 22 = true ↔ 2 ^ 22 ≤ f32Frac w := by
  rw [f32Frac_eq, BitVec.getLsbD, Nat.testBit_eq_decide_div_mod_eq, decide_eq_true_iff]
  omega

/-- The class by the magnitude and the sign. -/
theorem f32ClassBit_eq (w : Word) : f32ClassBit w =
    if 0x7FC00000 ≤ w.toNat % 2 ^ 31 then 9 else if 0x7F800000 < w.toNat % 2 ^ 31 then 8
    else if w.toNat % 2 ^ 31 = 0x7F800000 then (if f32Sign w then 0 else 7)
    else if 0x00800000 ≤ w.toNat % 2 ^ 31 then (if f32Sign w then 1 else 6)
    else if 0 < w.toNat % 2 ^ 31 then (if f32Sign w then 2 else 5)
    else if f32Sign w then 3 else 4 := by
  have hmag := magnitude_eq w
  have hexp := f32Exp_lt w
  have hfrac := f32Frac_lt w
  simp only [f32ClassBit, getLsbD_22_iff]
  split_ifs <;> omega

theorem f32Class_eq (w : Word) : f32Class w =
    if 0x7FC00000 ≤ w.toNat % 2 ^ 31 then 0x200#32 else if 0x7F800000 < w.toNat % 2 ^ 31 then 0x100#32
    else if w.toNat % 2 ^ 31 = 0x7F800000 then (if w.getLsbD 31 then 0x001#32 else 0x080#32)
    else if 0x00800000 ≤ w.toNat % 2 ^ 31 then (if w.getLsbD 31 then 0x002#32 else 0x040#32)
    else if 0 < w.toNat % 2 ^ 31 then (if w.getLsbD 31 then 0x004#32 else 0x020#32)
    else if w.getLsbD 31 then 0x008#32 else 0x010#32 := by
  rw [f32Class, f32ClassBit_eq]
  simp only [apply_ite (1#32 <<< ·)]
  rfl

/-- Settles O47: the bits each instruction writes. -/
theorem floatMovesAndCompares : Obligations.FloatMovesAndCompares := by
  unfold Obligations.FloatMovesAndCompares
  intro rd r1 r2
  simp only [← f32_eq_extractLsb']
  refine ⟨?sgnj, ?sgnjn, ?sgnjx, ?mvWX, ?mvXW, ?cls, ?min, ?max, ?eq, ?lt, ?le⟩
  case sgnj => exact writesF_of_fpResult (fun _ => rfl) fun s => by rw [withSign_f32, ofBool_f32Sign]
  case sgnjn =>
    exact writesF_of_fpResult (fun _ => rfl) fun s => by rw [withSign_f32, ← BitVec.not_ofBool, ofBool_f32Sign]
  case sgnjx =>
    exact writesF_of_fpResult (fun _ => rfl) fun s => by
      rw [withSign_f32, ← BitVec.ofBool_xor_ofBool, ofBool_f32Sign, ofBool_f32Sign]
  case cls => exact writesX_of_intResult (fun _ => rfl) fun s => f32Class_eq _
  case mvWX | min | max => exact writesF_of_fpResult (fun _ => rfl) fun _ => rfl
  case mvXW => exact writesX_of_intResult (fun _ => rfl) fun _ => rfl
  case eq | lt | le =>
    exact writesX_of_intResult (fun _ => rfl) fun _ => by rw [← boolWord_decide, Bool.decide_eq_true]

end Sys2Proof.Machine
end

section
/-! SUPPORT. The order of the words against the order of the reals (spec/47_f_float.md R341, R358, R359, R367-R369). -/

namespace Sys2Proof.Machine

/-! ## The reals in the order of the words (R341) -/

/-- A magnitude and the next one share a block. -/
theorem magValue_lt_succ (k : ℕ) : magValue k < magValue (k + 1) := by
  obtain ⟨n, q, hk, hlo, hhi⟩ : ∃ n q, k = n * 2 ^ 23 + q ∧ (n = 0 ∨ 2 ^ 23 ≤ q) ∧ q + 1 ≤ 2 ^ 24 := by
    obtain hsub | hnormal := Nat.lt_or_ge k (2 ^ 23)
    · exact ⟨0, k, by omega, .inl rfl, by omega⟩
    · exact ⟨k / 2 ^ 23 - 1, 2 ^ 23 + k % 2 ^ 23, by omega, .inr (by omega), by omega⟩
  rw [hk, add_assoc, magValue_block hlo (by omega), magValue_block (hlo.imp_right (by omega)) hhi]
  gcongr
  exact lt_add_one q

theorem magValue_strictMono : StrictMono magValue := strictMono_nat_of_lt_succ magValue_lt_succ

theorem magValue_zero : magValue 0 = 0 := by simp [magValue]

/-- The real value of a signed magnitude. -/
noncomputable def signedValue (i : ℤ) : ℝ := i.sign * magValue i.natAbs

theorem signedValue_neg (i : ℤ) : signedValue (-i) = -signedValue i := by
  rw [signedValue, signedValue, Int.sign_neg, Int.natAbs_neg, Int.cast_neg, neg_mul]

theorem signedValue_natCast (m : ℕ) : signedValue m = magValue m := by
  cases m with
  | zero => rw [magValue_zero]; exact mul_eq_zero_of_left Int.cast_zero _
  | succ m => exact (congrArg (· * _) Int.cast_one).trans (one_mul (magValue (m + 1)))

theorem signedValue_strictMono : StrictMono signedValue := by
  refine strictMono_of_odd_strictMonoOn_nonneg signedValue_neg fun i hi j hj hij => ?_
  lift i to ℕ using hi
  lift j to ℕ using hj
  rw [signedValue_natCast, signedValue_natCast]
  exact magValue_strictMono (Int.ofNat_lt.1 hij)

theorem signedValue_f32Order (w : Word) : signedValue (f32Order w) = realValue w := by
  rw [realValue_eq, f32Order, toNat_low31]
  cases f32Sign w with
  | false => exact (signedValue_natCast _).trans (one_mul _).symm
  | true => exact (signedValue_neg _).trans ((congrArg _ (signedValue_natCast _)).trans (neg_one_mul _).symm)

theorem realValue_lt_iff (a b : Word) : realValue a < realValue b ↔ f32Order a < f32Order b := by
  rw [← signedValue_f32Order, ← signedValue_f32Order, signedValue_strictMono.lt_iff_lt]

theorem realValue_le_iff (a b : Word) : realValue a ≤ realValue b ↔ f32Order a ≤ f32Order b := by
  rw [← signedValue_f32Order, ← signedValue_f32Order, signedValue_strictMono.le_iff_le]

theorem realValue_eq_iff (a b : Word) : realValue a = realValue b ↔ f32Order a = f32Order b := by
  rw [← signedValue_f32Order, ← signedValue_f32Order, signedValue_strictMono.injective.eq_iff]

/-! ## Comparisons and selections of operands that are no NaN (R358, R359, R367-R369) -/

section
variable {a b : Word} (ha : isNan a = false) (hb : isNan b = false)
include ha hb

theorem f32Eq_iff : f32Eq a b = true ↔ f32Order a = f32Order b := by simp [f32Eq, ha, hb]

theorem f32Lt_iff : f32Lt a b = true ↔ f32Order a < f32Order b := by simp [f32Lt, ha, hb]

theorem f32Le_iff : f32Le a b = true ↔ f32Order a ≤ f32Order b := by simp [f32Le, ha, hb]

theorem f32Min_eq : f32Min a b = if f32Key a ≤ f32Key b then a else b := by simp [f32Min, ha, hb]

theorem f32Max_eq : f32Max a b = if f32Key a ≤ f32Key b then b else a := by simp [f32Max, ha, hb]

end

/-- The key of the selections refines the order of the comparisons. -/
theorem f32Key_lt_of_order_lt {a b : Word} (h : f32Order a < f32Order b) : f32Key a < f32Key b := by
  simp only [f32Order, f32Key, signedMag, Int.ofNat_eq_natCast] at *
  split_ifs at * <;> omega

/-- What the comparisons and selections give for an operand below another. -/
theorem below_of_order_lt {a b : Word} (ha : isNan a = false) (hb : isNan b = false) (h : f32Order a < f32Order b) :
    f32Eq a b = false ∧ f32Eq b a = false ∧ f32Lt a b = true ∧ f32Lt b a = false ∧ f32Le a b = true ∧ f32Le b a = false ∧
    f32Min a b = a ∧ f32Min b a = a ∧ f32Max a b = b ∧ f32Max b a = b := by
  have hkey := f32Key_lt_of_order_lt h
  simp only [← Bool.not_eq_true, f32Eq_iff ha hb, f32Eq_iff hb ha, f32Lt_iff ha hb, f32Lt_iff hb ha, f32Le_iff ha hb,
    f32Le_iff hb ha, f32Min_eq ha hb, f32Min_eq hb ha, f32Max_eq ha hb, f32Max_eq hb ha, if_pos hkey.le,
    if_neg hkey.not_ge]
  exact ⟨h.ne, h.ne', h, h.not_gt, h.le, h.not_ge, trivial, trivial, trivial, trivial⟩

theorem isNan_of_isFinite {w : Word} (h : isFinite w = true) : isNan w = false := by
  rw [isFinite_iff] at h
  rw [← Bool.not_eq_true, isNan_iff]
  omega

/-- A word is its sign and its magnitude. -/
theorem f32Word_sign_magnitude (w : Word) : f32Word (f32Sign w) (w.toNat % 2 ^ 31) = w := by
  rw [f32Word, f32Sign, ← extractLsb'_one_eq_ofBool, ← toNat_low31, ofNat_toNat_self]
  calc w.extractLsb' 31 1 ++ w.extractLsb' 0 31
    _ = w.extractLsb' 0 32 := BitVec.extractLsb'_append_extractLsb'_eq_extractLsb' rfl
    _ = w := BitVec.extractLsb'_eq_self

/-- Below a NaN, the only magnitude that is not below infinity is infinity's own. -/
theorem magnitude_lt_inf {w : Word} (h : isNan w = false) (hne : w ≠ f32Inf (f32Sign w)) : w.toNat % 2 ^ 31 < 0x7F800000 := by
  rw [← Bool.not_eq_true, isNan_iff, not_lt] at h
  refine lt_of_le_of_ne h fun heq => hne ?_
  rw [f32Inf, ← heq, f32Word_sign_magnitude]

theorem f32Order_lt_inf {a : Word} (ha : isNan a = false) (hne : a ≠ 0x7F800000#32) : f32Order a < 0x7F800000 := by
  rw [f32Order, toNat_low31]
  cases hs : f32Sign a with
  | false =>
    have hmag := magnitude_lt_inf ha (by rw [hs]; exact hne)
    exact Int.ofNat_lt.2 hmag
  | true =>
    have hnonneg := Int.natCast_nonneg (a.toNat % 2 ^ 31)
    exact lt_of_le_of_lt (neg_nonpos.2 hnonneg) (by decide)

theorem neg_inf_lt_f32Order {a : Word} (ha : isNan a = false) (hne : a ≠ 0xFF800000#32) : -0x7F800000 < f32Order a := by
  rw [f32Order, toNat_low31]
  cases hs : f32Sign a with
  | false =>
    have hnonneg := Int.natCast_nonneg (a.toNat % 2 ^ 31)
    exact lt_of_lt_of_le (by decide) hnonneg
  | true =>
    have hmag := magnitude_lt_inf ha (by rw [hs]; exact hne)
    exact neg_lt_neg (Int.ofNat_lt.2 hmag)

/-- Settles O48: the words in the order of the reals, which the key of the selections refines. -/
theorem floatOrder : Obligations.FloatOrder := by
  unfold Obligations.FloatOrder
  intro a b
  refine ⟨fun h => ?nan, fun ha hb => ?nans, fun ha hb => ?other, fun ha hb => ?finite, by decide, by decide, by decide,
    by decide, fun ha => ?self, fun ha hne => ?inf, fun ha hne => ?negInf⟩
  case nan => obtain h | h := h <;> simp [f32Eq, f32Lt, f32Le, h]
  case nans => simp [f32Min, f32Max, ha, hb, canonicalNan]
  case other => simp [f32Min, f32Max, ha, hb]
  case finite =>
    replace ha := isNan_of_isFinite ha
    replace hb := isNan_of_isFinite hb
    rw [f32Eq_iff ha hb, f32Lt_iff ha hb, f32Le_iff ha hb, realValue_eq_iff, realValue_lt_iff, realValue_le_iff]
    refine ⟨.rfl, .rfl, .rfl, fun h => ?_⟩
    obtain ⟨-, -, -, -, -, -, hmin, hmin', hmax, hmax'⟩ := below_of_order_lt ha hb h
    exact ⟨hmin, hmax, hmin', hmax'⟩
  case self =>
    rw [f32Eq_iff ha ha, f32Le_iff ha ha, ← Bool.not_eq_true, f32Lt_iff ha ha, f32Min_eq ha ha, f32Max_eq ha ha, ite_self]
    exact ⟨rfl, lt_irrefl _, le_rfl, rfl, rfl⟩
  case inf => exact below_of_order_lt ha (by decide) (f32Order_lt_inf ha hne)
  case negInf =>
    obtain ⟨heq, heq', hlt, hnlt, hle, hnle, hmin, hmin', hmax, hmax'⟩ :=
      below_of_order_lt (a := 0xFF800000#32) (by decide) ha (neg_inf_lt_f32Order ha hne)
    exact ⟨heq', heq, hlt, hnlt, hle, hnle, hmin', hmin, hmax', hmax⟩

end Sys2Proof.Machine
end

section
/-! SUPPORT. The conversions to integers and the special cases of the arithmetic (spec/47_f_float.md R341-R345, R350-R354, R360,
R361). -/

namespace Sys2Proof.Machine

/-! ## Rounding to an integer (R342, R360) -/

theorem abs_signFactor_mul (neg : Bool) (x : ℝ) : |signFactor neg * x| = |x| := by
  cases neg <;> simp [signFactor]

theorem abs_sub_signedMag (neg : Bool) (x : ℝ) (n : ℕ) : |signFactor neg * x - (signedMag neg n : ℤ)| = |x - n| := by
  rw [signedMag_cast, ← mul_sub, abs_signFactor_mul]

theorem even_signedMag_iff (neg : Bool) (n : ℕ) : signedMag neg n % 2 = 0 ↔ n % 2 = 0 := by
  cases neg <;> simp only [signedMag, if_true, if_false, Bool.false_eq_true, Int.ofNat_eq_natCast] <;> omega

/-- A magnitude `q + t`, `0 ≤ t < 1`, under a sign, rounded to `q` or `q + 1` by the mode: it matters whether `t` is zero and
how it compares with one half. -/
theorem roundsToInt_of_fraction (mode : RoundingMode) (neg : Bool) {q r s : ℕ} {t : ℝ} (ht0 : 0 ≤ t) (ht1 : t < 1)
    (hzero : r = 0 ↔ t = 0) (hbelow : 2 * r < 2 ^ s ↔ t < 1 / 2) (hhalf : 2 * r = 2 ^ s ↔ t = 1 / 2) :
    RoundsToInt mode (signFactor neg * (q + t)) (signedMag neg (q + if roundsUp mode neg q r s then 1 else 0)) := by
  have hleast : 2 ^ s ≤ 2 * r ↔ 1 / 2 ≤ t := by rw [← not_lt, hbelow, not_lt]
  have habove : 2 ^ s < 2 * r ↔ 1 / 2 < t := by
    rw [← not_le, ← not_le, le_iff_lt_or_eq, hbelow, hhalf, ← le_iff_lt_or_eq]
  have hq : (0 : ℝ) ≤ q := Nat.cast_nonneg q
  have hdown : |(q + t) - (q : ℝ)| = t := by rw [add_sub_cancel_left, abs_of_nonneg ht0]
  have hup : |(q + t) - ((q + 1 : ℕ) : ℝ)| = 1 - t := by
    rw [abs_sub_comm, abs_of_nonneg] <;> push_cast <;> linarith
  obtain ⟨hceil, hceil'⟩ : (q + t : ℝ) ≤ (q + if ¬t = 0 then 1 else 0 : ℕ) ∧
      ((q + if ¬t = 0 then 1 else 0 : ℕ) : ℝ) < q + t + 1 := by
    split_ifs with h
    · rw [h]
      exact ⟨by simp, by simp⟩
    · push_cast
      exact ⟨by linarith, by linarith [lt_of_le_of_ne ht0 (Ne.symm h)]⟩
  cases mode with
  | rne =>
    simp only [RoundsToInt, roundsUp, abs_sub_signedMag, even_signedMag_iff, Bool.or_eq_true, Bool.and_eq_true,
      decide_eq_true_iff, beq_iff_eq, habove, hhalf]
    split_ifs with h
    · rw [hup]
      refine ⟨?_, fun htie => ?_⟩
      · rcases h with h | ⟨h, -⟩ <;> linarith
      · rcases h with h | ⟨-, h⟩
        · linarith
        · omega
    · rw [Nat.add_zero, hdown]
      rw [not_or, not_lt, not_and] at h
      refine ⟨h.1, fun htie => ?_⟩
      have hodd := h.2 htie
      omega
  | rtz =>
    simp only [RoundsToInt, roundsUp, abs_sub_signedMag, Bool.false_eq_true, if_false, Nat.add_zero, hdown]
    rw [signedMag_cast, abs_signFactor_mul, abs_signFactor_mul, mul_mul_mul_comm]
    exact ⟨abs_le_abs_of_nonneg hq (by linarith), ht1, mul_nonneg (mul_self_nonneg _) (by positivity)⟩
  | rdn =>
    simp only [RoundsToInt, roundsUp, signedMag_cast, bne_iff_ne, Bool.and_eq_true, ne_eq, hzero]
    cases neg with
    | false =>
      simp only [signFactor, Bool.false_eq_true, false_and, if_false, Nat.add_zero, one_mul]
      exact ⟨by linarith, by linarith⟩
    | true =>
      simp only [signFactor, true_and, if_true, neg_one_mul]
      exact ⟨by linarith, by linarith⟩
  | rup =>
    simp only [RoundsToInt, roundsUp, signedMag_cast, bne_iff_ne, Bool.and_eq_true, ne_eq, hzero]
    cases neg with
    | false =>
      simp only [signFactor, Bool.not_false, Bool.false_eq_true, true_and, if_false, one_mul]
      exact ⟨hceil, hceil'⟩
    | true =>
      simp only [signFactor, Bool.not_true, Bool.false_eq_true, false_and, if_false, if_true, Nat.add_zero, neg_one_mul]
      exact ⟨by linarith, by linarith⟩
  | rmm =>
    simp only [RoundsToInt, roundsUp, abs_sub_signedMag, decide_eq_true_iff, hleast]
    rw [signedMag_cast, abs_signFactor_mul, abs_signFactor_mul]
    split_ifs with h
    · rw [hup, abs_of_nonneg (by positivity), abs_of_nonneg (by positivity)]
      push_cast
      exact ⟨by linarith, fun htie => by linarith⟩
    · rw [Nat.add_zero, hdown]
      exact ⟨by linarith, fun htie => absurd htie.ge h⟩

theorem roundsToInt_roundShift (mode : RoundingMode) (neg : Bool) (m s : ℕ) :
    RoundsToInt mode (signFactor neg * (m * 2 ^ (-s : ℤ))) (signedMag neg (roundShift mode neg m s)) := by
  have hpos : (0 : ℝ) < 2 ^ s := by positivity
  have hmod : m % 2 ^ s < 2 ^ s := Nat.mod_lt _ (by positivity)
  have hsplit : (m * 2 ^ (-s : ℤ) : ℝ) = (m / 2 ^ s : ℕ) + (m % 2 ^ s : ℕ) / 2 ^ s := by
    rw [zpow_neg, zpow_natCast, ← div_eq_mul_inv, eq_comm, add_div' _ _ _ hpos.ne']
    congr 1
    exact_mod_cast Nat.div_add_mod' m (2 ^ s)
  rw [hsplit, roundShift]
  generalize m % 2 ^ s = r at hmod ⊢
  have hmod' : (r : ℝ) < 2 ^ s := by exact_mod_cast hmod
  refine roundsToInt_of_fraction mode neg (by positivity) ((div_lt_one hpos).2 hmod') ?_ ?_ ?_
  · rw [div_eq_zero_iff, or_iff_left hpos.ne', Nat.cast_eq_zero]
  · rw [div_lt_iff₀ hpos, ← Nat.cast_lt (α := ℝ)]
    push_cast
    constructor <;> intro h <;> linarith
  · rw [div_eq_iff hpos.ne', ← Nat.cast_inj (R := ℝ)]
    push_cast
    constructor <;> intro h <;> linarith

theorem roundsToInt_f32ToInt (mode : RoundingMode) (neg : Bool) (m : ℕ) (e : ℤ) :
    RoundsToInt mode (signFactor neg * (m * 2 ^ e)) (f32ToInt mode neg m e) := by
  have hexp : (0 - (0 - e).toNat : ℤ) = -((-e).toNat : ℤ) := by omega
  rw [f32ToInt, roundToInt_eq_roundShift, mul_zpow_eq_shift m e 0, hexp, sub_zero]
  exact roundsToInt_roundShift ..

/-! ## The words of the table of R341 -/

theorem ofWord_of_isNan {w : Word} (h : isNan w = true) : F32.ofWord w = .nan := by
  simp only [isNan, Bool.and_eq_true, beq_iff_eq, bne_iff_ne] at h
  rw [F32.ofWord, if_pos h.1, if_neg h.2]

/-- Settles O46: the real is rounded to an integer, and the bounds of the format clamp it. -/
theorem floatToInteger : Obligations.FloatToInteger := by
  unfold Obligations.FloatToInteger
  intro mode a
  refine ⟨fun h => ?_, rfl, rfl, rfl, rfl, fun h => ?_⟩
  · rw [cvtWS, cvtWuS, ofWord_of_isNan h]
    exact ⟨rfl, rfl⟩
  · obtain ⟨m, e, hword, -, hvalue⟩ := ofWord_of_isFinite h
    have hround := roundsToInt_f32ToInt mode (f32Sign a) m e
    rw [← hvalue] at hround
    refine ⟨_, hround, ?_, ?_⟩
    · simp only [cvtWS, hword]
      split_ifs with hover hunder
      · rw [min_eq_left hover.le]; rfl
      · rw [min_eq_right (not_lt.1 hover), max_eq_left hunder.le]; rfl
      · rw [min_eq_right (not_lt.1 hover), max_eq_right (not_lt.1 hunder)]
    · simp only [cvtWuS, hword]
      split_ifs with hunder hover
      · rw [min_eq_right (hunder.le.trans (by decide)), max_eq_left hunder.le]; rfl
      · rw [min_eq_left hover.le]; rfl
      · rw [min_eq_right (not_lt.1 hover), max_eq_right (not_lt.1 hunder)]

/-! ## Special cases (R344, R345) -/

theorem isNan_f32Neg (w : Word) : isNan (f32Neg w) = isNan w := by
  rw [Bool.eq_iff_iff, isNan_iff, isNan_iff, f32Neg_magnitude]

theorem ofWord_f32Inf (neg : Bool) : F32.ofWord (f32Inf neg) = .inf neg := by cases neg <;> rfl

theorem ofWord_f32Zero (neg : Bool) : F32.ofWord (f32Zero neg) = .fin neg 0 (-149) := by cases neg <;> rfl

/-- The sign apart, a word and its negation have one value. -/
theorem ofWord_f32Neg {w : Word} {neg : Bool} {m : ℕ} {e : ℤ} (h : F32.ofWord w = .fin neg m e) :
    F32.ofWord (f32Neg w) = .fin (!neg) m e := by
  have hmag := f32Neg_magnitude w
  have hexp : f32Exp (f32Neg w) = f32Exp w := by rw [f32Exp_eq, f32Exp_eq]; omega
  have hfrac : f32Frac (f32Neg w) = f32Frac w := by rw [f32Frac_eq, f32Frac_eq]; omega
  unfold F32.ofWord at h ⊢
  rw [hexp, hfrac, f32Sign_f32Neg]
  split_ifs at h ⊢ <;> cases h <;> rfl

/-- A finite word as a sign, a magnitude and an exponent; the magnitude is zero for the zeros alone. -/
theorem ofWord_fin {w : Word} (h : isFinite w = true) :
    ∃ m e, F32.ofWord w = .fin (f32Sign w) m e ∧ (w.toNat % 2 ^ 31 ≠ 0 → m ≠ 0) := by
  obtain ⟨m, e, hword, -, hvalue⟩ := ofWord_of_isFinite h
  refine ⟨m, e, hword, fun hne hm => hne ?_⟩
  have hzero : realValue w = realValue 0#32 := by
    rw [hvalue, hm, ← signedValue_f32Order 0#32]; simp [signedValue, f32Order, f32Sign, signedMag]
  have horder : f32Order w = f32Order 0#32 := (realValue_eq_iff w 0#32).1 hzero
  rw [f32Order, toNat_low31] at horder
  cases f32Sign w <;> simp [f32Order, f32Sign, signedMag] at horder <;> omega

section
variable {x y : Word} (mode : RoundingMode)

/-- A NaN operand gives the canonical NaN. -/
theorem nan_operand (h : isNan x = true ∨ isNan y = true) :
    f32Add mode x y = canonicalNan ∧ f32Mul mode x y = canonicalNan ∧ f32Div mode x y = canonicalNan := by
  rcases h with h | h
  · rw [f32Add, f32Mul, f32Div, ofWord_of_isNan h]
    exact ⟨rfl, rfl, rfl⟩
  · rw [f32Add, f32Mul, f32Div, ofWord_of_isNan h]
    cases F32.ofWord x <;> exact ⟨rfl, rfl, rfl⟩

theorem f32Sqrt_nan (h : isNan x = true) : f32Sqrt mode x = canonicalNan := by rw [f32Sqrt, ofWord_of_isNan h]

theorem f32Add_f32Neg (h : isFinite x = true) : f32Add mode x (f32Neg x) = f32Zero (mode == .rdn) := by
  obtain ⟨m, e, hx, -⟩ := ofWord_fin h
  have hsum (k : ℕ) : signedMag (f32Sign x) k + signedMag (!f32Sign x) k = 0 := by
    cases f32Sign x
    · exact add_neg_cancel _
    · exact neg_add_cancel _
  simp only [f32Add, hx, ofWord_f32Neg hx, addFinite]
  rw [if_pos (hsum _), if_neg ((Bool.eq_not_self _).mp)]

theorem f32Add_zeros (n1 n2 : Bool) :
    f32Add mode (f32Zero n1) (f32Zero n2) = f32Zero (if n1 = n2 then n1 else mode == .rdn) := by
  have hsum : signedMag n1 0 + signedMag n2 0 = 0 := by cases n1 <;> cases n2 <;> rfl
  simp only [f32Add, ofWord_f32Zero, addFinite, Nat.zero_mul]
  rw [if_pos hsum]

end

/-- Settles O44: the rows of each operation's table. -/
theorem floatSpecialCases : Obligations.FloatSpecialCases := by
  unfold Obligations.FloatSpecialCases
  intro mode x y n n2
  refine ⟨isNan_iff x, fun h => ?_, f32Sqrt_nan mode, fun hx => ?_⟩
  · obtain ⟨hadd, hmul, hdiv⟩ := nan_operand mode h
    obtain ⟨hsub, -, -⟩ := nan_operand mode (x := x) (y := f32Neg y) (by rwa [isNan_f32Neg])
    exact ⟨hadd, hsub, hmul, hdiv⟩
  · extract_lets inf zero sx
    have hinf : inf = f32Inf := by funext b; cases b <;> rfl
    have hzero : zero = f32Zero := by funext b; cases b <;> rfl
    obtain ⟨m, e, hfin, hne⟩ := ofWord_fin hx
    change F32.ofWord x = .fin sx m e at hfin
    rw [hinf, hzero]
    clear_value sx
    refine ⟨?add, ?mul, ?div, ?zeros, ?sqrt⟩
    case add => simp [f32Add, ofWord_f32Inf, hfin, canonicalNan]
    case mul => simp +contextual [f32Mul, ofWord_f32Inf, ofWord_f32Zero, hfin, hne, canonicalNan]
    case div => simp +contextual [f32Div, ofWord_f32Inf, ofWord_f32Zero, hfin, hne, canonicalNan]
    case zeros =>
      exact ⟨(f32Add_zeros mode n n).trans (congrArg _ (if_pos rfl)), f32Add_zeros mode false true,
        f32Add_zeros mode true false, fun _ => f32Add_f32Neg mode hx⟩
    case sqrt => simp +contextual [f32Sqrt, ofWord_f32Inf, ofWord_f32Zero, hfin, hne, canonicalNan]

end Sys2Proof.Machine
end
